-- ==== Sys2Proof/Word.lean ====
section
/-! DEFINITION. The word types of the machine: a byte is 8 bits, and the sizes the spec names are
16, 32 and 64 bits (00_scope.md R6). -/

namespace Sys2Proof

/-- 8 bits (R6). -/
abbrev Byte := BitVec 8
/-- 2 bytes (R6). -/
abbrev U16 := BitVec 16
/-- 4 bytes (R6). -/
abbrev U32 := BitVec 32
/-- 8 bytes (R6). -/
abbrev U64 := BitVec 64

/-- A size attribute: operand size, address size, stack-address size or gate size
(00_scope.md R5: "operand sizes are 16, 32 and 64"). -/
inductive Size where
  | s16
  | s32
  | s64
deriving DecidableEq, Repr

end Sys2Proof
end

