-- ==== Sys2Proof/Syntax.lean ====
section
/-! DEFINITION. The instructions: one constructor per row of spec/opcode_table.json. A term holds the
bytes of the encoding as the spec names their parts (30_encoding.md R100): which legacy prefixes and
which REX bits stand before the opcode, the immediate, or the ModR/M operand with SIB and
displacement. The mode class and operand size are in the constructor, as they are in the table. -/

namespace Sys2Proof

/-- The five operating modes (10_state.md R29). -/
inductive Mode where
  | real
  | v86
  | prot
  | compat
  | long64
deriving DecidableEq, Repr

/-- What a decoder must know besides the bytes (30_encoding.md R111): the mode and `CS.D`. -/
structure Ctx where
  mode : Mode
  csD : Bool
deriving DecidableEq, Repr

/-- The six segment registers (10_state.md R25). -/
inductive SegName where
  | es
  | cs
  | ss
  | ds
  | fs
  | gs
deriving DecidableEq, Repr

/-- The four bits of a REX byte `0x40`..`0x4F` (30_encoding.md R109). -/
structure Rex where
  w : Bool
  r : Bool
  x : Bool
  b : Bool
deriving DecidableEq, Repr

/-- The bytes before the opcode (30_encoding.md R110): at most one of each group, then REX in 64-bit
mode. The repeat prefixes are not here: the decoder refuses them. -/
structure Prefixes where
  /-- `0xF0` -/
  lock : Bool
  /-- a segment-override byte; `0x3E` is `some .ds`, and the no-track hint -/
  seg : Option SegName
  /-- `0x66` -/
  opSize : Bool
  /-- `0x67` -/
  addrSize : Bool
  /-- the REX byte, if there is one -/
  rex : Option Rex
deriving DecidableEq, Repr

/-- The base of a 16-bit memory operand (30_encoding.md R107), in the order of `rm`. -/
inductive Base16 where
  | bxSi
  | bxDi
  | bpSi
  | bpDi
  | si
  | di
  | bp
  | bx
deriving DecidableEq, Repr

/-- The displacement that follows a 16-bit base: `mod` 0, 1 or 2 (R107). -/
inductive Disp16 where
  | none
  | d8 (d : BitVec 8)
  | d16 (d : BitVec 16)
deriving DecidableEq, Repr

/-- The displacement that follows a 32- or 64-bit base: `mod` 0, 1 or 2 (R108). -/
inductive Disp32 where
  | none
  | d8 (d : BitVec 8)
  | d32 (d : BitVec 32)
deriving DecidableEq, Repr

/-- A memory operand (30_encoding.md R107 to R109). Register fields are the three bits of the encoding;
`REX.B` and `REX.X` extend them and stand in the prefixes. -/
inductive Mem where
  /-- 16-bit addressing with a base -/
  | base16 (b : Base16) (d : Disp16)
  /-- 16-bit addressing, `mod` 0 `rm` 6 -/
  | abs16 (d : BitVec 16)
  /-- a base register, no SIB byte -/
  | base (rm : BitVec 3) (d : Disp32)
  /-- `mod` 0 `rm` 5: `disp32` alone; RIP-relative in 64-bit mode -/
  | disp32 (d : BitVec 32)
  /-- a SIB byte with a base -/
  | sib (scale : BitVec 2) (index base : BitVec 3) (d : Disp32)
  /-- a SIB byte with `base` 5 under `mod` 0: no base, `disp32` -/
  | sibNoBase (scale : BitVec 2) (index : BitVec 3) (d : BitVec 32)
deriving DecidableEq, Repr

/-- The operand of `FF /2` (30_encoding.md R106). -/
inductive RmOperand where
  /-- `mod` 3: the register `rm` -/
  | reg (rm : BitVec 3)
  | mem (m : Mem)
deriving DecidableEq, Repr

/-- One constructor per row of spec/opcode_table.json, in its order. -/
inductive Instr where
  /-- `CALL_rel16` (R141) -/
  | callRel16 (p : Prefixes) (rel : BitVec 16)
  /-- `CALL_rel32__OperandSize_32` (R142) -/
  | callRel32 (p : Prefixes) (rel : BitVec 32)
  /-- `CALL_rel32__OperandSize_64` (R143) -/
  | callRel64 (p : Prefixes) (rel : BitVec 32)
  /-- `CALL_r_m16` (R144) -/
  | callRm16 (p : Prefixes) (o : RmOperand)
  /-- `CALL_r_m32` (R145) -/
  | callRm32 (p : Prefixes) (o : RmOperand)
  /-- `CALL_r_m64` (R146) -/
  | callRm64 (p : Prefixes) (o : RmOperand)
  /-- `CALL_ptr16_16__real-address__virtual-8086` (R161) -/
  | callPtr1616Real (p : Prefixes) (off : BitVec 16) (sel : BitVec 16)
  /-- `CALL_ptr16_16__protected__compatibility` (R170) -/
  | callPtr1616Prot (p : Prefixes) (off : BitVec 16) (sel : BitVec 16)
  /-- `CALL_ptr16_32__real-address__virtual-8086` (R162) -/
  | callPtr1632Real (p : Prefixes) (off : BitVec 32) (sel : BitVec 16)
  /-- `CALL_ptr16_32__protected__compatibility` (R170) -/
  | callPtr1632Prot (p : Prefixes) (off : BitVec 32) (sel : BitVec 16)
  /-- `CALL_m16_16__real-address__virtual-8086` (R161) -/
  | callM1616Real (p : Prefixes) (m : Mem)
  /-- `CALL_m16_16__protected__compatibility__64-bit` (R170) -/
  | callM1616Prot (p : Prefixes) (m : Mem)
  /-- `CALL_m16_32__real-address__virtual-8086` (R162) -/
  | callM1632Real (p : Prefixes) (m : Mem)
  /-- `CALL_m16_32__protected__compatibility__64-bit` (R170) -/
  | callM1632Prot (p : Prefixes) (m : Mem)
  /-- `CALL_m16_64` (R170) -/
  | callM1664 (p : Prefixes) (m : Mem)
  /-- `illegal__9A_in_64-bit_mode` (R113): the opcode byte alone decides -/
  | illegal9A64 (p : Prefixes)
  /-- `illegal__FF__3_with_register_operand` (R113) -/
  | illegalFF3Reg (p : Prefixes) (rm : BitVec 3)
deriving DecidableEq, Repr

end Sys2Proof
end

