-- ==== Sys2Proof/WellFormed.lean ====
section
/-! DEFINITION. When a term of the syntax is an instruction some bytes encode: the checks say which
combinations of ModR/M, SIB, displacement and REX the encoding has (30_encoding.md R107 to R109, R112).
Whether the form exists in a mode is `instrFits` in Decode.lean. -/

namespace Sys2Proof

/-- The operand names a 16-bit base or a 16-bit displacement (R107). -/
def Mem.is16 : Mem → Bool
  | .base16 _ _ => true
  | .abs16 _ => true
  | .base _ _ => false
  | .disp32 _ => false
  | .sib _ _ _ _ => false
  | .sibNoBase _ _ _ => false

/-- The pairs of base and displacement that have an encoding of their own: `BP` without displacement,
`rm` 4, `rm` 5 without displacement and SIB base 5 without displacement mean something else
(R107, R108). -/
def Mem.wf : Mem → Bool
  | .base16 b d => !(b == .bp && d == .none)
  | .abs16 _ => true
  | .base rm d => rm != 4#3 && !(rm == 5#3 && d == .none)
  | .disp32 _ => true
  | .sib _ _ b d => !(b == 5#3 && d == .none)
  | .sibNoBase _ _ _ => true

/-- The operand of `FF /2` is a register or a well-formed memory operand. -/
def RmOperand.wf : RmOperand → Bool
  | .reg _ => true
  | .mem m => m.wf

/-- The operand of `FF /2` uses 16-bit addressing. -/
def RmOperand.is16 : RmOperand → Bool
  | .reg _ => false
  | .mem m => m.is16

/-- There is no REX byte (R109: REX is valid only in 64-bit mode). -/
def Prefixes.noRex (p : Prefixes) : Bool := p.rex.isNone

/-- `REX.W` is 1. -/
def Prefixes.rexW (p : Prefixes) : Bool := (p.rex.map Rex.w).getD false

/-- The instruction has an encoding (R100, R103, R107 to R109, R112). -/
def Instr.wf : Instr → Bool
  | .callRel16 p _ => p.noRex
  | .callRel32 p _ => p.noRex
  | .callRel64 _ _ => true
  | .callRm16 p o => p.noRex && o.wf
  | .callRm32 p o => p.noRex && o.wf
  | .callRm64 _ o => o.wf && !o.is16
  | .callPtr1616Real p _ _ => p.noRex
  | .callPtr1616Prot p _ _ => p.noRex
  | .callPtr1632Real p _ _ => p.noRex
  | .callPtr1632Prot p _ _ => p.noRex
  | .callM1616Real p m => p.noRex && m.wf
  | .callM1616Prot p m => m.wf && (p.noRex || (!m.is16 && !p.rexW && p.opSize))
  | .callM1632Real p m => p.noRex && m.wf
  | .callM1632Prot p m => m.wf && (p.noRex || (!m.is16 && !p.rexW && !p.opSize))
  | .callM1664 p m => m.wf && !m.is16 && p.rexW
  | .illegal9A64 _ => true
  | .illegalFF3Reg _ _ => true

end Sys2Proof
end

