-- ==== Sys2Proof/Decode.lean ====
section
/-! DEFINITION. The decoder, total on any bytes and rejecting by name, and the encoder, both from
30_encoding.md (R100 to R117) and the size tables of 10_state.md (R39, R40). The same bytes are
different rows of the table in different modes, so the decoder takes a context: mode and `CS.D`. -/

namespace Sys2Proof

/-- The mode is real-address or virtual-8086 (10_state.md R29). -/
def Mode.isRealLike : Mode → Bool
  | .real => true
  | .v86 => true
  | .prot => false
  | .compat => false
  | .long64 => false

/-- Bytes in an item of this size. -/
def Size.bytes : Size → Nat
  | .s16 => 2
  | .s32 => 4
  | .s64 => 8

/-- Bits in an item of this size. -/
def Size.bits : Size → Nat
  | .s16 => 16
  | .s32 => 32
  | .s64 => 64

/-- The other of 16 and 32 when the override stands before the instruction (R39, R40). -/
def toggledSize (default32 override : Bool) : Size :=
  if default32 != override then .s32 else .s16

/-- `OperandSize` of a near call (10_state.md R39): forced to 64 in 64-bit mode. -/
def nearOperandSize (c : Ctx) (op66 : Bool) : Size :=
  match c.mode with
  | .real => toggledSize false op66
  | .v86 => toggledSize false op66
  | .prot => toggledSize c.csD op66
  | .compat => toggledSize c.csD op66
  | .long64 => .s64

/-- `OperandSize` of a far call (10_state.md R39): in 64-bit mode 32 by default, 16 with `0x66`,
64 with `REX.W`, which wins over `0x66`. -/
def farOperandSize (c : Ctx) (op66 rexW : Bool) : Size :=
  match c.mode with
  | .real => toggledSize false op66
  | .v86 => toggledSize false op66
  | .prot => toggledSize c.csD op66
  | .compat => toggledSize c.csD op66
  | .long64 => if rexW then .s64 else if op66 then .s16 else .s32

/-- `AddressSize` (10_state.md R40). -/
def addressSize (c : Ctx) (ad67 : Bool) : Size :=
  match c.mode with
  | .real => toggledSize false ad67
  | .v86 => toggledSize false ad67
  | .prot => toggledSize c.csD ad67
  | .compat => toggledSize c.csD ad67
  | .long64 => if ad67 then .s32 else .s64

/-! ## Prefixes -/

/-- The legacy prefixes of R110, by group. -/
inductive LegacyPrefix where
  | lock
  | repeated
  | segment (s : SegName)
  | opSize
  | addrSize
deriving DecidableEq, Repr

/-- The legacy prefix a byte is, if it is one (R110). -/
def legacyPrefixOf (b : Byte) : Option LegacyPrefix :=
  if b == 0xF0#8 then some .lock
  else if b == 0xF2#8 || b == 0xF3#8 then some .repeated
  else if b == 0x26#8 then some (.segment .es)
  else if b == 0x2E#8 then some (.segment .cs)
  else if b == 0x36#8 then some (.segment .ss)
  else if b == 0x3E#8 then some (.segment .ds)
  else if b == 0x64#8 then some (.segment .fs)
  else if b == 0x65#8 then some (.segment .gs)
  else if b == 0x66#8 then some .opSize
  else if b == 0x67#8 then some .addrSize
  else none

/-- What a scan of the legacy prefixes has seen; `doubled` is set when a group occurs twice (R110). -/
structure PrefixScan where
  lock : Bool
  repeated : Bool
  seg : Option SegName
  opSize : Bool
  addrSize : Bool
  doubled : Bool
deriving DecidableEq, Repr

/-- The scan before any byte. -/
def emptyScan : PrefixScan := ⟨false, false, none, false, false, false⟩

/-- Note one more prefix. `LOCK` and the repeat prefixes are one group. -/
def notePrefix (a : PrefixScan) : LegacyPrefix → PrefixScan
  | .lock => { a with lock := true, doubled := a.doubled || a.lock || a.repeated }
  | .repeated => { a with repeated := true, doubled := a.doubled || a.lock || a.repeated }
  | .segment s => { a with seg := some s, doubled := a.doubled || a.seg.isSome }
  | .opSize => { a with opSize := true, doubled := a.doubled || a.opSize }
  | .addrSize => { a with addrSize := true, doubled := a.doubled || a.addrSize }

/-- Consume the legacy prefixes (R111 step 1). -/
def scanPrefixes : List Byte → PrefixScan → PrefixScan × List Byte
  | [], a => (a, [])
  | b :: bs, a =>
    match legacyPrefixOf b with
    | some k => scanPrefixes bs (notePrefix a k)
    | none => (a, b :: bs)

/-- The REX byte's four bits (R109). -/
def rexOfByte (b : Byte) : Rex :=
  { w := b.getLsbD 3, r := b.getLsbD 2, x := b.getLsbD 1, b := b.getLsbD 0 }

/-- Consume one REX byte, in 64-bit mode only (R111 step 1, R109). -/
def scanRex (c : Ctx) : List Byte → Option Rex × List Byte
  | [] => (none, [])
  | b :: bs =>
    if c.mode == .long64 && b.extractLsb' 4 4 == 4#4 then (some (rexOfByte b), bs)
    else (none, b :: bs)

/-! ## Immediates, little-endian (R104, R105) -/

/-- Two bytes, the first the low one. -/
def u16OfBytes (b0 b1 : Byte) : BitVec 16 := b1 ++ b0

/-- Four bytes, the first the lowest. -/
def u32OfBytes (b0 b1 b2 b3 : Byte) : BitVec 32 := (b3 ++ b2) ++ (b1 ++ b0)

/-- The two bytes of a 16-bit number, low first. -/
def bytesOfU16 (v : BitVec 16) : List Byte := [v.extractLsb' 0 8, v.extractLsb' 8 8]

/-- The four bytes of a 32-bit number, low first. -/
def bytesOfU32 (v : BitVec 32) : List Byte :=
  [v.extractLsb' 0 8, v.extractLsb' 8 8, v.extractLsb' 16 8, v.extractLsb' 24 8]

/-- Take a 16-bit immediate. -/
def takeU16 : List Byte → Option (BitVec 16 × List Byte)
  | b0 :: b1 :: bs => some (u16OfBytes b0 b1, bs)
  | _ => none

/-- Take a 32-bit immediate. -/
def takeU32 : List Byte → Option (BitVec 32 × List Byte)
  | b0 :: b1 :: b2 :: b3 :: bs => some (u32OfBytes b0 b1 b2 b3, bs)
  | _ => none

/-! ## ModR/M and SIB (R106 to R109) -/

/-- `mod = b[7:6]`. -/
def modOf (b : Byte) : BitVec 2 := b.extractLsb' 6 2
/-- `reg = b[5:3]`. -/
def regOf (b : Byte) : BitVec 3 := b.extractLsb' 3 3
/-- `rm = b[2:0]`. -/
def rmOf (b : Byte) : BitVec 3 := b.extractLsb' 0 3
/-- A ModR/M byte. -/
def modRmByte (mod : BitVec 2) (reg rm : BitVec 3) : Byte := mod ++ reg ++ rm
/-- A SIB byte: `scale = s[7:6]`, `index = s[5:3]`, `base = s[2:0]` (R108). -/
def sibByte (scale : BitVec 2) (index base : BitVec 3) : Byte := scale ++ index ++ base

/-- The 16-bit base an `rm` value names (R107). -/
def base16Of (rm : BitVec 3) : Base16 :=
  if rm == 0#3 then .bxSi
  else if rm == 1#3 then .bxDi
  else if rm == 2#3 then .bpSi
  else if rm == 3#3 then .bpDi
  else if rm == 4#3 then .si
  else if rm == 5#3 then .di
  else if rm == 6#3 then .bp
  else .bx

/-- The `rm` value of a 16-bit base (R107). -/
def rmOfBase16 : Base16 → BitVec 3
  | .bxSi => 0#3
  | .bxDi => 1#3
  | .bpSi => 2#3
  | .bpDi => 3#3
  | .si => 4#3
  | .di => 5#3
  | .bp => 6#3
  | .bx => 7#3

/-- The displacement of a 16-bit operand with a base. -/
def takeDisp16 (mod : BitVec 2) (bs : List Byte) : Option Disp16 :=
  if mod == 0#2 then some .none
  else if mod == 1#2 then
    match bs with
    | b :: _ => some (.d8 b)
    | [] => none
  else (takeU16 bs).map fun x => .d16 x.1

/-- The displacement of a 32- or 64-bit operand with a base. -/
def takeDisp32 (mod : BitVec 2) (bs : List Byte) : Option Disp32 :=
  if mod == 0#2 then some .none
  else if mod == 1#2 then
    match bs with
    | b :: _ => some (.d8 b)
    | [] => none
  else (takeU32 bs).map fun x => .d32 x.1

/-- A memory operand under 16-bit addressing (R107); `none` when the bytes run out. -/
def decodeMem16 (mod : BitVec 2) (rm : BitVec 3) (bs : List Byte) : Option Mem :=
  if mod == 0#2 && rm == 6#3 then (takeU16 bs).map fun x => .abs16 x.1
  else (takeDisp16 mod bs).map fun d => .base16 (base16Of rm) d

/-- The operand a SIB byte and what follows it name (R108). -/
def decodeSib (mod : BitVec 2) (s : Byte) (bs : List Byte) : Option Mem :=
  if mod == 0#2 && rmOf s == 5#3 then
    (takeU32 bs).map fun x => .sibNoBase (modOf s) (regOf s) x.1
  else (takeDisp32 mod bs).map fun d => .sib (modOf s) (regOf s) (rmOf s) d

/-- A memory operand under 32- or 64-bit addressing (R108, R109); the tests on `rm` and `base` look at
the three low bits only. -/
def decodeMem32 (mod : BitVec 2) (rm : BitVec 3) (bs : List Byte) : Option Mem :=
  if rm == 4#3 then
    match bs with
    | s :: bs' => decodeSib mod s bs'
    | [] => none
  else if mod == 0#2 && rm == 5#3 then (takeU32 bs).map fun x => .disp32 x.1
  else (takeDisp32 mod bs).map fun d => .base rm d

/-- A memory operand at an address size (R106). -/
def decodeMem (a : Size) (mod : BitVec 2) (rm : BitVec 3) (bs : List Byte) : Option Mem :=
  if a == .s16 then decodeMem16 mod rm bs else decodeMem32 mod rm bs

/-! ## The decoder -/

/-- Why some bytes are no instruction of this model. -/
inductive Reject where
  /-- The opcode byte, or the `reg` field of `0xFF`, is another instruction's (R113). -/
  | notCall (opcode : Byte)
  /-- `0xF2` or `0xF3` stands before a `CALL` (R110). -/
  | repeatPrefix
  /-- Two prefixes of one group (R110). -/
  | doubledPrefix
deriving DecidableEq, Repr

/-- What the decoder makes of some bytes. -/
inductive Decoded where
  | instr (i : Instr)
  /-- the instruction is longer than 15 bytes (R113) -/
  | tooLong
  /-- the bytes end inside the instruction -/
  | truncated
  | reject (r : Reject)
deriving DecidableEq, Repr

/-- `E8`: the immediate's size is the operand size's (R104, R111 step 4). -/
def decodeE8 (c : Ctx) (p : Prefixes) (bs : List Byte) : Option Instr :=
  match nearOperandSize c p.opSize with
  | .s16 => (takeU16 bs).map fun x => .callRel16 p x.1
  | .s32 => (takeU32 bs).map fun x => .callRel32 p x.1
  | .s64 => (takeU32 bs).map fun x => .callRel64 p x.1

/-- `9A` outside 64-bit mode: offset, then selector (R105); in 64-bit mode the opcode is illegal
(R113). -/
def decode9A (c : Ctx) (p : Prefixes) (bs : List Byte) : Option Instr :=
  match farOperandSize c p.opSize p.rexW with
  | .s16 =>
    if c.mode == .long64 then some (.illegal9A64 p)
    else (takeU16 bs).bind fun o => (takeU16 o.2).map fun s =>
      if c.mode.isRealLike then .callPtr1616Real p o.1 s.1 else .callPtr1616Prot p o.1 s.1
  | .s32 =>
    if c.mode == .long64 then some (.illegal9A64 p)
    else (takeU32 bs).bind fun o => (takeU16 o.2).map fun s =>
      if c.mode.isRealLike then .callPtr1632Real p o.1 s.1 else .callPtr1632Prot p o.1 s.1
  | .s64 => some (.illegal9A64 p)

/-- `FF /2` (R103, R106): a register or a memory operand. -/
def decodeFF2 (c : Ctx) (p : Prefixes) (mod : BitVec 2) (rm : BitVec 3) (bs : List Byte) :
    Option Instr :=
  let operand : Option RmOperand :=
    if mod == 3#2 then some (.reg rm)
    else (decodeMem (addressSize c p.addrSize) mod rm bs).map .mem
  match nearOperandSize c p.opSize with
  | .s16 => operand.map (.callRm16 p)
  | .s32 => operand.map (.callRm32 p)
  | .s64 => operand.map (.callRm64 p)

/-- `FF /3` (R103, R106, R113): a memory operand; a register operand is illegal. -/
def decodeFF3 (c : Ctx) (p : Prefixes) (mod : BitVec 2) (rm : BitVec 3) (bs : List Byte) :
    Option Instr :=
  if mod == 3#2 then some (.illegalFF3Reg p rm)
  else
    let operand := decodeMem (addressSize c p.addrSize) mod rm bs
    match farOperandSize c p.opSize p.rexW with
    | .s16 => operand.map (if c.mode.isRealLike then .callM1616Real p else .callM1616Prot p)
    | .s32 => operand.map (if c.mode.isRealLike then .callM1632Real p else .callM1632Prot p)
    | .s64 => operand.map (.callM1664 p)

/-- The outcome of a form's decoder on `bytes`, of which at most 15 are looked at: bytes that run out at
15 make the instruction longer than 15 bytes (R113); a form that is a `CALL` but carries a repeat
prefix, or two prefixes of a group, is rejected (R110). DESIGN CHOICE (log entry 39): that rejection comes
before the `#UD` of R113 for `9A` in 64-bit mode, `FF /3` with a register or `LOCK`; the spec does not order
the two. -/
def settleDecoded (bytes : List Byte) (a : PrefixScan) : Option Instr → Decoded
  | none => if 15 ≤ bytes.length then .tooLong else .truncated
  | some i =>
    if a.repeated then .reject .repeatPrefix
    else if a.doubled then .reject .doubledPrefix
    else .instr i

/-- The prefixes an instruction carries, from the scan and the REX byte. -/
def prefixesOf (a : PrefixScan) (rex : Option Rex) : Prefixes :=
  { lock := a.lock, seg := a.seg, opSize := a.opSize, addrSize := a.addrSize, rex := rex }

/-- What follows the prefixes: the opcode byte and the rest (R111 steps 2 to 4). -/
def decodeOpcode (c : Ctx) (bytes : List Byte) (a : PrefixScan) (p : Prefixes) :
    List Byte → Decoded
  | [] => settleDecoded bytes a none
  | op :: bs =>
    if op == 0xE8#8 then settleDecoded bytes a (decodeE8 c p bs)
    else if op == 0x9A#8 then settleDecoded bytes a (decode9A c p bs)
    else if op == 0xFF#8 then
      match bs with
      | [] => settleDecoded bytes a none
      | m :: bs' =>
        if regOf m == 2#3 then settleDecoded bytes a (decodeFF2 c p (modOf m) (rmOf m) bs')
        else if regOf m == 3#3 then settleDecoded bytes a (decodeFF3 c p (modOf m) (rmOf m) bs')
        else .reject (.notCall op)
    else .reject (.notCall op)

/-- The instruction the bytes begin with, in a context (R111). -/
def decode (c : Ctx) (bytes : List Byte) : Decoded :=
  let scan := scanPrefixes (bytes.take 15) emptyScan
  let rex := scanRex c scan.2
  decodeOpcode c bytes scan.1 (prefixesOf scan.1 rex.1) rex.2

/-! ## The encoder -/

/-- The byte of a segment override (R110). -/
def segPrefixByte : SegName → Byte
  | .es => 0x26#8
  | .cs => 0x2E#8
  | .ss => 0x36#8
  | .ds => 0x3E#8
  | .fs => 0x64#8
  | .gs => 0x65#8

/-- The REX byte (R109): `0100`, then W, R, X, B. -/
def rexByte (r : Rex) : Byte :=
  4#4 ++ (BitVec.ofBool r.w ++ BitVec.ofBool r.r ++ BitVec.ofBool r.x ++ BitVec.ofBool r.b)

/-- The bytes before the opcode, in one fixed order; REX stands directly before the opcode (R100). -/
def encodePrefixes (p : Prefixes) : List Byte :=
  (if p.lock then [0xF0#8] else []) ++
  (match p.seg with
    | some s => [segPrefixByte s]
    | none => []) ++
  (if p.opSize then [0x66#8] else []) ++
  (if p.addrSize then [0x67#8] else []) ++
  (match p.rex with
    | some r => [rexByte r]
    | none => [])

/-- ModR/M and displacement of a 16-bit operand with a base (R107). -/
def encodeBase16 (reg : BitVec 3) (b : Base16) : Disp16 → List Byte
  | .none => [modRmByte 0#2 reg (rmOfBase16 b)]
  | .d8 d => [modRmByte 1#2 reg (rmOfBase16 b), d]
  | .d16 d => modRmByte 2#2 reg (rmOfBase16 b) :: bytesOfU16 d

/-- `mod` and displacement bytes of a 32- or 64-bit operand with a base (R108). -/
def encodeDisp32 : Disp32 → BitVec 2 × List Byte
  | .none => (0#2, [])
  | .d8 d => (1#2, [d])
  | .d32 d => (2#2, bytesOfU32 d)

/-- ModR/M, SIB and displacement of a memory operand, with `reg` in the ModR/M byte (R106 to R109). -/
def encodeMem (reg : BitVec 3) : Mem → List Byte
  | .base16 b d => encodeBase16 reg b d
  | .abs16 d => modRmByte 0#2 reg 6#3 :: bytesOfU16 d
  | .base rm d => modRmByte (encodeDisp32 d).1 reg rm :: (encodeDisp32 d).2
  | .disp32 d => modRmByte 0#2 reg 5#3 :: bytesOfU32 d
  | .sib sc ix b d => modRmByte (encodeDisp32 d).1 reg 4#3 :: sibByte sc ix b :: (encodeDisp32 d).2
  | .sibNoBase sc ix d => modRmByte 0#2 reg 4#3 :: sibByte sc ix 5#3 :: bytesOfU32 d

/-- The bytes after `FF` for a `/2` operand (R106). -/
def encodeRm : RmOperand → List Byte
  | .reg rm => [modRmByte 3#2 2#3 rm]
  | .mem m => encodeMem 2#3 m

/-- The bytes of an instruction, at increasing addresses (R100, R103). -/
def encode : Instr → List Byte
  | .callRel16 p rel => encodePrefixes p ++ 0xE8#8 :: bytesOfU16 rel
  | .callRel32 p rel => encodePrefixes p ++ 0xE8#8 :: bytesOfU32 rel
  | .callRel64 p rel => encodePrefixes p ++ 0xE8#8 :: bytesOfU32 rel
  | .callRm16 p o => encodePrefixes p ++ 0xFF#8 :: encodeRm o
  | .callRm32 p o => encodePrefixes p ++ 0xFF#8 :: encodeRm o
  | .callRm64 p o => encodePrefixes p ++ 0xFF#8 :: encodeRm o
  | .callPtr1616Real p off sel => encodePrefixes p ++ 0x9A#8 :: (bytesOfU16 off ++ bytesOfU16 sel)
  | .callPtr1616Prot p off sel => encodePrefixes p ++ 0x9A#8 :: (bytesOfU16 off ++ bytesOfU16 sel)
  | .callPtr1632Real p off sel => encodePrefixes p ++ 0x9A#8 :: (bytesOfU32 off ++ bytesOfU16 sel)
  | .callPtr1632Prot p off sel => encodePrefixes p ++ 0x9A#8 :: (bytesOfU32 off ++ bytesOfU16 sel)
  | .callM1616Real p m => encodePrefixes p ++ 0xFF#8 :: encodeMem 3#3 m
  | .callM1616Prot p m => encodePrefixes p ++ 0xFF#8 :: encodeMem 3#3 m
  | .callM1632Real p m => encodePrefixes p ++ 0xFF#8 :: encodeMem 3#3 m
  | .callM1632Prot p m => encodePrefixes p ++ 0xFF#8 :: encodeMem 3#3 m
  | .callM1664 p m => encodePrefixes p ++ 0xFF#8 :: encodeMem 3#3 m
  | .illegal9A64 p => encodePrefixes p ++ [0x9A#8]
  | .illegalFF3Reg p rm => encodePrefixes p ++ [0xFF#8, modRmByte 3#2 3#3 rm]

/-! ## Length (R117) -/

/-- The number of prefix bytes, REX among them. -/
def prefixLength (p : Prefixes) : Nat :=
  p.lock.toNat + p.seg.isSome.toNat + p.opSize.toNat + p.addrSize.toNat + p.rex.isSome.toNat

/-- Bytes of a 16-bit operand's displacement. -/
def disp16Length : Disp16 → Nat
  | .none => 0
  | .d8 _ => 1
  | .d16 _ => 2

/-- Bytes of a 32- or 64-bit operand's displacement. -/
def disp32Length : Disp32 → Nat
  | .none => 0
  | .d8 _ => 1
  | .d32 _ => 4

/-- Bytes of SIB and displacement after the ModR/M byte. -/
def memLength : Mem → Nat
  | .base16 _ d => disp16Length d
  | .abs16 _ => 2
  | .base _ d => disp32Length d
  | .disp32 _ => 4
  | .sib _ _ _ d => 1 + disp32Length d
  | .sibNoBase _ _ _ => 5

/-- Bytes after the ModR/M byte of a `/2` operand. -/
def rmLength : RmOperand → Nat
  | .reg _ => 0
  | .mem m => memLength m

/-- The prefixes of an instruction. -/
def prefixesOfInstr : Instr → Prefixes
  | .callRel16 p _ => p
  | .callRel32 p _ => p
  | .callRel64 p _ => p
  | .callRm16 p _ => p
  | .callRm32 p _ => p
  | .callRm64 p _ => p
  | .callPtr1616Real p _ _ => p
  | .callPtr1616Prot p _ _ => p
  | .callPtr1632Real p _ _ => p
  | .callPtr1632Prot p _ _ => p
  | .callM1616Real p _ => p
  | .callM1616Prot p _ => p
  | .callM1632Real p _ => p
  | .callM1632Prot p _ => p
  | .callM1664 p _ => p
  | .illegal9A64 p => p
  | .illegalFF3Reg p _ => p

/-- The bytes of an instruction from its opcode on. -/
def bodyLength : Instr → Nat
  | .callRel16 _ _ => 3
  | .callRel32 _ _ => 5
  | .callRel64 _ _ => 5
  | .callRm16 _ o => 2 + rmLength o
  | .callRm32 _ o => 2 + rmLength o
  | .callRm64 _ o => 2 + rmLength o
  | .callPtr1616Real _ _ _ => 5
  | .callPtr1616Prot _ _ _ => 5
  | .callPtr1632Real _ _ _ => 7
  | .callPtr1632Prot _ _ _ => 7
  | .callM1616Real _ m => 2 + memLength m
  | .callM1616Prot _ m => 2 + memLength m
  | .callM1632Real _ m => 2 + memLength m
  | .callM1632Prot _ m => 2 + memLength m
  | .callM1664 _ m => 2 + memLength m
  | .illegal9A64 _ => 1
  | .illegalFF3Reg _ _ => 2

/-- `ilen`: all bytes of the instruction, prefixes included (R117). -/
def instrLength (i : Instr) : Nat := prefixLength (prefixesOfInstr i) + bodyLength i

/-! ## Which form exists where (R112) -/

/-- A memory operand has the addressing the address size selects (R106). -/
def memFits (c : Ctx) (p : Prefixes) (m : Mem) : Bool :=
  m.is16 == (addressSize c p.addrSize == .s16)

/-- The same for the operand of `FF /2`; a register fits anywhere. -/
def rmFits (c : Ctx) (p : Prefixes) : RmOperand → Bool
  | .reg _ => true
  | .mem m => memFits c p m

/-- REX is a prefix in 64-bit mode only (R109). -/
def rexFits (c : Ctx) (p : Prefixes) : Bool := p.noRex || c.mode == .long64

/-- The form, with these prefixes and this operand, exists in this context: the mode column of R112 and
the size the prefixes select (R39, R40, R103). -/
def formFits (c : Ctx) : Instr → Bool
  | .callRel16 p _ => nearOperandSize c p.opSize == .s16
  | .callRel32 p _ => nearOperandSize c p.opSize == .s32
  | .callRel64 p _ => nearOperandSize c p.opSize == .s64
  | .callRm16 p o => nearOperandSize c p.opSize == .s16 && rmFits c p o
  | .callRm32 p o => nearOperandSize c p.opSize == .s32 && rmFits c p o
  | .callRm64 p o => nearOperandSize c p.opSize == .s64 && rmFits c p o
  | .callPtr1616Real p _ _ => c.mode.isRealLike && farOperandSize c p.opSize p.rexW == .s16
  | .callPtr1616Prot p _ _ =>
    !c.mode.isRealLike && c.mode != .long64 && farOperandSize c p.opSize p.rexW == .s16
  | .callPtr1632Real p _ _ => c.mode.isRealLike && farOperandSize c p.opSize p.rexW == .s32
  | .callPtr1632Prot p _ _ =>
    !c.mode.isRealLike && c.mode != .long64 && farOperandSize c p.opSize p.rexW == .s32
  | .callM1616Real p m =>
    c.mode.isRealLike && farOperandSize c p.opSize p.rexW == .s16 && memFits c p m
  | .callM1616Prot p m =>
    !c.mode.isRealLike && farOperandSize c p.opSize p.rexW == .s16 && memFits c p m
  | .callM1632Real p m =>
    c.mode.isRealLike && farOperandSize c p.opSize p.rexW == .s32 && memFits c p m
  | .callM1632Prot p m =>
    !c.mode.isRealLike && farOperandSize c p.opSize p.rexW == .s32 && memFits c p m
  | .callM1664 p m => farOperandSize c p.opSize p.rexW == .s64 && memFits c p m
  | .illegal9A64 _ => c.mode == .long64
  | .illegalFF3Reg _ _ => true

/-- The instruction is one the decoder can give in this context. -/
def instrFits (c : Ctx) (i : Instr) : Bool := rexFits c (prefixesOfInstr i) && formFits c i

/-! ## The opcode table's words -/

/-- The first 15 bytes of a word of `nbits` bits, bits 7..0 at the lowest address, zeros above. -/
def tableBytes (nbits w : Nat) : List Byte :=
  (List.range 15).map fun i => BitVec.ofNat 8 ((w % 2 ^ nbits) / 2 ^ (8 * i))

/-- The context right after reset: real-address mode, `CS.D` 0 (10_state.md R42). The table's words do
not carry the mode that tells its rows apart (log entry 22). -/
def resetCtx : Ctx := { mode := .real, csD := false }

/-- The instruction the decoder reads from a word of the opcode table, in the context after reset. -/
def decodeTableWord (nbits w : Nat) : Option Instr :=
  match decode resetCtx (tableBytes nbits w) with
  | .instr i => some i
  | .tooLong => none
  | .truncated => none
  | .reject _ => none

end Sys2Proof
end

