-- ==== Sys2Proof/Config.lean ====
section
/-! DEFINITION. What the spec leaves to an implementation (00_scope.md R5) and the values it leaves
free (its "draws", R9). None has a body: nothing in Lean can evaluate one, so whatever is proved holds
for every value. -/

namespace Sys2Proof.Config

/-- The implementation parameters of 00_scope.md R5. State carries a copy that no step changes, so a
statement over all states is a statement over all implementations (log entry 1). -/
structure Cpu where
  /-- `LA_WIDTH`, the maximum linear-address width N (93_implementation_defined.md U5). -/
  laWidth : Nat
  /-- `HAS_INTEL64`: whether `IA32_EFER.LMA` can be 1. -/
  hasIntel64 : Bool
  /-- `HAS_CET_SS`: whether shadow stacks exist. -/
  hasCetSs : Bool
  /-- `HAS_CET_IBT`: whether indirect-branch tracking exists. -/
  hasCetIbt : Bool
deriving DecidableEq, Repr, Inhabited

/-- The parameters of the machine whose reset state is `State.reset`: OPEN in the spec (R5). -/
opaque cpu : Cpu

/-- `PadBits` (R5, decision D7, U3): the high-order bits stored when a 16-bit selector is pushed in a
4- or 8-byte slot. The n-th draw; a 4-byte slot takes its low 16 bits. -/
opaque padBits : Nat → BitVec 48

/-- `RSP[63:32]` when a same-level 64-bit gate is entered from compatibility mode (U1, decision D20). -/
opaque rspUpper : Nat → BitVec 32

/-- The fields of the hidden part of `SS` that a NULL load leaves undescribed (91_not_in_source.md N25,
GK31), as one bag of bits. -/
opaque nullSsHidden : Nat → BitVec 64

/-- A byte that the path of a faulting `CALL` had written before the raise (60_exceptions.md R265). -/
opaque faultByte : Nat → BitVec 8

end Sys2Proof.Config
end

