-- ==== Sys2Proof/Machine/State.lean ====
section
/-! DEFINITION. The state of the machine as 10_state.md lists it (R20 to R43), the reasons a step can
stop, and the state after reset (R42). Where State holds bits the spec treats as a register they stay
a bit vector; the accessors of their fields are in Flags.lean and Cet.lean. -/

namespace Sys2Proof.Machine

/-- The sixteen general-purpose registers, in the order of their numbers 0 to 15 (10_state.md R24);
`rsp`, number 4, is the stack pointer (R23). -/
structure Gprs where
  rax : BitVec 64
  rcx : BitVec 64
  rdx : BitVec 64
  rbx : BitVec 64
  rsp : BitVec 64
  rbp : BitVec 64
  rsi : BitVec 64
  rdi : BitVec 64
  r8 : BitVec 64
  r9 : BitVec 64
  r10 : BitVec 64
  r11 : BitVec 64
  r12 : BitVec 64
  r13 : BitVec 64
  r14 : BitVec 64
  r15 : BitVec 64
deriving DecidableEq, Repr

/-- A segment register: the visible selector and the hidden part (10_state.md R25, R26). -/
structure Seg where
  sel : BitVec 16
  /-- 32 bits, 64 for `FS` and `GS` in 64-bit mode -/
  base : BitVec 64
  /-- byte-granular effective limit -/
  limit : BitVec 32
  /-- the four `type` bits -/
  typ : BitVec 4
  /-- `S`: 1 for code and data -/
  s : Bool
  dpl : BitVec 2
  p : Bool
  l : Bool
  /-- `D` of a code segment, `B` of a stack segment -/
  db : Bool
  g : Bool
deriving DecidableEq, Repr

/-- `GDTR` and `IDTR`: linear base and limit, the last valid byte offset (10_state.md R31, R42). -/
structure TableReg where
  base : BitVec 64
  limit : BitVec 16
deriving DecidableEq, Repr

/-- `LDTR`; an LDT is loaded when the selector is not NULL (10_state.md R31). -/
structure LdtReg where
  sel : BitVec 16
  base : BitVec 64
  limit : BitVec 32
deriving DecidableEq, Repr

/-- The kinds of `TSS` (10_state.md R32). -/
inductive TssKind where
  | tss16
  | tss32
  | tss64
deriving DecidableEq, Repr

/-- The task register (10_state.md R32). -/
structure TaskReg where
  sel : BitVec 16
  base : BitVec 64
  limit : BitVec 32
  kind : TssKind
  /-- the `TSS` it was loaded from is marked busy (20_memory.md R72, R75; 70_reset_and_hazards.md R301 (f));
  written by a task switch only -/
  busy : Bool
deriving DecidableEq, Repr

/-- Memory: the linear address space of 2^64 bytes (20_memory.md R60, R88), as address and byte pairs in
one canonical form (`memWf` in Ops.lean). -/
abbrev Memory := List Host.Cell

/-- The machine. -/
structure State where
  /-- `RIP`, with `EIP` and `IP` its low parts (R20) -/
  rip : BitVec 64
  gpr : Gprs
  /-- `EFLAGS` (R28, R30) -/
  eflags : BitVec 32
  /-- `CR0`; bit 0 is `PE` (R28) -/
  cr0 : BitVec 64
  /-- `CR4`; bit 23 is `CET` (R34) -/
  cr4 : BitVec 64
  /-- `IA32_EFER`; bit 10 is `LMA` (R28) -/
  efer : BitVec 64
  /-- the current privilege level (R27) -/
  cpl : BitVec 2
  es : Seg
  cs : Seg
  ss : Seg
  ds : Seg
  fs : Seg
  gs : Seg
  gdtr : TableReg
  idtr : TableReg
  ldtr : LdtReg
  tr : TaskReg
  /-- `SSP`, the shadow-stack pointer (R33) -/
  ssp : BitVec 64
  /-- `IA32_U_CET` (R34) -/
  uCet : BitVec 64
  /-- `IA32_S_CET` (R34) -/
  sCet : BitVec 64
  /-- `IA32_PL0_SSP` to `IA32_PL3_SSP` (R36) -/
  pl0Ssp : BitVec 64
  pl1Ssp : BitVec 64
  pl2Ssp : BitVec 64
  pl3Ssp : BitVec 64
  mem : Memory
  /-- the implementation parameters of 00_scope.md R5 (log entry 1) -/
  cpu : Config.Cpu
  /-- the MODEL's own field: how many free values have been drawn (R9, log entry 8) -/
  draws : Nat
deriving DecidableEq, Repr

/-- The exception classes of 60_exceptions.md R260, R263. `pf`, `ac` and `cp` are never raised here:
`Translate` never faults, alignment checking is off, and `CALL` raises no `#CP` (R268, R269). -/
inductive Exc where
  | ud
  | ts
  | np
  | ss
  | gp
  | pf
  | ac
  | cp
deriving DecidableEq, Repr

/-- The rule whose test failed: the third part of a fault outcome (60_exceptions.md R260). -/
inductive RuleId where
  | r65
  | r89
  | r113
  | r141
  | r142
  | r143
  | r144
  | r145
  | r146
  | r150
  | r161
  | r162
  | r171
  | r172
  | r173
  | r176
  | r177
  | r180
  | r200
  | r201
  | r204
  | r205
  | r206
  | r208
  | r209
  | r212
  | r214
  | r215
  | r216
  | r217
  | r240
  | r241
deriving DecidableEq, Repr

/-- Why the machine stops with a fault. -/
inductive Fault where
  /-- An exception, raised by any meaning or by the fetch: its class, its error code (none for `#UD`),
  the rule that raised it, and the state it leaves (60_exceptions.md R260, R262, R265). Delivery is
  open in the spec (R266), so the run ends here. Safe: the model goes on nowhere the spec does not. -/
  | exception (x : Exc) (code : Option (BitVec 16)) (rule : RuleId) (after : State)
deriving DecidableEq, Repr

/-- Why the model gives an instruction no meaning. -/
inductive Refusal where
  /-- Raised by an arm of `exec` whose instruction has no meaning yet; no arm does. Safe. -/
  | notModelled (mnemonic : String)
  /-- Raised by a far call that reaches `SwitchTasksWithNesting` with every test before it passed:
  the operation is an open parameter and the model refuses (44_task_switch.md R244). Safe. -/
  | taskSwitch
  /-- Raised by `step` when the bytes at the instruction pointer are another instruction's: out of
  scope (00_scope.md R4 (a), 30_encoding.md R113). Safe. -/
  | notCall (opcode : BitVec 8)
  /-- Raised by `step` for `0xF2` or `0xF3` before a `CALL` (30_encoding.md R110). Safe. -/
  | repeatPrefix
  /-- Raised by `step` for two prefixes of one group (30_encoding.md R110). Safe. -/
  | doubledPrefix
  /-- Raised by every meaning for a form that does not exist in the state's mode (30_encoding.md R112):
  `step` never asks for it, since the decoder gives only forms that exist. Safe. -/
  | formNotInMode
deriving DecidableEq, Repr

/-! ## Field updates: the only ways a `CALL` changes the state -/

/-- Write all of `RIP`. -/
def State.setRip (s : State) (v : BitVec 64) : State := { s with rip := v }
/-- Write all of `RSP`. -/
def State.setRsp (s : State) (v : BitVec 64) : State := { s with gpr := { s.gpr with rsp := v } }
/-- Replace `CS`. -/
def State.setCs (s : State) (v : Seg) : State := { s with cs := v }
/-- Replace `SS`. -/
def State.setSs (s : State) (v : Seg) : State := { s with ss := v }
/-- Write `CPL`. -/
def State.setCpl (s : State) (v : BitVec 2) : State := { s with cpl := v }
/-- Write `SSP`. -/
def State.setSsp (s : State) (v : BitVec 64) : State := { s with ssp := v }
/-- Write `IA32_U_CET`. -/
def State.setUCet (s : State) (v : BitVec 64) : State := { s with uCet := v }
/-- Write `IA32_S_CET`. -/
def State.setSCet (s : State) (v : BitVec 64) : State := { s with sCet := v }
/-- Write `IA32_PL3_SSP`. -/
def State.setPl3Ssp (s : State) (v : BitVec 64) : State := { s with pl3Ssp := v }
/-- Replace memory. -/
def State.setMem (s : State) (v : Memory) : State := { s with mem := v }
/-- Set the number of free values drawn. -/
def State.setDraws (s : State) (n : Nat) : State := { s with draws := n }

/-! ## Reset -/

/-- A data-segment register after reset (10_state.md R42): selector and base 0, limit `0xFFFF`, present,
writable, `B` 0. Type 3, `S` 1, `DPL` 0 and `G` 0 are the family's (log entry 4). -/
def resetDataSeg : Seg :=
  { sel := 0, base := 0, limit := 0xFFFF#32, typ := 3#4, s := true, dpl := 0, p := true, l := false,
    db := false, g := false }

/-- `CS` after reset (10_state.md R42). Type 11, `S` 1, `DPL` 0 and `G` 0 are the family's (log
entry 4). -/
def resetCodeSeg : Seg :=
  { sel := 0xF000#16, base := 0xFFFF0000#64, limit := 0xFFFF#32, typ := 11#4, s := true, dpl := 0,
    p := true, l := false, db := false, g := false }

/-- The general registers after reset: zero (10_state.md R42); `RAX` and `RDX`, whose values the spec
does not give, are zero by log entry 3. -/
def resetGprs : Gprs :=
  { rax := 0, rcx := 0, rdx := 0, rbx := 0, rsp := 0, rbp := 0, rsi := 0, rdi := 0, r8 := 0, r9 := 0,
    r10 := 0, r11 := 0, r12 := 0, r13 := 0, r14 := 0, r15 := 0 }

/-- The machine right after reset (10_state.md R42). -/
def State.reset : State :=
  { rip := 0xFFF0#64
    gpr := resetGprs
    eflags := 0x00000002#32
    cr0 := 0x60000010#64
    cr4 := 0
    efer := 0
    cpl := 0
    es := resetDataSeg
    cs := resetCodeSeg
    ss := resetDataSeg
    ds := resetDataSeg
    fs := resetDataSeg
    gs := resetDataSeg
    gdtr := { base := 0, limit := 0xFFFF#16 }
    idtr := { base := 0, limit := 0xFFFF#16 }
    ldtr := { sel := 0, base := 0, limit := 0xFFFF#32 }
    tr := { sel := 0, base := 0, limit := 0xFFFF#32, kind := .tss32, busy := true }
    ssp := 0
    uCet := 0
    sCet := 0
    pl0Ssp := 0
    pl1Ssp := 0
    pl2Ssp := 0
    pl3Ssp := 0
    mem := []
    cpu := Config.cpu
    draws := 0 }

end Sys2Proof.Machine
end

