-- ==== Sys2Proof/Machine/Flags.lean ====
section
/-! DEFINITION. The control bits and flags a `CALL` reads, and the mode they make (10_state.md R28 to R30).
No `CALL` that completes here writes a flag: "no flags are affected if a task switch does not occur". -/

namespace Sys2Proof.Machine

/-- `CR0.PE`, bit 0 (R28). -/
def State.pe (s : State) : Bool := s.cr0.getLsbD 0

/-- `EFLAGS.VM`, bit 17 (R28). -/
def State.vm (s : State) : Bool := s.eflags.getLsbD 17

/-- `EFLAGS.NT`, bit 14 (R28): written by a task switch only. -/
def State.nt (s : State) : Bool := s.eflags.getLsbD 14

/-- `IA32_EFER.LMA`, bit 10 (R28); without `HAS_INTEL64` it cannot be 1 (00_scope.md R5). -/
def State.lma (s : State) : Bool := s.efer.getLsbD 10 && s.cpu.hasIntel64

/-- `CR4.CET`, bit 23 (R34). -/
def State.cr4Cet (s : State) : Bool := s.cr4.getLsbD 23

/-- The operating mode, a function of the state (R29). -/
def State.mode (s : State) : Mode :=
  if !s.pe then .real
  else if s.vm then .v86
  else if !s.lma then .prot
  else if !s.cs.l then .compat
  else .long64

/-- What the decoder is told of the state (30_encoding.md R111). -/
def State.ctx (s : State) : Ctx := { mode := s.mode, csD := s.cs.db }

end Sys2Proof.Machine
end

