-- ==== Sys2Proof/Machine/Ops.lean ====
section
/-! DEFINITION. The named operations over memory, segments, the stack, descriptors and exceptions that
every meaning is written in (20_memory.md, 60_exceptions.md). -/

namespace Sys2Proof.Machine

/-! ## One byte of memory -/

/-- What an address that memory does not list reads as (log entry 2). -/
def unlistedByte : Byte := 0#8

/-- Read the byte at an address. -/
def memGet : Memory → Nat → Byte
  | [], _ => unlistedByte
  | (a', b') :: m, a => if a == a' then b' else memGet m a

/-- Write the byte at an address, keeping the canonical form: writing what an unlisted address reads as
removes the entry. -/
def memPut : Memory → Nat → Byte → Memory
  | [], a, b => if b == unlistedByte then [] else [(a, b)]
  | (a', b') :: m, a, b =>
    if a < a' then (if b == unlistedByte then (a', b') :: m else (a, b) :: (a', b') :: m)
    else if a == a' then (if b == unlistedByte then m else (a, b) :: m)
    else (a', b') :: memPut m a b

/-- The canonical form from an address on: addresses strictly rising, inside the 2^64-byte space, and
no entry equal to what an unlisted address reads as. -/
def memWfFrom : Nat → Memory → Bool
  | _, [] => true
  | lo, (a, b) :: m => decide (lo ≤ a) && decide (a < 2 ^ 64) && b != unlistedByte && memWfFrom (a + 1) m

/-- Memory is in canonical form. -/
def memWf (m : Memory) : Bool := memWfFrom 0 m

/-! ## Widths and views -/

/-- The low part of a value at a size, zero-extended (00_scope.md R6; the `E` and 16-bit views of
10_state.md R20, R23, R24). -/
def viewOf : Size → BitVec 64 → BitVec 64
  | .s16, v => (v.extractLsb' 0 16).setWidth 64
  | .s32, v => (v.extractLsb' 0 32).setWidth 64
  | .s64, v => v

/-- Write the view of a register at a size: the bits above it stay (10_state.md R23). -/
def withView : Size → BitVec 64 → BitVec 64 → BitVec 64
  | .s16, old, v => old.extractLsb' 16 48 ++ v.extractLsb' 0 16
  | .s32, old, v => old.extractLsb' 32 32 ++ v.extractLsb' 0 32
  | .s64, _, v => v

/-! ## Linear addresses (R60 to R64, R81) -/

/-- `Translate`: the identity that never faults (R62, decision D3; log entry 25). -/
def translate (lin : BitVec 64) : BitVec 64 := lin

/-- `lin + i`: modulo 2^64 in IA-32e mode and modulo 2^32 outside it (R64). -/
def linAdd (s : State) (lin : BitVec 64) (i : Nat) : BitVec 64 :=
  if s.lma then lin + BitVec.ofNat 64 i else viewOf .s32 (lin + BitVec.ofNat 64 i)

/-- The memory key of the byte at `lin + i`. -/
def byteAddr (s : State) (lin : BitVec 64) (i : Nat) : Nat := (translate (linAdd s lin i)).toNat

/-- `MemRead(lin, n)` for `n` up to 8, little-endian (R63, R64). -/
def memRead (s : State) (lin : BitVec 64) : Nat → BitVec 64
  | 0 => 0#64
  | n + 1 =>
    memRead s lin n ||| ((memGet s.mem (byteAddr s lin n)).setWidth 64) <<< (8 * n)

/-- The memory `MemWrite(lin, n, v)` leaves: byte `i` of `v` at `lin + i` (R63, R64). -/
def storeBytes (s : State) (lin : BitVec 64) (v : BitVec 64) : Nat → Memory → Memory
  | 0, m => m
  | n + 1, m => memPut (storeBytes s lin v n m) (byteAddr s lin n) (v.extractLsb' (8 * n) 8)

/-- The addresses `MemWrite(lin, n, _)` writes. -/
def storedAddrs (s : State) (lin : BitVec 64) (n : Nat) : List Nat :=
  (List.range n).map fun i => byteAddr s lin i

/-- `LA_adjust`: bits 63:N get the value of bit N-1, N the linear-address width (R81). -/
def laAdjust (width : Nat) (v : BitVec 64) : BitVec 64 :=
  (v <<< (64 - width)).sshiftRight (64 - width)

/-- `Canonical`: bits 63:N-1 are all equal (R81). -/
def canonical (width : Nat) (v : BitVec 64) : Bool := laAdjust width v == v

/-! ## A `CALL` in progress

A `CALL` is written as steps over the state being built and the addresses already written. A raise
gives up that state: what a fault leaves is made from the state before the `CALL` (R265). -/

/-- The state being built and the addresses of the bytes written so far. -/
structure Run where
  st : State
  wrote : List Nat
deriving DecidableEq, Repr

/-- Why a `CALL` in progress stops. -/
inductive Halt where
  /-- `raise X(e)` in a rule, with the addresses written and the values drawn before it -/
  | exc (x : Exc) (code : Option (BitVec 16)) (rule : RuleId) (wrote : List Nat) (draws : Nat)
  | refuse (why : Refusal)
deriving DecidableEq, Repr

/-- Nothing is written yet. -/
def startRun (s : State) : Run := { st := s, wrote := [] }

/-- Change the state being built by a step that writes no memory. -/
def Run.upd (r : Run) (s : State) : Run := { r with st := s }

/-- `MemWrite(lin, n, v)` (R64). -/
def Run.store (r : Run) (lin : BitVec 64) (n : Nat) (v : BitVec 64) : Run :=
  { st := r.st.setMem (storeBytes r.st lin v n r.st.mem), wrote := r.wrote ++ storedAddrs r.st lin n }

/-! ## Exceptions (60_exceptions.md R260 to R265) -/

/-- The error code of `X(s)` for a selector `s`: `EXT` and `IDT` 0, `TI` and index kept (R262). -/
def errorCode (sel : BitVec 16) : BitVec 16 := sel &&& 0xFFFC#16

/-- The vector of an exception class (R263). -/
def excVector : Exc → Nat
  | .ud => 6
  | .ts => 10
  | .np => 11
  | .ss => 12
  | .gp => 13
  | .pf => 14
  | .ac => 17
  | .cp => 21

/-- `raise X(e)`: nothing after it in the rule is performed (R260). -/
def raise {α : Type} (r : Run) (x : Exc) (code : BitVec 16) (rule : RuleId) : Except Halt α :=
  .error (.exc x (some code) rule r.wrote r.st.draws)

/-- Raise when a test of the rule fails (R264: tests in the order of the rule). -/
def raiseIf (bad : Bool) (r : Run) (x : Exc) (code : BitVec 16) (rule : RuleId) : Except Halt Unit :=
  if bad then raise r x code rule else .ok ()

/-- Every byte the path had written holds any value: a draw per byte (R265). -/
def drawBytes : List Nat → Nat → Memory → Memory
  | [], _, m => m
  | a :: as, d, m => drawBytes as (d + 1) (memPut m a (Config.faultByte d))

/-- The state a fault leaves (R265, decision D4): every register as before the `CALL`, the written bytes
drawn, all other memory unchanged. -/
def faultState (before : State) (wrote : List Nat) (draws : Nat) : State :=
  (before.setMem (drawBytes wrote draws before.mem)).setDraws (draws + wrote.length)

/-- Take an exception: the one place a fault outcome is made (R260). Delivery is open (R266). -/
def takeException (before : State) (x : Exc) (code : Option (BitVec 16)) (rule : RuleId)
    (wrote : List Nat) (draws : Nat) : Host.Outcome State Fault Refusal :=
  .fault (.exception x code rule (faultState before wrote draws))

/-- The outcome of a `CALL` that began in `before` (00_scope.md R9). -/
def settle (before : State) : Except Halt Run → Host.Outcome State Fault Refusal
  | .ok r => .next r.st
  | .error (.exc x code rule wrote draws) => takeException before x code rule wrote draws
  | .error (.refuse why) => .refused why

/-- Run a form: it must exist in the state's mode (30_encoding.md R112), and `LOCK` makes it `#UD` with
nothing written (R113). -/
def runCall (i : Instr) (s : State) (body : Run → Except Halt Run) :
    Host.Outcome State Fault Refusal :=
  if !instrFits s.ctx i then .refused .formNotInMode
  else if (prefixesOfInstr i).lock then takeException s .ud none .r113 [] s.draws
  else settle s (body (startRun s))

/-! ## The instruction pointer (10_state.md R20 to R22) -/

/-- `nRIP = pc + ilen`, modulo 2^64 in 64-bit mode and modulo 2^32 otherwise (R21). -/
def nextRip (s : State) (ilen : Nat) : BitVec 64 :=
  if s.mode == .long64 then s.rip + BitVec.ofNat 64 ilen
  else viewOf .s32 (s.rip + BitVec.ofNat 64 ilen)

/-- `RIP <- v` for a 64-bit operand size, `EIP <- v` otherwise: `EIP` writes zero-extend (R22). -/
def branchTo (s : State) (k : Size) (v : BitVec 64) : State :=
  match k with
  | .s16 => s.setRip (viewOf .s32 v)
  | .s32 => s.setRip (viewOf .s32 v)
  | .s64 => s.setRip v

/-! ## Segments (10_state.md R26, 20_memory.md R61, R65, R82) -/

/-- The segment register of a name. -/
def segOf (s : State) : SegName → Seg
  | .es => s.es
  | .cs => s.cs
  | .ss => s.ss
  | .ds => s.ds
  | .fs => s.fs
  | .gs => s.gs

/-- `IsNull(sel)`: bits 15:2 are zero (R69). -/
def isNullSel (sel : BitVec 16) : Bool := sel.extractLsb' 2 14 == 0#14

/-- `RPL`, bits 1:0 of a selector (R69). -/
def rplOf (sel : BitVec 16) : BitVec 2 := sel.extractLsb' 0 2

/-- A selector with its `RPL` replaced (R178). -/
def withRpl (sel : BitVec 16) (rpl : BitVec 2) : BitVec 16 := sel.extractLsb' 2 14 ++ rpl

/-- A code segment: `S` 1, type bit 3 set (R72). -/
def Seg.isCode (g : Seg) : Bool := g.s && g.typ.getLsbD 3
/-- Writable data: `S` 1, type bit 3 clear, bit 1 set (R72). -/
def Seg.isWritableData (g : Seg) : Bool := g.s && !g.typ.getLsbD 3 && g.typ.getLsbD 1
/-- Expand-down data: `S` 1, type bit 3 clear, bit 2 set (R72). -/
def Seg.isExpandDown (g : Seg) : Bool := g.s && !g.typ.getLsbD 3 && g.typ.getLsbD 2
/-- Conforming code: type bit 2 set (R72). -/
def Seg.isConforming (g : Seg) : Bool := g.isCode && g.typ.getLsbD 2
/-- Nonconforming code: type bit 2 clear (R72). -/
def Seg.isNonconforming (g : Seg) : Bool := g.isCode && !g.typ.getLsbD 2
/-- An execute-only code segment: code whose read bit, type bit 1, is clear (R65). -/
def Seg.isExecuteOnly (g : Seg) : Bool := g.isCode && !g.typ.getLsbD 1

/-- `InLimit(seg, o)` (R82). -/
def inLimit (g : Seg) (o : Nat) : Bool :=
  if g.isExpandDown then
    decide (g.limit.toNat < o) && decide (o ≤ if g.db then 0xFFFFFFFF else 0xFFFF)
  else decide (o ≤ g.limit.toNat)

/-- The `n` offsets from `off` on, taken exactly, are within the limit (R65, R67). -/
def offsetsInLimit (g : Seg) (off : BitVec 64) (n : Nat) : Bool :=
  (List.range n).all fun i => inLimit g (off.toNat + i)

/-- The `n` addresses from `lin` on are canonical (R65, R67). -/
def addrsCanonical (width : Nat) (lin : BitVec 64) (n : Nat) : Bool :=
  (List.range n).all fun i => canonical width (lin + BitVec.ofNat 64 i)

/-- Logical to linear (R61). -/
def segLinear (s : State) (name : SegName) (g : Seg) (off : BitVec 64) : BitVec 64 :=
  if s.mode == .long64 then
    match name with
    | .es => off
    | .cs => off
    | .ss => off
    | .ds => off
    | .fs => g.base + off
    | .gs => g.base + off
  else viewOf .s32 (g.base + off)

/-- A NULL `DS`, `ES`, `FS` or `GS` (R65): by its selector, in every mode (log entry 13). -/
def isNullDataSeg (name : SegName) (g : Seg) : Bool :=
  name != .ss && name != .cs && isNullSel g.sel

/-- The exception class of a segment: `SS` raises `#SS`, the others `#GP` (R65). -/
def segExc (name : SegName) : Exc := if name == .ss then .ss else .gp

/-- The fault of a segment-relative access, if it has one (R65). -/
def segFault (s : State) (name : SegName) (g : Seg) (off : BitVec 64) (n : Nat) (write : Bool) :
    Option Exc :=
  if s.mode == .long64 then
    if addrsCanonical s.cpu.laWidth (segLinear s name g off) n then none else some (segExc name)
  else if !offsetsInLimit g off n then some (segExc name)
  else if write && !g.isWritableData then some .gp
  else if !write && g.isExecuteOnly then some .gp
  else if isNullDataSeg name g then some .gp
  else none

/-- `SegRead(seg, off, n)` (R65); `rule` names the rule a fault is reported under. -/
def segRead (r : Run) (name : SegName) (g : Seg) (off : BitVec 64) (n : Nat) (rule : RuleId) :
    Except Halt (BitVec 64) :=
  match segFault r.st name g off n false with
  | some x => raise r x 0#16 rule
  | none => .ok (memRead r.st (segLinear r.st name g off) n)

/-- `SegWrite(seg, off, n, v)` (R65). -/
def segWrite (r : Run) (name : SegName) (g : Seg) (off : BitVec 64) (n : Nat) (v : BitVec 64)
    (rule : RuleId) : Except Halt Run :=
  match segFault r.st name g off n true with
  | some x => raise r x 0#16 rule
  | none => .ok (r.store (segLinear r.st name g off) n v)

/-! ## The stack (R66, R67, 10_state.md R41) -/

/-- `StackAddrSize` (10_state.md R41). -/
def stackAddrSize (s : State) : Size :=
  if s.mode == .long64 then .s64 else if s.ss.db then .s32 else .s16

/-- The stack pointer's view, less `k`, modulo the stack-address size (R66). -/
def itemOffset (sa : Size) (sp : BitVec 64) (k : Nat) : BitVec 64 :=
  viewOf sa (sp - BitVec.ofNat 64 k)

/-- Where the next push of `n` bytes goes: the offset in the stack segment (R66). -/
def pushOffset (s : State) (n : Nat) : BitVec 64 := itemOffset (stackAddrSize s) s.gpr.rsp n

/-- Where the next push of `n` bytes goes: the linear address (R66). -/
def pushLinear (s : State) (n : Nat) : BitVec 64 := segLinear s .ss s.ss (pushOffset s n)

/-- `Push(n, v)` (R66). -/
def push (n : Nat) (v : BitVec 64) (r : Run) : Except Halt Run := do
  let w ← segWrite r .ss r.st.ss (pushOffset r.st n) n v .r65
  .ok (w.upd (w.st.setRsp (withView (stackAddrSize r.st) r.st.gpr.rsp (pushOffset r.st n))))

/-- `PadBits ++ sel`: a selector in a 4- or 8-byte slot, its high-order bits a draw (R66, D7). -/
def paddedSel (d : Nat) (sel : BitVec 16) : BitVec 64 := Config.padBits d ++ sel

/-- What is pushed of a selector: padded by the next draw unless the item is 2 bytes (R66). -/
def selItem (k : Size) (sel : BitVec 16) (s : State) : BitVec 64 :=
  match k with
  | .s16 => sel.setWidth 64
  | .s32 => paddedSel s.draws sel
  | .s64 => paddedSel s.draws sel

/-- The pad of a selector is one draw, none for a 2-byte item (R66, D7). -/
def padDraws : Size → Nat
  | .s16 => 0
  | .s32 => 1
  | .s64 => 1

/-- Push a selector in an item of a size (R66). -/
def pushSel (k : Size) (sel : BitVec 16) (r : Run) : Except Halt Run := do
  let w ← push k.bytes (selItem k sel r.st) r
  .ok (w.upd (w.st.setDraws (w.st.draws + padDraws k)))

/-- Room for `total` bytes in items of `n` on a stack with a segment limit (R67). -/
def roomInSeg (g : Seg) (sa : Size) (sp : BitVec 64) (total n : Nat) : Bool :=
  (List.range (total / n)).all fun j => offsetsInLimit g (itemOffset sa sp ((j + 1) * n)) n

/-- Room for `total` bytes in items of `n` on a flat 64-bit stack (R67, `StackRoom64` of R217). -/
def roomFlat (width : Nat) (sp : BitVec 64) (total n : Nat) : Bool :=
  (List.range (total / n)).all fun j => addrsCanonical width (itemOffset .s64 sp ((j + 1) * n)) n

/-- `StackRoom(total, n)` on the current stack (R67). -/
def stackRoom (s : State) (total n : Nat) : Bool :=
  if s.mode == .long64 then roomFlat s.cpu.laWidth s.gpr.rsp total n
  else roomInSeg s.ss (stackAddrSize s) s.gpr.rsp total n

/-! ## Descriptors (R69 to R77) -/

/-- `sel[15:3] * 8`, the byte offset of a descriptor in its table (R70). -/
def selOffset (sel : BitVec 16) : Nat := 8 * (sel.extractLsb' 3 13).toNat

/-- The table indicator, bit 2 of a selector: 1 names the LDT (R69). -/
def selTi (sel : BitVec 16) : Bool := sel.getLsbD 2

/-- The base of the table a selector names (R70). -/
def tableBase (s : State) (sel : BitVec 16) : BitVec 64 :=
  if selTi sel then s.ldtr.base else s.gdtr.base

/-- Byte `last` of the descriptor is inside its table, and the table is there (R70, R31). -/
def inTable (s : State) (sel : BitVec 16) (last : Nat) : Bool :=
  if selTi sel then
    !isNullSel s.ldtr.sel && decide (selOffset sel + last ≤ s.ldtr.limit.toNat)
  else decide (selOffset sel + last ≤ s.gdtr.limit.toNat)

/-- The linear address of the descriptor (R70). -/
def descAddr (s : State) (sel : BitVec 16) : BitVec 64 := linAdd s (tableBase s sel) (selOffset sel)

/-- `FetchDescriptor(sel)` (R70). -/
def fetchDescriptor (s : State) (sel : BitVec 16) : Option (BitVec 64) :=
  if inTable s sel 7 then some (memRead s (descAddr s sel) 8) else none

/-- The upper half of a 16-byte descriptor (R70, R201). -/
def fetchUpper (s : State) (sel : BitVec 16) : Option (BitVec 64) :=
  if inTable s sel 15 then some (memRead s (linAdd s (descAddr s sel) 8) 8) else none

/-- `type`, bits 43:40 (R71). -/
def descType (d : BitVec 64) : BitVec 4 := d.extractLsb' 40 4
/-- `S`, bit 44 (R71). -/
def descS (d : BitVec 64) : Bool := d.getLsbD 44
/-- `DPL`, bits 46:45 (R71). -/
def descDpl (d : BitVec 64) : BitVec 2 := d.extractLsb' 45 2
/-- `P`, bit 47 (R71). -/
def descP (d : BitVec 64) : Bool := d.getLsbD 47
/-- `limit20` (R71). -/
def descLimit20 (d : BitVec 64) : BitVec 20 := d.extractLsb' 48 4 ++ d.extractLsb' 0 16
/-- `G`, bit 55 (R71). -/
def descG (d : BitVec 64) : Bool := d.getLsbD 55
/-- The effective limit: `limit20`, or `(limit20 << 12) | 0xFFF` by `G` (R71). -/
def descLimit (d : BitVec 64) : BitVec 32 :=
  if descG d then descLimit20 d ++ 0xFFF#12 else (descLimit20 d).setWidth 32
/-- `base`, 32 bits (R71). -/
def descBase (d : BitVec 64) : BitVec 32 := d.extractLsb' 56 8 ++ d.extractLsb' 16 24

/-- A segment register loaded with a selector and a descriptor (R26, R178). -/
def segFromDesc (sel : BitVec 16) (d : BitVec 64) : Seg :=
  { sel := sel, base := (descBase d).setWidth 64, limit := descLimit d, typ := descType d, s := descS d,
    dpl := descDpl d, p := descP d, l := d.getLsbD 53, db := d.getLsbD 54, g := descG d }

/-- `IsCallGate16(d)` (R72). -/
def isCallGate16 (lma : Bool) (d : BitVec 64) : Bool := !descS d && descType d == 0x4#4 && !lma
/-- `IsCallGate32(d)` (R72). -/
def isCallGate32 (lma : Bool) (d : BitVec 64) : Bool := !descS d && descType d == 0xC#4 && !lma
/-- `IsCallGate64(d)` (R72). -/
def isCallGate64 (lma : Bool) (d : BitVec 64) : Bool := !descS d && descType d == 0xC#4 && lma
/-- `IsTaskGate(d)` (R72). -/
def isTaskGate (lma : Bool) (d : BitVec 64) : Bool := !descS d && descType d == 0x5#4 && !lma
/-- `IsTSS(d)` (R72). -/
def isTss (d : BitVec 64) : Bool :=
  !descS d && (descType d == 0x1#4 || descType d == 0x3#4 || descType d == 0x9#4 || descType d == 0xB#4)
/-- The busy bit of a `TSS` descriptor, bit 1 of `type` (R72). -/
def isBusyTss (d : BitVec 64) : Bool := (descType d).getLsbD 1

/-- The accessed-bit write of R77: a descriptor fetched with bit 40 clear gets it set in memory, by a
read-modify-write of its byte 5. -/
def setAccessed (sel : BitVec 16) (d : BitVec 64) (r : Run) : Run :=
  if d.getLsbD 40 then r
  else
    let a := linAdd r.st (descAddr r.st sel) 5
    r.store a 1 (memRead r.st a 1 ||| 1#64)

/-- `LoadCS(sel, d)` (42_far_call_protected.md R178): `CS.RPL` becomes `CPL`. -/
def loadCs (sel : BitVec 16) (d : BitVec 64) (r : Run) : Run :=
  setAccessed sel d (r.upd (r.st.setCs (segFromDesc (withRpl sel r.st.cpl) d)))

/-- `SS <- (sel, d)` (43_call_gate.md R206, R208). -/
def loadSs (sel : BitVec 16) (d : BitVec 64) (r : Run) : Run :=
  setAccessed sel d (r.upd (r.st.setSs (segFromDesc sel d)))

/-- `LoadCSReal(sel)` (41_far_call_real.md R163): selector and base change, limit and rights stay. -/
def loadCsReal (sel : BitVec 16) (s : State) : State :=
  s.setCs { s.cs with sel := sel, base := (sel.setWidth 64) <<< 4 }

end Sys2Proof.Machine
end

