-- ==== Sys2Proof/Machine/Cet.lean ====
section
/-! DEFINITION. Control-flow Enforcement Technology: the predicates, the shadow-stack primitives, the
supervisor token and the indirect-branch tracker (10_state.md R33 to R38, 20_memory.md R78 to R80,
40_near_call.md R147, 42_far_call_protected.md R180, R181). -/

namespace Sys2Proof.Machine

/-! ## Fields of `IA32_U_CET` and `IA32_S_CET` (R34) -/

/-- `SH_STK_EN`, bit 0. -/
def cetShStkEn (v : BitVec 64) : Bool := v.getLsbD 0
/-- `ENDBR_EN`, bit 2. -/
def cetEndbrEn (v : BitVec 64) : Bool := v.getLsbD 2
/-- `NO_TRACK_EN`, bit 4. -/
def cetNoTrackEn (v : BitVec 64) : Bool := v.getLsbD 4
/-- `SUPPRESS`, bit 10. -/
def cetSuppress (v : BitVec 64) : Bool := v.getLsbD 10
/-- `TRACKER`, bit 11: 0 is `IDLE`, 1 is `WAIT_FOR_ENDBRANCH`. -/
def cetTracker (v : BitVec 64) : Bool := v.getLsbD 11
/-- `TRACKER <- WAIT_FOR_ENDBRANCH`. -/
def armTracker (v : BitVec 64) : BitVec 64 := v ||| 0x800#64
/-- `SUPPRESS <- 0`. -/
def clearSuppress (v : BitVec 64) : BitVec 64 := v &&& ~~~0x400#64

/-- The CET register of a privilege level: `IA32_U_CET` at 3, `IA32_S_CET` below (R34). -/
def cetOf (s : State) (cpl : BitVec 2) : BitVec 64 := if cpl == 3#2 then s.uCet else s.sCet

/-- Write the CET register of a privilege level. -/
def setCetOf (s : State) (cpl : BitVec 2) (v : BitVec 64) : State :=
  if cpl == 3#2 then s.setUCet v else s.setSCet v

/-- CET is on: protected mode, not virtual-8086, `CR4.CET` (R37, R38). -/
def cetActive (s : State) : Bool := s.pe && !s.vm && s.cr4Cet

/-- `ShadowStackEnabled(cpl)` (R37). -/
def shadowStackEnabled (s : State) (cpl : BitVec 2) : Bool :=
  cetActive s && cetShStkEn (cetOf s cpl) && s.cpu.hasCetSs

/-- `EndbranchEnabled(cpl)` (R38). -/
def endbranchEnabled (s : State) (cpl : BitVec 2) : Bool :=
  cetActive s && cetEndbrEn (cetOf s cpl) && s.cpu.hasCetIbt

/-- `EndbranchEnabledAndNotSuppressed(cpl)` (R38). -/
def endbranchEnabledAndNotSuppressed (s : State) (cpl : BitVec 2) : Bool :=
  endbranchEnabled s cpl && !cetSuppress (cetOf s cpl)

/-! ## The shadow stack (R78 to R80) -/

/-- `ShadowStackStore(lin, n, v)`: a plain write under the identity `Translate` (R79). -/
def shadowStore (lin : BitVec 64) (n : Nat) (v : BitVec 64) (r : Run) : Run := r.store lin n v

/-- `ShadowStackPush4B` and `ShadowStackPush8B`: decrement `SSP` by `n`, then store (R78). -/
def shadowPush (n : Nat) (v : BitVec 64) (r : Run) : Run :=
  shadowStore (r.st.ssp - BitVec.ofNat 64 n) n v
    (r.upd (r.st.setSsp (r.st.ssp - BitVec.ofNat 64 n)))

/-- The shadow-stack push of a near call: 4 bytes at operand sizes 16 and 32, 8 bytes at 64
(40_near_call.md R141 to R146). -/
def nearShadowPush (k : Size) (ret : BitVec 64) (r : Run) : Run :=
  if shadowStackEnabled r.st r.st.cpl then
    match k with
    | .s16 => shadowPush 4 (viewOf .s16 ret) r
    | .s32 => shadowPush 4 (viewOf .s32 ret) r
    | .s64 => shadowPush 8 ret r
  else r

/-- The three words of a far frame: the caller's `CS`, its linear return address and the old `SSP`
(42_far_call_protected.md R180, 43_call_gate.md R212, R218). -/
def shadowFrame (cs : BitVec 16) (lip ssp : BitVec 64) (r : Run) : Run :=
  shadowPush 8 ssp (shadowPush 8 lip (shadowPush 8 (cs.setWidth 64) r))

/-- Store four zero bytes below `SSP`, align `SSP` down to 8, push the frame (R180, R218). -/
def alignedShadowFrame (cs : BitVec 16) (lip : BitVec 64) (r : Run) : Run :=
  let r0 := shadowStore (r.st.ssp - 4#64) 4 0 r
  shadowFrame cs lip r.st.ssp (r0.upd (r0.st.setSsp (r.st.ssp &&& 0xFFFFFFFFFFFFFFF8#64)))

/-- `shadow_stack_lock_cmpxchg8b(lin, new, exp)`: the old value, and the store when it equals `exp`
(R80). One step of the machine is one atomic action. -/
def shadowCmpxchg (lin new exp : BitVec 64) (r : Run) : BitVec 64 × Run :=
  if memRead r.st lin 8 == exp then (memRead r.st lin 8, shadowStore lin 8 new r)
  else (memRead r.st lin 8, r)

/-- `IA32_PLi_SSP` (R36). -/
def plSsp (s : State) (i : BitVec 2) : BitVec 64 :=
  if i == 0#2 then s.pl0Ssp else if i == 1#2 then s.pl1Ssp else if i == 2#2 then s.pl2Ssp else s.pl3Ssp

/-! ## The tracker -/

/-- `TrackerUpdate()` of the near indirect calls (40_near_call.md R147). -/
def trackerUpdate (has3E : Bool) (s : State) : State :=
  if endbranchEnabledAndNotSuppressed s s.cpl && (!has3E || !cetNoTrackEn (cetOf s s.cpl)) then
    setCetOf s s.cpl (armTracker (cetOf s s.cpl))
  else s

/-- `FarEndbranch()` (42_far_call_protected.md R181), and the last step of R213 and R218: the tracker is
armed and `SUPPRESS` cleared. -/
def farEndbranch (s : State) : State :=
  if endbranchEnabled s s.cpl then
    setCetOf s s.cpl (clearSuppress (armTracker (cetOf s s.cpl)))
  else s

end Sys2Proof.Machine
end

