-- ==== Sys2Proof/Machine/Operands.lean ====
section
/-! DEFINITION. The operands of `CALL`: registers, effective addresses, `r/m` values and far pointers
(30_encoding.md R102 to R110, 20_memory.md R68, 40_near_call.md R148). -/

namespace Sys2Proof.Machine

/-! ## Registers (10_state.md R24) -/

/-- `GPR[i]`. -/
def gprGet (g : Gprs) (i : BitVec 4) : BitVec 64 :=
  match i.toNat with
  | 0 => g.rax
  | 1 => g.rcx
  | 2 => g.rdx
  | 3 => g.rbx
  | 4 => g.rsp
  | 5 => g.rbp
  | 6 => g.rsi
  | 7 => g.rdi
  | 8 => g.r8
  | 9 => g.r9
  | 10 => g.r10
  | 11 => g.r11
  | 12 => g.r12
  | 13 => g.r13
  | 14 => g.r14
  | _ => g.r15

/-- A register number: the three bits of the encoding, plus 8 when the REX bit is set (R106, R109). -/
def regNum (ext : Bool) (r : BitVec 3) : BitVec 4 := BitVec.ofBool ext ++ r

/-- `REX.B` of the prefixes, 0 without REX (R109). -/
def rexB (p : Prefixes) : Bool := (p.rex.map Rex.b).getD false

/-- `REX.X` of the prefixes, 0 without REX (R109). -/
def rexX (p : Prefixes) : Bool := (p.rex.map Rex.x).getD false

/-- A register read at a size (R24). -/
def regView (s : State) (k : Size) (i : BitVec 4) : BitVec 64 := viewOf k (gprGet s.gpr i)

/-! ## Effective addresses (R107 to R109) -/

/-- The sum of the registers of a 16-bit base (R107). -/
def base16Value (g : Gprs) : Base16 → BitVec 64
  | .bxSi => g.rbx + g.rsi
  | .bxDi => g.rbx + g.rdi
  | .bpSi => g.rbp + g.rsi
  | .bpDi => g.rbp + g.rdi
  | .si => g.rsi
  | .di => g.rdi
  | .bp => g.rbp
  | .bx => g.rbx

/-- The displacement of a 16-bit operand, `disp8` sign-extended (R107). -/
def disp16Value : Disp16 → BitVec 64
  | .none => 0
  | .d8 d => d.signExtend 64
  | .d16 d => d.signExtend 64

/-- The displacement of a 32- or 64-bit operand, sign-extended (R108, R109; log entry 15). -/
def disp32Value : Disp32 → BitVec 64
  | .none => 0
  | .d8 d => d.signExtend 64
  | .d32 d => d.signExtend 64

/-- The index of a SIB byte, scaled; `index` 4 without `REX.X` is no index (R108, R109). -/
def indexValue (s : State) (a : Size) (p : Prefixes) (scale : BitVec 2) (index : BitVec 3) :
    BitVec 64 :=
  if index == 4#3 && !rexX p then 0
  else regView s a (regNum (rexX p) index) <<< scale.toNat

/-- The address size of an instruction with these prefixes (10_state.md R40). -/
def addrSizeOf (s : State) (p : Prefixes) : Size := addressSize s.ctx p.addrSize

/-- The effective address of a memory operand: the sum of its parts, modulo the address size.
RIP-relative operands add `nRIP` in 64-bit mode (R107 to R109). -/
def effAddr (s : State) (p : Prefixes) (nrip : BitVec 64) : Mem → BitVec 64
  | .base16 b d => viewOf .s16 (base16Value s.gpr b + disp16Value d)
  | .abs16 d => d.setWidth 64
  | .base rm d =>
    viewOf (addrSizeOf s p) (regView s (addrSizeOf s p) (regNum (rexB p) rm) + disp32Value d)
  | .disp32 d =>
    if s.mode == .long64 then viewOf (addrSizeOf s p) (nrip + d.signExtend 64)
    else viewOf (addrSizeOf s p) (d.signExtend 64)
  | .sib sc ix b d =>
    viewOf (addrSizeOf s p)
      (regView s (addrSizeOf s p) (regNum (rexB p) b) + indexValue s (addrSizeOf s p) p sc ix
        + disp32Value d)
  | .sibNoBase sc ix d =>
    viewOf (addrSizeOf s p) (indexValue s (addrSizeOf s p) p sc ix + d.signExtend 64)

/-- `SS` for a base register `ESP` or `EBP`, `DS` for any other (R108). -/
def defaultSegOfBase (i : BitVec 4) : SegName := if i == 4#4 || i == 5#4 then .ss else .ds

/-- The default segment of a memory operand (R107, R108). -/
def defaultSeg (p : Prefixes) : Mem → SegName
  | .base16 .bpSi _ => .ss
  | .base16 .bpDi _ => .ss
  | .base16 .bp _ => .ss
  | .base16 .bxSi _ => .ds
  | .base16 .bxDi _ => .ds
  | .base16 .si _ => .ds
  | .base16 .di _ => .ds
  | .base16 .bx _ => .ds
  | .abs16 _ => .ds
  | .base rm _ => defaultSegOfBase (regNum (rexB p) rm)
  | .disp32 _ => .ds
  | .sib _ _ b _ => defaultSegOfBase (regNum (rexB p) b)
  | .sibNoBase _ _ _ => .ds

/-- The segment of a memory operand: an override replaces the default, but `CS`, `SS`, `DS` and `ES`
overrides have no effect in 64-bit mode (R110). -/
def operandSeg (s : State) (p : Prefixes) (m : Mem) : SegName :=
  match p.seg with
  | none => defaultSeg p m
  | some g =>
    if s.mode == .long64 && g != .fs && g != .gs then defaultSeg p m else g

/-! ## Operand values -/

/-- The offset of byte `k` of an operand at `ea`: outside 64-bit mode truncated to the address size, in 64-bit
mode modulo 2^64 whatever the address size (20_memory.md R61; log entry 14). -/
def operandByteOffset (s : State) (p : Prefixes) (ea : BitVec 64) (k : Nat) : BitVec 64 :=
  if s.mode == .long64 then ea + BitVec.ofNat 64 k
  else viewOf (addrSizeOf s p) (ea + BitVec.ofNat 64 k)

/-- The memory operand's `n` bytes from byte `k` on (R61, R65). -/
def readMemOperand (r : Run) (p : Prefixes) (nrip : BitVec 64) (m : Mem) (k n : Nat) :
    Except Halt (BitVec 64) :=
  segRead r (operandSeg r.st p m) (segOf r.st (operandSeg r.st p m))
    (operandByteOffset r.st p (effAddr r.st p nrip m) k) n .r65

/-- `DEST` of `FF /2`: a register at the operand size, or a memory operand (R106, R148). -/
def readRm (r : Run) (p : Prefixes) (nrip : BitVec 64) (k : Size) :
    RmOperand → Except Halt (BitVec 64)
  | .reg rm => .ok (regView r.st k (regNum (rexB p) rm))
  | .mem m => readMemOperand r p nrip m 0 k.bytes

/-- A far address: offset, zero-extended, and selector (R102). -/
structure FarPtr where
  off : BitVec 64
  sel : BitVec 16
deriving DecidableEq, Repr

/-- A far pointer in memory: the offset at the lower address, then the selector, as two accesses
(20_memory.md R68, decision D30). -/
def readFarPtr (r : Run) (p : Prefixes) (nrip : BitVec 64) (k : Size) (m : Mem) :
    Except Halt FarPtr := do
  let off ← readMemOperand r p nrip m 0 k.bytes
  let sel ← readMemOperand r p nrip m k.bytes 2
  .ok { off := off, sel := sel.setWidth 16 }

end Sys2Proof.Machine
end

