-- ==== Sys2Proof/Machine/CallGate.lean ====
section
/-! DEFINITION. Far calls through a call gate (43_call_gate.md R200 to R222). -/

namespace Sys2Proof.Machine

/-- What a call gate holds (20_memory.md R73): the code selector, the offset at the gate's size,
zero-extended, the parameter count masked to 5 bits, and `CallGateSize`. -/
structure Gate where
  sel : BitVec 16
  off : BitVec 64
  count : Nat
  size : Size
deriving DecidableEq, Repr

/-- `CallGateSize`: 16 for type 4, else 64 in IA-32e mode and 32 outside it (R73). -/
def gateSize (lma : Bool) (d : BitVec 64) : Size :=
  if descType d == 0x4#4 then .s16 else if lma then .s64 else .s32

/-- `gate.offset` at the gate's size; `h` is the upper half of a 16-byte gate (R73). -/
def gateOffset (k : Size) (d h : BitVec 64) : BitVec 64 :=
  match k with
  | .s16 => (d.extractLsb' 0 16).setWidth 64
  | .s32 => (d.extractLsb' 48 16 ++ d.extractLsb' 0 16).setWidth 64
  | .s64 => h.extractLsb' 0 32 ++ d.extractLsb' 48 16 ++ d.extractLsb' 0 16

/-- Read a gate descriptor (R73). -/
def gateOf (lma : Bool) (d h : BitVec 64) : Gate :=
  { sel := d.extractLsb' 16 16
    off := gateOffset (gateSize lma d) d h
    count := (d.extractLsb' 32 5).toNat
    size := gateSize lma d }

/-! ## What is saved of the caller -/

/-- `oldLIP`: `nRIP` from 64-bit mode, else `CS.base + nEIP` in 32 bits (R212, R218). -/
def callerLip (s : State) (ret : BitVec 64) : BitVec 64 :=
  if s.mode == .long64 then ret else viewOf .s32 (s.cs.base + viewOf .s32 ret)

/-- `oldSP'` of R209: `RSP` from 64-bit mode, else `ESP` zero-extended. -/
def callerSp (s : State) : BitVec 64 :=
  if s.mode == .long64 then s.gpr.rsp else viewOf .s32 s.gpr.rsp

/-! ## The inner stack (R204, R205, 20_memory.md R76) -/

/-- A stack read from the `TSS`: selector and pointer. -/
structure InnerStack where
  ss : BitVec 16
  sp : BitVec 64
deriving DecidableEq, Repr

/-- `TSSstackAddress` of a privilege level (R76). -/
def tssStackAddress (kind : TssKind) (p : BitVec 2) : Nat :=
  match kind with
  | .tss16 => p.toNat * 4 + 2
  | .tss32 => p.toNat * 8 + 4
  | .tss64 => p.toNat * 8 + 4

/-- The last byte of the stack fields, from `TSSstackAddress` (R76). -/
def tssStackLast (kind : TssKind) : Nat :=
  match kind with
  | .tss16 => 3
  | .tss32 => 5
  | .tss64 => 7

/-- The inner stack of level `p` as it stands in the current `TSS` (R204). -/
def tssInnerStack (s : State) (p : BitVec 2) : InnerStack :=
  let a := tssStackAddress s.tr.kind p
  match s.tr.kind with
  | .tss16 =>
    { ss := (memRead s (linAdd s s.tr.base (a + 2)) 2).setWidth 16
      sp := memRead s (linAdd s s.tr.base a) 2 }
  | .tss32 =>
    { ss := (memRead s (linAdd s s.tr.base (a + 4)) 2).setWidth 16
      sp := memRead s (linAdd s s.tr.base a) 4 }
  | .tss64 =>
    { ss := p.setWidth 16
      sp := memRead s (linAdd s s.tr.base a) 8 }

/-- Read the inner stack, or `#TS` when the `TSS` is too short (R204). -/
def readInnerStack (r : Run) (p : BitVec 2) : Except Halt InnerStack := do
  raiseIf (decide (r.st.tr.limit.toNat < tssStackAddress r.st.tr.kind p + tssStackLast r.st.tr.kind))
    r .ts (errorCode r.st.tr.sel) .r204
  .ok (tssInnerStack r.st p)

/-- Check the new stack segment, legacy mode only (R205). -/
def readNewStackDesc (r : Run) (p : BitVec 2) (ss : BitVec 16) : Except Halt (BitVec 64) := do
  raiseIf (isNullSel ss) r .ts (errorCode ss) .r205
  match fetchDescriptor r.st ss with
  | none => raise r .ts (errorCode ss) .r205
  | some sd =>
    raiseIf (rplOf ss != p || descDpl sd != p || !(segFromDesc ss sd).isWritableData) r .ts
      (errorCode ss) .r205
    raiseIf (!descP sd) r .ss (errorCode ss) .r205
    .ok sd

/-! ## Call to a more privileged level -/

/-- `CopyParameters(temp, n)` (R214): parameter `i` is at `oldSS : oldSP + (i-1)*n`; pushed from the last
to the first, so that they keep their order. DESIGN CHOICE (log entry 37): each is read just before it is
pushed; R214 does not say whether all are read before the first push. -/
def copyParameters (oldSs : Seg) (sa : Size) (oldSp : BitVec 64) (n : Nat) :
    Nat → Run → Except Halt Run
  | 0, r => .ok r
  | i + 1, r => do
    let v ← segRead r .ss oldSs (viewOf sa (oldSp + BitVec.ofNat 64 (i * n))) n .r214
    let w ← push n v r
    copyParameters oldSs sa oldSp n i w

/-- The rule of a more-privileged call by gate size (R206, R208, R209). -/
def moreRule (k : Size) : RuleId :=
  match k with
  | .s16 => .r208
  | .s32 => .r206
  | .s64 => .r209

/-- `StackAddrSize` of a new stack segment under a 16- or 32-bit gate (R207). -/
def newStackAddrSize (g : Seg) : Size := if g.db then .s32 else .s16

/-- `MORE_PRIVILEGE` with a 16- or 32-bit gate, up to the last push (R206, R208). -/
def moreLegacy (g : Gate) (cd : BitVec 64) (ret : BitVec 64) (inner : InnerStack) (r : Run) :
    Except Halt Run := do
  let s := r.st
  let n := g.size.bytes
  let sd ← readNewStackDesc r (descDpl cd) inner.ss
  let newSs := segFromDesc inner.ss sd
  raiseIf (!roomInSeg newSs (newStackAddrSize newSs) inner.sp (g.count * n + 4 * n) n) r .ss
    (errorCode inner.ss) (moreRule g.size)
  raiseIf (!inLimit (segFromDesc g.sel cd) g.off.toNat) r .gp 0#16 (moreRule g.size)
  let r1 := loadSs inner.ss sd r
  let r2 := r1.upd (r1.st.setRsp (withView .s32 r1.st.gpr.rsp inner.sp))
  let r3 := loadCs g.sel cd r2
  let r4 := r3.upd (branchTo r3.st g.size g.off)
  let r5 ← pushSel g.size s.ss.sel r4
  let r6 ← push n s.gpr.rsp r5
  let r7 ← copyParameters s.ss (stackAddrSize s) s.gpr.rsp n g.count r6
  let r8 ← pushSel g.size s.cs.sel r7
  push n ret r8

/-- `SS` after the NULL load of a 64-bit gate (R209, GK31): base 0 and `DPL` the new level; what the spec
leaves undescribed of the hidden part is a draw (log entry 11). -/
def nullSs (sel : BitVec 16) (p : BitVec 2) (bits : BitVec 64) : Seg :=
  { sel := sel, base := 0, limit := bits.extractLsb' 0 32, typ := bits.extractLsb' 32 4,
    s := bits.getLsbD 36, dpl := p, p := bits.getLsbD 37, l := bits.getLsbD 38, db := bits.getLsbD 39,
    g := bits.getLsbD 40 }

/-- `SS.sel <- NewSS; SS.DPL <- p` (R209). -/
def loadNullSs (sel : BitVec 16) (p : BitVec 2) (s : State) : State :=
  (s.setSs (nullSs sel p (Config.nullSsHidden s.draws))).setDraws (s.draws + 1)

/-- `MORE_PRIVILEGE` with a 64-bit gate, up to the last push (R209). -/
def more64 (g : Gate) (cd : BitVec 64) (ret : BitVec 64) (inner : InnerStack) (r : Run) :
    Except Halt Run := do
  let s := r.st
  raiseIf (!roomFlat s.cpu.laWidth inner.sp 32 8) r .ss (errorCode inner.ss) .r209
  raiseIf (!canonical s.cpu.laWidth g.off) r .gp 0#16 .r209
  let r1 := r.upd ((loadNullSs inner.ss (descDpl cd) s).setRsp inner.sp)
  let r2 := loadCs g.sel cd r1
  let r3 := r2.upd (branchTo r2.st .s64 g.off)
  let r4 ← pushSel .s64 s.ss.sel r3
  let r5 ← push 8 (callerSp s) r4
  let r6 ← pushSel .s64 s.cs.sel r5
  push 8 ret r6

/-- Save the user shadow-stack pointer, by the caller's privilege level (R210). -/
def saveUserSsp (s : State) : State :=
  if shadowStackEnabled s s.cpl && s.cpl == 3#2 then
    s.setPl3Ssp (if s.lma then laAdjust s.cpu.laWidth s.ssp else s.ssp)
  else s

/-- Change the privilege level (R211): the only place a `CALL` does. -/
def enterLevel (p : BitVec 2) (s : State) : State :=
  (s.setCpl p).setCs { s.cs with sel := withRpl s.cs.sel p }

/-- Switch to the supervisor shadow stack of the new level (R212). `old` is the state before the call. -/
def supervisorShadow (old : State) (ret : BitVec 64) (r : Run) : Except Halt Run := do
  if shadowStackEnabled r.st r.st.cpl then
    let ssp := plSsp r.st r.st.cpl
    let r1 := r.upd (r.st.setSsp ssp)
    raiseIf (ssp &&& 0x7#64 != 0#64) r1 .gp 0#16 .r212
    raiseIf (ssp &&& ~~~0x1F#64 != (ssp - 24#64) &&& ~~~0x1F#64) r1 .gp 0#16 .r212
    raiseIf (!(r.st.lma && r.st.cs.l) && ssp.extractLsb' 32 32 != 0#32) r1 .gp 0#16 .r212
    let x := shadowCmpxchg ssp (ssp ||| 1#64) ssp r1
    raiseIf (x.1 != ssp) x.2 .gp 0#16 .r212
    if old.ss.dpl != 3#2 then .ok (shadowFrame old.cs.sel (callerLip old ret) old.ssp x.2)
    else .ok x.2
  else .ok r

/-- `MORE_PRIVILEGE` (R203 to R214). -/
def morePrivilege (g : Gate) (cd : BitVec 64) (ret : BitVec 64) (r : Run) : Except Halt Run := do
  let inner ← readInnerStack r (descDpl cd)
  let w ← match g.size with
    | .s16 => moreLegacy g cd ret inner r
    | .s32 => moreLegacy g cd ret inner r
    | .s64 => more64 g cd ret inner r
  let v ← supervisorShadow r.st ret (w.upd (enterLevel (descDpl cd) (saveUserSsp w.st)))
  .ok (v.upd (farEndbranch v.st))

/-! ## Call through a gate at the same privilege level -/

/-- `SamePrivilegeTail()` (R218). `old` is the state before the call. -/
def samePrivilegeTail (old : State) (ret : BitVec 64) (r : Run) : Run :=
  let w :=
    if shadowStackEnabled r.st r.st.cpl then
      alignedShadowFrame old.cs.sel (callerLip old ret) r
    else r
  w.upd (farEndbranch w.st)

/-- The rule of a same-level call by gate size (R215 to R217). -/
def sameRule (k : Size) : RuleId :=
  match k with
  | .s16 => .r216
  | .s32 => .r215
  | .s64 => .r217

/-- The implicit stack switch of R219: from compatibility mode into 64-bit mode, `RSP[63:32]` is a draw
(U1, decision D20). -/
def implicitStackSwitch (s : State) : State :=
  if s.mode == .long64 then s
  else (s.setRsp (Config.rspUpper s.draws ++ s.gpr.rsp.extractLsb' 0 32)).setDraws (s.draws + 1)

/-- The state in which a gate's room test is made: a 64-bit gate sees the switched stack (R217). -/
def sameStackState (k : Size) (s : State) : State :=
  match k with
  | .s16 => s
  | .s32 => s
  | .s64 => implicitStackSwitch s

/-- Room for the return address: `StackRoom`, or `StackRoom64` for a 64-bit gate (R215 to R217). -/
def sameRoom (k : Size) (s : State) : Bool :=
  match k with
  | .s16 => stackRoom s 4 2
  | .s32 => stackRoom s 8 4
  | .s64 => roomFlat s.cpu.laWidth s.gpr.rsp 16 8

/-- The gate's offset is outside the new code segment, or not canonical for a 64-bit gate (R215 to
R217). -/
def sameTargetBad (k : Size) (s : State) (cd off : BitVec 64) (sel : BitVec 16) : Bool :=
  match k with
  | .s16 => !inLimit (segFromDesc sel cd) off.toNat
  | .s32 => !inLimit (segFromDesc sel cd) off.toNat
  | .s64 => !canonical s.cpu.laWidth off

/-- `SAME_PRIVILEGE` (R215 to R218): the return address is pushed after `CS` is loaded. -/
def samePrivilege (g : Gate) (cd : BitVec 64) (ret : BitVec 64) (r : Run) : Except Halt Run := do
  let r0 := r.upd (sameStackState g.size r.st)
  raiseIf (!sameRoom g.size r0.st) r0 .ss 0#16 (sameRule g.size)
  raiseIf (sameTargetBad g.size r0.st cd g.off g.sel) r0 .gp 0#16 (sameRule g.size)
  let r1 := loadCs g.sel cd r0
  let r2 := r1.upd (branchTo r1.st g.size g.off)
  let r3 ← pushSel g.size r.st.cs.sel r2
  let r4 ← push g.size.bytes ret r3
  .ok (samePrivilegeTail r.st ret r4)

/-! ## The gate's checks -/

/-- The upper half of a 16-byte gate and its tests, in IA-32e mode (R201); no upper half outside it. -/
def readGateUpper (sel : BitVec 16) (r : Run) : Except Halt (BitVec 64) :=
  if r.st.lma then
    match fetchUpper r.st sel with
    | none => raise r .gp (errorCode sel) .r201
    | some h => do
      raiseIf (h.extractLsb' 40 5 != 0#5) r .gp (errorCode sel) .r201
      .ok h
  else .ok 0#64

/-- The code-segment descriptor a gate names, with its tests (R200). -/
def readGateCode (g : Gate) (r : Run) : Except Halt (BitVec 64) := do
  raiseIf (isNullSel g.sel) r .gp 0#16 .r200
  match fetchDescriptor r.st g.sel with
  | none => raise r .gp (errorCode g.sel) .r200
  | some cd =>
    let c := segFromDesc g.sel cd
    raiseIf (!c.isCode || decide (r.st.cpl < c.dpl)) r .gp (errorCode g.sel) .r200
    raiseIf (r.st.lma && (!c.l || c.db)) r .gp (errorCode g.sel) .r200
    raiseIf (!c.p) r .np (errorCode g.sel) .r200
    .ok cd

/-- `CALL-GATE` (R200): `d` is the gate's descriptor, `sel` the selector that named it. -/
def callGate (sel : BitVec 16) (d : BitVec 64) (ret : BitVec 64) (r : Run) : Except Halt Run := do
  let h ← readGateUpper sel r
  raiseIf (decide (descDpl d < r.st.cpl) || decide (descDpl d < rplOf sel)) r .gp (errorCode sel) .r200
  raiseIf (!descP d) r .np (errorCode sel) .r200
  let cd ← readGateCode (gateOf r.st.lma d h) r
  if (segFromDesc (gateOf r.st.lma d h).sel cd).isNonconforming && decide (descDpl cd < r.st.cpl) then
    morePrivilege (gateOf r.st.lma d h) cd ret r
  else samePrivilege (gateOf r.st.lma d h) cd ret r

end Sys2Proof.Machine
end

