-- ==== Sys2Proof/Machine/TaskSwitch.lean ====
section
/-! DEFINITION. Far calls whose selector names a task gate or a `TSS` (44_task_switch.md R240 to R246):
every test before the switch, then the refusal of R244. -/

namespace Sys2Proof.Machine

/-- `SwitchTasksWithNesting`: an open parameter; the model refuses (R244). -/
def switchTasks : Except Halt Run := .error (.refuse .taskSwitch)

/-- Task gate (R240): `d` is the gate's descriptor, `sel` the selector that named it. A NULL `TSS`
selector fails. -/
def taskGate (sel : BitVec 16) (d : BitVec 64) (r : Run) : Except Halt Run := do
  raiseIf (decide (descDpl d < r.st.cpl) || decide (descDpl d < rplOf sel)) r .gp (errorCode sel) .r240
  raiseIf (!descP d) r .np (errorCode sel) .r240
  let tsel := d.extractLsb' 16 16
  raiseIf (selTi tsel || isNullSel tsel) r .gp (errorCode tsel) .r240
  match fetchDescriptor r.st tsel with
  | none => raise r .gp (errorCode tsel) .r240
  | some td =>
    raiseIf (!isTss td) r .gp (errorCode tsel) .r240
    raiseIf (isBusyTss td) r .gp (errorCode tsel) .r240
    raiseIf (!descP td) r .np (errorCode tsel) .r240
    switchTasks

/-- `TSS` selector directly (R241). -/
def taskStateSegment (sel : BitVec 16) (d : BitVec 64) (r : Run) : Except Halt Run := do
  raiseIf (decide (descDpl d < r.st.cpl) || decide (descDpl d < rplOf sel) || isBusyTss d) r .gp
    (errorCode sel) .r241
  raiseIf (!descP d) r .np (errorCode sel) .r241
  switchTasks

end Sys2Proof.Machine
end

