-- ==== Sys2Proof/Machine/FarCallProtected.lean ====
section
/-! DEFINITION. Far calls in protected, compatibility and 64-bit mode (42_far_call_protected.md R170 to
R186): `CALL ptr16:16`, `ptr16:32`, `m16:16`, `m16:32`, `m16:64`. -/

namespace Sys2Proof.Machine

/-- `TargetMode(nd) == Compat` (R175). -/
def targetCompat (s : State) (c : Seg) : Bool := s.lma && !c.l

/-- `tempEIP` (R176, R177): the offset, masked for a compatibility-mode target and for operand size 16. -/
def farTarget (s : State) (k : Size) (c : Seg) (off : BitVec 64) : BitVec 64 :=
  let t := if targetCompat s c then viewOf .s32 off else off
  match k with
  | .s16 => viewOf .s16 t
  | .s32 => t
  | .s64 => t

/-- `tempPushLIP` of a conforming target: by operand size (R176; 90_conflicts.md C8). -/
def conformingLip (s : State) (k : Size) (ret : BitVec 64) : BitVec 64 :=
  match k with
  | .s16 => viewOf .s32 (s.cs.base + viewOf .s16 ret)
  | .s32 => viewOf .s32 (s.cs.base + viewOf .s32 ret)
  | .s64 => ret

/-- `tempPushLIP` of a nonconforming target: by mode (R177; 90_conflicts.md C8). -/
def nonconformingLip (s : State) (ret : BitVec 64) : BitVec 64 :=
  if s.lma && s.cs.l then ret else viewOf .s32 (s.cs.base + viewOf .s32 ret)

/-- `FarReturnPush()` (R179): the caller's `CS`, then the return offset, on the current stack. -/
def farReturnPush (k : Size) (ret : BitVec 64) (r : Run) : Except Halt Run := do
  let w ← pushSel k r.st.cs.sel r
  push k.bytes ret w

/-- `FarShadowStackPush(nd)` (R180), with the caller's `CS` selector and linear return address. -/
def farShadowStackPush (c : Seg) (cs : BitVec 16) (lip : BitVec 64) (r : Run) : Except Halt Run :=
  if shadowStackEnabled r.st r.st.cpl then do
    raiseIf (!(r.st.lma && c.l) && r.st.ssp.extractLsb' 32 32 != 0#32) r .gp 0#16 .r180
    .ok (alignedShadowFrame cs lip r)
  else .ok r

/-- What R176 and R177 share once the privilege test has passed: the segment is present, there is room,
the target is inside the new segment and canonical; then the pushes, the `CS` load, the branch and the
CET steps. -/
def codeSegmentTransfer (rule : RuleId) (k : Size) (f : FarPtr) (d lip ret : BitVec 64) (r : Run) :
    Except Halt Run := do
  let c := segFromDesc f.sel d
  let t := farTarget r.st k c f.off
  raiseIf (!c.p) r .np (errorCode f.sel) rule
  raiseIf (!stackRoom r.st (2 * k.bytes) k.bytes) r .ss 0#16 rule
  raiseIf ((!r.st.lma || targetCompat r.st c) && !inLimit c t.toNat) r .gp 0#16 rule
  raiseIf (!canonical r.st.cpu.laWidth t) r .gp 0#16 rule
  let r1 ← farReturnPush k ret r
  let r2 := loadCs f.sel d r1
  let r3 := r2.upd (branchTo r2.st k t)
  let r4 ← farShadowStackPush c r.st.cs.sel lip r3
  .ok (r4.upd (farEndbranch r4.st))

/-- Far call to a conforming code segment (R176). -/
def conformingCall (k : Size) (f : FarPtr) (d ret : BitVec 64) (r : Run) : Except Halt Run := do
  let c := segFromDesc f.sel d
  raiseIf (c.l && c.db && r.st.lma) r .gp (errorCode f.sel) .r176
  raiseIf (decide (r.st.cpl < c.dpl)) r .gp (errorCode f.sel) .r176
  codeSegmentTransfer .r176 k f d (conformingLip r.st k ret) ret r

/-- Far call to a nonconforming code segment (R177). -/
def nonconformingCall (k : Size) (f : FarPtr) (d ret : BitVec 64) (r : Run) : Except Halt Run := do
  let c := segFromDesc f.sel d
  raiseIf (c.l && c.db && r.st.lma) r .gp (errorCode f.sel) .r177
  raiseIf (decide (r.st.cpl < rplOf f.sel) || c.dpl != r.st.cpl) r .gp (errorCode f.sel) .r177
  codeSegmentTransfer .r177 k f d (nonconformingLip r.st ret) ret r

/-- The descriptor is a call gate of the current mode (R173). -/
def isCallGate (lma : Bool) (d : BitVec 64) : Bool :=
  isCallGate16 lma d || isCallGate32 lma d || isCallGate64 lma d

/-- The type test of R173: in IA-32e mode only code segments and 64-bit call gates pass. -/
def farTypeOk (lma : Bool) (c : Seg) (d : BitVec 64) : Bool :=
  if lma then c.isCode || isCallGate64 lma d
  else c.isCode || isCallGate16 lma d || isCallGate32 lma d || isTaskGate lma d || isTss d

/-- The dispatch of R174, by type and access rights. -/
def farDispatch (k : Size) (f : FarPtr) (d ret : BitVec 64) (r : Run) : Except Halt Run :=
  if (segFromDesc f.sel d).isConforming then conformingCall k f d ret r
  else if (segFromDesc f.sel d).isNonconforming then nonconformingCall k f d ret r
  else if isCallGate r.st.lma d then callGate f.sel d ret r
  else if isTaskGate r.st.lma d then taskGate f.sel d r
  else taskStateSegment f.sel d r

/-- A far call with `PE` 1 and `VM` 0 (R170 to R174). -/
def farProtected (k : Size) (f : FarPtr) (ret : BitVec 64) (r : Run) : Except Halt Run := do
  raiseIf (isNullSel f.sel) r .gp 0#16 .r171
  match fetchDescriptor r.st f.sel with
  | none => raise r .gp (errorCode f.sel) .r172
  | some d =>
    raiseIf (!farTypeOk r.st.lma (segFromDesc f.sel d) d) r .gp (errorCode f.sel) .r173
    farDispatch k f d ret r

/-- `CALL ptr16:16` in protected and compatibility mode (R170). -/
def execCallPtr1616Prot (p : Prefixes) (off : BitVec 16) (sel : BitVec 16) (s : State) :
    Host.Outcome State Fault Refusal :=
  runCall (.callPtr1616Prot p off sel) s
    (farProtected .s16 { off := off.setWidth 64, sel := sel }
      (nextRip s (instrLength (.callPtr1616Prot p off sel))))

/-- `CALL ptr16:32` in protected and compatibility mode (R170). -/
def execCallPtr1632Prot (p : Prefixes) (off : BitVec 32) (sel : BitVec 16) (s : State) :
    Host.Outcome State Fault Refusal :=
  runCall (.callPtr1632Prot p off sel) s
    (farProtected .s32 { off := off.setWidth 64, sel := sel }
      (nextRip s (instrLength (.callPtr1632Prot p off sel))))

/-- `CALL m16:16` in protected, compatibility and 64-bit mode (R170). -/
def execCallM1616Prot (p : Prefixes) (m : Mem) (s : State) : Host.Outcome State Fault Refusal :=
  let ret := nextRip s (instrLength (.callM1616Prot p m))
  runCall (.callM1616Prot p m) s fun r => do
    let f ← readFarPtr r p ret .s16 m
    farProtected .s16 f ret r

/-- `CALL m16:32` in protected, compatibility and 64-bit mode (R170). -/
def execCallM1632Prot (p : Prefixes) (m : Mem) (s : State) : Host.Outcome State Fault Refusal :=
  let ret := nextRip s (instrLength (.callM1632Prot p m))
  runCall (.callM1632Prot p m) s fun r => do
    let f ← readFarPtr r p ret .s32 m
    farProtected .s32 f ret r

/-- `CALL m16:64` in 64-bit mode (R170). -/
def execCallM1664 (p : Prefixes) (m : Mem) (s : State) : Host.Outcome State Fault Refusal :=
  let ret := nextRip s (instrLength (.callM1664 p m))
  runCall (.callM1664 p m) s fun r => do
    let f ← readFarPtr r p ret .s64 m
    farProtected .s64 f ret r

end Sys2Proof.Machine
end

