-- ==== Sys2Proof/Machine/FarCallReal.lean ====
section
/-! DEFINITION. Far calls in real-address and virtual-8086 mode (41_far_call_real.md R160 to R166):
`CALL ptr16:16`, `ptr16:32`, `m16:16`, `m16:32`. No descriptor, no privilege check, no CET step (R160,
R164). -/

namespace Sys2Proof.Machine

/-- Operand size 16 (R161). -/
def farReal16 (f : FarPtr) (ret : BitVec 64) (r : Run) : Except Halt Run := do
  raiseIf (!stackRoom r.st 4 2) r .ss 0#16 .r161
  let w ← pushSel .s16 r.st.cs.sel r
  let v ← push 2 ret w
  .ok (v.upd (branchTo (loadCsReal f.sel v.st) .s16 f.off))

/-- Operand size 32 (R162): 8 bytes of stack are tested (90_conflicts.md C1), then the offset's upper
half. -/
def farReal32 (f : FarPtr) (ret : BitVec 64) (r : Run) : Except Halt Run := do
  raiseIf (!stackRoom r.st 8 4) r .ss 0#16 .r162
  raiseIf (f.off.extractLsb' 16 16 != 0#16) r .gp 0#16 .r162
  let w ← pushSel .s32 r.st.cs.sel r
  let v ← push 4 ret w
  .ok (v.upd (branchTo (loadCsReal f.sel v.st) .s32 f.off))

/-- `CALL ptr16:16` in real-address and virtual-8086 mode (R161). -/
def execCallPtr1616Real (p : Prefixes) (off : BitVec 16) (sel : BitVec 16) (s : State) :
    Host.Outcome State Fault Refusal :=
  runCall (.callPtr1616Real p off sel) s
    (farReal16 { off := off.setWidth 64, sel := sel }
      (nextRip s (instrLength (.callPtr1616Real p off sel))))

/-- `CALL ptr16:32` in real-address and virtual-8086 mode (R162). -/
def execCallPtr1632Real (p : Prefixes) (off : BitVec 32) (sel : BitVec 16) (s : State) :
    Host.Outcome State Fault Refusal :=
  runCall (.callPtr1632Real p off sel) s
    (farReal32 { off := off.setWidth 64, sel := sel }
      (nextRip s (instrLength (.callPtr1632Real p off sel))))

/-- `CALL m16:16` in real-address and virtual-8086 mode (R161). -/
def execCallM1616Real (p : Prefixes) (m : Mem) (s : State) : Host.Outcome State Fault Refusal :=
  let ret := nextRip s (instrLength (.callM1616Real p m))
  runCall (.callM1616Real p m) s fun r => do
    let f ← readFarPtr r p ret .s16 m
    farReal16 f ret r

/-- `CALL m16:32` in real-address and virtual-8086 mode (R162). -/
def execCallM1632Real (p : Prefixes) (m : Mem) (s : State) : Host.Outcome State Fault Refusal :=
  let ret := nextRip s (instrLength (.callM1632Real p m))
  runCall (.callM1632Real p m) s fun r => do
    let f ← readFarPtr r p ret .s32 m
    farReal32 f ret r

end Sys2Proof.Machine
end

