-- ==== Sys2Proof/Machine/Illegal.lean ====
section
/-! DEFINITION. The encodings of the opcode table that are not defined: both raise `#UD` with nothing
written (30_encoding.md R113, 93_implementation_defined.md U2). -/

namespace Sys2Proof.Machine

/-- `raise UD` (R113): no error code (60_exceptions.md R263). -/
def raiseUd (r : Run) : Except Halt Run := .error (.exc .ud none .r113 r.wrote r.st.draws)

/-- Opcode `9A` in 64-bit mode: `#UD` (R113, U2). -/
def execIllegal9A64 (p : Prefixes) (s : State) : Host.Outcome State Fault Refusal :=
  runCall (.illegal9A64 p) s raiseUd

/-- `FF /3` with a register operand: `#UD` (R113). -/
def execIllegalFF3Reg (p : Prefixes) (rm : BitVec 3) (s : State) :
    Host.Outcome State Fault Refusal :=
  runCall (.illegalFF3Reg p rm) s raiseUd

end Sys2Proof.Machine
end

