-- ==== Sys2Proof/Machine/NearCall.lean ====
section
/-! DEFINITION. The near calls (40_near_call.md R140 to R151): `CALL rel16`, `rel32` at operand sizes 32
and 64, `r/m16`, `r/m32`, `r/m64`. -/

namespace Sys2Proof.Machine

/-- The target is outside the code segment: beyond its limit (R141, R142, R144, R145), or at operand size
64 not canonical (R150). -/
def nearTargetBad (s : State) (k : Size) (target : BitVec 64) : Bool :=
  match k with
  | .s16 => !inLimit s.cs target.toNat
  | .s32 => !inLimit s.cs target.toNat
  | .s64 => !canonical s.cpu.laWidth target

/-- The rule a bad target is reported under: R150 at operand size 64, the form's own otherwise. -/
def nearTargetRule (k : Size) (rule : RuleId) : RuleId :=
  match k with
  | .s16 => rule
  | .s32 => rule
  | .s64 => .r150

/-- What all near calls do once the target is known: target test, stack test, push of the return offset,
shadow-stack push unless the displacement is 0, branch (R140 to R146). -/
def nearTransfer (k : Size) (rule : RuleId) (target ret : BitVec 64) (shadow : Bool) (r : Run) :
    Except Halt Run := do
  raiseIf (nearTargetBad r.st k target) r .gp 0#16 (nearTargetRule k rule)
  raiseIf (!stackRoom r.st k.bytes k.bytes) r .ss 0#16 rule
  let w ← push k.bytes ret r
  let v := if shadow then nearShadowPush k ret w else w
  .ok (v.upd (branchTo v.st k target))

/-- The target of a relative call: the sum at the operand size (R140 to R143). -/
def relTarget (k : Size) (ret disp : BitVec 64) : BitVec 64 := viewOf k (ret + disp)

/-- An absolute indirect call: the operand is read first (R148), and the tracker is updated after the
branch (R147). -/
def nearIndirect (k : Size) (rule : RuleId) (p : Prefixes) (o : RmOperand) (ret : BitVec 64)
    (r : Run) : Except Halt Run := do
  let target ← readRm r p ret k o
  let w ← nearTransfer k rule target ret true r
  .ok (w.upd (trackerUpdate (p.seg == some .ds) w.st))

/-- `CALL rel16` (R141). -/
def execCallRel16 (p : Prefixes) (rel : BitVec 16) (s : State) :
    Host.Outcome State Fault Refusal :=
  let ret := nextRip s (instrLength (.callRel16 p rel))
  runCall (.callRel16 p rel) s
    (nearTransfer .s16 .r141 (relTarget .s16 ret (rel.signExtend 64)) ret (rel != 0#16))

/-- `CALL rel32` at operand size 32 (R142). -/
def execCallRel32 (p : Prefixes) (rel : BitVec 32) (s : State) :
    Host.Outcome State Fault Refusal :=
  let ret := nextRip s (instrLength (.callRel32 p rel))
  runCall (.callRel32 p rel) s
    (nearTransfer .s32 .r142 (relTarget .s32 ret (rel.signExtend 64)) ret (rel != 0#32))

/-- `CALL rel32` at operand size 64 (R143, R150). -/
def execCallRel64 (p : Prefixes) (rel : BitVec 32) (s : State) :
    Host.Outcome State Fault Refusal :=
  let ret := nextRip s (instrLength (.callRel64 p rel))
  runCall (.callRel64 p rel) s
    (nearTransfer .s64 .r143 (relTarget .s64 ret (rel.signExtend 64)) ret (rel != 0#32))

/-- `CALL r/m16` (R144). -/
def execCallRm16 (p : Prefixes) (o : RmOperand) (s : State) : Host.Outcome State Fault Refusal :=
  runCall (.callRm16 p o) s
    (nearIndirect .s16 .r144 p o (nextRip s (instrLength (.callRm16 p o))))

/-- `CALL r/m32` (R145). -/
def execCallRm32 (p : Prefixes) (o : RmOperand) (s : State) : Host.Outcome State Fault Refusal :=
  runCall (.callRm32 p o) s
    (nearIndirect .s32 .r145 p o (nextRip s (instrLength (.callRm32 p o))))

/-- `CALL r/m64` (R146, R150). -/
def execCallRm64 (p : Prefixes) (o : RmOperand) (s : State) : Host.Outcome State Fault Refusal :=
  runCall (.callRm64 p o) s
    (nearIndirect .s64 .r146 p o (nextRip s (instrLength (.callRm64 p o))))

end Sys2Proof.Machine
end

