-- ==== Sys2Proof/Machine/Dispatch.lean ====
section
/-! DEFINITION. One arm per constructor of Instr: each a direct call of its meaning. -/

namespace Sys2Proof.Machine

def exec (i : Instr) (s : State) : Host.Outcome State Fault Refusal :=
  match i with
  -- near calls (40_near_call.md)
  | .callRel16 p rel => Sys2Proof.Machine.execCallRel16 p rel s
  | .callRel32 p rel => Sys2Proof.Machine.execCallRel32 p rel s
  | .callRel64 p rel => Sys2Proof.Machine.execCallRel64 p rel s
  | .callRm16 p o => Sys2Proof.Machine.execCallRm16 p o s
  | .callRm32 p o => Sys2Proof.Machine.execCallRm32 p o s
  | .callRm64 p o => Sys2Proof.Machine.execCallRm64 p o s
  -- far calls (41_far_call_real.md, 42_far_call_protected.md)
  | .callPtr1616Real p off sel => Sys2Proof.Machine.execCallPtr1616Real p off sel s
  | .callPtr1616Prot p off sel => Sys2Proof.Machine.execCallPtr1616Prot p off sel s
  | .callPtr1632Real p off sel => Sys2Proof.Machine.execCallPtr1632Real p off sel s
  | .callPtr1632Prot p off sel => Sys2Proof.Machine.execCallPtr1632Prot p off sel s
  | .callM1616Real p m => Sys2Proof.Machine.execCallM1616Real p m s
  | .callM1616Prot p m => Sys2Proof.Machine.execCallM1616Prot p m s
  | .callM1632Real p m => Sys2Proof.Machine.execCallM1632Real p m s
  | .callM1632Prot p m => Sys2Proof.Machine.execCallM1632Prot p m s
  | .callM1664 p m => Sys2Proof.Machine.execCallM1664 p m s
  -- illegal encodings (30_encoding.md R113)
  | .illegal9A64 p => Sys2Proof.Machine.execIllegal9A64 p s
  | .illegalFF3Reg p rm => Sys2Proof.Machine.execIllegalFF3Reg p rm s

end Sys2Proof.Machine
end

