-- ==== Sys2Proof/Machine/Fetch.lean ====
section
/-! DEFINITION. Fetching the bytes at the instruction pointer (20_memory.md R89) and what the decoder
makes of them in the current context. -/

namespace Sys2Proof.Machine

/-- The linear address of the instruction (10_state.md R20, 20_memory.md R89). -/
def fetchLinear (s : State) : BitVec 64 :=
  if s.mode == .long64 then s.rip else viewOf .s32 (s.cs.base + viewOf .s32 s.rip)

/-- The byte at offset `i` from the instruction pointer may be fetched: canonical in 64-bit mode, inside
the code-segment limit elsewhere (R89). -/
def fetchOk (s : State) (i : Nat) : Bool :=
  if s.mode == .long64 then canonical s.cpu.laWidth (s.rip + BitVec.ofNat 64 i)
  else inLimit s.cs ((viewOf .s32 s.rip).toNat + i)

/-- The bytes from offset `i` on, at most `n`, up to the first that may not be fetched. -/
def fetchFrom (s : State) : Nat → Nat → List Byte
  | 0, _ => []
  | n + 1, i =>
    if fetchOk s i then memGet s.mem (byteAddr s (fetchLinear s) i) :: fetchFrom s n (i + 1) else []

/-- The bytes at the instruction pointer: at most 15, the longest instruction (30_encoding.md R113). -/
def fetchWindow (s : State) : List Byte := fetchFrom s 15 0

/-- The refusal a rejection of the decoder is. -/
def refusalOf : Reject → Refusal
  | .notCall op => .notCall op
  | .repeatPrefix => .repeatPrefix
  | .doubledPrefix => .doubledPrefix

/-- What `step` does with the decoder's answer: run the instruction by `run`; `#GP(0)` when it is longer
than 15 bytes (R113) or runs into bytes that may not be fetched (R89); refuse what is no `CALL`. -/
def stepDecoded (s : State) (run : Instr → State → Host.Outcome State Fault Refusal) :
    Decoded → Host.Outcome State Fault Refusal
  | .instr i => run i s
  | .tooLong => takeException s .gp (some 0#16) .r113 [] s.draws
  | .truncated => takeException s .gp (some 0#16) .r89 [] s.draws
  | .reject w => .refused (refusalOf w)

/-- The fifteen bytes of a table word, stored at the instruction pointer. -/
def putFetchBytes (s : State) : List Byte → Nat → Memory → Memory
  | [], _, m => m
  | b :: bs, i, m => putFetchBytes s bs (i + 1) (memPut m (byteAddr s (fetchLinear s) i) b)

end Sys2Proof.Machine
end

