-- ==== Sys2Proof/Machine/Step.lean ====
section
/-! DEFINITION. One step: fetch at the instruction pointer, decode in the state's context, execute
(00_scope.md R9, 20_memory.md R89). -/

namespace Sys2Proof.Machine

/-- One step of the machine. -/
def step (s : State) : Host.Outcome State Fault Refusal :=
  stepDecoded s exec (decode s.ctx (fetchWindow s))

/-- `s` with a word of the opcode table stored at the instruction pointer, zeros above it up to the
longest instruction: the next step fetches and runs it (log entry 23). -/
def State.withFetchWord (s : State) (nbits w : Nat) : State :=
  s.setMem (putFetchBytes s (tableBytes nbits w) 0 s.mem)

end Sys2Proof.Machine
end

