-- ==== Sys2Proof/Safety.lean ====
section
/-! DEFINITION. What a safe run is, and the terms the statements are written in: the well-formedness of a
state (70_reset_and_hazards.md R301), when an instruction runs, what its operand is, and the states the
rules describe, as plain functions of a state. -/

namespace Sys2Proof.Machine

/-! ## The launch premises (R301) -/

/-- R301 (a): IA-32e mode needs `PE` 1 and `VM` 0, virtual-8086 mode needs `PE` 1. -/
def modeOk (s : State) : Bool := (!s.lma || (s.pe && !s.vm)) && (!s.vm || s.pe)

/-- R301 (b): `CPL` by mode; outside real and virtual-8086 mode it agrees with `CS.RPL`, with the `DPL` of
a nonconforming `CS`, and with `SS.DPL`. -/
def cplOk (s : State) : Bool :=
  match s.mode with
  | .real => s.cpl == 0#2
  | .v86 => s.cpl == 3#2
  | .prot => s.cpl == rplOf s.cs.sel && (!s.cs.isNonconforming || s.cs.dpl == s.cpl) && s.ss.dpl == s.cpl
  | .compat =>
    s.cpl == rplOf s.cs.sel && (!s.cs.isNonconforming || s.cs.dpl == s.cpl) && s.ss.dpl == s.cpl
  | .long64 =>
    s.cpl == rplOf s.cs.sel && (!s.cs.isNonconforming || s.cs.dpl == s.cpl) && s.ss.dpl == s.cpl

/-- The base a selector has in real-address and virtual-8086 mode (10_state.md R26). -/
def realBase (sel : BitVec 16) : BitVec 64 := (sel.setWidth 64) <<< 4

/-- `CS.base` is the selector's, or, in real-address mode, the one `CS` has from reset until the first far
call (10_state.md R42; log entry 35). -/
def realCsOk (s : State) : Bool :=
  s.cs.base == realBase s.cs.sel ||
    (s.mode == .real && s.cs.sel == 0xF000#16 && s.cs.base == 0xFFFF0000#64)

/-- R301 (c), with the `CS` of reset let in (log entry 35). -/
def realSegsOk (s : State) : Bool :=
  !s.mode.isRealLike ||
    (s.cs.limit == 0xFFFF#32 && s.ss.limit == 0xFFFF#32 && s.ss.base == realBase s.ss.sel && realCsOk s)

/-- The base and the effective limit are a descriptor's: a 32-bit base (64 bits where `wide`), and by `G` a
limit that ends in `0xFFF` or has 20 bits (20_memory.md R71). The other fields of the hidden part are bits a
descriptor can hold at any value. -/
def agreesWithDescriptor (wide : Bool) (g : Seg) : Bool :=
  (wide || g.base.extractLsb' 32 32 == 0#32) &&
    (if g.g then g.limit.extractLsb' 0 12 == 0xFFF#12 else g.limit.extractLsb' 20 12 == 0#12)

/-- R301 (d) for one segment register: `FS` and `GS` may have 64-bit bases in IA-32e mode (10_state.md
R26); a NULL `SS` in IA-32e mode, with base 0, is what a 64-bit gate leaves (43_call_gate.md R209), and its
limit and `G` are open (91_not_in_source.md N25; log entry 35). -/
def hiddenOk (s : State) (name : SegName) : Bool :=
  (name == .ss && s.lma && isNullSel s.ss.sel && s.ss.base == 0#64) ||
    agreesWithDescriptor (s.lma && (name == .fs || name == .gs)) (segOf s name)

/-- R301 (d): the hidden part of each segment register agrees with some descriptor. -/
def hiddenPartsOk (s : State) : Bool :=
  [SegName.es, .cs, .ss, .ds, .fs, .gs].all (hiddenOk s)

/-- R301 (e): `RIP` is canonical in 64-bit mode, below 2^32 elsewhere. -/
def ripOk (s : State) : Bool :=
  if s.mode == .long64 then canonical s.cpu.laWidth s.rip else s.rip.extractLsb' 32 32 == 0#32

/-- R301 (f): `TR` holds a `TSS` marked busy, of the kind the mode needs (10_state.md R32). -/
def trOk (s : State) : Bool := s.tr.busy && s.lma == (s.tr.kind == .tss64)

/-- The shadow-stack fields of a CET register, `SH_STK_EN` and `WR_SHSTK_EN`, bits 0 and 1 (10_state.md R34). -/
def shadowStackFields (v : BitVec 64) : BitVec 64 := v &&& 0x3#64

/-- The other fields of a CET register, bits 2 to 63: those of indirect-branch tracking, and the reserved bits
(10_state.md R34). -/
def trackingFields (v : BitVec 64) : BitVec 64 := v &&& 0xFFFFFFFFFFFFFFFC#64

/-- R301 (g): the CET fields are zero without the features. DESIGN CHOICE (log entry 38): the shadow-stack
fields, `SSP` and the `IA32_PLi_SSP` registers go with `HAS_CET_SS`, the tracking fields with `HAS_CET_IBT`;
the rule does not say which go with which. Without either feature all of them are zero. Nor does it list the
fields: `CR4.CET` is no such field here and stays free (log entry 38). -/
def cetFieldsOk (s : State) : Bool :=
  (s.cpu.hasCetSs ||
    (shadowStackFields s.uCet == 0#64 && shadowStackFields s.sCet == 0#64 && s.ssp == 0#64 &&
      s.pl0Ssp == 0#64 && s.pl1Ssp == 0#64 && s.pl2Ssp == 0#64 && s.pl3Ssp == 0#64)) &&
  (s.cpu.hasCetIbt || (trackingFields s.uCet == 0#64 && trackingFields s.sCet == 0#64))

/-- R301 (g): `SSP` is 4-byte aligned when shadow stacks are enabled at `CPL` (10_state.md R33). -/
def sspOk (s : State) : Bool := !shadowStackEnabled s s.cpl || s.ssp.extractLsb' 0 2 == 0#2

/-- The invariant of every run from reset: the launch premises with the `CS` of reset let in, and memory in
its canonical form. -/
def State.wf (s : State) : Bool :=
  memWf s.mem && modeOk s && cplOk s && realSegsOk s && hiddenPartsOk s && ripOk s && trOk s &&
    cetFieldsOk s && sspOk s

/-- The launch premises of R301 as they stand: also in real-address mode `CS.base == CS.sel << 4`. -/
def State.launchOk (s : State) : Bool :=
  s.wf && (!s.mode.isRealLike || s.cs.base == realBase s.cs.sel)

/-! ## When an instruction runs, and on what -/

/-- The form exists in the state's mode (30_encoding.md R112) and carries no `LOCK` (R113). -/
def runnable (i : Instr) (s : State) : Bool := instrFits s.ctx i && !(prefixesOfInstr i).lock

/-- The bytes of an instruction from its REX byte or opcode on: what follows the legacy prefixes
(30_encoding.md R100). -/
def afterLegacy (i : Instr) : List Byte :=
  (encode i).drop (prefixLength { prefixesOfInstr i with rex := none })

/-- `nRIP` of an instruction (10_state.md R21). -/
def nrip (i : Instr) (s : State) : BitVec 64 := nextRip s (instrLength i)

/-- The stack takes writes: flat in 64-bit mode, elsewhere a writable segment (20_memory.md R65). -/
def stackWritable (s : State) : Bool := s.mode == .long64 || s.ss.isWritableData

/-- Where byte `k` of a memory operand starts: segment and offset (R61, R106). -/
def operandOffset (s : State) (p : Prefixes) (ret : BitVec 64) (m : Mem) (k : Nat) : BitVec 64 :=
  operandByteOffset s p (effAddr s p ret m) k

/-- The fault of reading `n` bytes of a memory operand, if any (20_memory.md R65). -/
def operandFault (s : State) (p : Prefixes) (ret : BitVec 64) (m : Mem) (k n : Nat) : Option Exc :=
  segFault s (operandSeg s p m) (segOf s (operandSeg s p m)) (operandOffset s p ret m k) n false

/-- The `n` bytes of a memory operand from byte `k` on. -/
def operandValue (s : State) (p : Prefixes) (ret : BitVec 64) (m : Mem) (k n : Nat) : BitVec 64 :=
  memRead s (segLinear s (operandSeg s p m) (segOf s (operandSeg s p m)) (operandOffset s p ret m k)) n

/-- The fault of reading the operand of `FF /2`. -/
def destFault (s : State) (p : Prefixes) (ret : BitVec 64) (k : Size) : RmOperand → Option Exc
  | .reg _ => none
  | .mem m => operandFault s p ret m 0 k.bytes

/-- The value of the operand of `FF /2` (30_encoding.md R106). -/
def destValue (s : State) (p : Prefixes) (ret : BitVec 64) (k : Size) : RmOperand → BitVec 64
  | .reg rm => viewOf k (gprGet s.gpr (regNum (rexB p) rm))
  | .mem m => operandValue s p ret m 0 k.bytes

/-- The far address of a memory operand: its fault, or offset and selector (20_memory.md R68). -/
def farMem (s : State) (p : Prefixes) (ret : BitVec 64) (k : Size) (m : Mem) : Except Exc FarPtr :=
  match operandFault s p ret m 0 k.bytes with
  | some x => .error x
  | none =>
    match operandFault s p ret m k.bytes 2 with
    | some x => .error x
    | none =>
      .ok { off := operandValue s p ret m 0 k.bytes
            sel := (operandValue s p ret m k.bytes 2).setWidth 16 }

/-- The far address of a far call (41_far_call_real.md R160, 42_far_call_protected.md R170); none of the
other instructions has one. -/
def farOperand (i : Instr) (s : State) : Option (Except Exc FarPtr) :=
  match i with
  | .callPtr1616Real _ off sel => some (.ok { off := off.setWidth 64, sel := sel })
  | .callPtr1616Prot _ off sel => some (.ok { off := off.setWidth 64, sel := sel })
  | .callPtr1632Real _ off sel => some (.ok { off := off.setWidth 64, sel := sel })
  | .callPtr1632Prot _ off sel => some (.ok { off := off.setWidth 64, sel := sel })
  | .callM1616Real p m => some (farMem s p (nrip i s) .s16 m)
  | .callM1616Prot p m => some (farMem s p (nrip i s) .s16 m)
  | .callM1632Real p m => some (farMem s p (nrip i s) .s32 m)
  | .callM1632Prot p m => some (farMem s p (nrip i s) .s32 m)
  | .callM1664 p m => some (farMem s p (nrip i s) .s64 m)
  | .callRel16 _ _ => none
  | .callRel32 _ _ => none
  | .callRel64 _ _ => none
  | .callRm16 _ _ => none
  | .callRm32 _ _ => none
  | .callRm64 _ _ => none
  | .illegal9A64 _ => none
  | .illegalFF3Reg _ _ => none

/-- The operand size of a form. -/
def formSize : Instr → Size
  | .callRel16 _ _ => .s16
  | .callRel32 _ _ => .s32
  | .callRel64 _ _ => .s64
  | .callRm16 _ _ => .s16
  | .callRm32 _ _ => .s32
  | .callRm64 _ _ => .s64
  | .callPtr1616Real _ _ _ => .s16
  | .callPtr1616Prot _ _ _ => .s16
  | .callPtr1632Real _ _ _ => .s32
  | .callPtr1632Prot _ _ _ => .s32
  | .callM1616Real _ _ => .s16
  | .callM1616Prot _ _ => .s16
  | .callM1632Real _ _ => .s32
  | .callM1632Prot _ _ => .s32
  | .callM1664 _ _ => .s64
  | .illegal9A64 _ => .s16
  | .illegalFF3Reg _ _ => .s16

/-- The six near calls. -/
def isNear : Instr → Bool
  | .callRel16 _ _ => true
  | .callRel32 _ _ => true
  | .callRel64 _ _ => true
  | .callRm16 _ _ => true
  | .callRm32 _ _ => true
  | .callRm64 _ _ => true
  | .callPtr1616Real _ _ _ => false
  | .callPtr1616Prot _ _ _ => false
  | .callPtr1632Real _ _ _ => false
  | .callPtr1632Prot _ _ _ => false
  | .callM1616Real _ _ => false
  | .callM1616Prot _ _ => false
  | .callM1632Real _ _ => false
  | .callM1632Prot _ _ => false
  | .callM1664 _ _ => false
  | .illegal9A64 _ => false
  | .illegalFF3Reg _ _ => false

/-- The three near indirect calls. -/
def isNearIndirect : Instr → Bool
  | .callRel16 _ _ => false
  | .callRel32 _ _ => false
  | .callRel64 _ _ => false
  | .callRm16 _ _ => true
  | .callRm32 _ _ => true
  | .callRm64 _ _ => true
  | .callPtr1616Real _ _ _ => false
  | .callPtr1616Prot _ _ _ => false
  | .callPtr1632Real _ _ _ => false
  | .callPtr1632Prot _ _ _ => false
  | .callM1616Real _ _ => false
  | .callM1616Prot _ _ => false
  | .callM1632Real _ _ => false
  | .callM1632Prot _ _ => false
  | .callM1664 _ _ => false
  | .illegal9A64 _ => false
  | .illegalFF3Reg _ _ => false

/-- The four far calls of real-address and virtual-8086 mode. -/
def isFarReal : Instr → Bool
  | .callPtr1616Real _ _ _ => true
  | .callPtr1632Real _ _ _ => true
  | .callM1616Real _ _ => true
  | .callM1632Real _ _ => true
  | .callRel16 _ _ => false
  | .callRel32 _ _ => false
  | .callRel64 _ _ => false
  | .callRm16 _ _ => false
  | .callRm32 _ _ => false
  | .callRm64 _ _ => false
  | .callPtr1616Prot _ _ _ => false
  | .callPtr1632Prot _ _ _ => false
  | .callM1616Prot _ _ => false
  | .callM1632Prot _ _ => false
  | .callM1664 _ _ => false
  | .illegal9A64 _ => false
  | .illegalFF3Reg _ _ => false

/-- The five far calls of protected, compatibility and 64-bit mode. -/
def isFarProt : Instr → Bool
  | .callPtr1616Prot _ _ _ => true
  | .callPtr1632Prot _ _ _ => true
  | .callM1616Prot _ _ => true
  | .callM1632Prot _ _ => true
  | .callM1664 _ _ => true
  | .callRel16 _ _ => false
  | .callRel32 _ _ => false
  | .callRel64 _ _ => false
  | .callRm16 _ _ => false
  | .callRm32 _ _ => false
  | .callRm64 _ _ => false
  | .callPtr1616Real _ _ _ => false
  | .callPtr1632Real _ _ _ => false
  | .callM1616Real _ _ => false
  | .callM1632Real _ _ => false
  | .illegal9A64 _ => false
  | .illegalFF3Reg _ _ => false

/-- The two encodings that are not defined. -/
def isIllegal : Instr → Bool
  | .illegal9A64 _ => true
  | .illegalFF3Reg _ _ => true
  | .callRel16 _ _ => false
  | .callRel32 _ _ => false
  | .callRel64 _ _ => false
  | .callRm16 _ _ => false
  | .callRm32 _ _ => false
  | .callRm64 _ _ => false
  | .callPtr1616Real _ _ _ => false
  | .callPtr1616Prot _ _ _ => false
  | .callPtr1632Real _ _ _ => false
  | .callPtr1632Prot _ _ _ => false
  | .callM1616Real _ _ => false
  | .callM1616Prot _ _ => false
  | .callM1632Real _ _ => false
  | .callM1632Prot _ _ => false
  | .callM1664 _ _ => false

/-! ## Outcomes -/

/-- The outcome is the fault `(X, e, rule)` with nothing written: the state is as it was. -/
def faultsClean (o : Host.Outcome State Fault Refusal) (s : State) (x : Exc) (code : BitVec 16)
    (rule : RuleId) : Prop := o = .fault (.exception x (some code) rule s)

/-- `t` is `s` but for memory and the count of draws. -/
def sameRegisters (s t : State) : Prop := (t.setMem s.mem).setDraws s.draws = s

/-- The outcome is the fault `(X, e, rule)`, part-way through: every register is as it was, and every byte
of memory outside `wrote` (60_exceptions.md R265). -/
def faultsAfter (o : Host.Outcome State Fault Refusal) (s : State) (x : Exc) (code : BitVec 16)
    (rule : RuleId) (wrote : List Nat) : Prop :=
  ∃ t, o = .fault (.exception x (some code) rule t) ∧ sameRegisters s t ∧
    ∀ a, a ∉ wrote → memGet t.mem a = memGet s.mem a

/-- What no `CALL` that completes writes: flags and control registers, data segments, table and task
registers, `IA32_PL0_SSP` to `IA32_PL2_SSP`, the parameters, and every general register but the stack
pointer. -/
def keepsRest (s t : State) : Prop :=
  t.eflags = s.eflags ∧ t.cr0 = s.cr0 ∧ t.cr4 = s.cr4 ∧ t.efer = s.efer ∧
  t.es = s.es ∧ t.ds = s.ds ∧ t.fs = s.fs ∧ t.gs = s.gs ∧
  t.gdtr = s.gdtr ∧ t.idtr = s.idtr ∧ t.ldtr = s.ldtr ∧ t.tr = s.tr ∧
  t.pl0Ssp = s.pl0Ssp ∧ t.pl1Ssp = s.pl1Ssp ∧ t.pl2Ssp = s.pl2Ssp ∧ t.cpu = s.cpu ∧
  ∀ r : BitVec 4, r ≠ 4#4 → gprGet t.gpr r = gprGet s.gpr r

/-- Every byte of memory outside the listed addresses reads as before. -/
def memorySameOutside (s t : State) (wrote : List Nat) : Prop :=
  ∀ a, a ∉ wrote → memGet t.mem a = memGet s.mem a

/-! ## The states the rules describe -/

/-- After `Push(n, v)` (20_memory.md R66). -/
def afterPush (n : Nat) (v : BitVec 64) (s : State) : State :=
  (s.setMem (storeBytes s (pushLinear s n) v n s.mem)).setRsp
    (withView (stackAddrSize s) s.gpr.rsp (pushOffset s n))

/-- After the push of a selector in an item of a size; the pad is a draw (R66). -/
def afterPushSel (k : Size) (sel : BitVec 16) (s : State) : State :=
  (afterPush k.bytes (selItem k sel s) s).setDraws (s.draws + padDraws k)

/-- After a store at a linear address (R64). -/
def afterStore (lin : BitVec 64) (n : Nat) (v : BitVec 64) (s : State) : State :=
  s.setMem (storeBytes s lin v n s.mem)

/-- After a shadow-stack push of `n` bytes (R78). -/
def afterShadowPush (n : Nat) (v : BitVec 64) (s : State) : State :=
  afterStore (s.ssp - BitVec.ofNat 64 n) n v (s.setSsp (s.ssp - BitVec.ofNat 64 n))

/-- After the three words of a far frame: `CS`, linear return address, old `SSP` (R180, R212, R218). -/
def afterShadowFrame (cs : BitVec 16) (lip old : BitVec 64) (s : State) : State :=
  afterShadowPush 8 old (afterShadowPush 8 lip (afterShadowPush 8 (cs.setWidth 64) s))

/-- After the four zero bytes, the alignment of `SSP` and the far frame, if shadow stacks are enabled
(R180, R218). -/
def afterFarShadow (cs : BitVec 16) (lip : BitVec 64) (s : State) : State :=
  if shadowStackEnabled s s.cpl then
    afterShadowFrame cs lip s.ssp
      ((afterStore (s.ssp - 4#64) 4 0 s).setSsp (s.ssp &&& 0xFFFFFFFFFFFFFFF8#64))
  else s

/-- After the accessed bit of a descriptor that was read as `d` is set (R77). -/
def afterAccessed (sel : BitVec 16) (d : BitVec 64) (s : State) : State :=
  if d.getLsbD 40 then s
  else afterStore (linAdd s (descAddr s sel) 5) 1 (memRead s (linAdd s (descAddr s sel) 5) 1 ||| 1#64) s

/-- After `LoadCS(sel, d)` (42_far_call_protected.md R178). -/
def afterLoadCs (sel : BitVec 16) (d : BitVec 64) (s : State) : State :=
  afterAccessed sel d (s.setCs (segFromDesc (withRpl sel s.cpl) d))

/-- After `SS <- (sel, d)` (43_call_gate.md R206). -/
def afterLoadSs (sel : BitVec 16) (d : BitVec 64) (s : State) : State :=
  afterAccessed sel d (s.setSs (segFromDesc sel d))

/-- After a far call to a code segment: the return address pushed, `CS` loaded, the branch made, the far
shadow frame, the tracker (R176, R177). -/
def afterCodeSegment (k : Size) (f : FarPtr) (d lip ret : BitVec 64) (s : State) : State :=
  let pushed := afterPush k.bytes ret (afterPushSel k s.cs.sel s)
  let loaded := afterLoadCs f.sel d pushed
  farEndbranch (afterFarShadow s.cs.sel lip
    (branchTo loaded k (farTarget s k (segFromDesc f.sel d) f.off)))

/-- The bytes of the shadow stack below `SSP` that a near call may write: 4, or 8 at operand size 64. -/
def nearShadowWrites (k : Size) (s : State) : List Nat :=
  if shadowStackEnabled s s.cpl then
    match k with
    | .s16 => storedAddrs s (s.ssp - 4#64) 4
    | .s32 => storedAddrs s (s.ssp - 4#64) 4
    | .s64 => storedAddrs s (s.ssp - 8#64) 8
  else []

/-- The bytes of the shadow stack a far frame at an aligned `SSP` takes: 24 below it (R180). -/
def frameWrites (s : State) (ssp : BitVec 64) : List Nat := storedAddrs s (ssp - 24#64) 24

/-- The bytes of the shadow stack a far call may write: the four zero bytes and the frame (R180, R218). -/
def farShadowWrites (s : State) : List Nat :=
  if shadowStackEnabled s s.cpl then
    storedAddrs s (s.ssp - 4#64) 4 ++ frameWrites s (s.ssp &&& 0xFFFFFFFFFFFFFFF8#64)
  else []

/-- The byte of a descriptor whose accessed bit is clear (R77). -/
def accessedWrites (sel : BitVec 16) (d : BitVec 64) (s : State) : List Nat :=
  if d.getLsbD 40 then [] else [byteAddr s (linAdd s (descAddr s sel) 5) 0]

/-- The bytes a far call to a code segment has written when R180 may still raise: the two stack items and
the accessed bit. -/
def codeSegmentWrites (k : Size) (f : FarPtr) (d : BitVec 64) (s : State) : List Nat :=
  storedAddrs s (pushLinear s k.bytes) k.bytes ++
    storedAddrs s (segLinear s .ss s.ss (itemOffset (stackAddrSize s) s.gpr.rsp (2 * k.bytes))) k.bytes ++
      accessedWrites f.sel d s

/-- After a call through a gate at the same level, old state `s` (43_call_gate.md R215 to R218). -/
def afterSamePrivilege (g : Gate) (cd ret : BitVec 64) (s : State) : State :=
  let loaded := afterLoadCs g.sel cd (sameStackState g.size s)
  let branched := branchTo loaded g.size g.off
  let pushed := afterPush g.size.bytes ret (afterPushSel g.size s.cs.sel branched)
  farEndbranch (afterFarShadow s.cs.sel (callerLip s ret) pushed)

/-- After the parameters `c` down to 1 are copied from the old stack (R214), each read just before its push
(log entry 37, DESIGN CHOICE). -/
def afterParameters (oldSs : Seg) (sa : Size) (oldSp : BitVec 64) (n : Nat) : Nat → State → State
  | 0, s => s
  | c + 1, s =>
    afterParameters oldSs sa oldSp n c
      (afterPush n
        (memRead s (segLinear s .ss oldSs (viewOf sa (oldSp + BitVec.ofNat 64 (c * n)))) n) s)

/-- All parameters can be read from the old stack (R214). -/
def parametersReadable (s : State) (n count : Nat) : Bool :=
  (List.range count).all fun i =>
    (segFault s .ss s.ss (viewOf (stackAddrSize s) (s.gpr.rsp + BitVec.ofNat 64 (i * n))) n false).isNone

/-- After the pushes of a call to more privilege through a 16- or 32-bit gate, old state `s` (R206, R208):
stack loaded, `CS` loaded, branch, old stack pointer, parameters, return address. -/
def afterMoreLegacy (g : Gate) (cd ret sd : BitVec 64) (inner : InnerStack) (s : State) : State :=
  let stacked := afterLoadSs inner.ss sd s
  let switched := stacked.setRsp (withView .s32 stacked.gpr.rsp inner.sp)
  let branched := branchTo (afterLoadCs g.sel cd switched) g.size g.off
  let saved := afterPush g.size.bytes s.gpr.rsp (afterPushSel g.size s.ss.sel branched)
  let copied := afterParameters s.ss (stackAddrSize s) s.gpr.rsp g.size.bytes g.count saved
  afterPush g.size.bytes ret (afterPushSel g.size s.cs.sel copied)

/-- The same through a 64-bit gate (R209). -/
def afterMore64 (g : Gate) (cd ret : BitVec 64) (inner : InnerStack) (s : State) : State :=
  let switched := (loadNullSs inner.ss (descDpl cd) s).setRsp inner.sp
  let branched := branchTo (afterLoadCs g.sel cd switched) .s64 g.off
  let saved := afterPush 8 (callerSp s) (afterPushSel .s64 s.ss.sel branched)
  afterPush 8 ret (afterPushSel .s64 s.cs.sel saved)

/-- The bytes of the new stack: `count + 4` items below the new stack pointer (R206, R208), four for a
64-bit gate (R209). -/
def newStackWrites (g : Gate) (sd : BitVec 64) (inner : InnerStack) (s : State) : List Nat :=
  match g.size with
  | .s64 => storedAddrs s (inner.sp - 32#64) 32
  | .s16 =>
    (List.range (g.count + 4)).flatMap fun j =>
      storedAddrs s (viewOf .s32 ((segFromDesc inner.ss sd).base +
        itemOffset (newStackAddrSize (segFromDesc inner.ss sd)) inner.sp ((j + 1) * 2))) 2
  | .s32 =>
    (List.range (g.count + 4)).flatMap fun j =>
      storedAddrs s (viewOf .s32 ((segFromDesc inner.ss sd).base +
        itemOffset (newStackAddrSize (segFromDesc inner.ss sd)) inner.sp ((j + 1) * 4))) 4

/-- The four tests on the supervisor shadow stack of the level `s` is at (R212). -/
def tokenOk (s : State) : Bool :=
  (plSsp s s.cpl).extractLsb' 0 3 == 0#3 &&
    (plSsp s s.cpl).extractLsb' 5 59 == (plSsp s s.cpl - 24#64).extractLsb' 5 59 &&
      ((s.lma && s.cs.l) || (plSsp s s.cpl).extractLsb' 32 32 == 0#32) &&
        memRead s (plSsp s s.cpl) 8 == plSsp s s.cpl

/-- After the switch to the supervisor shadow stack: the token's busy bit set, `SSP` at it, and the far
frame when the caller was not at level 3 (R212). -/
def afterSupervisorShadow (old : State) (ret : BitVec 64) (s : State) : State :=
  if shadowStackEnabled s s.cpl then
    let busy := afterStore (plSsp s s.cpl) 8 (plSsp s s.cpl ||| 1#64) (s.setSsp (plSsp s s.cpl))
    if old.ss.dpl == 3#2 then busy
    else afterShadowFrame old.cs.sel (callerLip old ret) old.ssp busy
  else s

/-! ## Far calls in protected mode, by what their selector names -/

/-- A far call that runs, with its operand read and its selector not NULL, and the descriptor the selector
names (R170 to R172). -/
structure FarCallTo (i : Instr) (s : State) (f : FarPtr) (d : BitVec 64) : Prop where
  far : isFarProt i = true
  runs : runnable i s = true
  operand : farOperand i s = some (.ok f)
  notNull : isNullSel f.sel = false
  fetched : fetchDescriptor s f.sel = some d

/-- A far call through a call gate whose tests all pass (R200, R201): `h` is the upper half of the gate, 0
outside IA-32e mode, and `cd` the descriptor of the code segment it names. -/
structure GateCallTo (i : Instr) (s : State) (f : FarPtr) (d h cd : BitVec 64) : Prop where
  call : FarCallTo i s f d
  gate : isCallGate s.lma d = true
  upper : if s.lma = true then fetchUpper s f.sel = some h ∧ h.extractLsb' 40 5 = 0#5 else h = 0#64
  gateDpl : s.cpl ≤ descDpl d ∧ rplOf f.sel ≤ descDpl d
  present : descP d = true
  codeNotNull : isNullSel (gateOf s.lma d h).sel = false
  codeFetched : fetchDescriptor s (gateOf s.lma d h).sel = some cd
  isCode : (segFromDesc (gateOf s.lma d h).sel cd).isCode = true
  codeDpl : descDpl cd ≤ s.cpl
  code64 : s.lma = true → (segFromDesc (gateOf s.lma d h).sel cd).l = true ∧
    (segFromDesc (gateOf s.lma d h).sel cd).db = false
  codePresent : descP cd = true

/-- The call goes to a more privileged level (R200). -/
def goesToMorePrivilege (g : Gate) (cd : BitVec 64) (s : State) : Bool :=
  (segFromDesc g.sel cd).isNonconforming && decide (descDpl cd < s.cpl)

end Sys2Proof.Machine
end

