-- ==== Sys2Proof/Certificates/Slice0/Obligations.lean ====
section
/-! DEFINITION. The statements for the provers, in the order of the spec's files. -/

open Sys2Proof Sys2Proof.Machine

/-! ## Encoding (30_encoding.md) -/

/-- Decoding the encoding of a well-formed instruction gives it back, whatever follows it, in every context
in which the form exists: no bit of an encoding is dropped (R100 to R112). -/
def Obligations.DecodeEncodeRoundTrip : Prop :=
  ∀ (c : Ctx) (i : Instr) (tail : List Byte), i.wf = true → instrFits c i = true →
    decode c (encode i ++ tail) = .instr i

/-- What the decoder gives is well-formed, exists in the context, is at most 15 bytes long, and needs exactly
its own bytes (R111, R112, R117). -/
def Obligations.DecodedInstructionsAreWellFormed : Prop :=
  ∀ (c : Ctx) (bytes : List Byte) (i : Instr), decode c bytes = .instr i →
    i.wf = true ∧ instrFits c i = true ∧ instrLength i ≤ 15 ∧ instrLength i ≤ bytes.length ∧
      decode c (bytes.take (instrLength i)) = .instr i

/-- The decoding examples of R118, all fifteen rows. -/
def Obligations.DecodingExamples : Prop :=
  let none' : Prefixes := { lock := false, seg := none, opSize := false, addrSize := false, rex := none }
  let long64 : Ctx := { mode := .long64, csD := false }
  let prot32 : Ctx := { mode := .prot, csD := true }
  let real : Ctx := { mode := .real, csD := false }
  decode long64 [0xE8, 0x0B, 0x00, 0x00, 0x00] = .instr (.callRel64 none' 0x0000000B) ∧
  decode real [0xE8, 0xFD, 0xFD] = .instr (.callRel16 none' 0xFDFD) ∧
  decode prot32 [0x66, 0xE8, 0xFC, 0x0F] = .instr (.callRel16 { none' with opSize := true } 0x0FFC) ∧
  decode long64 [0xFF, 0xD0] = .instr (.callRm64 none' (.reg 0)) ∧
  decode long64 [0x3E, 0xFF, 0xD0] = .instr (.callRm64 { none' with seg := some .ds } (.reg 0)) ∧
  decode long64 [0x41, 0xFF, 0xD3] =
    .instr (.callRm64 { none' with rex := some ⟨false, false, false, true⟩ } (.reg 3)) ∧
  decode long64 [0xFF, 0x14, 0x24] = .instr (.callRm64 none' (.mem (.sib 0 4 4 .none))) ∧
  decode prot32 [0xFF, 0x15, 0x00, 0x00, 0x05, 0x00] =
    .instr (.callRm32 none' (.mem (.disp32 0x00050000))) ∧
  decode long64 [0xFF, 0x15, 0x10, 0x00, 0x00, 0x00] =
    .instr (.callRm64 none' (.mem (.disp32 0x00000010))) ∧
  decode real [0x9A, 0x00, 0x02, 0x00, 0x30] = .instr (.callPtr1616Real none' 0x0200 0x3000) ∧
  decode prot32 [0x9A, 0x00, 0x20, 0x00, 0x00, 0x18, 0x00] =
    .instr (.callPtr1632Prot none' 0x00002000 0x0018) ∧
  decode real [0xFF, 0x1E, 0x10, 0x00] = .instr (.callM1616Real none' (.abs16 0x0010)) ∧
  decode long64 [0x48, 0xFF, 0x18] =
    .instr (.callM1664 { none' with rex := some ⟨true, false, false, false⟩ } (.base 0 .none)) ∧
  (∀ c, decode c [0xFF, 0xD8] = .instr (.illegalFF3Reg none' 0)) ∧
  decode long64 [0x9A] = .instr (.illegal9A64 none')

/-- The illegal encodings of R113: `9A` in 64-bit mode, `FF /3` with a register operand and any `CALL` with
`LOCK` raise `#UD` with nothing written; the other values of the `reg` field of `FF` are other instructions,
which `step` refuses by name. Before the bytes of a well-formed instruction stand any legacy prefixes `pre`
that select its form: more than 15 bytes in all are too long and raise `#GP(0)`; else a repeat prefix is
refused, else two prefixes of one group are, else the instruction is decoded with the prefixes it has (R110).
That these faults are R113's is the spec's general knowledge (GK1, GK21, GK29); that length is tested before a
prefix is refused is the model's choice (log entry 17, DESIGN CHOICE), and so is that a refused prefix comes
before the `#UD` of an illegal form or of `LOCK` (log entry 39, DESIGN CHOICE); that the refusals of R110 are
outcomes of their own names is read from it (log entry 18, DEDUCED). -/
def Obligations.IllegalEncodings : Prop :=
  let none' : Prefixes := { lock := false, seg := none, opSize := false, addrSize := false, rex := none }
  let segments : List Byte := [0x26, 0x2E, 0x36, 0x3E, 0x64, 0x65]
  let legacy : List Byte := [0xF0, 0xF2, 0xF3, 0x66, 0x67] ++ segments
  let count := fun (group pre : List Byte) => (pre.filter fun b => decide (b ∈ group)).length
  (∀ (csD : Bool) (tail : List Byte),
    decode { mode := .long64, csD := csD } (0x9A#8 :: tail) = .instr (.illegal9A64 none')) ∧
  (∀ (c : Ctx) (rm : BitVec 3) (tail : List Byte),
    decode c (0xFF#8 :: modRmByte 3 3 rm :: tail) = .instr (.illegalFF3Reg none' rm)) ∧
  (∀ (i : Instr) (s : State), instrFits s.ctx i = true →
    (isIllegal i = true ∨ (prefixesOfInstr i).lock = true) →
      exec i s = .fault (.exception .ud none .r113 s)) ∧
  (∀ (c : Ctx) (m : Byte) (tail : List Byte), regOf m ≠ 2 → regOf m ≠ 3 →
    decode c (0xFF#8 :: m :: tail) = .reject (.notCall 0xFF)) ∧
  (∀ (c : Ctx) (i : Instr) (pre tail : List Byte), i.wf = true → instrFits c i = true →
    (∀ b ∈ pre, b ∈ legacy) → (prefixesOfInstr i).opSize = decide (0x66#8 ∈ pre) →
    (prefixesOfInstr i).addrSize = decide (0x67#8 ∈ pre) →
    let all := pre ++ afterLegacy i
    let answer := decode c (all ++ tail)
    if 15 < all.length then answer = .tooLong
    else if 0xF2#8 ∈ pre ∨ 0xF3#8 ∈ pre then answer = .reject .repeatPrefix
    else if 2 ≤ count [0xF0] pre ∨ 2 ≤ count segments pre ∨ 2 ≤ count [0x66] pre ∨
        2 ≤ count [0x67] pre then
      answer = .reject .doubledPrefix
    else ∃ j, answer = .instr j ∧ afterLegacy j = afterLegacy i ∧ instrLength j = all.length ∧
      (prefixesOfInstr j).lock = decide (0xF0#8 ∈ pre) ∧
      ∀ g, (prefixesOfInstr j).seg = some g ↔ segPrefixByte g ∈ pre) ∧
  (∀ (c : Ctx) (bytes : List Byte), decode c bytes = .tooLong →
    15 ≤ bytes.length ∧ ∀ n, n < 15 → decode c (bytes.take n) = .truncated) ∧
  (∀ (s : State),
    (decode s.ctx (fetchWindow s) = .tooLong → faultsClean (step s) s .gp 0 .r113) ∧
    (decode s.ctx (fetchWindow s) = .reject .repeatPrefix → step s = .refused .repeatPrefix) ∧
    (decode s.ctx (fetchWindow s) = .reject .doubledPrefix → step s = .refused .doubledPrefix) ∧
    (∀ op, decode s.ctx (fetchWindow s) = .reject (.notCall op) → step s = .refused (.notCall op)))

/-- The two encodings that are not defined raise `#UD` wherever the decoder gives them: no path of either
goes on (R113). -/
def Obligations.UndefinedEncodingsStop : Prop :=
  (∀ (p : Prefixes) (s : State), s.mode = .long64 →
    exec (.illegal9A64 p) s = .fault (.exception .ud none .r113 s)) ∧
  (∀ (p : Prefixes) (rm : BitVec 3) (s : State), (p.rex = none ∨ s.mode = .long64) →
    exec (.illegalFF3Reg p rm) s = .fault (.exception .ud none .r113 s))

/-! ## One step (20_memory.md R89) -/

/-- When the bytes that may be fetched at the instruction pointer decode to an instruction, a step is its
meaning. -/
def Obligations.StepRunsTheDecodedInstruction : Prop :=
  ∀ (s : State) (i : Instr), decode s.ctx (fetchWindow s) = .instr i → step s = exec i s

/-- When memory at the instruction pointer holds the encoding of a well-formed instruction that exists in
the state's mode, and its bytes may be fetched, a step runs exactly that instruction. -/
def Obligations.StepRunsTheEncodedInstruction : Prop :=
  ∀ (s : State) (i : Instr), i.wf = true → instrFits s.ctx i = true →
    (∀ j, j < (encode i).length → fetchOk s j = true ∧
      (encode i)[j]? = some (memGet s.mem (byteAddr s (fetchLinear s) j))) →
    step s = exec i s

/-- A fetch offset outside the code-segment limit, or a fetch address that is not canonical in 64-bit mode,
faults with `#GP(0)` when the bytes before it are no whole instruction (R89; the fault is the spec's general
knowledge GK21). The offsets are taken exactly, not wrapped (log entry 21, DEDUCED), and the fault comes
before a repeat or doubled prefix is refused (log entry 17, DESIGN CHOICE). -/
def Obligations.FetchFaults : Prop :=
  ∀ (s : State),
    (fetchOk s 0 = false → faultsClean (step s) s .gp 0 .r89) ∧
    (decode s.ctx (fetchWindow s) = .truncated → faultsClean (step s) s .gp 0 .r89) ∧
    (∀ j, fetchOk s j = if s.mode = .long64 then canonical s.cpu.laWidth (s.rip + BitVec.ofNat 64 j)
      else inLimit s.cs (s.rip.toNat % 2 ^ 32 + j))

/-! ## Invariants and reset (10_state.md, 70_reset_and_hazards.md) -/

/-- Every step keeps memory in its canonical form, from every state whose memory has it. -/
def Obligations.StepKeepsMemoryForm : Prop :=
  ∀ (s t : State), memWf s.mem = true → step s = .next t → memWf t.mem = true

/-- Every step keeps the launch premises of R301: a legal mode, `CPL` equal to `CS.RPL`, `CS.DPL` and
`SS.DPL` where they must be, the bases and limits of real-address and virtual-8086 mode, hidden parts that
some descriptor has, `RIP` canonical or below 2^32, a busy `TSS` of the mode's kind, the CET fields (by log
entry 38, DESIGN CHOICE), the alignment of `SSP`, and the form of memory. `State.wf` lets in the `CS` of reset,
`State.launchOk` does not; both let in the NULL `SS` that a 64-bit gate leaves (log entry 35). A step keeps
either. -/
def Obligations.StepKeepsLaunchPremises : Prop :=
  ∀ (s t : State), step s = .next t →
    (s.wf = true → t.wf = true) ∧ (s.launchOk = true → t.launchOk = true)

/-- The state after reset meets the invariant; its `CS.base` is the one R42 gives, not R301 (c)'s (log
entry 35). -/
def Obligations.ResetMeetsLaunchPremises : Prop := State.reset.wf = true

/-- The values of R42, all rows that give one: control registers, `EFLAGS`, `RIP`, `CS`, the data segments,
`CPL`, the general registers but `RAX` and `RDX`, the table and task registers, the CET registers; the mode
is real-address mode and the first instruction is at linear `0xFFFFFFF0`. The spec marks the whole table as
general knowledge (GK22); what the model chose beyond it (log entries 3, 4, 5) is not stated. -/
def Obligations.ResetValues : Prop :=
  let s := State.reset
  s.cr0 = 0x60000010 ∧ s.eflags = 0x00000002 ∧ s.rip = 0x0000FFF0 ∧ s.cr4 = 0 ∧ s.efer = 0 ∧
  s.cpl = 0 ∧ s.mode = .real ∧ fetchLinear s = 0xFFFFFFF0 ∧
  s.cs.sel = 0xF000 ∧ s.cs.base = 0xFFFF0000 ∧ s.cs.limit = 0xFFFF ∧ s.cs.p = true ∧
    s.cs.isCode = true ∧ s.cs.isExecuteOnly = false ∧ s.cs.db = false ∧ s.cs.l = false ∧
  (∀ g ∈ [s.ss, s.ds, s.es, s.fs, s.gs], g.sel = 0 ∧ g.base = 0 ∧ g.limit = 0xFFFF ∧ g.p = true ∧
    g.isWritableData = true ∧ g.db = false) ∧
  (∀ r : BitVec 4, r ≠ 0 → r ≠ 2 → gprGet s.gpr r = 0) ∧
  s.gdtr = ⟨0, 0xFFFF⟩ ∧ s.idtr = ⟨0, 0xFFFF⟩ ∧
  s.ldtr.sel = 0 ∧ s.ldtr.base = 0 ∧ s.ldtr.limit = 0xFFFF ∧
  s.tr.sel = 0 ∧ s.tr.base = 0 ∧ s.tr.limit = 0xFFFF ∧
  s.uCet = 0 ∧ s.sCet = 0 ∧ s.pl0Ssp = 0 ∧ s.pl1Ssp = 0 ∧ s.pl2Ssp = 0 ∧ s.pl3Ssp = 0 ∧ s.ssp = 0

/-! ## Memory and the stack (20_memory.md) -/

/-- `MemWrite` then `MemRead` of the same bytes gives the low bytes of the value, byte `i` at `lin + i`
(little-endian), and every other byte is as it was (R63, R64; decision D2). -/
def Obligations.StoredValuesReadBack : Prop :=
  ∀ (s : State) (lin v : BitVec 64) (n : Nat), memWf s.mem = true → n ≤ 8 →
    (memRead (afterStore lin n v s) lin n).toNat = v.toNat % 2 ^ (8 * n) ∧
    (∀ i, i < n → memGet (afterStore lin n v s).mem (byteAddr s lin i) = v.extractLsb' (8 * i) 8) ∧
    memorySameOutside s (afterStore lin n v s) (storedAddrs s lin n) ∧
    memWf (afterStore lin n v s).mem = true

/-- `Canonical`: bits 63 to `LA_WIDTH - 1` are all equal; `LA_adjust` copies bit `LA_WIDTH - 1` into the bits
above it and keeps the rest (R81). -/
def Obligations.CanonicalAddresses : Prop :=
  ∀ (width : Nat) (v : BitVec 64), 0 < width → width ≤ 64 →
    (canonical width v = true ↔
      ∀ j, width - 1 ≤ j → j < 64 → v.getLsbD j = v.getLsbD (width - 1)) ∧
    (∀ j, j < 64 → (laAdjust width v).getLsbD j =
      if j < width then v.getLsbD j else v.getLsbD (width - 1))

/-- The room test is the condition under which the pushes that follow raise nothing, on a stack that takes
writes: `StackRoom(total, n)` holds exactly when any `total/n` items of `n` bytes can be pushed (R67). -/
def Obligations.StackRoomIsRoomForThePushes : Prop :=
  ∀ (s : State) (n : Nat) (items : List (BitVec 64)), (n = 2 ∨ n = 4 ∨ n = 8) →
    stackWritable s = true →
    (stackRoom s (items.length * n) n = true ↔
      ∃ r, items.foldlM (fun r v => push n v r) (startRun s) = .ok r)

/-- `Push(n, v)`: the stack pointer's view falls by `n` modulo the stack-address size, the bits above it
stay, the `n` bytes of `v` stand at the new top, every other byte and register is as it was; or `SegWrite`
raises and nothing is written (R66). -/
def Obligations.PushResult : Prop :=
  ∀ (s : State) (n : Nat) (v : BitVec 64), (n = 2 ∨ n = 4 ∨ n = 8) → memWf s.mem = true →
    match segFault s .ss s.ss (pushOffset s n) n true with
    | some x => push n v (startRun s) = .error (.exc x (some 0) .r65 [] s.draws)
    | none => ∃ r, push n v (startRun s) = .ok r ∧
        r.st = (s.setMem r.st.mem).setRsp r.st.gpr.rsp ∧
        r.st.gpr.rsp.toNat % 2 ^ (stackAddrSize s).bits =
          (s.gpr.rsp.toNat + 2 ^ 64 - n) % 2 ^ (stackAddrSize s).bits ∧
        r.st.gpr.rsp.toNat / 2 ^ (stackAddrSize s).bits =
          s.gpr.rsp.toNat / 2 ^ (stackAddrSize s).bits ∧
        (memRead r.st (pushLinear s n) n).toNat = v.toNat % 2 ^ (8 * n) ∧
        memorySameOutside s r.st (storedAddrs s (pushLinear s n) n)

/-! ## Operands (30_encoding.md R106 to R110, 20_memory.md R61, R65, R68) -/

/-- Effective address and default segment under 16-bit addressing, all rows of R107: `rm` 0 to 7 name the
bases in this order, registers count modulo 2^16, `disp8` is sign-extended, and the sum is modulo 2^16. -/
def Obligations.EffectiveAddresses16 : Prop :=
  ∀ (s : State) (p : Prefixes) (ret : BitVec 64) (d : Disp16),
    let ea := fun b => ((effAddr s p ret (.base16 b d)).toNat : Int)
    let reg := fun (v : BitVec 64) => (v.toNat : Int)
    let disp : Int := match d with
      | .none => 0
      | .d8 x => x.toInt
      | .d16 x => x.toInt
    (∀ rm : BitVec 3,
      [Base16.bxSi, .bxDi, .bpSi, .bpDi, .si, .di, .bp, .bx][rm.toNat]? = some (base16Of rm)) ∧
    ea .bxSi = (reg s.gpr.rbx + reg s.gpr.rsi + disp) % 2 ^ 16 ∧
    ea .bxDi = (reg s.gpr.rbx + reg s.gpr.rdi + disp) % 2 ^ 16 ∧
    ea .bpSi = (reg s.gpr.rbp + reg s.gpr.rsi + disp) % 2 ^ 16 ∧
    ea .bpDi = (reg s.gpr.rbp + reg s.gpr.rdi + disp) % 2 ^ 16 ∧
    ea .si = (reg s.gpr.rsi + disp) % 2 ^ 16 ∧
    ea .di = (reg s.gpr.rdi + disp) % 2 ^ 16 ∧
    ea .bp = (reg s.gpr.rbp + disp) % 2 ^ 16 ∧
    ea .bx = (reg s.gpr.rbx + disp) % 2 ^ 16 ∧
    (∀ x : BitVec 16, (effAddr s p ret (.abs16 x)).toNat = x.toNat ∧ defaultSeg p (.abs16 x) = .ds) ∧
    (∀ b, defaultSeg p (.base16 b d) = if b ∈ [Base16.bpSi, .bpDi, .bp] then .ss else .ds)

/-- Effective address and default segment under 32- and 64-bit addressing, all forms of R108 and R109: base,
scaled index and sign-extended displacement, modulo 2 to the address size; `REX.B` and `REX.X` add 8 to base
and index; index 4 without `REX.X` is none; `disp32` alone adds `nRIP` in 64-bit mode; `SS` when the base is
`ESP` or `EBP`. That a `disp32` is sign-extended with a base or index at address size 64 is log entry 15
(PRESUMED). -/
def Obligations.EffectiveAddresses32 : Prop :=
  ∀ (s : State) (p : Prefixes) (ret : BitVec 64), addrSizeOf s p ≠ .s16 →
    let modulus : Int := 2 ^ (addrSizeOf s p).bits
    let b8 := if rexB p then 8 else 0
    let x8 := if rexX p then 8 else 0
    let reg := fun (n : Nat) => ((gprGet s.gpr (BitVec.ofNat 4 n)).toNat : Int)
    let index := fun (ix : BitVec 3) (sc : BitVec 2) =>
      if ix = 4 ∧ rexX p = false then 0 else reg (ix.toNat + x8) * 2 ^ sc.toNat
    let disp := fun (d : Disp32) => match d with
      | .none => (0 : Int)
      | .d8 x => x.toInt
      | .d32 x => x.toInt
    let ea := fun m => ((effAddr s p ret m).toNat : Int)
    let seg := fun (b : BitVec 3) => if b.toNat + b8 = 4 ∨ b.toNat + b8 = 5 then SegName.ss else .ds
    (∀ rm d, ea (.base rm d) = (reg (rm.toNat + b8) + disp d) % modulus ∧
      defaultSeg p (.base rm d) = seg rm) ∧
    (∀ d : BitVec 32,
      ea (.disp32 d) = ((if s.mode = .long64 then (ret.toNat : Int) else 0) + d.toInt) % modulus ∧
      defaultSeg p (.disp32 d) = .ds) ∧
    (∀ sc ix b d, ea (.sib sc ix b d) = (reg (b.toNat + b8) + index ix sc + disp d) % modulus ∧
      defaultSeg p (.sib sc ix b d) = seg b) ∧
    (∀ sc ix (d : BitVec 32), ea (.sibNoBase sc ix d) = (index ix sc + d.toInt) % modulus ∧
      defaultSeg p (.sibNoBase sc ix d) = .ds)

/-- Registers, address size, overrides and operands: the order of the sixteen registers (10_state.md R24); the
address size by mode, `CS.D` and `0x67` (10_state.md R40); an override replaces the default segment, but `CS`,
`SS`, `DS` and `ES` overrides have no effect in 64-bit mode (R110); a register operand is register `rm`, plus 8
with `REX.B`, at the operand size (R106); byte `k` of a memory operand is at `ea + k`, modulo 2 to the address
size outside 64-bit mode and modulo 2^64 in it (20_memory.md R61), so the selector of a far pointer wraps at
the address size only outside 64-bit mode (log entry 14, DEDUCED). -/
def Obligations.RegistersAndOverrides : Prop :=
  (∀ g : Gprs, (List.range 16).map (fun n => gprGet g (BitVec.ofNat 4 n)) =
    [g.rax, g.rcx, g.rdx, g.rbx, g.rsp, g.rbp, g.rsi, g.rdi,
      g.r8, g.r9, g.r10, g.r11, g.r12, g.r13, g.r14, g.r15]) ∧
  (∀ (s : State) (p : Prefixes), addrSizeOf s p =
    if s.mode = .long64 then (if p.addrSize then .s32 else .s64)
    else if s.mode = .real ∨ s.mode = .v86 then (if p.addrSize then .s32 else .s16)
    else if s.cs.db = p.addrSize then .s16 else .s32) ∧
  (∀ (s : State) (p : Prefixes) (m : Mem),
    (p.seg = none → operandSeg s p m = defaultSeg p m) ∧
    (∀ g, p.seg = some g → operandSeg s p m =
      if s.mode = .long64 ∧ g ∈ [SegName.cs, .ss, .ds, .es] then defaultSeg p m else g)) ∧
  (∀ (s : State) (p : Prefixes) (ret : BitVec 64) (k : Size) (rm : BitVec 3),
    (destValue s p ret k (.reg rm)).toNat =
      (gprGet s.gpr (BitVec.ofNat 4 (rm.toNat + if rexB p then 8 else 0))).toNat % 2 ^ k.bits) ∧
  (∀ (s : State) (p : Prefixes) (ret : BitVec 64) (m : Mem) (k : Nat),
    (operandOffset s p ret m k).toNat =
      ((effAddr s p ret m).toNat + k) %
        if s.mode = .long64 then 2 ^ 64 else 2 ^ (addrSizeOf s p).bits)

/-- Where a segment-relative access goes and when it faults, all of R61, R65 and R82. In 64-bit mode only `FS`
and `GS` add a base, and the one test is that every address is canonical (log entry 34); elsewhere the base is
added modulo 2^32, every offset must be within the limit, expand-down or not, and then a write needs writable
data, a read no execute-only code, and `DS`, `ES`, `FS` and `GS` no NULL selector, in every mode (log
entry 13). The rule is the spec's general knowledge (GK11, GK21). -/
def Obligations.SegmentAccesses : Prop :=
  ∀ (s : State) (name : SegName) (g : Seg) (off : BitVec 64) (n : Nat) (write : Bool),
    let lin := segLinear s name g off
    let fault := segFault s name g off n write
    let class' := if name = .ss then Exc.ss else .gp
    let typ := g.typ.toNat
    let reachable := ∀ j, j < n → canonical s.cpu.laWidth (lin + BitVec.ofNat 64 j) = true
    let inside := ∀ j, j < n → if g.s = true ∧ typ ∈ [4, 5, 6, 7] then
        g.limit.toNat < off.toNat + j ∧ off.toNat + j < if g.db then 2 ^ 32 else 2 ^ 16
      else off.toNat + j ≤ g.limit.toNat
    let forbidden := (write = true ∧ ¬ (g.s = true ∧ typ ∈ [2, 3, 6, 7])) ∨
      (write = false ∧ g.s = true ∧ typ ∈ [8, 9, 0xC, 0xD]) ∨
      (name ∈ [SegName.ds, .es, .fs, .gs] ∧ g.sel.toNat ≤ 3)
    (s.mode = .long64 →
      lin.toNat = (if name = .fs ∨ name = .gs then (g.base.toNat + off.toNat) % 2 ^ 64 else off.toNat) ∧
      (reachable → fault = none) ∧ (¬ reachable → fault = some class')) ∧
    (s.mode ≠ .long64 → lin.toNat = (g.base.toNat + off.toNat) % 2 ^ 32 ∧
      (¬ inside → fault = some class') ∧
      (inside → forbidden → fault = some .gp) ∧
      (inside → ¬ forbidden → fault = none))

/-! ## Control-flow enforcement (10_state.md R34, R37, R38) -/

/-- When shadow stacks and indirect-branch tracking are enabled at a level: the feature, `CR4.CET`, `PE`, not
`VM`, and the enable bit of the level's CET register, `IA32_U_CET` at 3 and `IA32_S_CET` below; tracking is
suppressed by bit 10 (R37, R38). The predicates and the bits are the spec's general knowledge (GK16, GK17). -/
def Obligations.CetPredicates : Prop :=
  ∀ (s : State) (level : BitVec 2),
    let reg := if level = 3 then s.uCet else s.sCet
    let on := s.cr4.getLsbD 23 = true ∧ s.cr0.getLsbD 0 = true ∧ s.eflags.getLsbD 17 = false
    (shadowStackEnabled s level = true ↔ s.cpu.hasCetSs = true ∧ on ∧ reg.getLsbD 0 = true) ∧
    (endbranchEnabled s level = true ↔ s.cpu.hasCetIbt = true ∧ on ∧ reg.getLsbD 2 = true) ∧
    (endbranchEnabledAndNotSuppressed s level = true ↔
      s.cpu.hasCetIbt = true ∧ on ∧ reg.getLsbD 2 = true ∧ reg.getLsbD 10 = false) ∧
    cetNoTrackEn (cetOf s level) = reg.getLsbD 4

/-! ## Near calls (40_near_call.md) -/

/-- `CALL rel16`, all of R141: refused in 64-bit mode, where it has no encoding (R112; that `exec` refuses is
the model's choice, log entry 19, here and in the statements below); else the target is the 16-bit sum;
`#GP(0)` when it is outside the limit, `#SS(0)` without room; else the 16-bit return offset is pushed, on the
shadow stack too unless the displacement is 0, and `EIP` is the target. A stack segment that takes no writes
raises `#GP(0)` by R65 (general knowledge GK21 of the spec; so in the statements below). -/
def Obligations.CallRel16Result : Prop :=
  ∀ (p : Prefixes) (rel : BitVec 16) (s : State),
    let i := Instr.callRel16 p rel
    let nIP := (nrip i s).setWidth 16
    let tempEIP := nIP + rel
    let pushed := afterPush 2 (nIP.setWidth 64) s
    let shadowed := if shadowStackEnabled s s.cpl = true ∧ rel ≠ 0 then
        afterShadowPush 4 (nIP.setWidth 64) pushed
      else pushed
    (s.mode = .long64 → exec i s = .refused .formNotInMode) ∧
    (runnable i s = true →
      if inLimit s.cs tempEIP.toNat = false then faultsClean (exec i s) s .gp 0 .r141
      else if stackRoom s 2 2 = false then faultsClean (exec i s) s .ss 0 .r141
      else if stackWritable s = false then faultsClean (exec i s) s .gp 0 .r65
      else exec i s = .next (shadowed.setRip (tempEIP.setWidth 64)))

/-- `CALL rel32` at operand size 32, all of R142, with the refusal of log entry 19 in 64-bit mode and the
`#GP(0)` of R65 (GK21) for a stack segment that takes no writes. -/
def Obligations.CallRel32Result : Prop :=
  ∀ (p : Prefixes) (rel : BitVec 32) (s : State),
    let i := Instr.callRel32 p rel
    let nEIP := (nrip i s).setWidth 32
    let tempEIP := nEIP + rel
    let pushed := afterPush 4 (nEIP.setWidth 64) s
    let shadowed := if shadowStackEnabled s s.cpl = true ∧ rel ≠ 0 then
        afterShadowPush 4 (nEIP.setWidth 64) pushed
      else pushed
    (s.mode = .long64 → exec i s = .refused .formNotInMode) ∧
    (runnable i s = true →
      if inLimit s.cs tempEIP.toNat = false then faultsClean (exec i s) s .gp 0 .r142
      else if stackRoom s 4 4 = false then faultsClean (exec i s) s .ss 0 .r142
      else if stackWritable s = false then faultsClean (exec i s) s .gp 0 .r65
      else exec i s = .next (shadowed.setRip (tempEIP.setWidth 64)))

/-- `CALL rel32` at operand size 64, all of R143, with the canonical test it takes from R150 (the spec's
decision D9, log entry 28) before the room test; refused outside 64-bit mode by log entry 19. -/
def Obligations.CallRel64Result : Prop :=
  ∀ (p : Prefixes) (rel : BitVec 32) (s : State),
    let i := Instr.callRel64 p rel
    let tempRIP := nrip i s + rel.signExtend 64
    let pushed := afterPush 8 (nrip i s) s
    let shadowed := if shadowStackEnabled s s.cpl = true ∧ rel ≠ 0 then
        afterShadowPush 8 (nrip i s) pushed
      else pushed
    (s.mode ≠ .long64 → exec i s = .refused .formNotInMode) ∧
    (runnable i s = true →
      if canonical s.cpu.laWidth tempRIP = false then faultsClean (exec i s) s .gp 0 .r150
      else if stackRoom s 8 8 = false then faultsClean (exec i s) s .ss 0 .r143
      else exec i s = .next (shadowed.setRip tempRIP))

/-- `CALL r/m16`, all of R144: the operand is read first, and its fault comes before every test (R148); the
shadow-stack push has no condition on the operand; last the tracker (R147). The refusal in 64-bit mode is log
entry 19, the `#GP(0)` of R65 for a stack segment that takes no writes GK21; the operand is read as
`EffectiveAddresses16`, `EffectiveAddresses32`, `RegistersAndOverrides` and `SegmentAccesses` say, with the
NULL test of log entry 13 and the displacements of log entry 15. -/
def Obligations.CallRm16Result : Prop :=
  ∀ (p : Prefixes) (o : RmOperand) (s : State),
    let i := Instr.callRm16 p o
    let nIP := (nrip i s).setWidth 16
    let tempEIP := destValue s p (nrip i s) .s16 o
    let pushed := afterPush 2 (nIP.setWidth 64) s
    let shadowed := if shadowStackEnabled s s.cpl = true then
        afterShadowPush 4 (nIP.setWidth 64) pushed
      else pushed
    (s.mode = .long64 → exec i s = .refused .formNotInMode) ∧
    (runnable i s = true →
      match destFault s p (nrip i s) .s16 o with
      | some x => faultsClean (exec i s) s x 0 .r65
      | none =>
        if inLimit s.cs tempEIP.toNat = false then faultsClean (exec i s) s .gp 0 .r144
        else if stackRoom s 2 2 = false then faultsClean (exec i s) s .ss 0 .r144
        else if stackWritable s = false then faultsClean (exec i s) s .gp 0 .r65
        else exec i s = .next (trackerUpdate (p.seg == some .ds) (shadowed.setRip tempEIP)))

/-- `CALL r/m32`, all of R145, with the refusal of log entry 19 in 64-bit mode, the `#GP(0)` of R65 (GK21) for
a stack segment that takes no writes, and the operand read as for `CALL r/m16` (log entries 13 and 15). -/
def Obligations.CallRm32Result : Prop :=
  ∀ (p : Prefixes) (o : RmOperand) (s : State),
    let i := Instr.callRm32 p o
    let nEIP := (nrip i s).setWidth 32
    let tempEIP := destValue s p (nrip i s) .s32 o
    let pushed := afterPush 4 (nEIP.setWidth 64) s
    let shadowed := if shadowStackEnabled s s.cpl = true then
        afterShadowPush 4 (nEIP.setWidth 64) pushed
      else pushed
    (s.mode = .long64 → exec i s = .refused .formNotInMode) ∧
    (runnable i s = true →
      match destFault s p (nrip i s) .s32 o with
      | some x => faultsClean (exec i s) s x 0 .r65
      | none =>
        if inLimit s.cs tempEIP.toNat = false then faultsClean (exec i s) s .gp 0 .r145
        else if stackRoom s 4 4 = false then faultsClean (exec i s) s .ss 0 .r145
        else if stackWritable s = false then faultsClean (exec i s) s .gp 0 .r65
        else exec i s = .next (trackerUpdate (p.seg == some .ds) (shadowed.setRip tempEIP)))

/-- `CALL r/m64`, all of R146, with the canonical test it takes from R150 (the spec's decision D9, log
entry 28) before the room test; refused outside 64-bit mode by log entry 19; the operand's address by log
entries 15 and 34. -/
def Obligations.CallRm64Result : Prop :=
  ∀ (p : Prefixes) (o : RmOperand) (s : State),
    let i := Instr.callRm64 p o
    let tempRIP := destValue s p (nrip i s) .s64 o
    let pushed := afterPush 8 (nrip i s) s
    let shadowed := if shadowStackEnabled s s.cpl = true then
        afterShadowPush 8 (nrip i s) pushed
      else pushed
    (s.mode ≠ .long64 → exec i s = .refused .formNotInMode) ∧
    (runnable i s = true →
      match destFault s p (nrip i s) .s64 o with
      | some x => faultsClean (exec i s) s x 0 .r65
      | none =>
        if canonical s.cpu.laWidth tempRIP = false then faultsClean (exec i s) s .gp 0 .r150
        else if stackRoom s 8 8 = false then faultsClean (exec i s) s .ss 0 .r146
        else exec i s = .next (trackerUpdate (p.seg == some .ds) (shadowed.setRip tempRIP)))

/-- What a near call leaves unchanged (R149): `CS`, `CPL`, `SS`, every general register but the stack
pointer, `EFLAGS`, the tables, `SUPPRESS`, the `IA32_PLi_SSP` registers, and every byte of memory but the
return offset's on the stack and, with shadow stacks enabled, its copy's below `SSP`. -/
def Obligations.NearCallFrame : Prop :=
  ∀ (i : Instr) (s t : State), isNear i = true → exec i s = .next t →
    keepsRest s t ∧ t.cs = s.cs ∧ t.cpl = s.cpl ∧ t.ss = s.ss ∧ t.pl3Ssp = s.pl3Ssp ∧
    cetSuppress t.uCet = cetSuppress s.uCet ∧ cetSuppress t.sCet = cetSuppress s.sCet ∧
    (shadowStackEnabled s s.cpl = false → t.ssp = s.ssp) ∧
    memorySameOutside s t
      (storedAddrs s (pushLinear s (formSize i).bytes) (formSize i).bytes ++
        nearShadowWrites (formSize i) s)

/-- The tracker after a near call (R147): a completed indirect call arms it at the caller's level when
tracking is enabled and not suppressed (`CetPredicates`), unless the call carries `3E` and `NO_TRACK_EN` is 1;
nothing else of the two CET registers changes, and a relative call changes neither. -/
def Obligations.NearCallTracker : Prop :=
  ∀ (i : Instr) (s t : State), isNear i = true → exec i s = .next t →
    let arms := isNearIndirect i = true ∧ endbranchEnabledAndNotSuppressed s s.cpl = true ∧
      ((prefixesOfInstr i).seg ≠ some .ds ∨ cetNoTrackEn (cetOf s s.cpl) = false)
    (arms ∧ s.cpl = 3 → t.uCet = s.uCet ||| 0x800 ∧ t.sCet = s.sCet) ∧
    (arms ∧ s.cpl ≠ 3 → t.sCet = s.sCet ||| 0x800 ∧ t.uCet = s.uCet) ∧
    (¬ arms → t.uCet = s.uCet ∧ t.sCet = s.sCet)

/-! ## Far calls in real-address and virtual-8086 mode (41_far_call_real.md) -/

/-- `CALL ptr16:16` and `m16:16` in real-address and virtual-8086 mode, all of R161: operand read, `#SS(0)`
without room for 4 bytes, else `CS` and the 16-bit return offset are pushed, `CS` is loaded as R163 says, and
`EIP` is the offset. In the other modes the forms are refused by log entry 19; the `#GP(0)` of R65 for a stack
segment that takes no writes is GK21; the operand is read by R68 with log entries 13 and 14. -/
def Obligations.FarReal16Result : Prop :=
  ∀ (i : Instr) (s : State), isFarReal i = true → formSize i = .s16 →
    (s.mode.isRealLike = false → exec i s = .refused .formNotInMode) ∧
    (∀ x, runnable i s = true → farOperand i s = some (.error x) → faultsClean (exec i s) s x 0 .r65) ∧
    (∀ f, runnable i s = true → farOperand i s = some (.ok f) →
      let pushed := afterPush 2 (nrip i s) (afterPushSel .s16 s.cs.sel s)
      let cs' := { s.cs with sel := f.sel, base := (f.sel.setWidth 64) <<< 4 }
      if stackRoom s 4 2 = false then faultsClean (exec i s) s .ss 0 .r161
      else if stackWritable s = false then faultsClean (exec i s) s .gp 0 .r65
      else exec i s = .next ((pushed.setCs cs').setRip f.off))

/-- `CALL ptr16:32` and `m16:32` in real-address and virtual-8086 mode, all of R162: the room test is for 8
bytes (conflict C1 as 90_conflicts.md resolves it) and comes before the offset test. In the other modes the
forms are refused by log entry 19; the `#GP(0)` of R65 for a stack segment that takes no writes is GK21; the
operand is read by R68 with log entries 13 and 14. -/
def Obligations.FarReal32Result : Prop :=
  ∀ (i : Instr) (s : State), isFarReal i = true → formSize i = .s32 →
    (s.mode.isRealLike = false → exec i s = .refused .formNotInMode) ∧
    (∀ x, runnable i s = true → farOperand i s = some (.error x) → faultsClean (exec i s) s x 0 .r65) ∧
    (∀ f, runnable i s = true → farOperand i s = some (.ok f) →
      let pushed := afterPush 4 (nrip i s) (afterPushSel .s32 s.cs.sel s)
      let cs' := { s.cs with sel := f.sel, base := (f.sel.setWidth 64) <<< 4 }
      if stackRoom s 8 4 = false then faultsClean (exec i s) s .ss 0 .r162
      else if 0xFFFF < f.off.toNat then faultsClean (exec i s) s .gp 0 .r162
      else if stackWritable s = false then faultsClean (exec i s) s .gp 0 .r65
      else exec i s = .next ((pushed.setCs cs').setRip f.off))

/-- What these far calls leave unchanged (R164, R165): everything but `CS.sel`, `CS.base`, `RIP`, `RSP` and
4 or 8 bytes of stack; no CET state changes. -/
def Obligations.FarRealFrame : Prop :=
  ∀ (i : Instr) (s t : State), isFarReal i = true → exec i s = .next t →
    keepsRest s t ∧ t.ss = s.ss ∧ t.cpl = s.cpl ∧
    t.cs = { s.cs with sel := t.cs.sel, base := t.cs.base } ∧
    t.ssp = s.ssp ∧ t.uCet = s.uCet ∧ t.sCet = s.sCet ∧ t.pl3Ssp = s.pl3Ssp ∧
    memorySameOutside s t
      (storedAddrs s (pushLinear s (formSize i).bytes) (formSize i).bytes ++
        storedAddrs s (segLinear s .ss s.ss
          (itemOffset (stackAddrSize s) s.gpr.rsp (2 * (formSize i).bytes))) (formSize i).bytes)

/-! ## Far calls in protected, compatibility and 64-bit mode (42_far_call_protected.md) -/

/-- The operand is read before any check (R170): a fault of the read is the call's. In real-address and
virtual-8086 mode the forms do not exist (R112) and are refused, the model's choice (log entry 19); the
selector of a far pointer in memory is read by log entry 14, the NULL test of the read is log entry 13. -/
def Obligations.FarOperandIsReadFirst : Prop :=
  ∀ (i : Instr) (s : State), isFarProt i = true →
    (s.mode.isRealLike = true → exec i s = .refused .formNotInMode) ∧
    (∀ x, runnable i s = true → farOperand i s = some (.error x) → faultsClean (exec i s) s x 0 .r65)

/-- NULL selectors, 0 to 3, raise `#GP(0)` (R171). -/
def Obligations.NullSelectorFaults : Prop :=
  ∀ (i : Instr) (s : State) (f : FarPtr), isFarProt i = true → runnable i s = true →
    farOperand i s = some (.ok f) → f.sel.toNat ≤ 3 → faultsClean (exec i s) s .gp 0 .r171

/-- A selector whose descriptor is not in its table, or that names an `LDT` that is not loaded, raises
`#GP(sel)` (R172, 20_memory.md R70). -/
def Obligations.TableLimitFaults : Prop :=
  ∀ (i : Instr) (s : State) (f : FarPtr), isFarProt i = true → runnable i s = true →
    farOperand i s = some (.ok f) → 3 < f.sel.toNat →
    (if f.sel.getLsbD 2 then
        s.ldtr.sel.toNat ≤ 3 ∨ s.ldtr.limit.toNat < f.sel.toNat / 8 * 8 + 7
      else s.gdtr.limit.toNat < f.sel.toNat / 8 * 8 + 7) →
    faultsClean (exec i s) s .gp (f.sel &&& 0xFFFC) .r172

/-- A descriptor of any other type raises `#GP(sel)`: outside IA-32e mode all but code segments, 16- and
32-bit call gates, task gates and `TSS`; in IA-32e mode all but code segments and 64-bit call gates (R173). -/
def Obligations.TypeTestFaults : Prop :=
  ∀ (i : Instr) (s : State) (f : FarPtr) (d : BitVec 64), FarCallTo i s f d →
    ¬ (descS d = true ∧ 8 ≤ (descType d).toNat) →
    (if s.lma then ¬ (descS d = false ∧ (descType d).toNat = 0xC)
      else ¬ (descS d = false ∧ (descType d).toNat ∈ [0x4, 0xC, 0x5, 0x1, 0x3, 0x9, 0xB])) →
    faultsClean (exec i s) s .gp (f.sel &&& 0xFFFC) .r173

/-- Far call to a conforming code segment, all of R176, for all five forms: the tests in order, then the
pushes, the `CS` load, the branch, the far shadow frame (or `#GP(0)` when `SSP` is above 4 GB and the target
is not 64-bit code) and the tracker. A stack segment that takes no writes raises `#GP(0)` by R65 (GK21); that
the fault of R180, which comes after the pushes, leaves every register as before is the spec's decision D4
(R265, log entry 7). -/
def Obligations.ConformingCodeSegmentResult : Prop :=
  ∀ (i : Instr) (s : State) (f : FarPtr) (d : BitVec 64), FarCallTo i s f d →
    (segFromDesc f.sel d).isConforming = true →
    let c := segFromDesc f.sel d
    let k := formSize i
    let compat := s.lma = true ∧ c.l = false
    let masked := if compat then f.off &&& 0xFFFFFFFF else f.off
    let tempEIP := if k = .s16 then masked &&& 0xFFFF else masked
    let sel := f.sel &&& 0xFFFC
    if c.l = true ∧ c.db = true ∧ s.lma = true then faultsClean (exec i s) s .gp sel .r176
    else if s.cpl < c.dpl then faultsClean (exec i s) s .gp sel .r176
    else if c.p = false then faultsClean (exec i s) s .np sel .r176
    else if stackRoom s (2 * k.bytes) k.bytes = false then faultsClean (exec i s) s .ss 0 .r176
    else if (s.lma = false ∨ compat) ∧ inLimit c tempEIP.toNat = false then
      faultsClean (exec i s) s .gp 0 .r176
    else if canonical s.cpu.laWidth tempEIP = false then faultsClean (exec i s) s .gp 0 .r176
    else if stackWritable s = false then faultsClean (exec i s) s .gp 0 .r65
    else if shadowStackEnabled s s.cpl = true ∧ (s.lma && c.l) = false ∧ 2 ^ 32 ≤ s.ssp.toNat then
      faultsAfter (exec i s) s .gp 0 .r180 (codeSegmentWrites k f d s)
    else exec i s = .next (afterCodeSegment k f d (conformingLip s k (nrip i s)) (nrip i s) s) ∧
      (afterCodeSegment k f d (conformingLip s k (nrip i s)) (nrip i s) s).rip = tempEIP

/-- Far call to a nonconforming code segment, all of R177, for all five forms. The `#GP(0)` of R65 for a stack
segment that takes no writes is GK21, the registers after the fault of R180 decision D4 (R265, log entry 7). -/
def Obligations.NonconformingCodeSegmentResult : Prop :=
  ∀ (i : Instr) (s : State) (f : FarPtr) (d : BitVec 64), FarCallTo i s f d →
    (segFromDesc f.sel d).isNonconforming = true →
    let c := segFromDesc f.sel d
    let k := formSize i
    let compat := s.lma = true ∧ c.l = false
    let masked := if compat then f.off &&& 0xFFFFFFFF else f.off
    let tempEIP := if k = .s16 then masked &&& 0xFFFF else masked
    let sel := f.sel &&& 0xFFFC
    if c.l = true ∧ c.db = true ∧ s.lma = true then faultsClean (exec i s) s .gp sel .r177
    else if s.cpl.toNat < f.sel.toNat % 4 ∨ c.dpl ≠ s.cpl then faultsClean (exec i s) s .gp sel .r177
    else if c.p = false then faultsClean (exec i s) s .np sel .r177
    else if stackRoom s (2 * k.bytes) k.bytes = false then faultsClean (exec i s) s .ss 0 .r177
    else if (s.lma = false ∨ compat) ∧ inLimit c tempEIP.toNat = false then
      faultsClean (exec i s) s .gp 0 .r177
    else if canonical s.cpu.laWidth tempEIP = false then faultsClean (exec i s) s .gp 0 .r177
    else if stackWritable s = false then faultsClean (exec i s) s .gp 0 .r65
    else if shadowStackEnabled s s.cpl = true ∧ (s.lma && c.l) = false ∧ 2 ^ 32 ≤ s.ssp.toNat then
      faultsAfter (exec i s) s .gp 0 .r180 (codeSegmentWrites k f d s)
    else exec i s = .next (afterCodeSegment k f d (nonconformingLip s (nrip i s)) (nrip i s) s) ∧
      (afterCodeSegment k f d (nonconformingLip s (nrip i s)) (nrip i s) s).rip = tempEIP

/-- `CS` after a completed far call to a code segment: the selector with `RPL` replaced by `CPL`, the hidden
part from the descriptor's bits; the accessed bit is set in the table when nothing written later lies over
it, that is without shadow stacks (R178, 20_memory.md R71, R77; the layout and the accessed-bit write are the
spec's general knowledge GK7, GK25). -/
def Obligations.CodeSegmentIsLoaded : Prop :=
  ∀ (i : Instr) (s t : State) (f : FarPtr) (d : BitVec 64), FarCallTo i s f d →
    (segFromDesc f.sel d).isCode = true → exec i s = .next t →
    t.cs.sel.toNat = f.sel.toNat / 4 * 4 + s.cpl.toNat ∧
    t.cs.base.toNat = d.toNat / 2 ^ 56 * 2 ^ 24 + d.toNat / 2 ^ 16 % 2 ^ 24 ∧
    t.cs.limit.toNat = (let limit20 := d.toNat / 2 ^ 48 % 16 * 2 ^ 16 + d.toNat % 2 ^ 16
      if d.getLsbD 55 then limit20 * 2 ^ 12 + 0xFFF else limit20) ∧
    t.cs.typ.toNat = d.toNat / 2 ^ 40 % 16 ∧ t.cs.dpl.toNat = d.toNat / 2 ^ 45 % 4 ∧
    t.cs.p = d.getLsbD 47 ∧ t.cs.l = d.getLsbD 53 ∧ t.cs.db = d.getLsbD 54 ∧ t.cs.g = d.getLsbD 55 ∧
    (memWf s.mem = true → shadowStackEnabled s s.cpl = false →
      (memGet t.mem (byteAddr s (linAdd s (descAddr s f.sel) 5) 0)).getLsbD 0 = true ∨
        d.getLsbD 40 = true)

/-- The far shadow frame of a completed far call to a code segment (R180): `SSP` ends 24 below its old value
aligned down to 8; there stand the old `SSP`, the linear return address and the caller's `CS`; when the old
`SSP` is 4 modulo 8 the four bytes below it are zero. With `SSP` above 4 GB and a target that is not 64-bit
code the call does not complete. -/
def Obligations.FarShadowFrame : Prop :=
  ∀ (i : Instr) (s : State) (f : FarPtr) (d : BitVec 64), FarCallTo i s f d →
    (segFromDesc f.sel d).isCode = true → shadowStackEnabled s s.cpl = true → memWf s.mem = true →
    let top := s.ssp &&& 0xFFFFFFFFFFFFFFF8
    let lip := if (segFromDesc f.sel d).isConforming then conformingLip s (formSize i) (nrip i s)
      else nonconformingLip s (nrip i s)
    (∀ t, exec i s = .next t →
      t.ssp = top - 24 ∧ memRead t (top - 24) 8 = s.ssp ∧ memRead t (top - 16) 8 = lip ∧
      memRead t (top - 8) 8 = s.cs.sel.setWidth 64 ∧
      (s.ssp.toNat % 8 = 4 → memRead t (s.ssp - 4) 4 = 0)) ∧
    ((s.lma && (segFromDesc f.sel d).l) = false → 2 ^ 32 ≤ s.ssp.toNat → ∀ t, exec i s ≠ .next t)

/-- The tracker after a completed far call in protected mode that keeps its privilege level (R181, R218):
with tracking enabled it is armed and `SUPPRESS` cleared in the caller's CET register, whatever `SUPPRESS`,
`NO_TRACK_EN` or a `3E` prefix say; nothing else of the two registers changes. -/
def Obligations.FarCallTracker : Prop :=
  ∀ (i : Instr) (s t : State), isFarProt i = true → exec i s = .next t → t.cpl = s.cpl →
    (endbranchEnabled s s.cpl = false → t.uCet = s.uCet ∧ t.sCet = s.sCet) ∧
    (endbranchEnabled s s.cpl = true → s.cpl = 3 →
      t.uCet = (s.uCet ||| 0x800) &&& ~~~0x400 ∧ t.sCet = s.sCet) ∧
    (endbranchEnabled s s.cpl = true → s.cpl ≠ 3 →
      t.sCet = (s.sCet ||| 0x800) &&& ~~~0x400 ∧ t.uCet = s.uCet)

/-- What a far call to a code segment leaves unchanged (R183): `EFLAGS`, `SS`, `CPL`, every general register
but the stack pointer, the tables, the task register, `IA32_PLi_SSP`, and every byte of memory but the `2*k`
bytes of stack, one accessed bit's and the shadow frame's. -/
def Obligations.CodeSegmentFrame : Prop :=
  ∀ (i : Instr) (s t : State) (f : FarPtr) (d : BitVec 64), FarCallTo i s f d →
    (segFromDesc f.sel d).isCode = true → exec i s = .next t →
    keepsRest s t ∧ t.ss = s.ss ∧ t.cpl = s.cpl ∧ t.pl3Ssp = s.pl3Ssp ∧
    (shadowStackEnabled s s.cpl = false → t.ssp = s.ssp) ∧
    memorySameOutside s t (codeSegmentWrites (formSize i) f d s ++ farShadowWrites s)

/-! ## Call gates (43_call_gate.md) -/

/-- The checks on a call gate, all of R200 and R201, in order; when they pass the call goes on to the more
privileged level or stays at the same one. The first two, on the upper half of a 16-byte gate, are R201's, the
spec's decision D28 (GK30, log entry 36). -/
def Obligations.GateChecks : Prop :=
  ∀ (i : Instr) (s : State) (f : FarPtr) (d : BitVec 64), FarCallTo i s f d →
    isCallGate s.lma d = true →
    let sel := f.sel &&& 0xFFFC
    let csel := d.extractLsb' 16 16
    let table := if f.sel.getLsbD 2 then s.ldtr.limit.toNat else s.gdtr.limit.toNat
    let h := memRead s (linAdd s (descAddr s f.sel) 8) 8
    if s.lma = true ∧ table < f.sel.toNat / 8 * 8 + 15 then faultsClean (exec i s) s .gp sel .r201
    else if s.lma = true ∧ h.extractLsb' 40 5 ≠ 0 then faultsClean (exec i s) s .gp sel .r201
    else if descDpl d < s.cpl ∨ (descDpl d).toNat < f.sel.toNat % 4 then
      faultsClean (exec i s) s .gp sel .r200
    else if descP d = false then faultsClean (exec i s) s .np sel .r200
    else if csel.toNat ≤ 3 then faultsClean (exec i s) s .gp 0 .r200
    else match fetchDescriptor s csel with
      | none => faultsClean (exec i s) s .gp (csel &&& 0xFFFC) .r200
      | some cd =>
        let c := segFromDesc csel cd
        if c.isCode = false ∨ s.cpl < c.dpl then faultsClean (exec i s) s .gp (csel &&& 0xFFFC) .r200
        else if s.lma = true ∧ (c.l = false ∨ c.db = true) then
          faultsClean (exec i s) s .gp (csel &&& 0xFFFC) .r200
        else if c.p = false then faultsClean (exec i s) s .np (csel &&& 0xFFFC) .r200
        else GateCallTo i s f d (if s.lma then h else 0) cd

/-- Call through a 16- or 32-bit gate at the same privilege level, all of R215 and R216 with the tail R218:
room for 8 or 4 bytes, the gate's offset inside the new segment, then `CS`, the branch, the pushes, the far
shadow frame (with no test that `SSP` is below 4 GB) and the tracker. On a stack segment that takes no writes
the first push raises `#GP(0)` by R65 (GK21), after the accessed bit was written; the registers are as before
(decision D4, log entry 7). -/
def Obligations.SamePrivilegeLegacyResult : Prop :=
  ∀ (i : Instr) (s : State) (f : FarPtr) (d h cd : BitVec 64), GateCallTo i s f d h cd →
    s.lma = false → goesToMorePrivilege (gateOf s.lma d h) cd s = false →
    let g := gateOf s.lma d h
    let rule := if g.size = .s16 then RuleId.r216 else RuleId.r215
    if stackRoom s (2 * g.size.bytes) g.size.bytes = false then faultsClean (exec i s) s .ss 0 rule
    else if inLimit (segFromDesc g.sel cd) g.off.toNat = false then faultsClean (exec i s) s .gp 0 rule
    else if stackWritable s = false then
      faultsAfter (exec i s) s .gp 0 .r65 (accessedWrites g.sel cd s)
    else exec i s = .next (afterSamePrivilege g cd (nrip i s) s) ∧
      (afterSamePrivilege g cd (nrip i s) s).rip = g.off

/-- Call through a 64-bit gate at the same privilege level, all of R217 with R218 and R219: the stack is the
flat 64-bit one, with a free upper half of `RSP` when the caller is in compatibility mode. -/
def Obligations.SamePrivilege64Result : Prop :=
  ∀ (i : Instr) (s : State) (f : FarPtr) (d h cd : BitVec 64), GateCallTo i s f d h cd →
    s.lma = true → goesToMorePrivilege (gateOf s.lma d h) cd s = false →
    let g := gateOf s.lma d h
    let rsp := if s.mode = .long64 then s.gpr.rsp
      else Config.rspUpper s.draws ++ s.gpr.rsp.extractLsb' 0 32
    if roomFlat s.cpu.laWidth rsp 16 8 = false then faultsAfter (exec i s) s .ss 0 .r217 []
    else if canonical s.cpu.laWidth g.off = false then faultsAfter (exec i s) s .gp 0 .r217 []
    else ∃ t, exec i s = .next t ∧ t = afterSamePrivilege g cd (nrip i s) s ∧ t.rip = g.off ∧
      t.gpr.rsp = rsp - 16 ∧ t.mode = .long64 ∧ t.ss = s.ss

/-- A `TSS` too short for the stack fields of the new level raises `#TS(TR.sel)` (R204, 20_memory.md R76). -/
def Obligations.TssLimitFaults : Prop :=
  ∀ (i : Instr) (s : State) (f : FarPtr) (d h cd : BitVec 64), GateCallTo i s f d h cd →
    goesToMorePrivilege (gateOf s.lma d h) cd s = true →
    s.tr.limit.toNat < (match s.tr.kind with
      | .tss32 => (descDpl cd).toNat * 8 + 4 + 5
      | .tss16 => (descDpl cd).toNat * 4 + 2 + 3
      | .tss64 => (descDpl cd).toNat * 8 + 4 + 7) →
    faultsClean (exec i s) s .ts (s.tr.sel &&& 0xFFFC) .r204

/-- The checks on the new stack segment outside IA-32e mode, all of R205: NULL, outside its table (GK21), of
another level by `RPL` or `DPL`, not writable data: `#TS(NewSS)`; not present: `#SS(NewSS)`. -/
def Obligations.NewStackSegmentChecks : Prop :=
  ∀ (i : Instr) (s : State) (f : FarPtr) (d h cd : BitVec 64), GateCallTo i s f d h cd →
    goesToMorePrivilege (gateOf s.lma d h) cd s = true → s.lma = false →
    tssStackAddress s.tr.kind (descDpl cd) + tssStackLast s.tr.kind ≤ s.tr.limit.toNat →
    let newSs := (tssInnerStack s (descDpl cd)).ss
    let code := newSs &&& 0xFFFC
    if newSs.toNat ≤ 3 then faultsClean (exec i s) s .ts code .r205
    else match fetchDescriptor s newSs with
      | none => faultsClean (exec i s) s .ts code .r205
      | some sd =>
        if newSs.toNat % 4 ≠ (descDpl cd).toNat ∨ descDpl sd ≠ descDpl cd ∨
            ¬ (descS sd = true ∧ (descType sd).toNat ∈ [2, 3, 6, 7]) then
          faultsClean (exec i s) s .ts code .r205
        else descP sd = false → faultsClean (exec i s) s .ss code .r205

/-- Call to a more privileged level through a 16- or 32-bit gate, all of R206 and R208 with R207, R210 to
R214: room for the parameters and four items on the new stack, else `#SS(NewSS)`; the gate's offset inside
the new segment, else `#GP(0)`; then stack, `CS`, branch, old stack pointer, the parameters (or `#SS(0)` when
one is outside the old stack segment), return address, the user shadow-stack pointer, the level, the
supervisor shadow stack (or `#GP(0)` by its token) and the tracker. The parameter copy and its fault are the
spec's decision D26 (R214), each parameter read just before its push (log entry 37, DESIGN CHOICE); the
registers a late fault restores are decision D4 (R265, log entry 7); the upper half of `RSP` is kept (log
entry 16). -/
def Obligations.MorePrivilegeLegacyResult : Prop :=
  ∀ (i : Instr) (s : State) (f : FarPtr) (d h cd sd : BitVec 64), GateCallTo i s f d h cd →
    goesToMorePrivilege (gateOf s.lma d h) cd s = true → s.lma = false →
    tssStackAddress s.tr.kind (descDpl cd) + tssStackLast s.tr.kind ≤ s.tr.limit.toNat →
    let inner := tssInnerStack s (descDpl cd)
    let newSs := segFromDesc inner.ss sd
    let g := gateOf s.lma d h
    let rule := if g.size = .s16 then RuleId.r208 else RuleId.r206
    let entered := enterLevel (descDpl cd) (saveUserSsp (afterMoreLegacy g cd (nrip i s) sd inner s))
    let wrote := newStackWrites g sd inner s ++ accessedWrites g.sel cd s ++ accessedWrites inner.ss sd s
    isNullSel inner.ss = false → fetchDescriptor s inner.ss = some sd → rplOf inner.ss = descDpl cd →
    descDpl sd = descDpl cd → newSs.isWritableData = true → descP sd = true →
    if roomInSeg newSs (newStackAddrSize newSs) inner.sp ((g.count + 4) * g.size.bytes) g.size.bytes
        = false then
      faultsClean (exec i s) s .ss (inner.ss &&& 0xFFFC) rule
    else if inLimit (segFromDesc g.sel cd) g.off.toNat = false then faultsClean (exec i s) s .gp 0 rule
    else if parametersReadable s g.size.bytes g.count = false then
      ∃ x, (x = .ss ∨ (x = .gp ∧ s.ss.isExecuteOnly = true)) ∧
        faultsAfter (exec i s) s x 0 .r214 wrote
    else if shadowStackEnabled entered entered.cpl = true ∧ tokenOk entered = false then
      faultsAfter (exec i s) s .gp 0 .r212 wrote
    else exec i s = .next (farEndbranch (afterSupervisorShadow s (nrip i s) entered))

/-- Call to a more privileged level through a 64-bit gate, all of R209 with R210 to R213: 32 canonical bytes
below the new stack pointer, else `#SS` with code 0 (the new selector is NULL); a canonical offset; no
parameters. What a caller in compatibility mode has saved is zero-extended (decision D20), what the NULL load
of `SS` leaves open is a free value (log entry 11), and the registers the token's fault restores are decision
D4 (R265, log entry 7). -/
def Obligations.MorePrivilege64Result : Prop :=
  ∀ (i : Instr) (s : State) (f : FarPtr) (d h cd : BitVec 64), GateCallTo i s f d h cd →
    goesToMorePrivilege (gateOf s.lma d h) cd s = true → s.lma = true → s.tr.kind = .tss64 →
    (descDpl cd).toNat * 8 + 11 ≤ s.tr.limit.toNat →
    let inner := tssInnerStack s (descDpl cd)
    let g := gateOf s.lma d h
    let entered := enterLevel (descDpl cd) (saveUserSsp (afterMore64 g cd (nrip i s) inner s))
    if roomFlat s.cpu.laWidth inner.sp 32 8 = false then faultsClean (exec i s) s .ss 0 .r209
    else if canonical s.cpu.laWidth g.off = false then faultsClean (exec i s) s .gp 0 .r209
    else if shadowStackEnabled entered entered.cpl = true ∧ tokenOk entered = false then
      faultsAfter (exec i s) s .gp 0 .r212 (storedAddrs s (inner.sp - 32) 32 ++ accessedWrites g.sel cd s)
    else exec i s = .next (farEndbranch (afterSupervisorShadow s (nrip i s) entered)) ∧
      (farEndbranch (afterSupervisorShadow s (nrip i s) entered)).rip = g.off ∧
      (farEndbranch (afterSupervisorShadow s (nrip i s) entered)).ss.sel = (descDpl cd).setWidth 16

/-- The registers a completed call to a more privileged level writes: the level is the code segment's `DPL`,
`CS.RPL` equals it (R211); `SS` is the `TSS`'s, its `DPL` the level, the new stack pointer's view `NewSP` less
the items pushed, `RIP` the gate's offset (R204, R206, R208, R209); from level 3 with shadow stacks the user
`SSP` is saved, adjusted in IA-32e mode (R210); only the supervisor tracker is touched (R213). -/
def Obligations.MorePrivilegeRegisters : Prop :=
  ∀ (i : Instr) (s t : State) (f : FarPtr) (d h cd : BitVec 64), GateCallTo i s f d h cd →
    goesToMorePrivilege (gateOf s.lma d h) cd s = true → exec i s = .next t →
    let g := gateOf s.lma d h
    let inner := tssInnerStack s (descDpl cd)
    let items := if g.size = .s64 then 4 else g.count + 4
    t.cpl = descDpl cd ∧ t.cs.sel.toNat = g.sel.toNat / 4 * 4 + (descDpl cd).toNat ∧
    t.cs.dpl = descDpl cd ∧ t.ss.sel = inner.ss ∧ t.ss.dpl = descDpl cd ∧ t.rip = g.off ∧
    viewOf (stackAddrSize t) t.gpr.rsp = itemOffset (stackAddrSize t) inner.sp (items * g.size.bytes) ∧
    t.pl3Ssp = (if shadowStackEnabled s s.cpl = true ∧ s.cpl = 3 then
      (if s.lma then laAdjust s.cpu.laWidth s.ssp else s.ssp) else s.pl3Ssp) ∧
    t.uCet = s.uCet ∧
    t.sCet = (if endbranchEnabled s (descDpl cd) = true then (s.sCet ||| 0x800) &&& ~~~0x400 else s.sCet)

/-- The supervisor shadow stack after a completed call to a more privileged level that has one (R212): the
token at `IA32_PLi_SSP` was its own address and its busy bit is set; the address is 24 modulo 32; from level
3 `SSP` is the token's address, from another level the caller's `CS`, linear return address and `SSP` stand
in the 24 bytes below it. Without a shadow stack at the new level `SSP` is as it was. -/
def Obligations.SupervisorShadowStack : Prop :=
  ∀ (i : Instr) (s t : State) (f : FarPtr) (d h cd : BitVec 64), GateCallTo i s f d h cd →
    goesToMorePrivilege (gateOf s.lma d h) cd s = true → memWf s.mem = true → exec i s = .next t →
    let token := plSsp s (descDpl cd)
    (shadowStackEnabled s (descDpl cd) = false → t.ssp = s.ssp) ∧
    (shadowStackEnabled s (descDpl cd) = true →
      token.toNat % 32 = 24 ∧ memRead t token 8 = token + 1 ∧
      (s.ss.dpl = 3 → t.ssp = token) ∧
      (s.ss.dpl ≠ 3 → t.ssp = token - 24 ∧ memRead t (token - 8) 8 = s.cs.sel.setWidth 64 ∧
        memRead t (token - 16) 8 = callerLip s (nrip i s) ∧ memRead t (token - 24) 8 = s.ssp))

/-- What a gate call leaves unchanged (R222): `EFLAGS` and the general registers but the stack pointer; at
the same level also `SS` and `CPL`, and every byte of memory but the two items (through a 64-bit gate 16 bytes
below the stack pointer of R219), the accessed bit and the far shadow frame; to more
privilege, every byte but the items on the new stack, the accessed bits and the token's 32 bytes: the
caller's stack and the `TSS` are read, not written. -/
def Obligations.GateFrame : Prop :=
  ∀ (i : Instr) (s t : State) (f : FarPtr) (d h cd : BitVec 64), GateCallTo i s f d h cd →
    exec i s = .next t →
    let g := gateOf s.lma d h
    let inner := tssInnerStack s (descDpl cd)
    keepsRest s t ∧
    (goesToMorePrivilege g cd s = false → t.ss = s.ss ∧ t.cpl = s.cpl ∧ t.pl3Ssp = s.pl3Ssp ∧
      (s.lma = false → memorySameOutside s t
        (storedAddrs s (pushLinear s g.size.bytes) g.size.bytes ++
          storedAddrs s (segLinear s .ss s.ss
            (itemOffset (stackAddrSize s) s.gpr.rsp (2 * g.size.bytes))) g.size.bytes ++
          accessedWrites g.sel cd s ++ farShadowWrites s)) ∧
      (s.lma = true → memorySameOutside s t
        (storedAddrs s ((implicitStackSwitch s).gpr.rsp - 16) 16 ++ accessedWrites g.sel cd s ++
          farShadowWrites s))) ∧
    (goesToMorePrivilege g cd s = true → ∀ sd, (s.lma = false → fetchDescriptor s inner.ss = some sd) →
      memorySameOutside s t
        (newStackWrites g sd inner s ++ accessedWrites g.sel cd s ++
          (if s.lma then [] else accessedWrites inner.ss sd s) ++
          (if shadowStackEnabled s (descDpl cd) then
            storedAddrs s (plSsp s (descDpl cd) - 24) 32 else [])))

/-! ## Task switches (44_task_switch.md) -/

/-- The checks on a task gate, all of R240 up to the switch, in order (its first test as decision D17 reads
it); when they pass the step is refused (R244). -/
def Obligations.TaskGateChecks : Prop :=
  ∀ (i : Instr) (s : State) (f : FarPtr) (d : BitVec 64), FarCallTo i s f d → s.lma = false →
    descS d = false → descType d = 5 →
    let tsel := d.extractLsb' 16 16
    if descDpl d < s.cpl ∨ (descDpl d).toNat < f.sel.toNat % 4 then
      faultsClean (exec i s) s .gp (f.sel &&& 0xFFFC) .r240
    else if descP d = false then faultsClean (exec i s) s .np (f.sel &&& 0xFFFC) .r240
    else if tsel.getLsbD 2 = true ∨ tsel.toNat ≤ 3 then
      faultsClean (exec i s) s .gp (tsel &&& 0xFFFC) .r240
    else match fetchDescriptor s tsel with
      | none => faultsClean (exec i s) s .gp (tsel &&& 0xFFFC) .r240
      | some td =>
        if descS td = true ∨ (descType td).toNat ∉ [1, 3, 9, 0xB] then
          faultsClean (exec i s) s .gp (tsel &&& 0xFFFC) .r240
        else if (descType td).toNat ∈ [3, 0xB] then faultsClean (exec i s) s .gp (tsel &&& 0xFFFC) .r240
        else if descP td = false then faultsClean (exec i s) s .np (tsel &&& 0xFFFC) .r240
        else exec i s = .refused .taskSwitch

/-- The checks on a `TSS` selector, all of R241 up to the switch; when they pass the step is refused
(R244). -/
def Obligations.TssSelectorChecks : Prop :=
  ∀ (i : Instr) (s : State) (f : FarPtr) (d : BitVec 64), FarCallTo i s f d → s.lma = false →
    descS d = false → (descType d).toNat ∈ [1, 3, 9, 0xB] →
    if descDpl d < s.cpl ∨ (descDpl d).toNat < f.sel.toNat % 4 ∨ (descType d).toNat ∈ [3, 0xB] then
      faultsClean (exec i s) s .gp (f.sel &&& 0xFFFC) .r241
    else if descP d = false then faultsClean (exec i s) s .np (f.sel &&& 0xFFFC) .r241
    else exec i s = .refused .taskSwitch

/-- No task switch in IA-32e mode (R243): a task gate or a `TSS` selector raises `#GP(sel)`, and no call is
ever refused as a task switch. -/
def Obligations.NoTaskSwitchInIa32e : Prop :=
  (∀ (i : Instr) (s : State) (f : FarPtr) (d : BitVec 64), FarCallTo i s f d → s.lma = true →
    descS d = false → (descType d).toNat ∈ [1, 3, 5, 9, 0xB] →
    faultsClean (exec i s) s .gp (f.sel &&& 0xFFFC) .r173) ∧
  (∀ (i : Instr) (s : State), s.lma = true → exec i s ≠ .refused .taskSwitch)

/-! ## Whole-machine rules -/

/-- No `CALL` that completes changes a flag, a control register, a data segment, a table or task register, or
a general register other than the stack pointer (10_state.md R24, R25, R28, R30, R31, R32). -/
def Obligations.CompletedCallsKeepTheRest : Prop :=
  ∀ (s t : State), step s = .next t → keepsRest s t

/-- `CPL` never rises, and it changes only in a far call through a call gate to a more privileged level, to
the `DPL` of the code segment the gate names (43_call_gate.md R211, 60_exceptions.md R270). -/
def Obligations.PrivilegeChangesOnlyThroughGates : Prop :=
  ∀ (i : Instr) (s t : State), exec i s = .next t →
    t.cpl.toNat ≤ s.cpl.toNat ∧
    (t.cpl ≠ s.cpl → ∃ f d h cd, GateCallTo i s f d h cd ∧
      goesToMorePrivilege (gateOf s.lma d h) cd s = true ∧ t.cpl = descDpl cd)

/-- A `CALL` changes the mode only between compatibility and 64-bit mode, by the `L` bit of the code segment
it loads, and never `PE`, `VM` or `LMA`; into compatibility mode only from 64-bit mode by a far call whose
selector names a code segment with `L` 0 (60_exceptions.md R271). -/
def Obligations.ModeChangesOnlyWithinIa32e : Prop :=
  ∀ (i : Instr) (s t : State), exec i s = .next t →
    t.pe = s.pe ∧ t.vm = s.vm ∧ t.lma = s.lma ∧
    (t.mode = s.mode ∨ (s.mode = .compat ∧ t.mode = .long64) ∨
      (s.mode = .long64 ∧ t.mode = .compat)) ∧
    (s.mode = .compat → t.mode = .long64 → isFarProt i = true ∧ t.cs.l = true) ∧
    (s.mode = .long64 → t.mode = .compat → ∃ f d, FarCallTo i s f d ∧
      (segFromDesc f.sel d).isCode = true ∧ d.getLsbD 53 = false)

/-- The state a fault leaves (60_exceptions.md R265): every register as before, and memory too, but for the
bytes the path had written. Near calls, real-mode far calls and a fault of the operand read write none. A
fault of R65 comes after a write only in a gate call at the same level on a stack that takes no writes: the
accessed bit; one of R180 after the pushes and the accessed bit; one of R212 or R214 after items on the new
stack and accessed bits. A step's own faults leave the state as it was. That registers are restored is the
spec's decision D4 (log entry 7); what the written bytes hold is left open. -/
def Obligations.FaultsLeaveRegisters : Prop :=
  (∀ (i : Instr) (s t : State) (x : Exc) (code : Option (BitVec 16)) (rule : RuleId),
    exec i s = .fault (.exception x code rule t) →
    sameRegisters s t ∧ (memWf s.mem = true → memWf t.mem = true) ∧
    (isNear i = true ∨ isFarReal i = true ∨ (∃ y, farOperand i s = some (.error y)) → t.mem = s.mem) ∧
    (rule ∉ [RuleId.r65, .r180, .r212, .r214] → t.mem = s.mem) ∧
    (rule = .r65 → t.mem = s.mem ∨ ∃ f d h cd, GateCallTo i s f d h cd ∧ s.lma = false ∧
      goesToMorePrivilege (gateOf s.lma d h) cd s = false ∧ stackWritable s = false ∧
      memorySameOutside s t (accessedWrites (gateOf s.lma d h).sel cd s)) ∧
    (rule = .r180 → ∃ f d, FarCallTo i s f d ∧ (segFromDesc f.sel d).isCode = true ∧
      memorySameOutside s t (codeSegmentWrites (formSize i) f d s)) ∧
    (rule = .r212 ∨ rule = .r214 → ∃ f d h cd sd, GateCallTo i s f d h cd ∧
      let g := gateOf s.lma d h
      let inner := tssInnerStack s (descDpl cd)
      goesToMorePrivilege g cd s = true ∧ (s.lma = false → fetchDescriptor s inner.ss = some sd) ∧
      memorySameOutside s t (newStackWrites g sd inner s ++ accessedWrites g.sel cd s ++
        (if s.lma then [] else accessedWrites inner.ss sd s)))) ∧
  (∀ (s t : State) (x : Exc) (code : Option (BitVec 16)) (rule : RuleId),
    step s = .fault (.exception x code rule t) →
    t = s ∨ ∃ i, decode s.ctx (fetchWindow s) = .instr i ∧ exec i s = .fault (.exception x code rule t))

/-- The exceptions of a step and their error codes (60_exceptions.md R260, R262, R263): `#UD` without a code;
`#GP`, `#SS`, `#NP`, `#TS` with one whose `EXT` and `IDT` bits are 0; `#NP` and `#TS` never from a near or
real-mode call. The format is the spec's general knowledge GK20 and decision D10 (log entry 29). -/
def Obligations.ErrorCodes : Prop :=
  ∀ (i : Instr) (s t : State) (x : Exc) (code : Option (BitVec 16)) (rule : RuleId),
    exec i s = .fault (.exception x code rule t) →
    (x = .ud ∧ code = none ∧ rule = .r113 ∨
      (x = .gp ∨ x = .ss ∨ x = .np ∨ x = .ts) ∧ ∃ e, code = some e ∧ e &&& 0x3 = 0) ∧
    (x = .np ∨ x = .ts → isFarProt i = true) ∧
    (isNear i = true ∨ isFarReal i = true → code = none ∨ code = some 0)
end

