-- ==== Sys2Proof/Laws/Memory.lean ====
section
/-! SUPPORT. The laws of memory: a read after a write, the canonical form, and what a store of several
bytes does. -/

namespace Sys2Proof.Machine

/-! ## One byte -/

/-- An address below the first listed one reads as unlisted. -/
theorem memGet_of_wfFrom_lt {m : Memory} {lo a : Nat} (h : memWfFrom lo m = true) (ha : a < lo) :
    memGet m a = unlistedByte := by
  induction m generalizing lo with
  | nil => rfl
  | cons c m ih =>
    obtain ⟨a', b'⟩ := c
    simp only [memWfFrom, Bool.and_eq_true, decide_eq_true_eq, bne_iff_ne] at h
    obtain ⟨⟨⟨h1, _⟩, _⟩, h4⟩ := h
    have hne : (a == a') = false := by simp; omega
    simp only [memGet, hne]
    exact ih h4 (by omega)

theorem memGet_memPut_ne (m : Memory) {a b : Nat} (v : Byte) (h : b ≠ a) :
    memGet (memPut m a v) b = memGet m b := by
  have hba : (b == a) = false := by simpa using h
  induction m with
  | nil => by_cases hv : v == unlistedByte <;> simp [memPut, memGet, hv, hba]
  | cons c m ih =>
    obtain ⟨a', b'⟩ := c
    simp only [memPut]
    split
    · split <;> simp [memGet, hba]
    · split
      · rename_i h1 h2
        have h2 : a = a' := by simpa using h2
        subst h2
        split <;> simp [memGet, hba]
      · simp only [memGet, ih]

theorem memGet_memPut_self_from {m : Memory} {lo a : Nat} (v : Byte)
    (h : memWfFrom lo m = true) : memGet (memPut m a v) a = v := by
  induction m generalizing lo with
  | nil =>
    by_cases hv : v = unlistedByte
    · subst hv; simp [memPut, memGet]
    · simp [memPut, memGet, hv]
  | cons c m ih =>
    obtain ⟨a', b'⟩ := c
    have hw := h
    simp only [memWfFrom, Bool.and_eq_true, decide_eq_true_eq, bne_iff_ne] at h
    obtain ⟨⟨⟨h1, h2⟩, h3⟩, h4⟩ := h
    simp only [memPut]
    split
    · rename_i hlt
      by_cases hv : v = unlistedByte
      · subst hv
        have hne : (a == a') = false := by simp; omega
        simp only [beq_self_eq_true, ite_true, memGet, hne]
        exact memGet_of_wfFrom_lt h4 (by omega)
      · simp [hv, memGet]
    · split
      · rename_i heq
        have heq : a = a' := by simpa using heq
        subst heq
        by_cases hv : v = unlistedByte
        · subst hv
          simp only [beq_self_eq_true, ite_true]
          exact memGet_of_wfFrom_lt h4 (by omega)
        · simp [hv, memGet]
      · rename_i hne
        have hne : (a == a') = false := by simpa using hne
        simp only [memGet, hne]
        exact ih h4

/-- A read after a write to the same address gives the value written. -/
theorem memGet_memPut_self {m : Memory} (a : Nat) (v : Byte) (h : memWf m = true) :
    memGet (memPut m a v) a = v := memGet_memPut_self_from v h

theorem memWfFrom_memPut {m : Memory} {lo a : Nat} (v : Byte) (h : memWfFrom lo m = true)
    (hlo : lo ≤ a) (ha : a < 2 ^ 64) : memWfFrom lo (memPut m a v) = true := by
  induction m generalizing lo with
  | nil =>
    by_cases hv : v = unlistedByte
    · simp [memPut, memWfFrom, hv]
    · have : (v == unlistedByte) = false := by simpa using hv
      simp only [memPut, this, memWfFrom, bne_iff_ne, Bool.and_eq_true, decide_eq_true_eq,
        Bool.false_eq_true, if_false]
      exact ⟨⟨⟨hlo, ha⟩, hv⟩, trivial⟩
  | cons c m ih =>
    obtain ⟨a', b'⟩ := c
    have hw := h
    simp only [memWfFrom, Bool.and_eq_true, decide_eq_true_eq, bne_iff_ne] at h
    obtain ⟨⟨⟨h1, h2⟩, h3⟩, h4⟩ := h
    simp only [memPut]
    split
    · rename_i hlt
      split
      · exact hw
      · rename_i hv
        simp only [memWfFrom, Bool.and_eq_true, decide_eq_true_eq, bne_iff_ne]
        exact ⟨⟨⟨hlo, ha⟩, by simpa using hv⟩, ⟨⟨by omega, h2⟩, h3⟩, h4⟩
    · split
      · rename_i heq
        have heq : a = a' := by simpa using heq
        subst heq
        split
        · clear ih hw
          cases m with
          | nil => rfl
          | cons c m =>
            obtain ⟨a1, b1⟩ := c
            simp only [memWfFrom, Bool.and_eq_true, decide_eq_true_eq, bne_iff_ne] at h4 ⊢
            exact ⟨⟨⟨by omega, h4.1.1.2⟩, h4.1.2⟩, h4.2⟩
        · rename_i hv
          simp only [memWfFrom, Bool.and_eq_true, decide_eq_true_eq, bne_iff_ne]
          exact ⟨⟨⟨hlo, ha⟩, by simpa using hv⟩, h4⟩
      · rename_i hlt hne
        have hne : a ≠ a' := by simpa using hne
        simp only [memWfFrom, Bool.and_eq_true, decide_eq_true_eq, bne_iff_ne]
        exact ⟨⟨⟨h1, h2⟩, h3⟩, ih h4 (by omega)⟩

/-- A write keeps the canonical form. -/
theorem memWf_memPut {m : Memory} {a : Nat} (v : Byte) (h : memWf m = true) (ha : a < 2 ^ 64) :
    memWf (memPut m a v) = true := memWfFrom_memPut v h (Nat.zero_le _) ha

theorem byteAddr_lt (s : State) (lin : BitVec 64) (i : Nat) : byteAddr s lin i < 2 ^ 64 :=
  (translate (linAdd s lin i)).isLt

/-! ## Stores of several bytes -/

theorem mem_storedAddrs {s : State} {lin : BitVec 64} {n a : Nat} :
    a ∈ storedAddrs s lin n ↔ ∃ i, i < n ∧ byteAddr s lin i = a := by
  simp [storedAddrs]

/-- A store keeps the canonical form. -/
theorem memWf_storeBytes (s : State) (lin v : BitVec 64) (n : Nat) {m : Memory}
    (h : memWf m = true) : memWf (storeBytes s lin v n m) = true := by
  induction n with
  | zero => exact h
  | succ n ih => exact memWf_memPut _ ih (byteAddr_lt s lin n)

/-- A store leaves every byte outside the stored ones alone. -/
theorem memGet_storeBytes_out (s : State) (lin v : BitVec 64) (n : Nat) (m : Memory) {a : Nat}
    (h : a ∉ storedAddrs s lin n) : memGet (storeBytes s lin v n m) a = memGet m a := by
  induction n with
  | zero => rfl
  | succ n ih =>
    have hn : a ≠ byteAddr s lin n := fun e => h (mem_storedAddrs.2 ⟨n, by omega, e.symm⟩)
    have hrest : a ∉ storedAddrs s lin n := fun e => by
      obtain ⟨i, hi, he⟩ := mem_storedAddrs.1 e
      exact h (mem_storedAddrs.2 ⟨i, by omega, he⟩)
    rw [storeBytes, memGet_memPut_ne _ _ hn, ih hrest]

/-- The addresses of a store's bytes differ: a store is shorter than the space it wraps in. -/
theorem byteAddr_inj (s : State) (lin : BitVec 64) {i j : Nat} (hi : i < 2 ^ 32) (hj : j < 2 ^ 32)
    (h : byteAddr s lin i = byteAddr s lin j) : i = j := by
  have h' : linAdd s lin i = linAdd s lin j := BitVec.eq_of_toNat_eq h
  unfold linAdd at h'
  split at h'
  · have := congrArg BitVec.toNat h'
    simp only [BitVec.toNat_add, BitVec.toNat_ofNat] at this
    have hl := lin.isLt
    omega
  · have := congrArg BitVec.toNat h'
    simp only [viewOf, BitVec.toNat_setWidth, BitVec.extractLsb'_toNat, BitVec.toNat_add,
      BitVec.toNat_ofNat, Nat.shiftRight_zero] at this
    have hl := lin.isLt
    omega

/-- The byte of the stored value that an address inside the store holds. -/
theorem memGet_storeBytes_in (s : State) (lin v : BitVec 64) {n i : Nat} {m : Memory}
    (hw : memWf m = true) (hi : i < n) (hn : n ≤ 8) :
    memGet (storeBytes s lin v n m) (byteAddr s lin i) = v.extractLsb' (8 * i) 8 := by
  induction n with
  | zero => omega
  | succ n ih =>
    rw [storeBytes]
    by_cases he : i = n
    · subst he
      exact memGet_memPut_self _ _ (memWf_storeBytes s lin v i hw)
    · rw [memGet_memPut_ne _ _ fun e => he (byteAddr_inj s lin (by omega) (by omega) e)]
      exact ih (by omega) (by omega)

/-! ## Reads of several bytes -/

/-- Bit `j` of a read: bit `j % 8` of byte `j / 8`. -/
theorem memRead_getLsbD (s : State) (lin : BitVec 64) {n : Nat} (hn : n ≤ 8) (j : Nat) :
    (memRead s lin n).getLsbD j =
      (decide (j < 8 * n) && (memGet s.mem (byteAddr s lin (j / 8))).getLsbD (j % 8)) := by
  induction n with
  | zero => simp [memRead]
  | succ n ih =>
    rw [memRead, BitVec.getLsbD_or, ih (by omega), BitVec.getLsbD_shiftLeft, BitVec.getLsbD_setWidth]
    by_cases h : j < 8 * n
    · have h2 : j < 8 * (n + 1) := by omega
      simp [h, h2]
    · by_cases h2 : j < 8 * (n + 1)
      · have h3 : j / 8 = n := by omega
        have h4 : j % 8 = j - 8 * n := by omega
        have h5 : j < 64 := by omega
        have h6 : j - 8 * n < 64 := by omega
        simp [h, h2, h3, h4, h5, h6]
      · have : (memGet s.mem (byteAddr s lin n)).getLsbD (j - 8 * n) = false :=
          BitVec.getLsbD_of_ge _ _ (by omega)
        simp [h, h2, this]

/-- A read of `n` bytes is below `2^(8n)`. -/
theorem memRead_lt (s : State) (lin : BitVec 64) {n : Nat} (hn : n ≤ 8) :
    (memRead s lin n).toNat < 2 ^ (8 * n) := by
  by_cases h8 : n = 8
  · subst h8; exact (memRead s lin 8).isLt
  · apply Nat.lt_pow_two_of_testBit
    intro j hj
    have := memRead_getLsbD s lin hn j
    rw [BitVec.getLsbD] at this
    rw [this]
    simp; omega

/-- A read depends on the bytes it reads only. -/
theorem memRead_congr {s t : State} {lin lin' : BitVec 64} {n : Nat}
    (h : ∀ i, i < n → memGet s.mem (byteAddr s lin i) = memGet t.mem (byteAddr t lin' i)) :
    memRead s lin n = memRead t lin' n := by
  induction n with
  | zero => rfl
  | succ n ih => rw [memRead, memRead, ih fun i hi => h i (by omega), h n (by omega)]

/-- Reading a store's bytes back, in any state that holds the memory the store leaves and forms the same
addresses, gives the low bytes of the value. -/
theorem memRead_storeBytes {s t : State} (lin v : BitVec 64) {n : Nat} {m : Memory}
    (hw : memWf m = true) (hn : n ≤ 8) (ht : t.mem = storeBytes s lin v n m) (hl : t.lma = s.lma) :
    (memRead t lin n).toNat = v.toNat % 2 ^ (8 * n) := by
  have hb : ∀ i, byteAddr t lin i = byteAddr s lin i := fun i => by simp [byteAddr, linAdd, hl]
  apply Nat.eq_of_testBit_eq
  intro j
  have := memRead_getLsbD t lin hn j
  rw [BitVec.getLsbD] at this
  rw [this, Nat.testBit_mod_two_pow]
  by_cases h : j < 8 * n
  · rw [ht, hb, memGet_storeBytes_in s lin v hw (by omega) hn]
    simp only [h, decide_true, Bool.true_and, BitVec.getLsbD_extractLsb']
    have : 8 * (j / 8) + j % 8 = j := by omega
    rw [this]
    have : j % 8 < 8 := by omega
    simp [this, BitVec.getLsbD]
  · simp [h]

/-- The bytes of a fault's drawn memory keep the canonical form. -/
theorem memWf_drawBytes (as : List Nat) (d : Nat) {m : Memory} (h : memWf m = true)
    (hs : ∀ a ∈ as, a < 2 ^ 64) : memWf (drawBytes as d m) = true := by
  induction as generalizing d m with
  | nil => exact h
  | cons a as ih =>
    exact ih _ (memWf_memPut _ h (hs a (by simp))) fun b hb => hs b (by simp [hb])

/-- Drawing the written bytes leaves all others alone. -/
theorem memGet_drawBytes_out (as : List Nat) (d : Nat) (m : Memory) {a : Nat} (h : a ∉ as) :
    memGet (drawBytes as d m) a = memGet m a := by
  induction as generalizing d m with
  | nil => rfl
  | cons b as ih =>
    simp only [List.mem_cons, not_or] at h
    rw [drawBytes, ih _ _ h.2, memGet_memPut_ne _ _ h.1]

/-- Reset memory is in canonical form. -/
theorem reset_mem_wf : memWf State.reset.mem = true := rfl

end Sys2Proof.Machine
end

