-- ==== Sys2Proof/Laws/State.lean ====
section
/-! SUPPORT. One lemma per field per update of State, true by rfl, so that no proof unfolds an update. -/

namespace Sys2Proof.Machine

/-! ### setRip -/

@[simp] theorem State.setRip_rip (s : State) (v : BitVec 64) : (s.setRip v).rip = v := rfl
@[simp] theorem State.setRip_gpr (s : State) (v : BitVec 64) : (s.setRip v).gpr = s.gpr := rfl
@[simp] theorem State.setRip_eflags (s : State) (v : BitVec 64) : (s.setRip v).eflags = s.eflags := rfl
@[simp] theorem State.setRip_cr0 (s : State) (v : BitVec 64) : (s.setRip v).cr0 = s.cr0 := rfl
@[simp] theorem State.setRip_cr4 (s : State) (v : BitVec 64) : (s.setRip v).cr4 = s.cr4 := rfl
@[simp] theorem State.setRip_efer (s : State) (v : BitVec 64) : (s.setRip v).efer = s.efer := rfl
@[simp] theorem State.setRip_cpl (s : State) (v : BitVec 64) : (s.setRip v).cpl = s.cpl := rfl
@[simp] theorem State.setRip_es (s : State) (v : BitVec 64) : (s.setRip v).es = s.es := rfl
@[simp] theorem State.setRip_cs (s : State) (v : BitVec 64) : (s.setRip v).cs = s.cs := rfl
@[simp] theorem State.setRip_ss (s : State) (v : BitVec 64) : (s.setRip v).ss = s.ss := rfl
@[simp] theorem State.setRip_ds (s : State) (v : BitVec 64) : (s.setRip v).ds = s.ds := rfl
@[simp] theorem State.setRip_fs (s : State) (v : BitVec 64) : (s.setRip v).fs = s.fs := rfl
@[simp] theorem State.setRip_gs (s : State) (v : BitVec 64) : (s.setRip v).gs = s.gs := rfl
@[simp] theorem State.setRip_gdtr (s : State) (v : BitVec 64) : (s.setRip v).gdtr = s.gdtr := rfl
@[simp] theorem State.setRip_idtr (s : State) (v : BitVec 64) : (s.setRip v).idtr = s.idtr := rfl
@[simp] theorem State.setRip_ldtr (s : State) (v : BitVec 64) : (s.setRip v).ldtr = s.ldtr := rfl
@[simp] theorem State.setRip_tr (s : State) (v : BitVec 64) : (s.setRip v).tr = s.tr := rfl
@[simp] theorem State.setRip_ssp (s : State) (v : BitVec 64) : (s.setRip v).ssp = s.ssp := rfl
@[simp] theorem State.setRip_uCet (s : State) (v : BitVec 64) : (s.setRip v).uCet = s.uCet := rfl
@[simp] theorem State.setRip_sCet (s : State) (v : BitVec 64) : (s.setRip v).sCet = s.sCet := rfl
@[simp] theorem State.setRip_pl0Ssp (s : State) (v : BitVec 64) : (s.setRip v).pl0Ssp = s.pl0Ssp := rfl
@[simp] theorem State.setRip_pl1Ssp (s : State) (v : BitVec 64) : (s.setRip v).pl1Ssp = s.pl1Ssp := rfl
@[simp] theorem State.setRip_pl2Ssp (s : State) (v : BitVec 64) : (s.setRip v).pl2Ssp = s.pl2Ssp := rfl
@[simp] theorem State.setRip_pl3Ssp (s : State) (v : BitVec 64) : (s.setRip v).pl3Ssp = s.pl3Ssp := rfl
@[simp] theorem State.setRip_mem (s : State) (v : BitVec 64) : (s.setRip v).mem = s.mem := rfl
@[simp] theorem State.setRip_cpu (s : State) (v : BitVec 64) : (s.setRip v).cpu = s.cpu := rfl
@[simp] theorem State.setRip_draws (s : State) (v : BitVec 64) : (s.setRip v).draws = s.draws := rfl
@[simp] theorem State.setRip_pe (s : State) (v : BitVec 64) : (s.setRip v).pe = s.pe := rfl
@[simp] theorem State.setRip_vm (s : State) (v : BitVec 64) : (s.setRip v).vm = s.vm := rfl
@[simp] theorem State.setRip_nt (s : State) (v : BitVec 64) : (s.setRip v).nt = s.nt := rfl
@[simp] theorem State.setRip_lma (s : State) (v : BitVec 64) : (s.setRip v).lma = s.lma := rfl
@[simp] theorem State.setRip_cr4Cet (s : State) (v : BitVec 64) : (s.setRip v).cr4Cet = s.cr4Cet := rfl
@[simp] theorem State.setRip_mode (s : State) (v : BitVec 64) : (s.setRip v).mode = s.mode := rfl
@[simp] theorem State.setRip_ctx (s : State) (v : BitVec 64) : (s.setRip v).ctx = s.ctx := rfl

/-! ### setRsp -/

@[simp] theorem State.setRsp_rip (s : State) (v : BitVec 64) : (s.setRsp v).rip = s.rip := rfl
@[simp] theorem State.setRsp_gpr (s : State) (v : BitVec 64) : (s.setRsp v).gpr = { s.gpr with rsp := v } := rfl
@[simp] theorem State.setRsp_eflags (s : State) (v : BitVec 64) : (s.setRsp v).eflags = s.eflags := rfl
@[simp] theorem State.setRsp_cr0 (s : State) (v : BitVec 64) : (s.setRsp v).cr0 = s.cr0 := rfl
@[simp] theorem State.setRsp_cr4 (s : State) (v : BitVec 64) : (s.setRsp v).cr4 = s.cr4 := rfl
@[simp] theorem State.setRsp_efer (s : State) (v : BitVec 64) : (s.setRsp v).efer = s.efer := rfl
@[simp] theorem State.setRsp_cpl (s : State) (v : BitVec 64) : (s.setRsp v).cpl = s.cpl := rfl
@[simp] theorem State.setRsp_es (s : State) (v : BitVec 64) : (s.setRsp v).es = s.es := rfl
@[simp] theorem State.setRsp_cs (s : State) (v : BitVec 64) : (s.setRsp v).cs = s.cs := rfl
@[simp] theorem State.setRsp_ss (s : State) (v : BitVec 64) : (s.setRsp v).ss = s.ss := rfl
@[simp] theorem State.setRsp_ds (s : State) (v : BitVec 64) : (s.setRsp v).ds = s.ds := rfl
@[simp] theorem State.setRsp_fs (s : State) (v : BitVec 64) : (s.setRsp v).fs = s.fs := rfl
@[simp] theorem State.setRsp_gs (s : State) (v : BitVec 64) : (s.setRsp v).gs = s.gs := rfl
@[simp] theorem State.setRsp_gdtr (s : State) (v : BitVec 64) : (s.setRsp v).gdtr = s.gdtr := rfl
@[simp] theorem State.setRsp_idtr (s : State) (v : BitVec 64) : (s.setRsp v).idtr = s.idtr := rfl
@[simp] theorem State.setRsp_ldtr (s : State) (v : BitVec 64) : (s.setRsp v).ldtr = s.ldtr := rfl
@[simp] theorem State.setRsp_tr (s : State) (v : BitVec 64) : (s.setRsp v).tr = s.tr := rfl
@[simp] theorem State.setRsp_ssp (s : State) (v : BitVec 64) : (s.setRsp v).ssp = s.ssp := rfl
@[simp] theorem State.setRsp_uCet (s : State) (v : BitVec 64) : (s.setRsp v).uCet = s.uCet := rfl
@[simp] theorem State.setRsp_sCet (s : State) (v : BitVec 64) : (s.setRsp v).sCet = s.sCet := rfl
@[simp] theorem State.setRsp_pl0Ssp (s : State) (v : BitVec 64) : (s.setRsp v).pl0Ssp = s.pl0Ssp := rfl
@[simp] theorem State.setRsp_pl1Ssp (s : State) (v : BitVec 64) : (s.setRsp v).pl1Ssp = s.pl1Ssp := rfl
@[simp] theorem State.setRsp_pl2Ssp (s : State) (v : BitVec 64) : (s.setRsp v).pl2Ssp = s.pl2Ssp := rfl
@[simp] theorem State.setRsp_pl3Ssp (s : State) (v : BitVec 64) : (s.setRsp v).pl3Ssp = s.pl3Ssp := rfl
@[simp] theorem State.setRsp_mem (s : State) (v : BitVec 64) : (s.setRsp v).mem = s.mem := rfl
@[simp] theorem State.setRsp_cpu (s : State) (v : BitVec 64) : (s.setRsp v).cpu = s.cpu := rfl
@[simp] theorem State.setRsp_draws (s : State) (v : BitVec 64) : (s.setRsp v).draws = s.draws := rfl
@[simp] theorem State.setRsp_pe (s : State) (v : BitVec 64) : (s.setRsp v).pe = s.pe := rfl
@[simp] theorem State.setRsp_vm (s : State) (v : BitVec 64) : (s.setRsp v).vm = s.vm := rfl
@[simp] theorem State.setRsp_nt (s : State) (v : BitVec 64) : (s.setRsp v).nt = s.nt := rfl
@[simp] theorem State.setRsp_lma (s : State) (v : BitVec 64) : (s.setRsp v).lma = s.lma := rfl
@[simp] theorem State.setRsp_cr4Cet (s : State) (v : BitVec 64) : (s.setRsp v).cr4Cet = s.cr4Cet := rfl
@[simp] theorem State.setRsp_mode (s : State) (v : BitVec 64) : (s.setRsp v).mode = s.mode := rfl
@[simp] theorem State.setRsp_ctx (s : State) (v : BitVec 64) : (s.setRsp v).ctx = s.ctx := rfl

/-! ### setCs -/

@[simp] theorem State.setCs_rip (s : State) (v : Seg) : (s.setCs v).rip = s.rip := rfl
@[simp] theorem State.setCs_gpr (s : State) (v : Seg) : (s.setCs v).gpr = s.gpr := rfl
@[simp] theorem State.setCs_eflags (s : State) (v : Seg) : (s.setCs v).eflags = s.eflags := rfl
@[simp] theorem State.setCs_cr0 (s : State) (v : Seg) : (s.setCs v).cr0 = s.cr0 := rfl
@[simp] theorem State.setCs_cr4 (s : State) (v : Seg) : (s.setCs v).cr4 = s.cr4 := rfl
@[simp] theorem State.setCs_efer (s : State) (v : Seg) : (s.setCs v).efer = s.efer := rfl
@[simp] theorem State.setCs_cpl (s : State) (v : Seg) : (s.setCs v).cpl = s.cpl := rfl
@[simp] theorem State.setCs_es (s : State) (v : Seg) : (s.setCs v).es = s.es := rfl
@[simp] theorem State.setCs_cs (s : State) (v : Seg) : (s.setCs v).cs = v := rfl
@[simp] theorem State.setCs_ss (s : State) (v : Seg) : (s.setCs v).ss = s.ss := rfl
@[simp] theorem State.setCs_ds (s : State) (v : Seg) : (s.setCs v).ds = s.ds := rfl
@[simp] theorem State.setCs_fs (s : State) (v : Seg) : (s.setCs v).fs = s.fs := rfl
@[simp] theorem State.setCs_gs (s : State) (v : Seg) : (s.setCs v).gs = s.gs := rfl
@[simp] theorem State.setCs_gdtr (s : State) (v : Seg) : (s.setCs v).gdtr = s.gdtr := rfl
@[simp] theorem State.setCs_idtr (s : State) (v : Seg) : (s.setCs v).idtr = s.idtr := rfl
@[simp] theorem State.setCs_ldtr (s : State) (v : Seg) : (s.setCs v).ldtr = s.ldtr := rfl
@[simp] theorem State.setCs_tr (s : State) (v : Seg) : (s.setCs v).tr = s.tr := rfl
@[simp] theorem State.setCs_ssp (s : State) (v : Seg) : (s.setCs v).ssp = s.ssp := rfl
@[simp] theorem State.setCs_uCet (s : State) (v : Seg) : (s.setCs v).uCet = s.uCet := rfl
@[simp] theorem State.setCs_sCet (s : State) (v : Seg) : (s.setCs v).sCet = s.sCet := rfl
@[simp] theorem State.setCs_pl0Ssp (s : State) (v : Seg) : (s.setCs v).pl0Ssp = s.pl0Ssp := rfl
@[simp] theorem State.setCs_pl1Ssp (s : State) (v : Seg) : (s.setCs v).pl1Ssp = s.pl1Ssp := rfl
@[simp] theorem State.setCs_pl2Ssp (s : State) (v : Seg) : (s.setCs v).pl2Ssp = s.pl2Ssp := rfl
@[simp] theorem State.setCs_pl3Ssp (s : State) (v : Seg) : (s.setCs v).pl3Ssp = s.pl3Ssp := rfl
@[simp] theorem State.setCs_mem (s : State) (v : Seg) : (s.setCs v).mem = s.mem := rfl
@[simp] theorem State.setCs_cpu (s : State) (v : Seg) : (s.setCs v).cpu = s.cpu := rfl
@[simp] theorem State.setCs_draws (s : State) (v : Seg) : (s.setCs v).draws = s.draws := rfl
@[simp] theorem State.setCs_pe (s : State) (v : Seg) : (s.setCs v).pe = s.pe := rfl
@[simp] theorem State.setCs_vm (s : State) (v : Seg) : (s.setCs v).vm = s.vm := rfl
@[simp] theorem State.setCs_nt (s : State) (v : Seg) : (s.setCs v).nt = s.nt := rfl
@[simp] theorem State.setCs_lma (s : State) (v : Seg) : (s.setCs v).lma = s.lma := rfl
@[simp] theorem State.setCs_cr4Cet (s : State) (v : Seg) : (s.setCs v).cr4Cet = s.cr4Cet := rfl

/-! ### setSs -/

@[simp] theorem State.setSs_rip (s : State) (v : Seg) : (s.setSs v).rip = s.rip := rfl
@[simp] theorem State.setSs_gpr (s : State) (v : Seg) : (s.setSs v).gpr = s.gpr := rfl
@[simp] theorem State.setSs_eflags (s : State) (v : Seg) : (s.setSs v).eflags = s.eflags := rfl
@[simp] theorem State.setSs_cr0 (s : State) (v : Seg) : (s.setSs v).cr0 = s.cr0 := rfl
@[simp] theorem State.setSs_cr4 (s : State) (v : Seg) : (s.setSs v).cr4 = s.cr4 := rfl
@[simp] theorem State.setSs_efer (s : State) (v : Seg) : (s.setSs v).efer = s.efer := rfl
@[simp] theorem State.setSs_cpl (s : State) (v : Seg) : (s.setSs v).cpl = s.cpl := rfl
@[simp] theorem State.setSs_es (s : State) (v : Seg) : (s.setSs v).es = s.es := rfl
@[simp] theorem State.setSs_cs (s : State) (v : Seg) : (s.setSs v).cs = s.cs := rfl
@[simp] theorem State.setSs_ss (s : State) (v : Seg) : (s.setSs v).ss = v := rfl
@[simp] theorem State.setSs_ds (s : State) (v : Seg) : (s.setSs v).ds = s.ds := rfl
@[simp] theorem State.setSs_fs (s : State) (v : Seg) : (s.setSs v).fs = s.fs := rfl
@[simp] theorem State.setSs_gs (s : State) (v : Seg) : (s.setSs v).gs = s.gs := rfl
@[simp] theorem State.setSs_gdtr (s : State) (v : Seg) : (s.setSs v).gdtr = s.gdtr := rfl
@[simp] theorem State.setSs_idtr (s : State) (v : Seg) : (s.setSs v).idtr = s.idtr := rfl
@[simp] theorem State.setSs_ldtr (s : State) (v : Seg) : (s.setSs v).ldtr = s.ldtr := rfl
@[simp] theorem State.setSs_tr (s : State) (v : Seg) : (s.setSs v).tr = s.tr := rfl
@[simp] theorem State.setSs_ssp (s : State) (v : Seg) : (s.setSs v).ssp = s.ssp := rfl
@[simp] theorem State.setSs_uCet (s : State) (v : Seg) : (s.setSs v).uCet = s.uCet := rfl
@[simp] theorem State.setSs_sCet (s : State) (v : Seg) : (s.setSs v).sCet = s.sCet := rfl
@[simp] theorem State.setSs_pl0Ssp (s : State) (v : Seg) : (s.setSs v).pl0Ssp = s.pl0Ssp := rfl
@[simp] theorem State.setSs_pl1Ssp (s : State) (v : Seg) : (s.setSs v).pl1Ssp = s.pl1Ssp := rfl
@[simp] theorem State.setSs_pl2Ssp (s : State) (v : Seg) : (s.setSs v).pl2Ssp = s.pl2Ssp := rfl
@[simp] theorem State.setSs_pl3Ssp (s : State) (v : Seg) : (s.setSs v).pl3Ssp = s.pl3Ssp := rfl
@[simp] theorem State.setSs_mem (s : State) (v : Seg) : (s.setSs v).mem = s.mem := rfl
@[simp] theorem State.setSs_cpu (s : State) (v : Seg) : (s.setSs v).cpu = s.cpu := rfl
@[simp] theorem State.setSs_draws (s : State) (v : Seg) : (s.setSs v).draws = s.draws := rfl
@[simp] theorem State.setSs_pe (s : State) (v : Seg) : (s.setSs v).pe = s.pe := rfl
@[simp] theorem State.setSs_vm (s : State) (v : Seg) : (s.setSs v).vm = s.vm := rfl
@[simp] theorem State.setSs_nt (s : State) (v : Seg) : (s.setSs v).nt = s.nt := rfl
@[simp] theorem State.setSs_lma (s : State) (v : Seg) : (s.setSs v).lma = s.lma := rfl
@[simp] theorem State.setSs_cr4Cet (s : State) (v : Seg) : (s.setSs v).cr4Cet = s.cr4Cet := rfl
@[simp] theorem State.setSs_mode (s : State) (v : Seg) : (s.setSs v).mode = s.mode := rfl
@[simp] theorem State.setSs_ctx (s : State) (v : Seg) : (s.setSs v).ctx = s.ctx := rfl

/-! ### setCpl -/

@[simp] theorem State.setCpl_rip (s : State) (v : BitVec 2) : (s.setCpl v).rip = s.rip := rfl
@[simp] theorem State.setCpl_gpr (s : State) (v : BitVec 2) : (s.setCpl v).gpr = s.gpr := rfl
@[simp] theorem State.setCpl_eflags (s : State) (v : BitVec 2) : (s.setCpl v).eflags = s.eflags := rfl
@[simp] theorem State.setCpl_cr0 (s : State) (v : BitVec 2) : (s.setCpl v).cr0 = s.cr0 := rfl
@[simp] theorem State.setCpl_cr4 (s : State) (v : BitVec 2) : (s.setCpl v).cr4 = s.cr4 := rfl
@[simp] theorem State.setCpl_efer (s : State) (v : BitVec 2) : (s.setCpl v).efer = s.efer := rfl
@[simp] theorem State.setCpl_cpl (s : State) (v : BitVec 2) : (s.setCpl v).cpl = v := rfl
@[simp] theorem State.setCpl_es (s : State) (v : BitVec 2) : (s.setCpl v).es = s.es := rfl
@[simp] theorem State.setCpl_cs (s : State) (v : BitVec 2) : (s.setCpl v).cs = s.cs := rfl
@[simp] theorem State.setCpl_ss (s : State) (v : BitVec 2) : (s.setCpl v).ss = s.ss := rfl
@[simp] theorem State.setCpl_ds (s : State) (v : BitVec 2) : (s.setCpl v).ds = s.ds := rfl
@[simp] theorem State.setCpl_fs (s : State) (v : BitVec 2) : (s.setCpl v).fs = s.fs := rfl
@[simp] theorem State.setCpl_gs (s : State) (v : BitVec 2) : (s.setCpl v).gs = s.gs := rfl
@[simp] theorem State.setCpl_gdtr (s : State) (v : BitVec 2) : (s.setCpl v).gdtr = s.gdtr := rfl
@[simp] theorem State.setCpl_idtr (s : State) (v : BitVec 2) : (s.setCpl v).idtr = s.idtr := rfl
@[simp] theorem State.setCpl_ldtr (s : State) (v : BitVec 2) : (s.setCpl v).ldtr = s.ldtr := rfl
@[simp] theorem State.setCpl_tr (s : State) (v : BitVec 2) : (s.setCpl v).tr = s.tr := rfl
@[simp] theorem State.setCpl_ssp (s : State) (v : BitVec 2) : (s.setCpl v).ssp = s.ssp := rfl
@[simp] theorem State.setCpl_uCet (s : State) (v : BitVec 2) : (s.setCpl v).uCet = s.uCet := rfl
@[simp] theorem State.setCpl_sCet (s : State) (v : BitVec 2) : (s.setCpl v).sCet = s.sCet := rfl
@[simp] theorem State.setCpl_pl0Ssp (s : State) (v : BitVec 2) : (s.setCpl v).pl0Ssp = s.pl0Ssp := rfl
@[simp] theorem State.setCpl_pl1Ssp (s : State) (v : BitVec 2) : (s.setCpl v).pl1Ssp = s.pl1Ssp := rfl
@[simp] theorem State.setCpl_pl2Ssp (s : State) (v : BitVec 2) : (s.setCpl v).pl2Ssp = s.pl2Ssp := rfl
@[simp] theorem State.setCpl_pl3Ssp (s : State) (v : BitVec 2) : (s.setCpl v).pl3Ssp = s.pl3Ssp := rfl
@[simp] theorem State.setCpl_mem (s : State) (v : BitVec 2) : (s.setCpl v).mem = s.mem := rfl
@[simp] theorem State.setCpl_cpu (s : State) (v : BitVec 2) : (s.setCpl v).cpu = s.cpu := rfl
@[simp] theorem State.setCpl_draws (s : State) (v : BitVec 2) : (s.setCpl v).draws = s.draws := rfl
@[simp] theorem State.setCpl_pe (s : State) (v : BitVec 2) : (s.setCpl v).pe = s.pe := rfl
@[simp] theorem State.setCpl_vm (s : State) (v : BitVec 2) : (s.setCpl v).vm = s.vm := rfl
@[simp] theorem State.setCpl_nt (s : State) (v : BitVec 2) : (s.setCpl v).nt = s.nt := rfl
@[simp] theorem State.setCpl_lma (s : State) (v : BitVec 2) : (s.setCpl v).lma = s.lma := rfl
@[simp] theorem State.setCpl_cr4Cet (s : State) (v : BitVec 2) : (s.setCpl v).cr4Cet = s.cr4Cet := rfl
@[simp] theorem State.setCpl_mode (s : State) (v : BitVec 2) : (s.setCpl v).mode = s.mode := rfl
@[simp] theorem State.setCpl_ctx (s : State) (v : BitVec 2) : (s.setCpl v).ctx = s.ctx := rfl

/-! ### setSsp -/

@[simp] theorem State.setSsp_rip (s : State) (v : BitVec 64) : (s.setSsp v).rip = s.rip := rfl
@[simp] theorem State.setSsp_gpr (s : State) (v : BitVec 64) : (s.setSsp v).gpr = s.gpr := rfl
@[simp] theorem State.setSsp_eflags (s : State) (v : BitVec 64) : (s.setSsp v).eflags = s.eflags := rfl
@[simp] theorem State.setSsp_cr0 (s : State) (v : BitVec 64) : (s.setSsp v).cr0 = s.cr0 := rfl
@[simp] theorem State.setSsp_cr4 (s : State) (v : BitVec 64) : (s.setSsp v).cr4 = s.cr4 := rfl
@[simp] theorem State.setSsp_efer (s : State) (v : BitVec 64) : (s.setSsp v).efer = s.efer := rfl
@[simp] theorem State.setSsp_cpl (s : State) (v : BitVec 64) : (s.setSsp v).cpl = s.cpl := rfl
@[simp] theorem State.setSsp_es (s : State) (v : BitVec 64) : (s.setSsp v).es = s.es := rfl
@[simp] theorem State.setSsp_cs (s : State) (v : BitVec 64) : (s.setSsp v).cs = s.cs := rfl
@[simp] theorem State.setSsp_ss (s : State) (v : BitVec 64) : (s.setSsp v).ss = s.ss := rfl
@[simp] theorem State.setSsp_ds (s : State) (v : BitVec 64) : (s.setSsp v).ds = s.ds := rfl
@[simp] theorem State.setSsp_fs (s : State) (v : BitVec 64) : (s.setSsp v).fs = s.fs := rfl
@[simp] theorem State.setSsp_gs (s : State) (v : BitVec 64) : (s.setSsp v).gs = s.gs := rfl
@[simp] theorem State.setSsp_gdtr (s : State) (v : BitVec 64) : (s.setSsp v).gdtr = s.gdtr := rfl
@[simp] theorem State.setSsp_idtr (s : State) (v : BitVec 64) : (s.setSsp v).idtr = s.idtr := rfl
@[simp] theorem State.setSsp_ldtr (s : State) (v : BitVec 64) : (s.setSsp v).ldtr = s.ldtr := rfl
@[simp] theorem State.setSsp_tr (s : State) (v : BitVec 64) : (s.setSsp v).tr = s.tr := rfl
@[simp] theorem State.setSsp_ssp (s : State) (v : BitVec 64) : (s.setSsp v).ssp = v := rfl
@[simp] theorem State.setSsp_uCet (s : State) (v : BitVec 64) : (s.setSsp v).uCet = s.uCet := rfl
@[simp] theorem State.setSsp_sCet (s : State) (v : BitVec 64) : (s.setSsp v).sCet = s.sCet := rfl
@[simp] theorem State.setSsp_pl0Ssp (s : State) (v : BitVec 64) : (s.setSsp v).pl0Ssp = s.pl0Ssp := rfl
@[simp] theorem State.setSsp_pl1Ssp (s : State) (v : BitVec 64) : (s.setSsp v).pl1Ssp = s.pl1Ssp := rfl
@[simp] theorem State.setSsp_pl2Ssp (s : State) (v : BitVec 64) : (s.setSsp v).pl2Ssp = s.pl2Ssp := rfl
@[simp] theorem State.setSsp_pl3Ssp (s : State) (v : BitVec 64) : (s.setSsp v).pl3Ssp = s.pl3Ssp := rfl
@[simp] theorem State.setSsp_mem (s : State) (v : BitVec 64) : (s.setSsp v).mem = s.mem := rfl
@[simp] theorem State.setSsp_cpu (s : State) (v : BitVec 64) : (s.setSsp v).cpu = s.cpu := rfl
@[simp] theorem State.setSsp_draws (s : State) (v : BitVec 64) : (s.setSsp v).draws = s.draws := rfl
@[simp] theorem State.setSsp_pe (s : State) (v : BitVec 64) : (s.setSsp v).pe = s.pe := rfl
@[simp] theorem State.setSsp_vm (s : State) (v : BitVec 64) : (s.setSsp v).vm = s.vm := rfl
@[simp] theorem State.setSsp_nt (s : State) (v : BitVec 64) : (s.setSsp v).nt = s.nt := rfl
@[simp] theorem State.setSsp_lma (s : State) (v : BitVec 64) : (s.setSsp v).lma = s.lma := rfl
@[simp] theorem State.setSsp_cr4Cet (s : State) (v : BitVec 64) : (s.setSsp v).cr4Cet = s.cr4Cet := rfl
@[simp] theorem State.setSsp_mode (s : State) (v : BitVec 64) : (s.setSsp v).mode = s.mode := rfl
@[simp] theorem State.setSsp_ctx (s : State) (v : BitVec 64) : (s.setSsp v).ctx = s.ctx := rfl

/-! ### setUCet -/

@[simp] theorem State.setUCet_rip (s : State) (v : BitVec 64) : (s.setUCet v).rip = s.rip := rfl
@[simp] theorem State.setUCet_gpr (s : State) (v : BitVec 64) : (s.setUCet v).gpr = s.gpr := rfl
@[simp] theorem State.setUCet_eflags (s : State) (v : BitVec 64) : (s.setUCet v).eflags = s.eflags := rfl
@[simp] theorem State.setUCet_cr0 (s : State) (v : BitVec 64) : (s.setUCet v).cr0 = s.cr0 := rfl
@[simp] theorem State.setUCet_cr4 (s : State) (v : BitVec 64) : (s.setUCet v).cr4 = s.cr4 := rfl
@[simp] theorem State.setUCet_efer (s : State) (v : BitVec 64) : (s.setUCet v).efer = s.efer := rfl
@[simp] theorem State.setUCet_cpl (s : State) (v : BitVec 64) : (s.setUCet v).cpl = s.cpl := rfl
@[simp] theorem State.setUCet_es (s : State) (v : BitVec 64) : (s.setUCet v).es = s.es := rfl
@[simp] theorem State.setUCet_cs (s : State) (v : BitVec 64) : (s.setUCet v).cs = s.cs := rfl
@[simp] theorem State.setUCet_ss (s : State) (v : BitVec 64) : (s.setUCet v).ss = s.ss := rfl
@[simp] theorem State.setUCet_ds (s : State) (v : BitVec 64) : (s.setUCet v).ds = s.ds := rfl
@[simp] theorem State.setUCet_fs (s : State) (v : BitVec 64) : (s.setUCet v).fs = s.fs := rfl
@[simp] theorem State.setUCet_gs (s : State) (v : BitVec 64) : (s.setUCet v).gs = s.gs := rfl
@[simp] theorem State.setUCet_gdtr (s : State) (v : BitVec 64) : (s.setUCet v).gdtr = s.gdtr := rfl
@[simp] theorem State.setUCet_idtr (s : State) (v : BitVec 64) : (s.setUCet v).idtr = s.idtr := rfl
@[simp] theorem State.setUCet_ldtr (s : State) (v : BitVec 64) : (s.setUCet v).ldtr = s.ldtr := rfl
@[simp] theorem State.setUCet_tr (s : State) (v : BitVec 64) : (s.setUCet v).tr = s.tr := rfl
@[simp] theorem State.setUCet_ssp (s : State) (v : BitVec 64) : (s.setUCet v).ssp = s.ssp := rfl
@[simp] theorem State.setUCet_uCet (s : State) (v : BitVec 64) : (s.setUCet v).uCet = v := rfl
@[simp] theorem State.setUCet_sCet (s : State) (v : BitVec 64) : (s.setUCet v).sCet = s.sCet := rfl
@[simp] theorem State.setUCet_pl0Ssp (s : State) (v : BitVec 64) : (s.setUCet v).pl0Ssp = s.pl0Ssp := rfl
@[simp] theorem State.setUCet_pl1Ssp (s : State) (v : BitVec 64) : (s.setUCet v).pl1Ssp = s.pl1Ssp := rfl
@[simp] theorem State.setUCet_pl2Ssp (s : State) (v : BitVec 64) : (s.setUCet v).pl2Ssp = s.pl2Ssp := rfl
@[simp] theorem State.setUCet_pl3Ssp (s : State) (v : BitVec 64) : (s.setUCet v).pl3Ssp = s.pl3Ssp := rfl
@[simp] theorem State.setUCet_mem (s : State) (v : BitVec 64) : (s.setUCet v).mem = s.mem := rfl
@[simp] theorem State.setUCet_cpu (s : State) (v : BitVec 64) : (s.setUCet v).cpu = s.cpu := rfl
@[simp] theorem State.setUCet_draws (s : State) (v : BitVec 64) : (s.setUCet v).draws = s.draws := rfl
@[simp] theorem State.setUCet_pe (s : State) (v : BitVec 64) : (s.setUCet v).pe = s.pe := rfl
@[simp] theorem State.setUCet_vm (s : State) (v : BitVec 64) : (s.setUCet v).vm = s.vm := rfl
@[simp] theorem State.setUCet_nt (s : State) (v : BitVec 64) : (s.setUCet v).nt = s.nt := rfl
@[simp] theorem State.setUCet_lma (s : State) (v : BitVec 64) : (s.setUCet v).lma = s.lma := rfl
@[simp] theorem State.setUCet_cr4Cet (s : State) (v : BitVec 64) : (s.setUCet v).cr4Cet = s.cr4Cet := rfl
@[simp] theorem State.setUCet_mode (s : State) (v : BitVec 64) : (s.setUCet v).mode = s.mode := rfl
@[simp] theorem State.setUCet_ctx (s : State) (v : BitVec 64) : (s.setUCet v).ctx = s.ctx := rfl

/-! ### setSCet -/

@[simp] theorem State.setSCet_rip (s : State) (v : BitVec 64) : (s.setSCet v).rip = s.rip := rfl
@[simp] theorem State.setSCet_gpr (s : State) (v : BitVec 64) : (s.setSCet v).gpr = s.gpr := rfl
@[simp] theorem State.setSCet_eflags (s : State) (v : BitVec 64) : (s.setSCet v).eflags = s.eflags := rfl
@[simp] theorem State.setSCet_cr0 (s : State) (v : BitVec 64) : (s.setSCet v).cr0 = s.cr0 := rfl
@[simp] theorem State.setSCet_cr4 (s : State) (v : BitVec 64) : (s.setSCet v).cr4 = s.cr4 := rfl
@[simp] theorem State.setSCet_efer (s : State) (v : BitVec 64) : (s.setSCet v).efer = s.efer := rfl
@[simp] theorem State.setSCet_cpl (s : State) (v : BitVec 64) : (s.setSCet v).cpl = s.cpl := rfl
@[simp] theorem State.setSCet_es (s : State) (v : BitVec 64) : (s.setSCet v).es = s.es := rfl
@[simp] theorem State.setSCet_cs (s : State) (v : BitVec 64) : (s.setSCet v).cs = s.cs := rfl
@[simp] theorem State.setSCet_ss (s : State) (v : BitVec 64) : (s.setSCet v).ss = s.ss := rfl
@[simp] theorem State.setSCet_ds (s : State) (v : BitVec 64) : (s.setSCet v).ds = s.ds := rfl
@[simp] theorem State.setSCet_fs (s : State) (v : BitVec 64) : (s.setSCet v).fs = s.fs := rfl
@[simp] theorem State.setSCet_gs (s : State) (v : BitVec 64) : (s.setSCet v).gs = s.gs := rfl
@[simp] theorem State.setSCet_gdtr (s : State) (v : BitVec 64) : (s.setSCet v).gdtr = s.gdtr := rfl
@[simp] theorem State.setSCet_idtr (s : State) (v : BitVec 64) : (s.setSCet v).idtr = s.idtr := rfl
@[simp] theorem State.setSCet_ldtr (s : State) (v : BitVec 64) : (s.setSCet v).ldtr = s.ldtr := rfl
@[simp] theorem State.setSCet_tr (s : State) (v : BitVec 64) : (s.setSCet v).tr = s.tr := rfl
@[simp] theorem State.setSCet_ssp (s : State) (v : BitVec 64) : (s.setSCet v).ssp = s.ssp := rfl
@[simp] theorem State.setSCet_uCet (s : State) (v : BitVec 64) : (s.setSCet v).uCet = s.uCet := rfl
@[simp] theorem State.setSCet_sCet (s : State) (v : BitVec 64) : (s.setSCet v).sCet = v := rfl
@[simp] theorem State.setSCet_pl0Ssp (s : State) (v : BitVec 64) : (s.setSCet v).pl0Ssp = s.pl0Ssp := rfl
@[simp] theorem State.setSCet_pl1Ssp (s : State) (v : BitVec 64) : (s.setSCet v).pl1Ssp = s.pl1Ssp := rfl
@[simp] theorem State.setSCet_pl2Ssp (s : State) (v : BitVec 64) : (s.setSCet v).pl2Ssp = s.pl2Ssp := rfl
@[simp] theorem State.setSCet_pl3Ssp (s : State) (v : BitVec 64) : (s.setSCet v).pl3Ssp = s.pl3Ssp := rfl
@[simp] theorem State.setSCet_mem (s : State) (v : BitVec 64) : (s.setSCet v).mem = s.mem := rfl
@[simp] theorem State.setSCet_cpu (s : State) (v : BitVec 64) : (s.setSCet v).cpu = s.cpu := rfl
@[simp] theorem State.setSCet_draws (s : State) (v : BitVec 64) : (s.setSCet v).draws = s.draws := rfl
@[simp] theorem State.setSCet_pe (s : State) (v : BitVec 64) : (s.setSCet v).pe = s.pe := rfl
@[simp] theorem State.setSCet_vm (s : State) (v : BitVec 64) : (s.setSCet v).vm = s.vm := rfl
@[simp] theorem State.setSCet_nt (s : State) (v : BitVec 64) : (s.setSCet v).nt = s.nt := rfl
@[simp] theorem State.setSCet_lma (s : State) (v : BitVec 64) : (s.setSCet v).lma = s.lma := rfl
@[simp] theorem State.setSCet_cr4Cet (s : State) (v : BitVec 64) : (s.setSCet v).cr4Cet = s.cr4Cet := rfl
@[simp] theorem State.setSCet_mode (s : State) (v : BitVec 64) : (s.setSCet v).mode = s.mode := rfl
@[simp] theorem State.setSCet_ctx (s : State) (v : BitVec 64) : (s.setSCet v).ctx = s.ctx := rfl

/-! ### setPl3Ssp -/

@[simp] theorem State.setPl3Ssp_rip (s : State) (v : BitVec 64) : (s.setPl3Ssp v).rip = s.rip := rfl
@[simp] theorem State.setPl3Ssp_gpr (s : State) (v : BitVec 64) : (s.setPl3Ssp v).gpr = s.gpr := rfl
@[simp] theorem State.setPl3Ssp_eflags (s : State) (v : BitVec 64) : (s.setPl3Ssp v).eflags = s.eflags := rfl
@[simp] theorem State.setPl3Ssp_cr0 (s : State) (v : BitVec 64) : (s.setPl3Ssp v).cr0 = s.cr0 := rfl
@[simp] theorem State.setPl3Ssp_cr4 (s : State) (v : BitVec 64) : (s.setPl3Ssp v).cr4 = s.cr4 := rfl
@[simp] theorem State.setPl3Ssp_efer (s : State) (v : BitVec 64) : (s.setPl3Ssp v).efer = s.efer := rfl
@[simp] theorem State.setPl3Ssp_cpl (s : State) (v : BitVec 64) : (s.setPl3Ssp v).cpl = s.cpl := rfl
@[simp] theorem State.setPl3Ssp_es (s : State) (v : BitVec 64) : (s.setPl3Ssp v).es = s.es := rfl
@[simp] theorem State.setPl3Ssp_cs (s : State) (v : BitVec 64) : (s.setPl3Ssp v).cs = s.cs := rfl
@[simp] theorem State.setPl3Ssp_ss (s : State) (v : BitVec 64) : (s.setPl3Ssp v).ss = s.ss := rfl
@[simp] theorem State.setPl3Ssp_ds (s : State) (v : BitVec 64) : (s.setPl3Ssp v).ds = s.ds := rfl
@[simp] theorem State.setPl3Ssp_fs (s : State) (v : BitVec 64) : (s.setPl3Ssp v).fs = s.fs := rfl
@[simp] theorem State.setPl3Ssp_gs (s : State) (v : BitVec 64) : (s.setPl3Ssp v).gs = s.gs := rfl
@[simp] theorem State.setPl3Ssp_gdtr (s : State) (v : BitVec 64) : (s.setPl3Ssp v).gdtr = s.gdtr := rfl
@[simp] theorem State.setPl3Ssp_idtr (s : State) (v : BitVec 64) : (s.setPl3Ssp v).idtr = s.idtr := rfl
@[simp] theorem State.setPl3Ssp_ldtr (s : State) (v : BitVec 64) : (s.setPl3Ssp v).ldtr = s.ldtr := rfl
@[simp] theorem State.setPl3Ssp_tr (s : State) (v : BitVec 64) : (s.setPl3Ssp v).tr = s.tr := rfl
@[simp] theorem State.setPl3Ssp_ssp (s : State) (v : BitVec 64) : (s.setPl3Ssp v).ssp = s.ssp := rfl
@[simp] theorem State.setPl3Ssp_uCet (s : State) (v : BitVec 64) : (s.setPl3Ssp v).uCet = s.uCet := rfl
@[simp] theorem State.setPl3Ssp_sCet (s : State) (v : BitVec 64) : (s.setPl3Ssp v).sCet = s.sCet := rfl
@[simp] theorem State.setPl3Ssp_pl0Ssp (s : State) (v : BitVec 64) : (s.setPl3Ssp v).pl0Ssp = s.pl0Ssp := rfl
@[simp] theorem State.setPl3Ssp_pl1Ssp (s : State) (v : BitVec 64) : (s.setPl3Ssp v).pl1Ssp = s.pl1Ssp := rfl
@[simp] theorem State.setPl3Ssp_pl2Ssp (s : State) (v : BitVec 64) : (s.setPl3Ssp v).pl2Ssp = s.pl2Ssp := rfl
@[simp] theorem State.setPl3Ssp_pl3Ssp (s : State) (v : BitVec 64) : (s.setPl3Ssp v).pl3Ssp = v := rfl
@[simp] theorem State.setPl3Ssp_mem (s : State) (v : BitVec 64) : (s.setPl3Ssp v).mem = s.mem := rfl
@[simp] theorem State.setPl3Ssp_cpu (s : State) (v : BitVec 64) : (s.setPl3Ssp v).cpu = s.cpu := rfl
@[simp] theorem State.setPl3Ssp_draws (s : State) (v : BitVec 64) : (s.setPl3Ssp v).draws = s.draws := rfl
@[simp] theorem State.setPl3Ssp_pe (s : State) (v : BitVec 64) : (s.setPl3Ssp v).pe = s.pe := rfl
@[simp] theorem State.setPl3Ssp_vm (s : State) (v : BitVec 64) : (s.setPl3Ssp v).vm = s.vm := rfl
@[simp] theorem State.setPl3Ssp_nt (s : State) (v : BitVec 64) : (s.setPl3Ssp v).nt = s.nt := rfl
@[simp] theorem State.setPl3Ssp_lma (s : State) (v : BitVec 64) : (s.setPl3Ssp v).lma = s.lma := rfl
@[simp] theorem State.setPl3Ssp_cr4Cet (s : State) (v : BitVec 64) : (s.setPl3Ssp v).cr4Cet = s.cr4Cet := rfl
@[simp] theorem State.setPl3Ssp_mode (s : State) (v : BitVec 64) : (s.setPl3Ssp v).mode = s.mode := rfl
@[simp] theorem State.setPl3Ssp_ctx (s : State) (v : BitVec 64) : (s.setPl3Ssp v).ctx = s.ctx := rfl

/-! ### setMem -/

@[simp] theorem State.setMem_rip (s : State) (v : Memory) : (s.setMem v).rip = s.rip := rfl
@[simp] theorem State.setMem_gpr (s : State) (v : Memory) : (s.setMem v).gpr = s.gpr := rfl
@[simp] theorem State.setMem_eflags (s : State) (v : Memory) : (s.setMem v).eflags = s.eflags := rfl
@[simp] theorem State.setMem_cr0 (s : State) (v : Memory) : (s.setMem v).cr0 = s.cr0 := rfl
@[simp] theorem State.setMem_cr4 (s : State) (v : Memory) : (s.setMem v).cr4 = s.cr4 := rfl
@[simp] theorem State.setMem_efer (s : State) (v : Memory) : (s.setMem v).efer = s.efer := rfl
@[simp] theorem State.setMem_cpl (s : State) (v : Memory) : (s.setMem v).cpl = s.cpl := rfl
@[simp] theorem State.setMem_es (s : State) (v : Memory) : (s.setMem v).es = s.es := rfl
@[simp] theorem State.setMem_cs (s : State) (v : Memory) : (s.setMem v).cs = s.cs := rfl
@[simp] theorem State.setMem_ss (s : State) (v : Memory) : (s.setMem v).ss = s.ss := rfl
@[simp] theorem State.setMem_ds (s : State) (v : Memory) : (s.setMem v).ds = s.ds := rfl
@[simp] theorem State.setMem_fs (s : State) (v : Memory) : (s.setMem v).fs = s.fs := rfl
@[simp] theorem State.setMem_gs (s : State) (v : Memory) : (s.setMem v).gs = s.gs := rfl
@[simp] theorem State.setMem_gdtr (s : State) (v : Memory) : (s.setMem v).gdtr = s.gdtr := rfl
@[simp] theorem State.setMem_idtr (s : State) (v : Memory) : (s.setMem v).idtr = s.idtr := rfl
@[simp] theorem State.setMem_ldtr (s : State) (v : Memory) : (s.setMem v).ldtr = s.ldtr := rfl
@[simp] theorem State.setMem_tr (s : State) (v : Memory) : (s.setMem v).tr = s.tr := rfl
@[simp] theorem State.setMem_ssp (s : State) (v : Memory) : (s.setMem v).ssp = s.ssp := rfl
@[simp] theorem State.setMem_uCet (s : State) (v : Memory) : (s.setMem v).uCet = s.uCet := rfl
@[simp] theorem State.setMem_sCet (s : State) (v : Memory) : (s.setMem v).sCet = s.sCet := rfl
@[simp] theorem State.setMem_pl0Ssp (s : State) (v : Memory) : (s.setMem v).pl0Ssp = s.pl0Ssp := rfl
@[simp] theorem State.setMem_pl1Ssp (s : State) (v : Memory) : (s.setMem v).pl1Ssp = s.pl1Ssp := rfl
@[simp] theorem State.setMem_pl2Ssp (s : State) (v : Memory) : (s.setMem v).pl2Ssp = s.pl2Ssp := rfl
@[simp] theorem State.setMem_pl3Ssp (s : State) (v : Memory) : (s.setMem v).pl3Ssp = s.pl3Ssp := rfl
@[simp] theorem State.setMem_mem (s : State) (v : Memory) : (s.setMem v).mem = v := rfl
@[simp] theorem State.setMem_cpu (s : State) (v : Memory) : (s.setMem v).cpu = s.cpu := rfl
@[simp] theorem State.setMem_draws (s : State) (v : Memory) : (s.setMem v).draws = s.draws := rfl
@[simp] theorem State.setMem_pe (s : State) (v : Memory) : (s.setMem v).pe = s.pe := rfl
@[simp] theorem State.setMem_vm (s : State) (v : Memory) : (s.setMem v).vm = s.vm := rfl
@[simp] theorem State.setMem_nt (s : State) (v : Memory) : (s.setMem v).nt = s.nt := rfl
@[simp] theorem State.setMem_lma (s : State) (v : Memory) : (s.setMem v).lma = s.lma := rfl
@[simp] theorem State.setMem_cr4Cet (s : State) (v : Memory) : (s.setMem v).cr4Cet = s.cr4Cet := rfl
@[simp] theorem State.setMem_mode (s : State) (v : Memory) : (s.setMem v).mode = s.mode := rfl
@[simp] theorem State.setMem_ctx (s : State) (v : Memory) : (s.setMem v).ctx = s.ctx := rfl

/-! ### setDraws -/

@[simp] theorem State.setDraws_rip (s : State) (v : Nat) : (s.setDraws v).rip = s.rip := rfl
@[simp] theorem State.setDraws_gpr (s : State) (v : Nat) : (s.setDraws v).gpr = s.gpr := rfl
@[simp] theorem State.setDraws_eflags (s : State) (v : Nat) : (s.setDraws v).eflags = s.eflags := rfl
@[simp] theorem State.setDraws_cr0 (s : State) (v : Nat) : (s.setDraws v).cr0 = s.cr0 := rfl
@[simp] theorem State.setDraws_cr4 (s : State) (v : Nat) : (s.setDraws v).cr4 = s.cr4 := rfl
@[simp] theorem State.setDraws_efer (s : State) (v : Nat) : (s.setDraws v).efer = s.efer := rfl
@[simp] theorem State.setDraws_cpl (s : State) (v : Nat) : (s.setDraws v).cpl = s.cpl := rfl
@[simp] theorem State.setDraws_es (s : State) (v : Nat) : (s.setDraws v).es = s.es := rfl
@[simp] theorem State.setDraws_cs (s : State) (v : Nat) : (s.setDraws v).cs = s.cs := rfl
@[simp] theorem State.setDraws_ss (s : State) (v : Nat) : (s.setDraws v).ss = s.ss := rfl
@[simp] theorem State.setDraws_ds (s : State) (v : Nat) : (s.setDraws v).ds = s.ds := rfl
@[simp] theorem State.setDraws_fs (s : State) (v : Nat) : (s.setDraws v).fs = s.fs := rfl
@[simp] theorem State.setDraws_gs (s : State) (v : Nat) : (s.setDraws v).gs = s.gs := rfl
@[simp] theorem State.setDraws_gdtr (s : State) (v : Nat) : (s.setDraws v).gdtr = s.gdtr := rfl
@[simp] theorem State.setDraws_idtr (s : State) (v : Nat) : (s.setDraws v).idtr = s.idtr := rfl
@[simp] theorem State.setDraws_ldtr (s : State) (v : Nat) : (s.setDraws v).ldtr = s.ldtr := rfl
@[simp] theorem State.setDraws_tr (s : State) (v : Nat) : (s.setDraws v).tr = s.tr := rfl
@[simp] theorem State.setDraws_ssp (s : State) (v : Nat) : (s.setDraws v).ssp = s.ssp := rfl
@[simp] theorem State.setDraws_uCet (s : State) (v : Nat) : (s.setDraws v).uCet = s.uCet := rfl
@[simp] theorem State.setDraws_sCet (s : State) (v : Nat) : (s.setDraws v).sCet = s.sCet := rfl
@[simp] theorem State.setDraws_pl0Ssp (s : State) (v : Nat) : (s.setDraws v).pl0Ssp = s.pl0Ssp := rfl
@[simp] theorem State.setDraws_pl1Ssp (s : State) (v : Nat) : (s.setDraws v).pl1Ssp = s.pl1Ssp := rfl
@[simp] theorem State.setDraws_pl2Ssp (s : State) (v : Nat) : (s.setDraws v).pl2Ssp = s.pl2Ssp := rfl
@[simp] theorem State.setDraws_pl3Ssp (s : State) (v : Nat) : (s.setDraws v).pl3Ssp = s.pl3Ssp := rfl
@[simp] theorem State.setDraws_mem (s : State) (v : Nat) : (s.setDraws v).mem = s.mem := rfl
@[simp] theorem State.setDraws_cpu (s : State) (v : Nat) : (s.setDraws v).cpu = s.cpu := rfl
@[simp] theorem State.setDraws_draws (s : State) (v : Nat) : (s.setDraws v).draws = v := rfl
@[simp] theorem State.setDraws_pe (s : State) (v : Nat) : (s.setDraws v).pe = s.pe := rfl
@[simp] theorem State.setDraws_vm (s : State) (v : Nat) : (s.setDraws v).vm = s.vm := rfl
@[simp] theorem State.setDraws_nt (s : State) (v : Nat) : (s.setDraws v).nt = s.nt := rfl
@[simp] theorem State.setDraws_lma (s : State) (v : Nat) : (s.setDraws v).lma = s.lma := rfl
@[simp] theorem State.setDraws_cr4Cet (s : State) (v : Nat) : (s.setDraws v).cr4Cet = s.cr4Cet := rfl
@[simp] theorem State.setDraws_mode (s : State) (v : Nat) : (s.setDraws v).mode = s.mode := rfl
@[simp] theorem State.setDraws_ctx (s : State) (v : Nat) : (s.setDraws v).ctx = s.ctx := rfl

/-! ### Composition: the same update twice, and one order for two different ones -/

@[simp] theorem State.setRip_setRip (s : State) (v w : BitVec 64) : (s.setRip v).setRip w = s.setRip w := rfl
@[simp] theorem State.setRsp_setRsp (s : State) (v w : BitVec 64) : (s.setRsp v).setRsp w = s.setRsp w := rfl
@[simp] theorem State.setCs_setCs (s : State) (v w : Seg) : (s.setCs v).setCs w = s.setCs w := rfl
@[simp] theorem State.setSs_setSs (s : State) (v w : Seg) : (s.setSs v).setSs w = s.setSs w := rfl
@[simp] theorem State.setCpl_setCpl (s : State) (v w : BitVec 2) : (s.setCpl v).setCpl w = s.setCpl w := rfl
@[simp] theorem State.setSsp_setSsp (s : State) (v w : BitVec 64) : (s.setSsp v).setSsp w = s.setSsp w := rfl
@[simp] theorem State.setUCet_setUCet (s : State) (v w : BitVec 64) : (s.setUCet v).setUCet w = s.setUCet w := rfl
@[simp] theorem State.setSCet_setSCet (s : State) (v w : BitVec 64) : (s.setSCet v).setSCet w = s.setSCet w := rfl
@[simp] theorem State.setPl3Ssp_setPl3Ssp (s : State) (v w : BitVec 64) : (s.setPl3Ssp v).setPl3Ssp w = s.setPl3Ssp w := rfl
@[simp] theorem State.setMem_setMem (s : State) (v w : Memory) : (s.setMem v).setMem w = s.setMem w := rfl
@[simp] theorem State.setDraws_setDraws (s : State) (v w : Nat) : (s.setDraws v).setDraws w = s.setDraws w := rfl

@[simp] theorem State.setRsp_setRip (s : State) (v : BitVec 64) (w : BitVec 64) :
    (s.setRsp v).setRip w = (s.setRip w).setRsp v := rfl
@[simp] theorem State.setCs_setRip (s : State) (v : Seg) (w : BitVec 64) :
    (s.setCs v).setRip w = (s.setRip w).setCs v := rfl
@[simp] theorem State.setSs_setRip (s : State) (v : Seg) (w : BitVec 64) :
    (s.setSs v).setRip w = (s.setRip w).setSs v := rfl
@[simp] theorem State.setCpl_setRip (s : State) (v : BitVec 2) (w : BitVec 64) :
    (s.setCpl v).setRip w = (s.setRip w).setCpl v := rfl
@[simp] theorem State.setSsp_setRip (s : State) (v : BitVec 64) (w : BitVec 64) :
    (s.setSsp v).setRip w = (s.setRip w).setSsp v := rfl
@[simp] theorem State.setUCet_setRip (s : State) (v : BitVec 64) (w : BitVec 64) :
    (s.setUCet v).setRip w = (s.setRip w).setUCet v := rfl
@[simp] theorem State.setSCet_setRip (s : State) (v : BitVec 64) (w : BitVec 64) :
    (s.setSCet v).setRip w = (s.setRip w).setSCet v := rfl
@[simp] theorem State.setPl3Ssp_setRip (s : State) (v : BitVec 64) (w : BitVec 64) :
    (s.setPl3Ssp v).setRip w = (s.setRip w).setPl3Ssp v := rfl
@[simp] theorem State.setMem_setRip (s : State) (v : Memory) (w : BitVec 64) :
    (s.setMem v).setRip w = (s.setRip w).setMem v := rfl
@[simp] theorem State.setDraws_setRip (s : State) (v : Nat) (w : BitVec 64) :
    (s.setDraws v).setRip w = (s.setRip w).setDraws v := rfl
@[simp] theorem State.setCs_setRsp (s : State) (v : Seg) (w : BitVec 64) :
    (s.setCs v).setRsp w = (s.setRsp w).setCs v := rfl
@[simp] theorem State.setSs_setRsp (s : State) (v : Seg) (w : BitVec 64) :
    (s.setSs v).setRsp w = (s.setRsp w).setSs v := rfl
@[simp] theorem State.setCpl_setRsp (s : State) (v : BitVec 2) (w : BitVec 64) :
    (s.setCpl v).setRsp w = (s.setRsp w).setCpl v := rfl
@[simp] theorem State.setSsp_setRsp (s : State) (v : BitVec 64) (w : BitVec 64) :
    (s.setSsp v).setRsp w = (s.setRsp w).setSsp v := rfl
@[simp] theorem State.setUCet_setRsp (s : State) (v : BitVec 64) (w : BitVec 64) :
    (s.setUCet v).setRsp w = (s.setRsp w).setUCet v := rfl
@[simp] theorem State.setSCet_setRsp (s : State) (v : BitVec 64) (w : BitVec 64) :
    (s.setSCet v).setRsp w = (s.setRsp w).setSCet v := rfl
@[simp] theorem State.setPl3Ssp_setRsp (s : State) (v : BitVec 64) (w : BitVec 64) :
    (s.setPl3Ssp v).setRsp w = (s.setRsp w).setPl3Ssp v := rfl
@[simp] theorem State.setMem_setRsp (s : State) (v : Memory) (w : BitVec 64) :
    (s.setMem v).setRsp w = (s.setRsp w).setMem v := rfl
@[simp] theorem State.setDraws_setRsp (s : State) (v : Nat) (w : BitVec 64) :
    (s.setDraws v).setRsp w = (s.setRsp w).setDraws v := rfl
@[simp] theorem State.setSs_setCs (s : State) (v : Seg) (w : Seg) :
    (s.setSs v).setCs w = (s.setCs w).setSs v := rfl
@[simp] theorem State.setCpl_setCs (s : State) (v : BitVec 2) (w : Seg) :
    (s.setCpl v).setCs w = (s.setCs w).setCpl v := rfl
@[simp] theorem State.setSsp_setCs (s : State) (v : BitVec 64) (w : Seg) :
    (s.setSsp v).setCs w = (s.setCs w).setSsp v := rfl
@[simp] theorem State.setUCet_setCs (s : State) (v : BitVec 64) (w : Seg) :
    (s.setUCet v).setCs w = (s.setCs w).setUCet v := rfl
@[simp] theorem State.setSCet_setCs (s : State) (v : BitVec 64) (w : Seg) :
    (s.setSCet v).setCs w = (s.setCs w).setSCet v := rfl
@[simp] theorem State.setPl3Ssp_setCs (s : State) (v : BitVec 64) (w : Seg) :
    (s.setPl3Ssp v).setCs w = (s.setCs w).setPl3Ssp v := rfl
@[simp] theorem State.setMem_setCs (s : State) (v : Memory) (w : Seg) :
    (s.setMem v).setCs w = (s.setCs w).setMem v := rfl
@[simp] theorem State.setDraws_setCs (s : State) (v : Nat) (w : Seg) :
    (s.setDraws v).setCs w = (s.setCs w).setDraws v := rfl
@[simp] theorem State.setCpl_setSs (s : State) (v : BitVec 2) (w : Seg) :
    (s.setCpl v).setSs w = (s.setSs w).setCpl v := rfl
@[simp] theorem State.setSsp_setSs (s : State) (v : BitVec 64) (w : Seg) :
    (s.setSsp v).setSs w = (s.setSs w).setSsp v := rfl
@[simp] theorem State.setUCet_setSs (s : State) (v : BitVec 64) (w : Seg) :
    (s.setUCet v).setSs w = (s.setSs w).setUCet v := rfl
@[simp] theorem State.setSCet_setSs (s : State) (v : BitVec 64) (w : Seg) :
    (s.setSCet v).setSs w = (s.setSs w).setSCet v := rfl
@[simp] theorem State.setPl3Ssp_setSs (s : State) (v : BitVec 64) (w : Seg) :
    (s.setPl3Ssp v).setSs w = (s.setSs w).setPl3Ssp v := rfl
@[simp] theorem State.setMem_setSs (s : State) (v : Memory) (w : Seg) :
    (s.setMem v).setSs w = (s.setSs w).setMem v := rfl
@[simp] theorem State.setDraws_setSs (s : State) (v : Nat) (w : Seg) :
    (s.setDraws v).setSs w = (s.setSs w).setDraws v := rfl
@[simp] theorem State.setSsp_setCpl (s : State) (v : BitVec 64) (w : BitVec 2) :
    (s.setSsp v).setCpl w = (s.setCpl w).setSsp v := rfl
@[simp] theorem State.setUCet_setCpl (s : State) (v : BitVec 64) (w : BitVec 2) :
    (s.setUCet v).setCpl w = (s.setCpl w).setUCet v := rfl
@[simp] theorem State.setSCet_setCpl (s : State) (v : BitVec 64) (w : BitVec 2) :
    (s.setSCet v).setCpl w = (s.setCpl w).setSCet v := rfl
@[simp] theorem State.setPl3Ssp_setCpl (s : State) (v : BitVec 64) (w : BitVec 2) :
    (s.setPl3Ssp v).setCpl w = (s.setCpl w).setPl3Ssp v := rfl
@[simp] theorem State.setMem_setCpl (s : State) (v : Memory) (w : BitVec 2) :
    (s.setMem v).setCpl w = (s.setCpl w).setMem v := rfl
@[simp] theorem State.setDraws_setCpl (s : State) (v : Nat) (w : BitVec 2) :
    (s.setDraws v).setCpl w = (s.setCpl w).setDraws v := rfl
@[simp] theorem State.setUCet_setSsp (s : State) (v : BitVec 64) (w : BitVec 64) :
    (s.setUCet v).setSsp w = (s.setSsp w).setUCet v := rfl
@[simp] theorem State.setSCet_setSsp (s : State) (v : BitVec 64) (w : BitVec 64) :
    (s.setSCet v).setSsp w = (s.setSsp w).setSCet v := rfl
@[simp] theorem State.setPl3Ssp_setSsp (s : State) (v : BitVec 64) (w : BitVec 64) :
    (s.setPl3Ssp v).setSsp w = (s.setSsp w).setPl3Ssp v := rfl
@[simp] theorem State.setMem_setSsp (s : State) (v : Memory) (w : BitVec 64) :
    (s.setMem v).setSsp w = (s.setSsp w).setMem v := rfl
@[simp] theorem State.setDraws_setSsp (s : State) (v : Nat) (w : BitVec 64) :
    (s.setDraws v).setSsp w = (s.setSsp w).setDraws v := rfl
@[simp] theorem State.setSCet_setUCet (s : State) (v : BitVec 64) (w : BitVec 64) :
    (s.setSCet v).setUCet w = (s.setUCet w).setSCet v := rfl
@[simp] theorem State.setPl3Ssp_setUCet (s : State) (v : BitVec 64) (w : BitVec 64) :
    (s.setPl3Ssp v).setUCet w = (s.setUCet w).setPl3Ssp v := rfl
@[simp] theorem State.setMem_setUCet (s : State) (v : Memory) (w : BitVec 64) :
    (s.setMem v).setUCet w = (s.setUCet w).setMem v := rfl
@[simp] theorem State.setDraws_setUCet (s : State) (v : Nat) (w : BitVec 64) :
    (s.setDraws v).setUCet w = (s.setUCet w).setDraws v := rfl
@[simp] theorem State.setPl3Ssp_setSCet (s : State) (v : BitVec 64) (w : BitVec 64) :
    (s.setPl3Ssp v).setSCet w = (s.setSCet w).setPl3Ssp v := rfl
@[simp] theorem State.setMem_setSCet (s : State) (v : Memory) (w : BitVec 64) :
    (s.setMem v).setSCet w = (s.setSCet w).setMem v := rfl
@[simp] theorem State.setDraws_setSCet (s : State) (v : Nat) (w : BitVec 64) :
    (s.setDraws v).setSCet w = (s.setSCet w).setDraws v := rfl
@[simp] theorem State.setMem_setPl3Ssp (s : State) (v : Memory) (w : BitVec 64) :
    (s.setMem v).setPl3Ssp w = (s.setPl3Ssp w).setMem v := rfl
@[simp] theorem State.setDraws_setPl3Ssp (s : State) (v : Nat) (w : BitVec 64) :
    (s.setDraws v).setPl3Ssp w = (s.setPl3Ssp w).setDraws v := rfl
@[simp] theorem State.setDraws_setMem (s : State) (v : Nat) (w : Memory) :
    (s.setDraws v).setMem w = (s.setMem w).setDraws v := rfl

end Sys2Proof.Machine
end

