-- ==== Sys2Proof/Laws/Ops.lean ====
section
/-! SUPPORT. For each shared operation of Machine/Ops.lean one lemma that says once everything it can do:
when it answers, what it answers, and what it leaves alone. -/

namespace Sys2Proof.Machine

/-! ## Sequencing and tests -/

theorem except_bind_ok {α β : Type} {x : Except Halt α} {f : α → Except Halt β} {b : β} :
    (x >>= f) = .ok b ↔ ∃ a, x = .ok a ∧ f a = .ok b := by
  cases x with
  | error e => simp [bind, Except.bind]
  | ok a => simp [bind, Except.bind]

theorem except_bind_error {α β : Type} {x : Except Halt α} {f : α → Except Halt β} {e : Halt} :
    (x >>= f) = .error e ↔ x = .error e ∨ ∃ a, x = .ok a ∧ f a = .error e := by
  cases x with
  | error e => simp [bind, Except.bind]
  | ok a => simp [bind, Except.bind]

@[simp] theorem raise_ne_ok {α : Type} {r : Run} {x : Exc} {code : BitVec 16} {rule : RuleId} {a : α} :
    (raise r x code rule = .ok a) ↔ False := by simp [raise]

@[simp] theorem raiseIf_ok {bad : Bool} {r : Run} {x : Exc} {code : BitVec 16} {rule : RuleId}
    {u : Unit} : raiseIf bad r x code rule = .ok u ↔ bad = false := by
  cases bad <;> simp [raiseIf, raise]

theorem raiseIf_error {bad : Bool} {r : Run} {x : Exc} {code : BitVec 16} {rule : RuleId} {e : Halt} :
    raiseIf bad r x code rule = .error e ↔
      bad = true ∧ e = .exc x (some code) rule r.wrote r.st.draws := by
  cases bad <;> simp [raiseIf, raise, eq_comm]

theorem raiseIf_bind_ok {α : Type} {bad : Bool} {r : Run} {b : α} {x : Exc} {code : BitVec 16}
    {rule : RuleId} {f : Unit → Except Halt α} :
    (raiseIf bad r x code rule >>= f) = .ok b ↔ bad = false ∧ f () = .ok b := by
  rw [except_bind_ok]
  exact ⟨fun ⟨u, h, k⟩ => ⟨raiseIf_ok.1 h, k⟩, fun ⟨h, k⟩ => ⟨(), raiseIf_ok.2 h, k⟩⟩

theorem except_ok_inj {α : Type} {a b : α} : ((Except.ok a : Except Halt α) = .ok b) ↔ a = b :=
  ⟨fun h => by cases h; rfl, fun h => by rw [h]⟩

/-! ## Runs -/

@[simp] theorem Run.upd_st (r : Run) (s : State) : (r.upd s).st = s := rfl
@[simp] theorem Run.upd_wrote (r : Run) (s : State) : (r.upd s).wrote = r.wrote := rfl
@[simp] theorem Run.store_wrote (r : Run) (lin : BitVec 64) (n : Nat) (v : BitVec 64) :
    (r.store lin n v).wrote = r.wrote ++ storedAddrs r.st lin n := rfl
theorem Run.store_st (r : Run) (lin : BitVec 64) (n : Nat) (v : BitVec 64) :
    (r.store lin n v).st = r.st.setMem (storeBytes r.st lin v n r.st.mem) := rfl
@[simp] theorem startRun_st (s : State) : (startRun s).st = s := rfl
@[simp] theorem startRun_wrote (s : State) : (startRun s).wrote = [] := rfl

/-! ## The two frames every operation of a `CALL` keeps -/

/-- What no `CALL` that completes writes: the flags and control registers, the data segments, the table
and task registers, `IA32_PL0_SSP` to `IA32_PL2_SSP`, the parameters, and every general register but
the stack pointer (10_state.md R24, R25, R28, R30, R31, R32, R36). -/
structure SameRest (s t : State) : Prop where
  eflags : t.eflags = s.eflags
  cr0 : t.cr0 = s.cr0
  cr4 : t.cr4 = s.cr4
  efer : t.efer = s.efer
  es : t.es = s.es
  ds : t.ds = s.ds
  fs : t.fs = s.fs
  gs : t.gs = s.gs
  gdtr : t.gdtr = s.gdtr
  idtr : t.idtr = s.idtr
  ldtr : t.ldtr = s.ldtr
  tr : t.tr = s.tr
  pl0Ssp : t.pl0Ssp = s.pl0Ssp
  pl1Ssp : t.pl1Ssp = s.pl1Ssp
  pl2Ssp : t.pl2Ssp = s.pl2Ssp
  cpu : t.cpu = s.cpu
  gpr : t.gpr = { s.gpr with rsp := t.gpr.rsp }

theorem SameRest.refl (s : State) : SameRest s s := by constructor <;> rfl

theorem SameRest.trans {s t u : State} (h : SameRest s t) (k : SameRest t u) : SameRest s u where
  eflags := k.eflags.trans h.eflags
  cr0 := k.cr0.trans h.cr0
  cr4 := k.cr4.trans h.cr4
  efer := k.efer.trans h.efer
  es := k.es.trans h.es
  ds := k.ds.trans h.ds
  fs := k.fs.trans h.fs
  gs := k.gs.trans h.gs
  gdtr := k.gdtr.trans h.gdtr
  idtr := k.idtr.trans h.idtr
  ldtr := k.ldtr.trans h.ldtr
  tr := k.tr.trans h.tr
  pl0Ssp := k.pl0Ssp.trans h.pl0Ssp
  pl1Ssp := k.pl1Ssp.trans h.pl1Ssp
  pl2Ssp := k.pl2Ssp.trans h.pl2Ssp
  cpu := k.cpu.trans h.cpu
  gpr := by rw [k.gpr, h.gpr]

theorem SameRest.lma {s t : State} (h : SameRest s t) : t.lma = s.lma := by
  simp [State.lma, h.efer, h.cpu]

theorem SameRest.pe {s t : State} (h : SameRest s t) : t.pe = s.pe := by simp [State.pe, h.cr0]

theorem SameRest.vm {s t : State} (h : SameRest s t) : t.vm = s.vm := by simp [State.vm, h.eflags]

theorem SameRest.mode {s t : State} (h : SameRest s t) (hl : t.cs.l = s.cs.l) : t.mode = s.mode := by
  simp [State.mode, h.pe, h.vm, h.lma, hl]

/-- How a run grows: more bytes written, each inside the address space; every byte outside them as it
was; the canonical form kept. -/
structure RunGrows (r r' : Run) : Prop where
  rest : SameRest r.st r'.st
  wf : memWf r.st.mem = true → memWf r'.st.mem = true
  wrote : ∃ l, r'.wrote = r.wrote ++ l ∧ (∀ a ∈ l, a < 2 ^ 64) ∧
    ∀ a, a ∉ l → memGet r'.st.mem a = memGet r.st.mem a

theorem RunGrows.refl (r : Run) : RunGrows r r :=
  ⟨SameRest.refl _, id, [], by simp⟩

theorem RunGrows.trans {r r' r'' : Run} (h : RunGrows r r') (k : RunGrows r' r'') : RunGrows r r'' := by
  obtain ⟨l, hl, hlt, hg⟩ := h.wrote
  obtain ⟨l', hl', hlt', hg'⟩ := k.wrote
  refine ⟨h.rest.trans k.rest, fun w => k.wf (h.wf w), l ++ l', by simp [hl', hl], ?_, ?_⟩
  · intro a ha
    rcases List.mem_append.1 ha with h1 | h1
    · exact hlt a h1
    · exact hlt' a h1
  · intro a ha
    simp only [List.mem_append, not_or] at ha
    rw [hg' a ha.2, hg a ha.1]

/-- A step that writes no memory grows a run. -/
theorem RunGrows.upd (r : Run) {s : State} (h : SameRest r.st s) (hm : s.mem = r.st.mem) :
    RunGrows r (r.upd s) :=
  ⟨h, by simp [hm], [], by simp [hm]⟩

theorem storedAddrs_lt {s : State} {lin : BitVec 64} {n a : Nat} (h : a ∈ storedAddrs s lin n) :
    a < 2 ^ 64 := by
  obtain ⟨i, _, rfl⟩ := mem_storedAddrs.1 h
  exact byteAddr_lt s lin i

/-- A store grows a run by its bytes. -/
theorem RunGrows.store (r : Run) (lin : BitVec 64) (n : Nat) (v : BitVec 64) :
    RunGrows r (r.store lin n v) :=
  ⟨by constructor <;> rfl, fun w => memWf_storeBytes _ _ _ _ w, storedAddrs r.st lin n, rfl,
    fun _ h => storedAddrs_lt h, fun _ h => memGet_storeBytes_out _ _ _ _ _ h⟩

/-! ## Segment-relative accesses and the stack -/

/-- `segRead` answers exactly when R65 raises nothing, with the bytes at the linear address. -/
theorem segRead_ok {r : Run} {name : SegName} {g : Seg} {off : BitVec 64} {n : Nat} {rule : RuleId}
    {v : BitVec 64} : segRead r name g off n rule = .ok v ↔
      segFault r.st name g off n false = none ∧ v = memRead r.st (segLinear r.st name g off) n := by
  unfold segRead
  split <;> rename_i h <;> simp [h, raise, eq_comm]

/-- `segWrite` answers exactly when R65 raises nothing, with the bytes stored. -/
theorem segWrite_ok {r r' : Run} {name : SegName} {g : Seg} {off : BitVec 64} {n : Nat}
    {v : BitVec 64} {rule : RuleId} : segWrite r name g off n v rule = .ok r' ↔
      segFault r.st name g off n true = none ∧ r' = r.store (segLinear r.st name g off) n v := by
  unfold segWrite
  split <;> rename_i h <;> simp [h, raise, eq_comm]

/-- The run after a push that raises nothing (R66). -/
def pushed (n : Nat) (v : BitVec 64) (r : Run) : Run :=
  let w := r.store (pushLinear r.st n) n v
  w.upd (w.st.setRsp (withView (stackAddrSize r.st) r.st.gpr.rsp (pushOffset r.st n)))

/-- `push` answers exactly when R65 raises nothing at the new top of stack. -/
theorem push_ok {n : Nat} {v : BitVec 64} {r r' : Run} : push n v r = .ok r' ↔
    segFault r.st .ss r.st.ss (pushOffset r.st n) n true = none ∧ r' = pushed n v r := by
  unfold push
  simp only [except_bind_ok, segWrite_ok]
  constructor
  · rintro ⟨w, ⟨hf, rfl⟩, h⟩
    exact ⟨hf, by cases h; rfl⟩
  · rintro ⟨hf, rfl⟩
    exact ⟨_, ⟨hf, rfl⟩, rfl⟩

/-- A push writes its item and the stack pointer, nothing else. -/
theorem pushed_st (n : Nat) (v : BitVec 64) (r : Run) : (pushed n v r).st =
    (r.st.setMem (storeBytes r.st (pushLinear r.st n) v n r.st.mem)).setRsp
      (withView (stackAddrSize r.st) r.st.gpr.rsp (pushOffset r.st n)) := rfl

@[simp] theorem pushed_wrote (n : Nat) (v : BitVec 64) (r : Run) :
    (pushed n v r).wrote = r.wrote ++ storedAddrs r.st (pushLinear r.st n) n := rfl

theorem RunGrows.pushed (n : Nat) (v : BitVec 64) (r : Run) : RunGrows r (pushed n v r) :=
  (RunGrows.store r _ n v).trans (RunGrows.upd _ (by constructor <;> rfl) rfl)

/-- The run after the push of a selector: the pad draws a value unless the item is 2 bytes (R66). -/
def selPushed (k : Size) (sel : BitVec 16) (r : Run) : Run :=
  let w := pushed k.bytes (selItem k sel r.st) r
  w.upd (w.st.setDraws (w.st.draws + padDraws k))

/-- `pushSel` answers exactly when R65 raises nothing at the new top of stack. -/
theorem pushSel_ok {k : Size} {sel : BitVec 16} {r r' : Run} : pushSel k sel r = .ok r' ↔
    segFault r.st .ss r.st.ss (pushOffset r.st k.bytes) k.bytes true = none ∧
      r' = selPushed k sel r := by
  unfold pushSel
  simp only [except_bind_ok, push_ok, except_ok_inj]
  constructor
  · rintro ⟨w, ⟨hf, rfl⟩, rfl⟩
    exact ⟨hf, rfl⟩
  · rintro ⟨hf, rfl⟩
    exact ⟨_, ⟨hf, rfl⟩, rfl⟩

theorem RunGrows.selPushed (k : Size) (sel : BitVec 16) (r : Run) :
    RunGrows r (selPushed k sel r) :=
  (RunGrows.pushed _ _ _).trans (RunGrows.upd _ (by constructor <;> rfl) rfl)

/-! ## Descriptors -/

/-- `setAccessed` writes at most byte 5 of the descriptor (R77). -/
theorem RunGrows.setAccessed (sel : BitVec 16) (d : BitVec 64) (r : Run) :
    RunGrows r (setAccessed sel d r) := by
  unfold Machine.setAccessed
  split
  · exact RunGrows.refl r
  · exact RunGrows.store _ _ _ _

/-- Besides memory, `setAccessed` changes nothing. -/
theorem setAccessed_st (sel : BitVec 16) (d : BitVec 64) (r : Run) :
    (setAccessed sel d r).st = r.st.setMem (setAccessed sel d r).st.mem := by
  unfold setAccessed
  split <;> rfl

/-- Besides memory and `CS`, `loadCs` changes nothing (R178). -/
theorem loadCs_st (sel : BitVec 16) (d : BitVec 64) (r : Run) :
    (loadCs sel d r).st =
      (r.st.setCs (segFromDesc (withRpl sel r.st.cpl) d)).setMem (loadCs sel d r).st.mem := by
  unfold loadCs
  rw [setAccessed_st]
  rfl

/-- Besides memory and `SS`, `loadSs` changes nothing (R206, R208). -/
theorem loadSs_st (sel : BitVec 16) (d : BitVec 64) (r : Run) :
    (loadSs sel d r).st = (r.st.setSs (segFromDesc sel d)).setMem (loadSs sel d r).st.mem := by
  unfold loadSs
  rw [setAccessed_st]
  rfl

theorem RunGrows.loadCs (sel : BitVec 16) (d : BitVec 64) (r : Run) : RunGrows r (loadCs sel d r) :=
  (RunGrows.upd r (s := r.st.setCs (segFromDesc (withRpl sel r.st.cpl) d)) (by constructor <;> rfl) rfl).trans (RunGrows.setAccessed sel d _)

theorem RunGrows.loadSs (sel : BitVec 16) (d : BitVec 64) (r : Run) : RunGrows r (loadSs sel d r) :=
  (RunGrows.upd r (s := r.st.setSs (segFromDesc sel d)) (by constructor <;> rfl) rfl).trans (RunGrows.setAccessed sel d _)

/-- `branchTo` writes the instruction pointer and nothing else (R22). -/
theorem branchTo_eq (s : State) (k : Size) (v : BitVec 64) :
    branchTo s k v = s.setRip (branchTo s k v).rip := by
  cases k <;> rfl

theorem SameRest.branchTo (s : State) (k : Size) (v : BitVec 64) : SameRest s (branchTo s k v) := by
  cases k <;> constructor <;> rfl

/-! ## Outcomes -/

/-- A `CALL` completes exactly when its form exists here, it carries no `LOCK`, and its body answers. -/
theorem runCall_next {i : Instr} {s t : State} {body : Run → Except Halt Run} :
    runCall i s body = .next t ↔
      instrFits s.ctx i = true ∧ (prefixesOfInstr i).lock = false ∧
        ∃ r, body (startRun s) = .ok r ∧ t = r.st := by
  unfold runCall
  cases instrFits s.ctx i
  · simp
  · cases (prefixesOfInstr i).lock
    · simp only [Bool.not_true, Bool.false_eq_true, if_false, true_and]
      cases h : body (startRun s) with
      | ok r => simp [settle, eq_comm]
      | error e => cases e <;> simp [settle, takeException]
    · simp [takeException]

/-- A `CALL` faults by `LOCK`, or because its body raises. -/
theorem runCall_fault {i : Instr} {s : State} {f : Fault} {body : Run → Except Halt Run} :
    runCall i s body = .fault f ↔
      instrFits s.ctx i = true ∧
        (((prefixesOfInstr i).lock = true ∧
            f = .exception .ud none .r113 (faultState s [] s.draws)) ∨
          ((prefixesOfInstr i).lock = false ∧ ∃ x code rule wrote draws,
            body (startRun s) = .error (.exc x code rule wrote draws) ∧
              f = .exception x code rule (faultState s wrote draws))) := by
  unfold runCall
  cases instrFits s.ctx i
  · simp
  · cases (prefixesOfInstr i).lock
    · simp only [Bool.not_true, Bool.false_eq_true, if_false, true_and, false_and, false_or]
      cases h : body (startRun s) with
      | ok r => simp [settle]
      | error e =>
        cases e with
        | exc x c u w d =>
          constructor
          · intro hf
            cases hf
            exact ⟨_, _, _, _, _, rfl, rfl⟩
          · rintro ⟨_, _, _, _, _, he, rfl⟩
            cases he
            rfl
        | refuse w => simp [settle]
    · simp only [Bool.not_true, Bool.false_eq_true, if_false, if_true, true_and, Bool.true_eq_false,
        false_and, or_false]
      exact ⟨fun hf => by cases hf; rfl, fun hf => by rw [hf]; rfl⟩

/-- A `CALL` refuses because its form does not exist here, or because its body refuses. -/
theorem runCall_refused {i : Instr} {s : State} {w : Refusal} {body : Run → Except Halt Run} :
    runCall i s body = .refused w ↔
      (instrFits s.ctx i = false ∧ w = .formNotInMode) ∨
        (instrFits s.ctx i = true ∧ (prefixesOfInstr i).lock = false ∧
          body (startRun s) = .error (.refuse w)) := by
  unfold runCall
  cases instrFits s.ctx i
  · simp only [Bool.not_false, if_true, true_and, Bool.false_eq_true, false_and, or_false]
    exact ⟨fun h => by cases h; rfl, fun h => by rw [h]⟩
  · cases (prefixesOfInstr i).lock
    · simp only [Bool.not_true, Bool.false_eq_true, if_false, true_and, Bool.true_eq_false, false_and,
        false_or]
      cases h : body (startRun s) with
      | ok r => simp [settle]
      | error e => cases e <;> simp [settle, takeException]
    · simp [takeException]

/-- A fault before any write and any draw leaves the state as it was (R265). -/
theorem faultState_nil (s : State) : faultState s [] s.draws = s := rfl

/-- A fault leaves every register as it was before the `CALL` (R265). -/
theorem SameRest.faultState (s : State) (wrote : List Nat) (draws : Nat) :
    SameRest s (faultState s wrote draws) := by constructor <;> rfl

end Sys2Proof.Machine
end

