-- ==== Sys2Proof/Laws/Cet.lean ====
section
/-! SUPPORT. What the shadow-stack and tracker operations write (20_memory.md R78 to R80, 40_near_call.md
R147, 42_far_call_protected.md R180, R181). -/

namespace Sys2Proof.Machine

/-! ## The shadow stack -/

/-- A shadow-stack push writes `SSP` and memory, nothing else (R78). -/
theorem shadowPush_st (n : Nat) (v : BitVec 64) (r : Run) : (shadowPush n v r).st =
    (r.st.setSsp (r.st.ssp - BitVec.ofNat 64 n)).setMem (shadowPush n v r).st.mem := rfl

theorem RunGrows.shadowStore (lin : BitVec 64) (n : Nat) (v : BitVec 64) (r : Run) :
    RunGrows r (shadowStore lin n v r) := RunGrows.store r lin n v

theorem RunGrows.shadowPush (n : Nat) (v : BitVec 64) (r : Run) : RunGrows r (shadowPush n v r) :=
  (RunGrows.upd r (s := r.st.setSsp (r.st.ssp - BitVec.ofNat 64 n))
    (by constructor <;> rfl) rfl).trans (RunGrows.store _ _ _ _)

/-- The shadow-stack push of a near call writes `SSP` and memory, nothing else. -/
theorem nearShadowPush_st (k : Size) (ret : BitVec 64) (r : Run) : (nearShadowPush k ret r).st =
    (r.st.setSsp (nearShadowPush k ret r).st.ssp).setMem (nearShadowPush k ret r).st.mem := by
  unfold nearShadowPush
  split
  · cases k <;> rfl
  · rfl

theorem RunGrows.nearShadowPush (k : Size) (ret : BitVec 64) (r : Run) :
    RunGrows r (nearShadowPush k ret r) := by
  unfold Machine.nearShadowPush
  split
  · cases k
    · exact RunGrows.shadowPush _ _ _
    · exact RunGrows.shadowPush _ _ _
    · exact RunGrows.shadowPush _ _ _
  · exact RunGrows.refl r

/-- A far frame is 24 bytes below `SSP` (R180). -/
theorem shadowFrame_st (cs : BitVec 16) (lip ssp : BitVec 64) (r : Run) :
    (shadowFrame cs lip ssp r).st =
      (r.st.setSsp (r.st.ssp - 24#64)).setMem (shadowFrame cs lip ssp r).st.mem := by
  have h : ∀ x : BitVec 64, x - BitVec.ofNat 64 8 - BitVec.ofNat 64 8 - BitVec.ofNat 64 8 = x - 24#64 :=
    fun x => by rw [BitVec.sub_sub, BitVec.sub_sub]; rfl
  unfold shadowFrame
  generalize hm : (shadowPush 8 ssp (shadowPush 8 lip (shadowPush 8 (cs.setWidth 64) r))).st.mem = m
  rw [shadowPush_st 8 ssp, hm, shadowPush_st 8 lip, shadowPush_st 8 (cs.setWidth 64)]
  simp only [State.setMem_ssp, State.setSsp_ssp, h, State.setMem_setSsp, State.setMem_setMem,
    State.setSsp_setSsp]

theorem RunGrows.shadowFrame (cs : BitVec 16) (lip ssp : BitVec 64) (r : Run) :
    RunGrows r (shadowFrame cs lip ssp r) :=
  ((RunGrows.shadowPush _ _ _).trans (RunGrows.shadowPush _ _ _)).trans (RunGrows.shadowPush _ _ _)

/-- The final `SSP` of a far frame is `(SSP & ~7) - 24` (R180). -/
theorem alignedShadowFrame_st (cs : BitVec 16) (lip : BitVec 64) (r : Run) :
    (alignedShadowFrame cs lip r).st =
      (r.st.setSsp ((r.st.ssp &&& 0xFFFFFFFFFFFFFFF8#64) - 24#64)).setMem
        (alignedShadowFrame cs lip r).st.mem := by
  generalize hm : (alignedShadowFrame cs lip r).st.mem = m
  unfold alignedShadowFrame at hm ⊢
  rw [shadowFrame_st, hm]
  generalize (r.st.ssp &&& 0xFFFFFFFFFFFFFFF8#64) = x
  simp only [Run.upd_st, State.setMem_ssp, State.setSsp_ssp, shadowStore, Run.store_st, State.setMem_setSsp,
    State.setMem_setMem, State.setSsp_setSsp]

theorem RunGrows.alignedShadowFrame (cs : BitVec 16) (lip : BitVec 64) (r : Run) :
    RunGrows r (alignedShadowFrame cs lip r) := by
  unfold Machine.alignedShadowFrame
  generalize (r.st.ssp &&& 0xFFFFFFFFFFFFFFF8#64) = x
  exact ((RunGrows.shadowStore (r.st.ssp - 4#64) 4 0 r).trans
    (RunGrows.upd _ (s := (Machine.shadowStore (r.st.ssp - 4#64) 4 0 r).st.setSsp x)
      (by constructor <;> rfl) rfl)).trans (RunGrows.shadowFrame _ _ _ _)

/-- The compare-exchange returns the old value, and writes only when it equals the expected one (R80). -/
theorem shadowCmpxchg_eq (lin new exp : BitVec 64) (r : Run) : shadowCmpxchg lin new exp r =
    (memRead r.st lin 8, if memRead r.st lin 8 = exp then r.store lin 8 new else r) := by
  unfold shadowCmpxchg shadowStore
  by_cases h : memRead r.st lin 8 = exp <;> simp [h]

/-! ## The tracker -/

/-- Writing a CET register touches the two CET registers only (R34). -/
theorem setCetOf_st (s : State) (cpl : BitVec 2) (v : BitVec 64) : setCetOf s cpl v =
    (s.setUCet (setCetOf s cpl v).uCet).setSCet (setCetOf s cpl v).sCet := by
  unfold setCetOf
  split <;> rfl

/-- The tracker update of a near indirect call touches the two CET registers only (R147). -/
theorem trackerUpdate_st (b : Bool) (s : State) : trackerUpdate b s =
    (s.setUCet (trackerUpdate b s).uCet).setSCet (trackerUpdate b s).sCet := by
  unfold trackerUpdate
  split
  · exact setCetOf_st _ _ _
  · rfl

/-- The tracker update of a far call touches the two CET registers only (R181). -/
theorem farEndbranch_st (s : State) : farEndbranch s =
    (s.setUCet (farEndbranch s).uCet).setSCet (farEndbranch s).sCet := by
  unfold farEndbranch
  split
  · exact setCetOf_st _ _ _
  · rfl

theorem SameRest.trackerUpdate (b : Bool) (s : State) : SameRest s (trackerUpdate b s) := by
  rw [trackerUpdate_st]; constructor <;> rfl

theorem SameRest.farEndbranch (s : State) : SameRest s (farEndbranch s) := by
  rw [farEndbranch_st]; constructor <;> rfl

theorem farEndbranch_core (s : State) : (farEndbranch s).cpl = s.cpl ∧ (farEndbranch s).cs = s.cs ∧
    (farEndbranch s).ss = s.ss ∧ (farEndbranch s).rip = s.rip ∧ (farEndbranch s).gpr = s.gpr ∧
    (farEndbranch s).pl3Ssp = s.pl3Ssp ∧ (farEndbranch s).ssp = s.ssp := by
  generalize hu : (farEndbranch s).uCet = u
  generalize hc : (farEndbranch s).sCet = c
  have h := farEndbranch_st s
  rw [hu, hc] at h
  rw [h]
  exact ⟨rfl, rfl, rfl, rfl, rfl, rfl, rfl⟩

@[simp] theorem farEndbranch_mem (s : State) : (farEndbranch s).mem = s.mem := by
  rw [farEndbranch_st]; rfl

@[simp] theorem trackerUpdate_mem (b : Bool) (s : State) : (trackerUpdate b s).mem = s.mem := by
  rw [trackerUpdate_st]; rfl

/-- What a privilege level's shadow stack depends on. -/
theorem shadowStackEnabled_congr {s t : State} (h : SameRest s t) (hu : t.uCet = s.uCet)
    (hs : t.sCet = s.sCet) (cpl : BitVec 2) : shadowStackEnabled t cpl = shadowStackEnabled s cpl := by
  unfold shadowStackEnabled cetActive State.cr4Cet cetOf
  rw [h.pe, h.vm, h.cr4, h.cpu, hu, hs]

/-- What the tracker update of a far call depends on. -/
theorem farEndbranch_congr {s t : State} (h : SameRest s t) (hc : t.cpl = s.cpl)
    (hu : t.uCet = s.uCet) (hs : t.sCet = s.sCet) :
    (farEndbranch t).uCet = (farEndbranch s).uCet ∧ (farEndbranch t).sCet = (farEndbranch s).sCet := by
  have hcet : cetOf t t.cpl = cetOf s s.cpl := by unfold cetOf; rw [hc, hu, hs]
  have hb : endbranchEnabled t t.cpl = endbranchEnabled s s.cpl := by
    unfold endbranchEnabled cetActive State.cr4Cet
    rw [h.pe, h.vm, h.cr4, h.cpu, hcet]
  unfold farEndbranch
  rw [hb]
  cases endbranchEnabled s s.cpl
  · exact ⟨hu, hs⟩
  · rw [if_pos rfl, if_pos rfl, hcet, hc]
    generalize clearSuppress _ = y
    unfold setCetOf
    split
    · exact ⟨rfl, hs⟩
    · exact ⟨hu, rfl⟩

/-- Arming the tracker and clearing `SUPPRESS` leave the enabling bits alone (R34). -/
theorem armTracker_bits (v : BitVec 64) : cetTracker (armTracker v) = true ∧
    cetSuppress (armTracker v) = cetSuppress v ∧ cetShStkEn (armTracker v) = cetShStkEn v ∧
    cetEndbrEn (armTracker v) = cetEndbrEn v ∧ cetNoTrackEn (armTracker v) = cetNoTrackEn v := by
  simp [cetTracker, cetSuppress, cetShStkEn, cetEndbrEn, cetNoTrackEn, armTracker]

theorem clearSuppress_bits (v : BitVec 64) : cetSuppress (clearSuppress v) = false ∧
    cetTracker (clearSuppress v) = cetTracker v ∧ cetShStkEn (clearSuppress v) = cetShStkEn v ∧
    cetEndbrEn (clearSuppress v) = cetEndbrEn v ∧ cetNoTrackEn (clearSuppress v) = cetNoTrackEn v := by
  simp [cetTracker, cetSuppress, cetShStkEn, cetEndbrEn, cetNoTrackEn, clearSuppress]

end Sys2Proof.Machine
end

