-- ==== Sys2Proof/Laws/Stack.lean ====
section
/-! SUPPORT. The stack: where the pushes after a push go, and that the room test is the condition under
which the pushes that follow raise nothing (20_memory.md R66, R67). -/

namespace Sys2Proof.Machine

/-! ## Views -/

theorem viewOf_toNat (k : Size) (v : BitVec 64) : (viewOf k v).toNat = v.toNat % 2 ^ k.bits := by
  cases k
  · simp only [viewOf, BitVec.toNat_setWidth, BitVec.extractLsb'_toNat, Nat.shiftRight_zero, Size.bits]
    omega
  · simp only [viewOf, BitVec.toNat_setWidth, BitVec.extractLsb'_toNat, Nat.shiftRight_zero, Size.bits]
    omega
  · exact (Nat.mod_eq_of_lt v.isLt).symm

/-- Taking a view twice is taking it once. -/
@[simp] theorem viewOf_viewOf (k : Size) (v : BitVec 64) : viewOf k (viewOf k v) = viewOf k v :=
  BitVec.eq_of_toNat_eq (by rw [viewOf_toNat, viewOf_toNat, Nat.mod_mod])

/-- The view of a register after its view is written (10_state.md R23). -/
@[simp] theorem viewOf_withView (k : Size) (old v : BitVec 64) :
    viewOf k (withView k old v) = viewOf k v := by
  cases k
  · ext i hi
    simp only [viewOf, withView, BitVec.getElem_setWidth, BitVec.getLsbD_extractLsb',
      BitVec.getLsbD_append, Nat.zero_add]
    by_cases h : i < 16 <;> simp [h]
  · ext i hi
    simp only [viewOf, withView, BitVec.getElem_setWidth, BitVec.getLsbD_extractLsb',
      BitVec.getLsbD_append, Nat.zero_add]
    by_cases h : i < 32 <;> simp [h]
  · rfl

/-- A view of a difference depends on the view of the minuend only. -/
theorem viewOf_sub (k : Size) (a b x : BitVec 64) (h : viewOf k a = viewOf k b) :
    viewOf k (a - x) = viewOf k (b - x) := by
  have h' := congrArg BitVec.toNat h
  apply BitVec.eq_of_toNat_eq
  rw [viewOf_toNat, viewOf_toNat] at h' ⊢
  rw [BitVec.toNat_sub, BitVec.toNat_sub]
  have ha := a.isLt
  have hb := b.isLt
  have hx := x.isLt
  cases k <;> simp only [Size.bits] at h' ⊢ <;> omega

/-- Where a push goes after another one (R66). -/
theorem itemOffset_itemOffset (sa : Size) (sp : BitVec 64) (a b : Nat) :
    itemOffset sa (withView sa sp (itemOffset sa sp a)) b = itemOffset sa sp (a + b) := by
  unfold itemOffset
  rw [viewOf_sub sa _ (sp - BitVec.ofNat 64 a) _ (by rw [viewOf_withView, viewOf_viewOf]),
    BitVec.sub_sub, BitVec.ofNat_add]

/-! ## When a push raises nothing -/

/-- A stack write raises nothing: canonical in 64-bit mode, elsewhere inside the limit of a writable
segment (R65). -/
theorem segFault_ss {s : State} {off : BitVec 64} {n : Nat} : segFault s .ss s.ss off n true = none ↔
    if s.mode = .long64 then addrsCanonical s.cpu.laWidth off n = true
    else offsetsInLimit s.ss off n = true ∧ s.ss.isWritableData = true := by
  unfold segFault
  by_cases h : s.mode = .long64
  · simp [h, segLinear]
  · have h' : (s.mode == Mode.long64) = false := by simpa using h
    simp only [h', Bool.false_eq_true, if_false, h, isNullDataSeg]
    cases offsetsInLimit s.ss off n <;> cases s.ss.isWritableData <;> simp

/-- A stack can be written: it is flat in 64-bit mode, elsewhere a writable segment (R65). -/
def StackWritable (s : State) : Prop := s.mode = .long64 ∨ s.ss.isWritableData = true

/-- The room test for one item is the condition under which its push raises nothing (R67). -/
theorem stackRoom_one {s : State} {n : Nat} (hn : 0 < n) (hw : StackWritable s) :
    stackRoom s n n = true ↔ segFault s .ss s.ss (pushOffset s n) n true = none := by
  rw [segFault_ss]
  unfold stackRoom roomFlat roomInSeg pushOffset stackAddrSize
  rw [Nat.div_self hn]
  by_cases h : s.mode = .long64
  · simp [h]
  · rcases hw with hw | hw
    · exact absurd hw h
    · simp [h, hw]

/-- The room test for two items is the condition under which both pushes raise nothing (R67). -/
theorem stackRoom_two {s : State} {n : Nat} (hn : 0 < n) (hw : StackWritable s) :
    stackRoom s (2 * n) n = true ↔
      segFault s .ss s.ss (pushOffset s n) n true = none ∧
        segFault s .ss s.ss (itemOffset (stackAddrSize s) s.gpr.rsp (2 * n)) n true = none := by
  rw [segFault_ss, segFault_ss]
  unfold stackRoom roomFlat roomInSeg pushOffset stackAddrSize
  rw [Nat.mul_div_cancel _ hn]
  by_cases h : s.mode = .long64
  · simp [h, List.range_succ]
  · rcases hw with hw | hw
    · exact absurd hw h
    · simp [h, hw, List.range_succ]

/-- A push leaves the attributes of the stack alone. -/
theorem pushed_stack (n : Nat) (v : BitVec 64) (r : Run) :
    (pushed n v r).st.ss = r.st.ss ∧ (pushed n v r).st.mode = r.st.mode ∧
      (pushed n v r).st.cpu = r.st.cpu ∧ stackAddrSize (pushed n v r).st = stackAddrSize r.st :=
  ⟨rfl, rfl, rfl, rfl⟩

/-- A push writes `RSP` and memory, nothing else (R66). -/
theorem pushed_frame (n : Nat) (v : BitVec 64) (r : Run) : (pushed n v r).st =
    (r.st.setRsp (withView (stackAddrSize r.st) r.st.gpr.rsp (pushOffset r.st n))).setMem
      (pushed n v r).st.mem := rfl

/-- The push of a selector writes `RSP` and memory and draws at most the pad, nothing else (R66). -/
theorem selPushed_frame (k : Size) (sel : BitVec 16) (r : Run) : (selPushed k sel r).st =
    ((r.st.setRsp (withView (stackAddrSize r.st) r.st.gpr.rsp (pushOffset r.st k.bytes))).setDraws
      (selPushed k sel r).st.draws).setMem (selPushed k sel r).st.mem := rfl

/-- The pad is one draw, none for a 2-byte slot (R66). -/
theorem selPushed_draws (k : Size) (sel : BitVec 16) (r : Run) :
    (selPushed k sel r).st.draws = r.st.draws + padDraws k := rfl

/-- Where the push after a push goes (R66). -/
theorem pushOffset_pushed (n m : Nat) (v : BitVec 64) (r : Run) :
    pushOffset (pushed n v r).st m = itemOffset (stackAddrSize r.st) r.st.gpr.rsp (n + m) :=
  itemOffset_itemOffset _ _ _ _

/-- A selector is pushed as its slot's bytes: the stack pointer moves as for any item. -/
theorem pushOffset_selPushed (k : Size) (sel : BitVec 16) (r : Run) (m : Nat) :
    pushOffset (selPushed k sel r).st m =
      itemOffset (stackAddrSize r.st) r.st.gpr.rsp (k.bytes + m) :=
  itemOffset_itemOffset _ _ _ _

theorem selPushed_stack (k : Size) (sel : BitVec 16) (r : Run) :
    (selPushed k sel r).st.ss = r.st.ss ∧ (selPushed k sel r).st.mode = r.st.mode ∧
      (selPushed k sel r).st.cpu = r.st.cpu := by
  cases k <;> exact ⟨rfl, rfl, rfl⟩

/-- Writing the view of a register twice leaves the second value. -/
theorem withView_withView (k : Size) (old a b : BitVec 64) :
    withView k (withView k old a) b = withView k old b := by
  cases k
  · apply BitVec.eq_of_getLsbD_eq
    intro i hi
    simp only [withView, BitVec.getLsbD_append, BitVec.getLsbD_extractLsb']
    by_cases h : i < 16
    · simp [h]
    · simp [h, show ¬ 16 + (i - 16) < 16 by omega]
  · apply BitVec.eq_of_getLsbD_eq
    intro i hi
    simp only [withView, BitVec.getLsbD_append, BitVec.getLsbD_extractLsb']
    by_cases h : i < 32
    · simp [h]
    · simp [h, show ¬ 32 + (i - 32) < 32 by omega]
  · rfl

/-- The stack pointer after a selector and a return offset are pushed (R179). -/
theorem twoPushed_rsp (k : Size) (sel : BitVec 16) (v : BitVec 64) (r : Run) :
    (pushed k.bytes v (selPushed k sel r)).st.gpr.rsp =
      withView (stackAddrSize r.st) r.st.gpr.rsp
        (itemOffset (stackAddrSize r.st) r.st.gpr.rsp (2 * k.bytes)) := by
  have hs : stackAddrSize (selPushed k sel r).st = stackAddrSize r.st := by
    rw [selPushed_frame]; rfl
  have hr : (selPushed k sel r).st.gpr.rsp =
      withView (stackAddrSize r.st) r.st.gpr.rsp (pushOffset r.st k.bytes) := by
    rw [selPushed_frame]; rfl
  rw [pushed_frame, pushOffset_selPushed, hs, hr, Nat.two_mul]
  exact withView_withView _ _ _ _

/-- A selector and a return offset pushed: `RSP`, memory and the pad's draw, nothing else. -/
theorem twoPushed_frame (k : Size) (sel : BitVec 16) (v : BitVec 64) (r : Run) :
    (pushed k.bytes v (selPushed k sel r)).st =
      ((r.st.setRsp (withView (stackAddrSize r.st) r.st.gpr.rsp
        (itemOffset (stackAddrSize r.st) r.st.gpr.rsp (2 * k.bytes)))).setDraws
          (selPushed k sel r).st.draws).setMem (pushed k.bytes v (selPushed k sel r)).st.mem := by
  rw [← twoPushed_rsp k sel v r]
  generalize hm : (pushed k.bytes v (selPushed k sel r)).st.mem = m
  rw [pushed_frame, hm]
  generalize withView _ (selPushed k sel r).st.gpr.rsp _ = x
  rw [selPushed_frame]
  rfl

/-! ## A selector and an offset -/

/-- Both pushes raise nothing (R65). -/
def TwoPushesOk (k : Size) (s : State) : Prop :=
  segFault s .ss s.ss (pushOffset s k.bytes) k.bytes true = none ∧
    segFault s .ss s.ss (itemOffset (stackAddrSize s) s.gpr.rsp (2 * k.bytes)) k.bytes true = none

theorem segFault_selPushed (k : Size) (sel : BitVec 16) (r : Run) :
    segFault (selPushed k sel r).st .ss (selPushed k sel r).st.ss
        (pushOffset (selPushed k sel r).st k.bytes) k.bytes true =
      segFault r.st .ss r.st.ss (itemOffset (stackAddrSize r.st) r.st.gpr.rsp (2 * k.bytes)) k.bytes
        true := by
  rw [pushOffset_selPushed, Nat.two_mul]
  cases k <;> rfl

/-- A selector and a return offset are pushed exactly when both slots raise nothing. -/
theorem selThenPush_ok {k : Size} {sel : BitVec 16} {v : BitVec 64} {r r' : Run} :
    (pushSel k sel r >>= fun w => push k.bytes v w) = .ok r' ↔
      TwoPushesOk k r.st ∧ r' = pushed k.bytes v (selPushed k sel r) := by
  simp only [except_bind_ok, pushSel_ok, push_ok]
  constructor
  · rintro ⟨w, ⟨h1, rfl⟩, h2, rfl⟩
    exact ⟨⟨h1, by rwa [segFault_selPushed] at h2⟩, rfl⟩
  · rintro ⟨⟨h1, h2⟩, rfl⟩
    exact ⟨_, ⟨h1, rfl⟩, by rwa [segFault_selPushed], rfl⟩

/-- The room test for two items says it (R67). -/
theorem TwoPushesOk.of_room {k : Size} {s : State} (hw : StackWritable s)
    (h : stackRoom s (2 * k.bytes) k.bytes = true) : TwoPushesOk k s :=
  (stackRoom_two (by cases k <;> decide) hw).1 h

/-! ## What pushes leave alone -/

/-- What the pushes on the regular stack leave alone besides `SameRest`. -/
structure SameCore (s t : State) : Prop where
  rip : t.rip = s.rip
  cs : t.cs = s.cs
  ss : t.ss = s.ss
  cpl : t.cpl = s.cpl
  ssp : t.ssp = s.ssp
  uCet : t.uCet = s.uCet
  sCet : t.sCet = s.sCet
  pl3Ssp : t.pl3Ssp = s.pl3Ssp

theorem SameCore.refl (s : State) : SameCore s s := ⟨rfl, rfl, rfl, rfl, rfl, rfl, rfl, rfl⟩

theorem SameCore.trans {s t u : State} (h : SameCore s t) (k : SameCore t u) : SameCore s u :=
  ⟨k.rip.trans h.rip, k.cs.trans h.cs, k.ss.trans h.ss, k.cpl.trans h.cpl, k.ssp.trans h.ssp,
    k.uCet.trans h.uCet, k.sCet.trans h.sCet, k.pl3Ssp.trans h.pl3Ssp⟩

theorem SameCore.pushed (n : Nat) (v : BitVec 64) (r : Run) : SameCore r.st (pushed n v r).st := by
  rw [pushed_frame]
  exact ⟨rfl, rfl, rfl, rfl, rfl, rfl, rfl, rfl⟩

theorem SameCore.selPushed (k : Size) (sel : BitVec 16) (r : Run) :
    SameCore r.st (selPushed k sel r).st := by
  rw [selPushed_frame]
  exact ⟨rfl, rfl, rfl, rfl, rfl, rfl, rfl, rfl⟩

end Sys2Proof.Machine
end

