-- ==== Sys2Proof/Laws/CallGate.lean ====
section
/-! SUPPORT. What the shared operations of the call gates (43_call_gate.md R200 to R222) and of the task
gates (44_task_switch.md R240 to R244) can do. -/

namespace Sys2Proof.Machine

/-! ## Task gates never answer (R244) -/

theorem switchTasks_ne_ok (r' : Run) : switchTasks ≠ .ok r' := by simp [switchTasks]

theorem taskGate_ne_ok (sel : BitVec 16) (d : BitVec 64) (r r' : Run) : taskGate sel d r ≠ .ok r' := by
  unfold taskGate
  simp only [ne_eq, raiseIf_bind_ok]
  rintro ⟨_, _, _, h⟩
  split at h
  · simp at h
  · simp only [raiseIf_bind_ok] at h
    exact switchTasks_ne_ok r' h.2.2.2

theorem taskStateSegment_ne_ok (sel : BitVec 16) (d : BitVec 64) (r r' : Run) :
    taskStateSegment sel d r ≠ .ok r' := by
  unfold taskStateSegment
  simp only [ne_eq, raiseIf_bind_ok]
  rintro ⟨_, _, h⟩
  exact switchTasks_ne_ok r' h

/-! ## The gate's checks -/

/-- The gate's upper half is in the table with a zero type, or there is none (R201). -/
theorem readGateUpper_ok {sel : BitVec 16} {r : Run} {h : BitVec 64} :
    readGateUpper sel r = .ok h ↔
      if r.st.lma = true then fetchUpper r.st sel = some h ∧ h.extractLsb' 40 5 = 0#5 else h = 0#64 := by
  unfold readGateUpper
  cases r.st.lma
  · simp only [Bool.false_eq_true, if_false, except_ok_inj]
    exact eq_comm
  · simp only [if_true]
    cases fetchUpper r.st sel with
    | none => simp
    | some x =>
      simp only [raiseIf_bind_ok, bne_eq_false_iff_eq, Option.some.injEq, except_ok_inj]
      constructor
      · rintro ⟨hx, rfl⟩
        exact ⟨rfl, hx⟩
      · rintro ⟨rfl, hx⟩
        exact ⟨hx, rfl⟩

/-- The code segment a gate names is in its table, is code no less privileged than the caller, is 64-bit
code in IA-32e mode, and is present (R200). -/
theorem readGateCode_ok {g : Gate} {r : Run} {cd : BitVec 64} : readGateCode g r = .ok cd ↔
    isNullSel g.sel = false ∧ fetchDescriptor r.st g.sel = some cd ∧
      (segFromDesc g.sel cd).isCode = true ∧ ¬ r.st.cpl < (segFromDesc g.sel cd).dpl ∧
      (r.st.lma = true → (segFromDesc g.sel cd).l = true ∧ (segFromDesc g.sel cd).db = false) ∧
      (segFromDesc g.sel cd).p = true := by
  unfold readGateCode
  rw [raiseIf_bind_ok]
  refine and_congr_right fun _ => ?_
  cases fetchDescriptor r.st g.sel with
  | none => simp
  | some x =>
    simp only [raiseIf_bind_ok, except_ok_inj, Option.some.injEq, Bool.or_eq_false_iff,
      Bool.not_eq_false', decide_eq_false_iff_not]
    constructor
    · rintro ⟨h1, h2, h3, rfl⟩
      refine ⟨rfl, h1.1, h1.2, fun hl => ?_, h3⟩
      simpa [hl] using h2
    · rintro ⟨rfl, h1, h2, h3, h4⟩
      refine ⟨⟨h1, h2⟩, ?_, h4, rfl⟩
      cases hl : r.st.lma
      · rfl
      · simp [h3 hl]

/-- A call gate answers exactly when its tests pass and the call through it answers (R200). -/
theorem callGate_ok {sel : BitVec 16} {d ret : BitVec 64} {r r' : Run} :
    callGate sel d ret r = .ok r' ↔
      ∃ h cd, readGateUpper sel r = .ok h ∧ ¬ descDpl d < r.st.cpl ∧ ¬ descDpl d < rplOf sel ∧
        descP d = true ∧ readGateCode (gateOf r.st.lma d h) r = .ok cd ∧
        (if (segFromDesc (gateOf r.st.lma d h).sel cd).isNonconforming = true ∧ descDpl cd < r.st.cpl then
          morePrivilege (gateOf r.st.lma d h) cd ret r = .ok r'
        else samePrivilege (gateOf r.st.lma d h) cd ret r = .ok r') := by
  unfold callGate
  have hi : ∀ (b : Bool) (p : Prop) [Decidable p] (x y : Except Halt Run) (z : Run),
      (if (b && decide p) = true then x else y) = .ok z ↔
        if b = true ∧ p then x = .ok z else y = .ok z := by
    intro b p _ x y z
    cases b <;> by_cases hp : p <;> simp [hp]
  rw [except_bind_ok]
  constructor
  · rintro ⟨h, hu, hx⟩
    rw [raiseIf_bind_ok, raiseIf_bind_ok, except_bind_ok] at hx
    simp only [Bool.or_eq_false_iff, Bool.not_eq_false', decide_eq_false_iff_not] at hx
    obtain ⟨⟨h1, h2⟩, h3, cd, h4, h5⟩ := hx
    exact ⟨h, cd, hu, h1, h2, h3, h4, (hi _ _ _ _ _).1 h5⟩
  · rintro ⟨h, cd, hu, h1, h2, h3, h4, h5⟩
    refine ⟨h, hu, ?_⟩
    rw [raiseIf_bind_ok, raiseIf_bind_ok, except_bind_ok]
    simp only [Bool.or_eq_false_iff, Bool.not_eq_false', decide_eq_false_iff_not]
    exact ⟨⟨h1, h2⟩, h3, cd, h4, (hi _ _ _ _ _).2 h5⟩

/-! ## The inner stack -/

theorem readInnerStack_ok {r : Run} {p : BitVec 2} {inner : InnerStack} :
    readInnerStack r p = .ok inner ↔
      tssStackAddress r.st.tr.kind p + tssStackLast r.st.tr.kind ≤ r.st.tr.limit.toNat ∧
        inner = tssInnerStack r.st p := by
  unfold readInnerStack
  rw [except_bind_ok]
  simp only [raiseIf_ok, decide_eq_false_iff_not, Nat.not_lt]
  constructor
  · rintro ⟨_, h, he⟩
    exact ⟨h, by cases he; rfl⟩
  · rintro ⟨h, rfl⟩
    exact ⟨(), h, rfl⟩

/-- The new stack segment is in its table, of the new level by `RPL` and `DPL`, writable data, and
present (R205). -/
theorem readNewStackDesc_ok {r : Run} {p : BitVec 2} {ss : BitVec 16} {sd : BitVec 64} :
    readNewStackDesc r p ss = .ok sd ↔
      isNullSel ss = false ∧ fetchDescriptor r.st ss = some sd ∧ rplOf ss = p ∧ descDpl sd = p ∧
        (segFromDesc ss sd).isWritableData = true ∧ descP sd = true := by
  unfold readNewStackDesc
  rw [raiseIf_bind_ok]
  refine and_congr_right fun _ => ?_
  cases fetchDescriptor r.st ss with
  | none => simp
  | some x =>
    simp only [raiseIf_bind_ok, except_ok_inj, Option.some.injEq, Bool.or_eq_false_iff,
      Bool.not_eq_false', bne_eq_false_iff_eq]
    constructor
    · rintro ⟨h1, h2, rfl⟩
      exact ⟨rfl, h1.1.1, h1.1.2, h1.2, h2⟩
    · rintro ⟨rfl, h1, h2, h3, h4⟩
      exact ⟨⟨⟨h1, h2⟩, h3⟩, h4, rfl⟩

/-! ## Parameters (R214) -/

/-- Copying parameters only pushes. -/
theorem copyParameters_frame {oldSs : Seg} {sa : Size} {oldSp : BitVec 64} {n c : Nat} {r r' : Run}
    (h : copyParameters oldSs sa oldSp n c r = .ok r') :
    RunGrows r r' ∧ SameCore r.st r'.st ∧ r'.st.draws = r.st.draws := by
  induction c generalizing r with
  | zero => cases h; exact ⟨RunGrows.refl _, SameCore.refl _, rfl⟩
  | succ c ih =>
    unfold copyParameters at h
    simp only [except_bind_ok, push_ok] at h
    obtain ⟨v, _, _, ⟨_, rfl⟩, h⟩ := h
    obtain ⟨h1, h2, h3⟩ := ih h
    exact ⟨(RunGrows.pushed _ _ _).trans h1, (SameCore.pushed _ _ _).trans h2, h3⟩

/-- Where the stack pointer stands after the parameters. -/
theorem copyParameters_rsp {oldSs : Seg} {sa : Size} {oldSp : BitVec 64} {n c : Nat} {r r' : Run}
    (h : copyParameters oldSs sa oldSp n c r = .ok r') :
    stackAddrSize r'.st = stackAddrSize r.st ∧
      viewOf (stackAddrSize r.st) r'.st.gpr.rsp =
        itemOffset (stackAddrSize r.st) r.st.gpr.rsp (c * n) := by
  induction c generalizing r with
  | zero =>
    cases h
    refine ⟨rfl, ?_⟩
    unfold itemOffset
    rw [Nat.zero_mul]
    simp
  | succ c ih =>
    unfold copyParameters at h
    simp only [except_bind_ok, push_ok] at h
    obtain ⟨v, _, _, ⟨_, rfl⟩, h⟩ := h
    obtain ⟨h1, h2⟩ := ih h
    have hs : stackAddrSize (pushed n v r).st = stackAddrSize r.st := rfl
    rw [hs] at h1 h2
    refine ⟨h1, h2.trans ?_⟩
    rw [pushed_frame]
    exact (itemOffset_itemOffset _ _ _ _).trans (by rw [Nat.succ_mul, Nat.add_comm])

/-! ## Call to a more privileged level -/

/-- What R206 and R208 leave in `CS`, `SS`, `RIP`, and what they leave alone. -/
theorem moreLegacy_ok {g : Gate} {cd ret : BitVec 64} {inner : InnerStack} {r r' : Run}
    (h : moreLegacy g cd ret inner r = .ok r') :
    ∃ sd, readNewStackDesc r (descDpl cd) inner.ss = .ok sd ∧
      roomInSeg (segFromDesc inner.ss sd) (newStackAddrSize (segFromDesc inner.ss sd)) inner.sp
        (g.count * g.size.bytes + 4 * g.size.bytes) g.size.bytes = true ∧
      inLimit (segFromDesc g.sel cd) g.off.toNat = true ∧ RunGrows r r' ∧
      r'.st.ss = segFromDesc inner.ss sd ∧ r'.st.cs = segFromDesc (withRpl g.sel r.st.cpl) cd ∧
      r'.st.rip = (branchTo r.st g.size g.off).rip ∧ r'.st.cpl = r.st.cpl ∧ r'.st.ssp = r.st.ssp ∧
      r'.st.uCet = r.st.uCet ∧ r'.st.sCet = r.st.sCet ∧ r'.st.pl3Ssp = r.st.pl3Ssp := by
  unfold moreLegacy at h
  simp only [except_bind_ok, raiseIf_ok, pushSel_ok, push_ok, Bool.not_eq_false'] at h
  obtain ⟨sd, hsd, _, hroom, _, hlim, _, ⟨_, rfl⟩, _, ⟨_, rfl⟩, r7, hc, _, ⟨_, rfl⟩, _, rfl⟩ := h
  refine ⟨sd, hsd, hroom, hlim, ?_⟩
  obtain ⟨g7, c7, _⟩ := copyParameters_frame hc
  generalize hr1 : loadSs inner.ss sd r = r1 at *
  have f1 := loadSs_st inner.ss sd r
  have g1 : RunGrows r r1 := hr1 ▸ RunGrows.loadSs _ _ _
  rw [hr1] at f1
  generalize hr2 : r1.upd (r1.st.setRsp (withView .s32 r1.st.gpr.rsp inner.sp)) = r2 at *
  have f2 : r2.st = r1.st.setRsp (withView .s32 r1.st.gpr.rsp inner.sp) := by rw [← hr2]; rfl
  have g2 : RunGrows r1 r2 := hr2 ▸ RunGrows.upd r1 (by constructor <;> rfl) rfl
  generalize hr3 : loadCs g.sel cd r2 = r3 at *
  have f3 := loadCs_st g.sel cd r2
  have g3 : RunGrows r2 r3 := hr3 ▸ RunGrows.loadCs _ _ _
  rw [hr3] at f3
  generalize hr4 : r3.upd (branchTo r3.st g.size g.off) = r4 at *
  have f4 : r4.st = r3.st.setRip (branchTo r3.st g.size g.off).rip := by
    rw [← hr4, Run.upd_st]; exact branchTo_eq _ _ _
  have g4 : RunGrows r3 r4 :=
    hr4 ▸ RunGrows.upd r3 (SameRest.branchTo _ _ _) (by rw [branchTo_eq]; rfl)
  have hrip : (branchTo r3.st g.size g.off).rip = (branchTo r.st g.size g.off).rip := by
    cases g.size <;> rfl
  rw [hrip] at f4
  have g56 := (RunGrows.selPushed g.size r.st.ss.sel r4).trans
    (RunGrows.pushed g.size.bytes r.st.gpr.rsp _)
  have c56 := (SameCore.selPushed g.size r.st.ss.sel r4).trans
    (SameCore.pushed g.size.bytes r.st.gpr.rsp _)
  have g89 := (RunGrows.selPushed g.size r.st.cs.sel r7).trans (RunGrows.pushed g.size.bytes ret _)
  have c89 := (SameCore.selPushed g.size r.st.cs.sel r7).trans (SameCore.pushed g.size.bytes ret _)
  have c := (c56.trans c7).trans c89
  have hc4 : r4.st.cpl = r.st.cpl := by rw [f4, f3, f2, f1]; rfl
  have hc2 : r2.st.cpl = r.st.cpl := by rw [f2, f1]; rfl
  refine ⟨((((((g1.trans g2).trans g3).trans g4).trans g56).trans g7).trans g89), ?_, ?_, ?_, ?_, ?_,
    ?_, ?_, ?_⟩
  · rw [c.ss, f4, f3, f2, f1]; rfl
  · rw [c.cs, f4, f3, hc2]; rfl
  · rw [c.rip, f4]; rfl
  · rw [c.cpl, hc4]
  · rw [c.ssp, f4, f3, f2, f1]; rfl
  · rw [c.uCet, f4, f3, f2, f1]; rfl
  · rw [c.sCet, f4, f3, f2, f1]; rfl
  · rw [c.pl3Ssp, f4, f3, f2, f1]; rfl

/-- What R209 leaves in `CS`, `SS`, `RIP`, and what it leaves alone. -/
theorem more64_ok {g : Gate} {cd ret : BitVec 64} {inner : InnerStack} {r r' : Run}
    (h : more64 g cd ret inner r = .ok r') :
    roomFlat r.st.cpu.laWidth inner.sp 32 8 = true ∧ canonical r.st.cpu.laWidth g.off = true ∧
      RunGrows r r' ∧ r'.st.ss = nullSs inner.ss (descDpl cd) (Config.nullSsHidden r.st.draws) ∧
      r'.st.cs = segFromDesc (withRpl g.sel r.st.cpl) cd ∧ r'.st.rip = g.off ∧
      r'.st.cpl = r.st.cpl ∧ r'.st.ssp = r.st.ssp ∧
      r'.st.uCet = r.st.uCet ∧ r'.st.sCet = r.st.sCet ∧ r'.st.pl3Ssp = r.st.pl3Ssp := by
  unfold more64 at h
  simp only [except_bind_ok, raiseIf_ok, pushSel_ok, push_ok, Bool.not_eq_false'] at h
  obtain ⟨_, hroom, _, hcan, _, ⟨_, rfl⟩, _, ⟨_, rfl⟩, _, ⟨_, rfl⟩, _, rfl⟩ := h
  refine ⟨hroom, hcan, ?_⟩
  generalize hr1 : r.upd ((loadNullSs inner.ss (descDpl cd) r.st).setRsp inner.sp) = r1 at *
  have f1 : r1.st = ((r.st.setSs (nullSs inner.ss (descDpl cd)
      (Config.nullSsHidden r.st.draws))).setDraws (r.st.draws + 1)).setRsp inner.sp := by
    rw [← hr1]; rfl
  have g1 : RunGrows r r1 := hr1 ▸ RunGrows.upd r (by constructor <;> rfl) rfl
  generalize hr3 : loadCs g.sel cd r1 = r3 at *
  have f3 := loadCs_st g.sel cd r1
  have g3 : RunGrows r1 r3 := hr3 ▸ RunGrows.loadCs _ _ _
  rw [hr3] at f3
  generalize hr4 : r3.upd (branchTo r3.st .s64 g.off) = r4 at *
  have f4 : r4.st = r3.st.setRip g.off := by rw [← hr4]; rfl
  have g4 : RunGrows r3 r4 := hr4 ▸ RunGrows.upd r3 (SameRest.branchTo _ _ _) rfl
  have g56 := (RunGrows.selPushed .s64 r.st.ss.sel r4).trans (RunGrows.pushed 8 (callerSp r.st) _)
  have c56 := (SameCore.selPushed .s64 r.st.ss.sel r4).trans (SameCore.pushed 8 (callerSp r.st) _)
  generalize pushed 8 (callerSp r.st) (selPushed .s64 r.st.ss.sel r4) = r6 at *
  have g89 := (RunGrows.selPushed .s64 r.st.cs.sel r6).trans (RunGrows.pushed 8 ret _)
  have c89 := (SameCore.selPushed .s64 r.st.cs.sel r6).trans (SameCore.pushed 8 ret _)
  have c := c56.trans c89
  have hc1 : r1.st.cpl = r.st.cpl := by rw [f1]; rfl
  refine ⟨(((g1.trans g3).trans g4).trans g56).trans g89, ?_, ?_, ?_, ?_, ?_, ?_, ?_, ?_⟩
  · rw [c.ss, f4, f3, f1]; rfl
  · rw [c.cs, f4, f3, hc1]; rfl
  · rw [c.rip, f4]; rfl
  · rw [c.cpl, f4, f3, f1]; rfl
  · rw [c.ssp, f4, f3, f1]; rfl
  · rw [c.uCet, f4, f3, f1]; rfl
  · rw [c.sCet, f4, f3, f1]; rfl
  · rw [c.pl3Ssp, f4, f3, f1]; rfl

/-- Saving the user shadow-stack pointer touches `IA32_PL3_SSP` only (R210). -/
theorem saveUserSsp_st (s : State) : saveUserSsp s = s.setPl3Ssp (saveUserSsp s).pl3Ssp := by
  unfold saveUserSsp
  split <;> rfl

theorem SameRest.saveUserSsp (s : State) : SameRest s (saveUserSsp s) := by
  rw [saveUserSsp_st]; constructor <;> rfl

/-- The supervisor shadow-stack switch answers exactly when the four tests pass (R212). -/
theorem supervisorShadow_ok {old : State} {ret : BitVec 64} {r r' : Run} :
    supervisorShadow old ret r = .ok r' ↔
      if shadowStackEnabled r.st r.st.cpl = true then
        plSsp r.st r.st.cpl &&& 0x7#64 = 0#64 ∧
        plSsp r.st r.st.cpl &&& ~~~0x1F#64 = (plSsp r.st r.st.cpl - 24#64) &&& ~~~0x1F#64 ∧
        ((r.st.lma && r.st.cs.l) = false → (plSsp r.st r.st.cpl).extractLsb' 32 32 = 0#32) ∧
        memRead r.st (plSsp r.st r.st.cpl) 8 = plSsp r.st r.st.cpl ∧
        r' = (let x := (r.upd (r.st.setSsp (plSsp r.st r.st.cpl))).store (plSsp r.st r.st.cpl) 8
                (plSsp r.st r.st.cpl ||| 1#64)
              if old.ss.dpl = 3#2 then x
              else shadowFrame old.cs.sel (callerLip old ret) old.ssp x)
      else r' = r := by
  unfold supervisorShadow
  cases shadowStackEnabled r.st r.st.cpl
  · simp [eq_comm]
  have hm : memRead (r.st.setSsp (plSsp r.st r.st.cpl)) (plSsp r.st r.st.cpl) 8 =
      memRead r.st (plSsp r.st r.st.cpl) 8 := rfl
  simp only [if_true, raiseIf_bind_ok, shadowCmpxchg_eq, bne_eq_false_iff_eq, Run.upd_st, hm]
  generalize plSsp r.st r.st.cpl = ssp
  refine and_congr_right fun _ => and_congr_right fun _ => and_congr ?_ ?_
  · cases (r.st.lma && r.st.cs.l) <;> simp
  · refine and_congr_right fun ht => ?_
    simp only [ht, if_true]
    cases hd : old.ss.dpl != 3#2
    · rw [bne_eq_false_iff_eq] at hd
      simp only [hd, if_true, Bool.false_eq_true, if_false, except_ok_inj]
      exact eq_comm
    · rw [bne_iff_ne] at hd
      simp only [hd, if_true, if_false, except_ok_inj]
      exact eq_comm

theorem RunGrows.supervisorShadow {old : State} {ret : BitVec 64} {r r' : Run}
    (h : supervisorShadow old ret r = .ok r') : RunGrows r r' := by
  have h := supervisorShadow_ok.1 h
  split at h
  · obtain ⟨_, _, _, _, rfl⟩ := h
    have g1 : RunGrows r ((r.upd (r.st.setSsp (plSsp r.st r.st.cpl))).store (plSsp r.st r.st.cpl) 8
        (plSsp r.st r.st.cpl ||| 1#64)) :=
      (RunGrows.upd r (s := r.st.setSsp (plSsp r.st r.st.cpl)) (by constructor <;> rfl) rfl).trans
        (RunGrows.store _ _ _ _)
    simp only
    split
    · exact g1
    · exact g1.trans (RunGrows.shadowFrame _ _ _ _)
  · rw [h]
    exact RunGrows.refl r

/-- The token's store writes `SSP` and memory, nothing else. -/
theorem tokenStore_st (x : BitVec 64) (r : Run) :
    ((r.upd (r.st.setSsp x)).store x 8 (x ||| 1#64)).st = (r.st.setSsp x).setMem
      ((r.upd (r.st.setSsp x)).store x 8 (x ||| 1#64)).st.mem := by
  simp only [Run.store_st, Run.upd_st, State.setMem_mem]

/-- The switch writes `SSP` and memory, nothing else; `SSP` is the token's address, less 24 when the caller
was not at level 3 (R212). -/
theorem supervisorShadow_frame {old : State} {ret : BitVec 64} {r r' : Run}
    (h : supervisorShadow old ret r = .ok r') :
    r'.st = (r.st.setSsp (if shadowStackEnabled r.st r.st.cpl = true then
        (if old.ss.dpl = 3#2 then plSsp r.st r.st.cpl else plSsp r.st r.st.cpl - 24#64)
      else r.st.ssp)).setMem r'.st.mem := by
  have h := supervisorShadow_ok.1 h
  split at h
  · rename_i he
    rw [if_pos he]
    obtain ⟨_, _, _, _, h⟩ := h
    generalize plSsp r.st r.st.cpl = x at h ⊢
    have ht := tokenStore_st x r
    simp only at h
    generalize (r.upd (r.st.setSsp x)).store x 8 (x ||| 1#64) = y at h ht
    by_cases hd : old.ss.dpl = 3#2
    · simp only [hd, if_true] at h ⊢
      rw [h]
      exact ht
    · simp only [hd, if_false] at h ⊢
      have hf := shadowFrame_st old.cs.sel (callerLip old ret) old.ssp y
      rw [← h, ht] at hf
      exact hf
  · rename_i he
    rw [if_neg he, h]
    rfl

/-- A call to a more privileged level answers exactly when its steps do (R203 to R213). -/
theorem morePrivilege_ok {g : Gate} {cd ret : BitVec 64} {r r' : Run} :
    morePrivilege g cd ret r = .ok r' ↔
      ∃ inner w v, readInnerStack r (descDpl cd) = .ok inner ∧
        (if g.size = .s64 then more64 g cd ret inner r = .ok w
          else moreLegacy g cd ret inner r = .ok w) ∧
        supervisorShadow r.st ret (w.upd (enterLevel (descDpl cd) (saveUserSsp w.st))) = .ok v ∧
        r' = v.upd (farEndbranch v.st) := by
  unfold morePrivilege
  rw [except_bind_ok]
  refine exists_congr fun inner => ?_
  cases hs : g.size <;> simp only [except_bind_ok, except_ok_inj, reduceCtorEq, if_true, if_false]
  all_goals
    constructor
    · rintro ⟨hi, w, hw, v, hv, rfl⟩
      exact ⟨w, v, hi, hw, hv, rfl⟩
    · rintro ⟨w, v, hi, hw, hv, rfl⟩
      exact ⟨hi, w, hw, v, hv, rfl⟩

theorem SameRest.enterLevel (p : BitVec 2) (s : State) : SameRest s (enterLevel p s) := by
  constructor <;> rfl

theorem RunGrows.morePrivilege {g : Gate} {cd ret : BitVec 64} {r r' : Run}
    (h : morePrivilege g cd ret r = .ok r') : RunGrows r r' := by
  obtain ⟨inner, w, v, _, hw, hv, rfl⟩ := morePrivilege_ok.1 h
  have g1 : RunGrows r w := by
    split at hw
    · exact (more64_ok hw).2.2.1
    · obtain ⟨_, _, _, _, g, _⟩ := moreLegacy_ok hw
      exact g
  have g2 : RunGrows w (w.upd (enterLevel (descDpl cd) (saveUserSsp w.st))) :=
    RunGrows.upd w ((SameRest.saveUserSsp _).trans (SameRest.enterLevel _ _))
      (by rw [saveUserSsp_st]; rfl)
  exact ((g1.trans g2).trans (RunGrows.supervisorShadow hv)).trans
    (RunGrows.upd _ (SameRest.farEndbranch _) (by simp))

/-! ## Call at the same privilege level -/

/-- The implicit stack switch writes `RSP` and draws, nothing else (R219). -/
theorem sameStackState_st (k : Size) (s : State) : sameStackState k s =
    (s.setRsp (sameStackState k s).gpr.rsp).setDraws (sameStackState k s).draws := by
  cases k
  · rfl
  · rfl
  · show implicitStackSwitch s =
      (s.setRsp (implicitStackSwitch s).gpr.rsp).setDraws (implicitStackSwitch s).draws
    unfold implicitStackSwitch
    cases (s.mode == Mode.long64) <;> rfl

/-- The run after the `CS` load and the branch of a call at the same level. -/
def sameBranched (g : Gate) (cd : BitVec 64) (r : Run) : Run :=
  let r1 := loadCs g.sel cd (r.upd (sameStackState g.size r.st))
  r1.upd (branchTo r1.st g.size g.off)

/-- The run before the tail: the pushes have been made. -/
def sameEntered (g : Gate) (cd ret : BitVec 64) (r : Run) : Run :=
  pushed g.size.bytes ret (selPushed g.size r.st.cs.sel (sameBranched g cd r))

/-- A call through a gate at the same level answers exactly when there is room, the target is inside, and
the pushes raise nothing (R215 to R217). -/
theorem samePrivilege_ok {g : Gate} {cd ret : BitVec 64} {r r' : Run} :
    samePrivilege g cd ret r = .ok r' ↔
      sameRoom g.size (sameStackState g.size r.st) = true ∧
      sameTargetBad g.size (sameStackState g.size r.st) cd g.off g.sel = false ∧
      TwoPushesOk g.size (sameBranched g cd r).st ∧
      r' = samePrivilegeTail r.st ret (sameEntered g cd ret r) := by
  unfold samePrivilege
  simp only [raiseIf_bind_ok, Run.upd_st, Bool.not_eq_false']
  refine and_congr_right fun _ => and_congr_right fun _ => ?_
  rw [← bind_assoc, except_bind_ok]
  simp only [selThenPush_ok, except_ok_inj]
  constructor
  · rintro ⟨w, ⟨hw, rfl⟩, rfl⟩
    exact ⟨hw, rfl⟩
  · rintro ⟨hw, rfl⟩
    exact ⟨_, ⟨hw, rfl⟩, rfl⟩

theorem RunGrows.samePrivilegeTail (old : State) (ret : BitVec 64) (r : Run) :
    RunGrows r (samePrivilegeTail old ret r) := by
  unfold Machine.samePrivilegeTail
  have he : ∀ w : Run, RunGrows w (w.upd (farEndbranch w.st)) := fun w =>
    RunGrows.upd w (SameRest.farEndbranch _) (by simp)
  simp only
  split
  · exact (RunGrows.alignedShadowFrame _ _ _).trans (he _)
  · exact he _

theorem RunGrows.samePrivilege {g : Gate} {cd ret : BitVec 64} {r r' : Run}
    (h : samePrivilege g cd ret r = .ok r') : RunGrows r r' := by
  obtain ⟨_, _, _, rfl⟩ := samePrivilege_ok.1 h
  have g0 : RunGrows r (r.upd (sameStackState g.size r.st)) :=
    RunGrows.upd r (by rw [sameStackState_st]; constructor <;> rfl) (by rw [sameStackState_st]; rfl)
  exact ((((g0.trans (RunGrows.loadCs _ _ _)).trans
    (RunGrows.upd _ (SameRest.branchTo _ _ _) (by rw [branchTo_eq]; rfl))).trans
      (RunGrows.selPushed _ _ _)).trans (RunGrows.pushed _ _ _)).trans (RunGrows.samePrivilegeTail _ _ _)

/-- The tail writes `SSP`, memory and the CET registers, nothing else (R218). -/
theorem samePrivilegeTail_frame (old : State) (ret : BitVec 64) (r : Run) :
    (samePrivilegeTail old ret r).st =
      (((r.st.setSsp (if shadowStackEnabled r.st r.st.cpl then
          (r.st.ssp &&& 0xFFFFFFFFFFFFFFF8#64) - 24#64 else r.st.ssp)).setMem
        (samePrivilegeTail old ret r).st.mem).setUCet (farEndbranch r.st).uCet).setSCet
          (farEndbranch r.st).sCet := by
  generalize hm : (samePrivilegeTail old ret r).st.mem = m
  unfold samePrivilegeTail at hm ⊢
  generalize hx : (r.st.ssp &&& 0xFFFFFFFFFFFFFFF8#64) - 24#64 = x
  generalize hu : (farEndbranch r.st).uCet = u
  generalize hs : (farEndbranch r.st).sCet = c
  revert hm
  cases shadowStackEnabled r.st r.st.cpl <;> intro hm
  · simp only [Bool.false_eq_true, if_false, Run.upd_st, farEndbranch_mem] at hm ⊢
    rw [farEndbranch_st, hu, hs, ← hm]
    rfl
  · simp only [if_true, Run.upd_st, farEndbranch_mem] at hm ⊢
    have ha := alignedShadowFrame_st old.cs.sel (callerLip old ret) r
    rw [hx, hm] at ha
    generalize alignedShadowFrame old.cs.sel (callerLip old ret) r = w at ha
    obtain ⟨h1, h2⟩ := farEndbranch_congr (s := r.st) (t := w.st)
      (by rw [ha]; constructor <;> rfl) (by rw [ha]; rfl) (by rw [ha]; rfl) (by rw [ha]; rfl)
    rw [farEndbranch_st, h1, h2, hu, hs, ha]

/-- The registers before the tail (R215 to R217). -/
theorem sameEntered_core (g : Gate) (cd ret : BitVec 64) (r : Run) :
    SameCore ((r.st.setCs (segFromDesc (withRpl g.sel r.st.cpl) cd)).setRip
      (branchTo r.st g.size g.off).rip) (sameEntered g cd ret r).st ∧
      SameRest r.st (sameEntered g cd ret r).st := by
  unfold sameEntered sameBranched
  have f0 := sameStackState_st g.size r.st
  generalize sameStackState g.size r.st = s0 at f0
  have f1 := loadCs_st g.sel cd (r.upd s0)
  generalize loadCs g.sel cd (r.upd s0) = r1 at f1
  have f2 := branchTo_eq r1.st g.size g.off
  have hrip : (branchTo r1.st g.size g.off).rip = (branchTo r.st g.size g.off).rip := by
    cases g.size <;> rfl
  rw [hrip] at f2
  generalize (branchTo r.st g.size g.off).rip = q at f2
  simp only
  generalize hr2 : r1.upd (branchTo r1.st g.size g.off) = r2
  have f2' : r2.st = branchTo r1.st g.size g.off := by rw [← hr2]; rfl
  rw [f2, f1, Run.upd_st, f0] at f2'
  refine ⟨SameCore.trans ?_ ((SameCore.selPushed g.size r.st.cs.sel r2).trans
    (SameCore.pushed g.size.bytes ret _)), SameRest.trans ?_ ((RunGrows.selPushed g.size r.st.cs.sel
      r2).trans (RunGrows.pushed g.size.bytes ret _)).rest⟩
  · rw [f2']
    exact ⟨rfl, rfl, rfl, rfl, rfl, rfl, rfl, rfl⟩
  · rw [f2']
    constructor <;> rfl

/-- What a call through a gate at the same level leaves in `CS` and `RIP`, and what it leaves alone (R215
to R218, R222). -/
theorem samePrivilege_fields {g : Gate} {cd ret : BitVec 64} {r r' : Run}
    (h : samePrivilege g cd ret r = .ok r') :
    r'.st.cs = segFromDesc (withRpl g.sel r.st.cpl) cd ∧ r'.st.rip = (branchTo r.st g.size g.off).rip ∧
      r'.st.ss = r.st.ss ∧ r'.st.cpl = r.st.cpl ∧ r'.st.pl3Ssp = r.st.pl3Ssp ∧
      r'.st.ssp = (if shadowStackEnabled r.st r.st.cpl then (r.st.ssp &&& 0xFFFFFFFFFFFFFFF8#64) - 24#64
        else r.st.ssp) ∧
      r'.st.uCet = (farEndbranch r.st).uCet ∧ r'.st.sCet = (farEndbranch r.st).sCet := by
  obtain ⟨_, _, _, rfl⟩ := samePrivilege_ok.1 h
  obtain ⟨c, e⟩ := sameEntered_core g cd ret r
  clear h
  generalize sameEntered g cd ret r = w at c e ⊢
  generalize (branchTo r.st g.size g.off).rip = q at c ⊢
  generalize segFromDesc (withRpl g.sel r.st.cpl) cd = n at c ⊢
  obtain ⟨h1, h2⟩ := farEndbranch_congr e c.cpl c.uCet c.sCet
  have he := shadowStackEnabled_congr e c.uCet c.sCet r.st.cpl
  have hcp : w.st.cpl = r.st.cpl := c.cpl
  have hssp : w.st.ssp = r.st.ssp := c.ssp
  have t := samePrivilegeTail_frame r.st ret w
  rw [h1, h2] at t
  simp only [hcp, he, hssp] at t
  generalize (if shadowStackEnabled r.st r.st.cpl = true then
    (r.st.ssp &&& 0xFFFFFFFFFFFFFFF8#64) - 24#64 else r.st.ssp) = x at t ⊢
  generalize samePrivilegeTail r.st ret w = z at t ⊢
  generalize (farEndbranch r.st).uCet = u at t ⊢
  generalize (farEndbranch r.st).sCet = y at t ⊢
  generalize z.st.mem = m at t
  generalize z.st = zs at t ⊢
  subst t
  simp only [State.setSCet_cs, State.setSCet_rip, State.setSCet_ss, State.setSCet_cpl,
    State.setSCet_pl3Ssp, State.setSCet_ssp, State.setSCet_uCet, State.setSCet_sCet, State.setUCet_cs,
    State.setUCet_rip, State.setUCet_ss, State.setUCet_cpl, State.setUCet_pl3Ssp, State.setUCet_ssp,
    State.setUCet_uCet, State.setMem_cs, State.setMem_rip, State.setMem_ss, State.setMem_cpl,
    State.setMem_pl3Ssp, State.setMem_ssp, State.setSsp_cs, State.setSsp_rip, State.setSsp_ss,
    State.setSsp_cpl, State.setSsp_pl3Ssp, State.setSsp_ssp, and_true]
  exact ⟨c.cs, c.rip, c.ss, hcp, c.pl3Ssp⟩

/-- What a call to a more privileged level leaves in the registers it writes, given the state `w` its pushes
end in (R206 to R213, R222). -/
theorem morePrivilege_tail {p : BitVec 2} {old : State} {ret : BitVec 64} {w v : Run}
    (hv : supervisorShadow old ret (w.upd (enterLevel p (saveUserSsp w.st))) = .ok v) :
    (farEndbranch v.st).cpl = p ∧
      (farEndbranch v.st).cs = { w.st.cs with sel := withRpl w.st.cs.sel p } ∧
      (farEndbranch v.st).ss = w.st.ss ∧ (farEndbranch v.st).rip = w.st.rip ∧
      (farEndbranch v.st).gpr = w.st.gpr ∧
      (farEndbranch v.st).pl3Ssp = (saveUserSsp w.st).pl3Ssp ∧
      (farEndbranch v.st).ssp = (if shadowStackEnabled w.st p = true then
          (if old.ss.dpl = 3#2 then plSsp (saveUserSsp w.st) p
            else plSsp (saveUserSsp w.st) p - 24#64)
        else w.st.ssp) := by
  have hf := supervisorShadow_frame hv
  have hs : shadowStackEnabled (enterLevel p (saveUserSsp w.st)) p = shadowStackEnabled w.st p := by
    rw [saveUserSsp_st]; rfl
  have hp : plSsp (enterLevel p (saveUserSsp w.st)) p = plSsp (saveUserSsp w.st) p := rfl
  have hc : (enterLevel p (saveUserSsp w.st)).cpl = p := rfl
  have hssp : (enterLevel p (saveUserSsp w.st)).ssp = w.st.ssp := by rw [saveUserSsp_st]; rfl
  simp only [Run.upd_st, hc, hs, hp, hssp] at hf
  generalize (if shadowStackEnabled w.st p = true then
          (if old.ss.dpl = 3#2 then plSsp (saveUserSsp w.st) p
            else plSsp (saveUserSsp w.st) p - 24#64)
        else w.st.ssp) = x at hf ⊢
  generalize hq : (saveUserSsp w.st).pl3Ssp = q
  have hz := saveUserSsp_st w.st
  rw [hq] at hz
  rw [hz] at hf
  generalize v.st = t at hf ⊢
  obtain ⟨h1, h2, h3, h4, h5, h6, h7⟩ := farEndbranch_core t
  rw [h1, h2, h3, h4, h5, h6, h7, hf]
  exact ⟨rfl, rfl, rfl, rfl, rfl, rfl, rfl⟩

theorem RunGrows.callGate {sel : BitVec 16} {d ret : BitVec 64} {r r' : Run}
    (h : callGate sel d ret r = .ok r') : RunGrows r r' := by
  obtain ⟨_, _, _, _, _, _, _, h⟩ := callGate_ok.1 h
  split at h
  · exact RunGrows.morePrivilege h
  · exact RunGrows.samePrivilege h

end Sys2Proof.Machine
end

