-- ==== Sys2Proof/Laws/FarCallProtected.lean ====
section
/-! SUPPORT. What the shared operations of the protected-mode far calls can do (42_far_call_protected.md
R170 to R183), and what no step of one changes. -/

namespace Sys2Proof.Machine

theorem farReturnPush_ok {k : Size} {ret : BitVec 64} {r r' : Run} : farReturnPush k ret r = .ok r' ↔
    TwoPushesOk k r.st ∧ r' = pushed k.bytes ret (selPushed k r.st.cs.sel r) := selThenPush_ok

/-- The run after `FarShadowStackPush` raises nothing (R180). -/
def farShadowDone (cs : BitVec 16) (lip : BitVec 64) (r : Run) : Run :=
  if shadowStackEnabled r.st r.st.cpl then alignedShadowFrame cs lip r else r

/-- `FarShadowStackPush` answers unless the target is not 64-bit code and `SSP` is above 4 GB (R180). -/
theorem farShadowStackPush_ok {c : Seg} {cs : BitVec 16} {lip : BitVec 64} {r r' : Run} :
    farShadowStackPush c cs lip r = .ok r' ↔
      (shadowStackEnabled r.st r.st.cpl = true → (r.st.lma && c.l) = false →
        r.st.ssp.extractLsb' 32 32 = 0#32) ∧ r' = farShadowDone cs lip r := by
  unfold farShadowStackPush farShadowDone
  cases shadowStackEnabled r.st r.st.cpl
  · simp only [Bool.false_eq_true, if_false, except_ok_inj, false_implies, true_and]
    exact eq_comm
  · simp only [if_true, raiseIf_bind_ok, except_ok_inj, true_implies]
    refine and_congr ?_ eq_comm
    generalize (r.st.lma && c.l) = b
    cases b <;> simp

theorem RunGrows.farShadowDone (cs : BitVec 16) (lip : BitVec 64) (r : Run) :
    RunGrows r (farShadowDone cs lip r) := by
  unfold Machine.farShadowDone
  split
  · exact RunGrows.alignedShadowFrame _ _ _
  · exact RunGrows.refl r

/-- The run after the pushes, the `CS` load and the branch of a far call to a code segment. -/
def codeEntered (k : Size) (f : FarPtr) (d ret : BitVec 64) (r : Run) : Run :=
  let r2 := loadCs f.sel d (pushed k.bytes ret (selPushed k r.st.cs.sel r))
  r2.upd (branchTo r2.st k (farTarget r.st k (segFromDesc f.sel d) f.off))

/-- The run a far call to a code segment ends in. -/
def codeDone (k : Size) (f : FarPtr) (d lip ret : BitVec 64) (r : Run) : Run :=
  let r4 := farShadowDone r.st.cs.sel lip (codeEntered k f d ret r)
  r4.upd (farEndbranch r4.st)

/-- The tests R176 and R177 share, as conditions on the state before the call. -/
structure CodeTests (k : Size) (f : FarPtr) (d : BitVec 64) (s : State) : Prop where
  present : (segFromDesc f.sel d).p = true
  room : stackRoom s (2 * k.bytes) k.bytes = true
  limit : (s.lma = false ∨ targetCompat s (segFromDesc f.sel d) = true) →
    inLimit (segFromDesc f.sel d) (farTarget s k (segFromDesc f.sel d) f.off).toNat = true
  canon : canonical s.cpu.laWidth (farTarget s k (segFromDesc f.sel d) f.off) = true
  pushes : TwoPushesOk k s
  shadow : shadowStackEnabled s s.cpl = true → (s.lma && (segFromDesc f.sel d).l) = false →
    s.ssp.extractLsb' 32 32 = 0#32

theorem codeEntered_frame (k : Size) (f : FarPtr) (d ret : BitVec 64) (r : Run) :
    (codeEntered k f d ret r).st =
      (((((r.st.setRsp (withView (stackAddrSize r.st) r.st.gpr.rsp
        (itemOffset (stackAddrSize r.st) r.st.gpr.rsp (2 * k.bytes)))).setDraws
          (selPushed k r.st.cs.sel r).st.draws).setCs
            (segFromDesc (withRpl f.sel r.st.cpl) d)).setMem (codeEntered k f d ret r).st.mem).setRip
              (branchTo r.st k (farTarget r.st k (segFromDesc f.sel d) f.off)).rip) := by
  unfold codeEntered
  generalize farTarget r.st k (segFromDesc f.sel d) f.off = t
  have h : ∀ s : State, (branchTo s k t).rip = (branchTo r.st k t).rip := by
    cases k <;> exact fun _ => rfl
  simp only [Run.upd_st]
  rw [branchTo_eq, h, State.setRip_mem]
  generalize hm : (loadCs f.sel d (pushed k.bytes ret (selPushed k r.st.cs.sel r))).st.mem = m
  rw [loadCs_st, hm, twoPushed_frame]
  rfl

/-- Whether a shadow stack is enabled depends on nothing a far call to a code segment writes before it
asks. -/
theorem shadowStackEnabled_codeEntered (k : Size) (f : FarPtr) (d ret : BitVec 64) (r : Run) :
    shadowStackEnabled (codeEntered k f d ret r).st (codeEntered k f d ret r).st.cpl =
      shadowStackEnabled r.st r.st.cpl := by
  rw [codeEntered_frame]
  rfl

/-- A far call to a code segment answers exactly when the shared tests pass. -/
theorem codeSegmentTransfer_ok {rule : RuleId} {k : Size} {f : FarPtr} {d lip ret : BitVec 64}
    {r r' : Run} : codeSegmentTransfer rule k f d lip ret r = .ok r' ↔
      CodeTests k f d r.st ∧ r' = codeDone k f d lip ret r := by
  unfold codeSegmentTransfer
  simp only [raiseIf_bind_ok]
  rw [except_bind_ok]
  simp only [farReturnPush_ok, except_bind_ok, farShadowStackPush_ok, Bool.not_eq_false']
  constructor
  · rintro ⟨hp, hr, hl, hc, _, ⟨h2, rfl⟩, _, ⟨hs, rfl⟩, h⟩
    have hs' : shadowStackEnabled (codeEntered k f d ret r).st (codeEntered k f d ret r).st.cpl = true →
      ((codeEntered k f d ret r).st.lma && (segFromDesc f.sel d).l) = false →
        (codeEntered k f d ret r).st.ssp.extractLsb' 32 32 = 0#32 := hs
    rw [shadowStackEnabled_codeEntered, codeEntered_frame] at hs'
    refine ⟨⟨hp, hr, ?_, hc, h2, hs'⟩, by cases h; rfl⟩
    intro hx
    simp only [Bool.and_eq_false_iff, Bool.or_eq_false_iff, Bool.not_eq_false'] at hl
    rcases hl with ⟨h1, h2⟩ | hl
    · rcases hx with hx | hx
      · rw [hx] at h1; cases h1
      · rw [hx] at h2; cases h2
    · exact hl
  · rintro ⟨⟨hp, hr, hl, hc, h2, hs⟩, rfl⟩
    refine ⟨hp, hr, ?_, hc, _, ⟨h2, rfl⟩, _, ⟨?_, rfl⟩, rfl⟩
    · simp only [Bool.and_eq_false_iff, Bool.or_eq_false_iff, Bool.not_eq_false']
      by_cases hx : r.st.lma = true ∧ targetCompat r.st (segFromDesc f.sel d) = false
      · exact .inl hx
      · refine .inr (hl ?_)
        cases h1 : r.st.lma
        · exact .inl rfl
        · cases h3 : targetCompat r.st (segFromDesc f.sel d)
          · exact absurd ⟨h1, h3⟩ hx
          · exact .inr rfl
    · show shadowStackEnabled (codeEntered k f d ret r).st (codeEntered k f d ret r).st.cpl = true →
        ((codeEntered k f d ret r).st.lma && (segFromDesc f.sel d).l) = false →
          (codeEntered k f d ret r).st.ssp.extractLsb' 32 32 = 0#32
      rw [shadowStackEnabled_codeEntered, codeEntered_frame]
      exact hs

theorem RunGrows.codeDone (k : Size) (f : FarPtr) (d lip ret : BitVec 64) (r : Run) :
    RunGrows r (codeDone k f d lip ret r) := by
  have h1 : RunGrows r (codeEntered k f d ret r) :=
    (((RunGrows.selPushed _ _ _).trans (RunGrows.pushed _ _ _)).trans (RunGrows.loadCs _ _ _)).trans
      (RunGrows.upd _ (SameRest.branchTo _ _ _) (by rw [branchTo_eq]; rfl))
  exact (h1.trans (RunGrows.farShadowDone _ _ _)).trans
    (RunGrows.upd _ (SameRest.farEndbranch _) (by simp))

/-- What a far call to a code segment leaves in every register it may write (R176, R177, R183). -/
theorem codeDone_fields (k : Size) (f : FarPtr) (d lip ret : BitVec 64) (r : Run) :
    (codeDone k f d lip ret r).st.cs = segFromDesc (withRpl f.sel r.st.cpl) d ∧
    (codeDone k f d lip ret r).st.rip =
      (branchTo r.st k (farTarget r.st k (segFromDesc f.sel d) f.off)).rip ∧
    (codeDone k f d lip ret r).st.gpr.rsp = withView (stackAddrSize r.st) r.st.gpr.rsp
      (itemOffset (stackAddrSize r.st) r.st.gpr.rsp (2 * k.bytes)) ∧
    (codeDone k f d lip ret r).st.ss = r.st.ss ∧ (codeDone k f d lip ret r).st.cpl = r.st.cpl ∧
    (codeDone k f d lip ret r).st.pl3Ssp = r.st.pl3Ssp ∧
    (codeDone k f d lip ret r).st.ssp =
      (if shadowStackEnabled r.st r.st.cpl then (r.st.ssp &&& 0xFFFFFFFFFFFFFFF8#64) - 24#64
        else r.st.ssp) ∧
    (codeDone k f d lip ret r).st.uCet = (farEndbranch r.st).uCet ∧
    (codeDone k f d lip ret r).st.sCet = (farEndbranch r.st).sCet := by
  have hf := codeEntered_frame k f d ret r
  have he := shadowStackEnabled_codeEntered k f d ret r
  unfold codeDone farShadowDone
  simp only [he]
  generalize codeEntered k f d ret r = w at hf
  generalize hx : (r.st.ssp &&& 0xFFFFFFFFFFFFFFF8#64) - 24#64 = x
  cases shadowStackEnabled r.st r.st.cpl
  · simp only [Bool.false_eq_true, if_false, Run.upd_st]
    obtain ⟨h1, h2⟩ := farEndbranch_congr (s := r.st) (t := w.st)
      (by rw [hf]; constructor <;> rfl) (by rw [hf]; rfl) (by rw [hf]; rfl) (by rw [hf]; rfl)
    rw [h1, h2, farEndbranch_st, hf]
    exact ⟨rfl, rfl, rfl, rfl, rfl, rfl, rfl, rfl, rfl⟩
  · simp only [if_true, Run.upd_st]
    have ha := alignedShadowFrame_st r.st.cs.sel lip w
    have hssp : w.st.ssp = r.st.ssp := by rw [hf]; rfl
    rw [hssp, hx] at ha
    generalize alignedShadowFrame r.st.cs.sel lip w = w2 at ha
    obtain ⟨h1, h2⟩ := farEndbranch_congr (s := r.st) (t := w2.st)
      (by rw [ha, hf]; constructor <;> rfl) (by rw [ha, hf]; rfl) (by rw [ha, hf]; rfl)
      (by rw [ha, hf]; rfl)
    rw [h1, h2, farEndbranch_st, ha, hf]
    exact ⟨rfl, rfl, rfl, rfl, rfl, rfl, rfl, rfl, rfl⟩

/-- A far call to a conforming segment answers exactly when R176's tests pass. -/
theorem conformingCall_ok {k : Size} {f : FarPtr} {d ret : BitVec 64} {r r' : Run} :
    conformingCall k f d ret r = .ok r' ↔
      ((segFromDesc f.sel d).l && (segFromDesc f.sel d).db && r.st.lma) = false ∧
        ¬ r.st.cpl < (segFromDesc f.sel d).dpl ∧ CodeTests k f d r.st ∧
          r' = codeDone k f d (conformingLip r.st k ret) ret r := by
  unfold conformingCall
  simp only [raiseIf_bind_ok, codeSegmentTransfer_ok, decide_eq_false_iff_not]

/-- A far call to a nonconforming segment answers exactly when R177's tests pass. -/
theorem nonconformingCall_ok {k : Size} {f : FarPtr} {d ret : BitVec 64} {r r' : Run} :
    nonconformingCall k f d ret r = .ok r' ↔
      ((segFromDesc f.sel d).l && (segFromDesc f.sel d).db && r.st.lma) = false ∧
        ¬ r.st.cpl < rplOf f.sel ∧ (segFromDesc f.sel d).dpl = r.st.cpl ∧ CodeTests k f d r.st ∧
          r' = codeDone k f d (nonconformingLip r.st ret) ret r := by
  unfold nonconformingCall
  simp only [raiseIf_bind_ok, codeSegmentTransfer_ok, Bool.or_eq_false_iff, decide_eq_false_iff_not,
    bne_eq_false_iff_eq, and_assoc]

/-- What a far call in protected mode does when it answers: the selector is not NULL, its descriptor is in
its table and of a type the mode accepts (R171 to R174). -/
theorem farProtected_ok {k : Size} {f : FarPtr} {ret : BitVec 64} {r r' : Run} :
    farProtected k f ret r = .ok r' ↔
      isNullSel f.sel = false ∧ ∃ d, fetchDescriptor r.st f.sel = some d ∧
        farTypeOk r.st.lma (segFromDesc f.sel d) d = true ∧ farDispatch k f d ret r = .ok r' := by
  unfold farProtected
  rw [raiseIf_bind_ok]
  refine and_congr_right fun _ => ?_
  cases h : fetchDescriptor r.st f.sel with
  | none => simp
  | some d => simp [raiseIf_bind_ok]

theorem RunGrows.farDispatch {k : Size} {f : FarPtr} {d ret : BitVec 64} {r r' : Run}
    (h : farDispatch k f d ret r = .ok r') : RunGrows r r' := by
  unfold Machine.farDispatch at h
  split at h
  · obtain ⟨_, _, _, rfl⟩ := conformingCall_ok.1 h
    exact RunGrows.codeDone _ _ _ _ _ _
  split at h
  · obtain ⟨_, _, _, _, rfl⟩ := nonconformingCall_ok.1 h
    exact RunGrows.codeDone _ _ _ _ _ _
  split at h
  · exact RunGrows.callGate h
  split at h
  · exact absurd h (taskGate_ne_ok _ _ _ _)
  · exact absurd h (taskStateSegment_ne_ok _ _ _ _)

theorem RunGrows.farProtected {k : Size} {f : FarPtr} {ret : BitVec 64} {r r' : Run}
    (h : farProtected k f ret r = .ok r') : RunGrows r r' := by
  obtain ⟨_, d, _, _, h⟩ := farProtected_ok.1 h
  exact RunGrows.farDispatch h

end Sys2Proof.Machine
end

