-- ==== Sys2Proof/Laws/Operands.lean ====
section
/-! SUPPORT. What the operand operations answer (30_encoding.md R106, 20_memory.md R68). Reading an operand
changes nothing: these operations return a value, not a run. -/

namespace Sys2Proof.Machine

/-- In 64-bit mode no byte of an operand wraps at the address size (20_memory.md R61). -/
@[simp] theorem operandByteOffset_long64 {s : State} (h : s.mode = .long64) (p : Prefixes) (ea : BitVec 64)
    (k : Nat) : operandByteOffset s p ea k = ea + BitVec.ofNat 64 k := by
  simp [operandByteOffset, h]

/-- Outside 64-bit mode every byte of an operand wraps at the address size (20_memory.md R61). -/
@[simp] theorem operandByteOffset_legacy {s : State} (h : s.mode ≠ .long64) (p : Prefixes) (ea : BitVec 64)
    (k : Nat) :
    operandByteOffset s p ea k = viewOf (addrSizeOf s p) (ea + BitVec.ofNat 64 k) := by
  simp [operandByteOffset, h]

/-- A memory operand is read exactly when R65 raises nothing. -/
theorem readMemOperand_ok {r : Run} {p : Prefixes} {nrip : BitVec 64} {m : Mem} {k n : Nat}
    {v : BitVec 64} : readMemOperand r p nrip m k n = .ok v ↔
      segFault r.st (operandSeg r.st p m) (segOf r.st (operandSeg r.st p m))
          (operandByteOffset r.st p (effAddr r.st p nrip m) k) n false = none ∧
        v = memRead r.st (segLinear r.st (operandSeg r.st p m) (segOf r.st (operandSeg r.st p m))
          (operandByteOffset r.st p (effAddr r.st p nrip m) k)) n := segRead_ok

/-- A register operand is always read, at the operand size (R106). -/
theorem readRm_reg (r : Run) (p : Prefixes) (nrip : BitVec 64) (k : Size) (rm : BitVec 3) :
    readRm r p nrip k (.reg rm) = .ok (regView r.st k (regNum (rexB p) rm)) := rfl

/-- A far pointer is its two accesses, the offset first (R68). -/
theorem readFarPtr_ok {r : Run} {p : Prefixes} {nrip : BitVec 64} {k : Size} {m : Mem} {f : FarPtr} :
    readFarPtr r p nrip k m = .ok f ↔
      ∃ off sel, readMemOperand r p nrip m 0 k.bytes = .ok off ∧
        readMemOperand r p nrip m k.bytes 2 = .ok sel ∧ f = { off := off, sel := sel.setWidth 16 } := by
  unfold readFarPtr
  simp only [except_bind_ok]
  constructor
  · rintro ⟨off, ho, sel, hs, h⟩
    exact ⟨off, sel, ho, hs, by cases h; rfl⟩
  · rintro ⟨off, sel, ho, hs, rfl⟩
    exact ⟨off, ho, sel, hs, rfl⟩

/-- `GPR[4]` is the stack pointer (10_state.md R24). -/
@[simp] theorem gprGet_four (g : Gprs) : gprGet g 4#4 = g.rsp := rfl

/-- No register but the fourth sees a write of the stack pointer (10_state.md R24). -/
theorem gprGet_setRsp (g : Gprs) (v : BitVec 64) {i : BitVec 4} (h : i ≠ 4#4) :
    gprGet { g with rsp := v } i = gprGet g i := by
  revert h
  revert i
  intro i
  have hi := i.isLt
  simp only [gprGet]
  intro h
  have hne : i.toNat ≠ 4 := fun e => h (BitVec.eq_of_toNat_eq (by simpa using e))
  generalize i.toNat = n at *
  interval_cases n <;> first | rfl | exact absurd rfl hne

end Sys2Proof.Machine
end

