-- ==== Sys2Proof/Laws/FarCallReal.lean ====
section
/-! SUPPORT. What the shared operations of the real-mode far calls can do (41_far_call_real.md R161 to
R165). -/

namespace Sys2Proof.Machine

/-- The run a real-mode far call ends in: two pushes, `CS`, the branch. -/
def farRealDone (k : Size) (f : FarPtr) (ret : BitVec 64) (r : Run) : Run :=
  let v := pushed k.bytes ret (selPushed k r.st.cs.sel r)
  v.upd (branchTo (loadCsReal f.sel v.st) k f.off)

theorem farReal16_ok {f : FarPtr} {ret : BitVec 64} {r r' : Run} : farReal16 f ret r = .ok r' ↔
    stackRoom r.st 4 2 = true ∧ TwoPushesOk .s16 r.st ∧ r' = farRealDone .s16 f ret r := by
  unfold farReal16
  rw [raiseIf_bind_ok]
  simp only [Bool.not_eq_false']
  refine and_congr_right fun _ => ?_
  simp only [← bind_assoc]
  rw [except_bind_ok]
  simp only [show (2 : Nat) = Size.s16.bytes from rfl, selThenPush_ok]
  constructor
  · rintro ⟨_, ⟨ht, rfl⟩, h⟩
    exact ⟨ht, by cases h; rfl⟩
  · rintro ⟨ht, rfl⟩
    exact ⟨_, ⟨ht, rfl⟩, rfl⟩

theorem farReal32_ok {f : FarPtr} {ret : BitVec 64} {r r' : Run} : farReal32 f ret r = .ok r' ↔
    stackRoom r.st 8 4 = true ∧ f.off.extractLsb' 16 16 = 0#16 ∧ TwoPushesOk .s32 r.st ∧
      r' = farRealDone .s32 f ret r := by
  unfold farReal32
  rw [raiseIf_bind_ok, raiseIf_bind_ok]
  simp only [Bool.not_eq_false', bne_eq_false_iff_eq]
  refine and_congr_right fun _ => and_congr_right fun _ => ?_
  simp only [← bind_assoc]
  rw [except_bind_ok]
  simp only [show (4 : Nat) = Size.s32.bytes from rfl, selThenPush_ok]
  constructor
  · rintro ⟨_, ⟨ht, rfl⟩, h⟩
    exact ⟨ht, by cases h; rfl⟩
  · rintro ⟨ht, rfl⟩
    exact ⟨_, ⟨ht, rfl⟩, rfl⟩

/-- A real-mode far call writes `CS.sel`, `CS.base`, `RIP`, `RSP` and memory, and draws the pad; nothing
else (R163, R165). -/
theorem farRealDone_st (k : Size) (f : FarPtr) (ret : BitVec 64) (r : Run) :
    (farRealDone k f ret r).st =
      ((((r.st.setRsp (withView (stackAddrSize r.st) r.st.gpr.rsp
        (itemOffset (stackAddrSize r.st) r.st.gpr.rsp (2 * k.bytes)))).setCs
          { r.st.cs with sel := f.sel, base := (f.sel.setWidth 64) <<< 4 }).setMem
            (farRealDone k f ret r).st.mem).setDraws (selPushed k r.st.cs.sel r).st.draws).setRip
              (branchTo r.st k f.off).rip := by
  have h : ∀ s t : State, (branchTo s k f.off).rip = (branchTo t k f.off).rip := by
    cases k <;> exact fun _ _ => rfl
  unfold farRealDone
  rw [Run.upd_st, branchTo_eq, h _ r.st, State.setRip_mem]
  simp only [loadCsReal, State.setCs_mem]
  generalize hw : pushed k.bytes ret (selPushed k r.st.cs.sel r) = w
  have hs := twoPushed_frame k r.st.cs.sel ret r
  rw [hw] at hs
  rw [hs]
  rfl

theorem RunGrows.farRealDone (k : Size) (f : FarPtr) (ret : BitVec 64) (r : Run) :
    RunGrows r (farRealDone k f ret r) :=
  ((RunGrows.selPushed _ _ _).trans (RunGrows.pushed _ _ _)).trans
    (RunGrows.upd _ (by rw [branchTo_eq]; constructor <;> rfl) (by rw [branchTo_eq]; rfl))

end Sys2Proof.Machine
end

