-- ==== Sys2Proof/Laws/LaunchPremises.lean ====
section
/-! SUPPORT. The launch premises in other words: a hidden part agrees with some descriptor exactly when the
test of `State.wf` says so (70_reset_and_hazards.md R301 (d)). -/

namespace Sys2Proof.Machine

/-- A loaded segment register agrees with its descriptor. -/
theorem agreesWithDescriptor_segFromDesc (sel : BitVec 16) (d : BitVec 64) (wide : Bool) :
    agreesWithDescriptor wide (segFromDesc sel d) = true := by
  have base : ((descBase d).setWidth 64).extractLsb' 32 32 = 0#32 := by
    ext i hi
    simp [BitVec.getLsbD_of_ge]
  have low (x : BitVec 20) : (x ++ 0xFFF#12).extractLsb' 0 12 = 0xFFF#12 := by
    apply BitVec.eq_of_toNat_eq
    simp only [BitVec.extractLsb'_toNat, BitVec.toNat_append, Nat.shiftRight_zero]
    rw [← Nat.shiftLeft_add_eq_or_of_lt (BitVec.isLt _), Nat.shiftLeft_eq]
    simp
  have high (x : BitVec 20) : (x.setWidth 32).extractLsb' 20 12 = 0#12 := by
    ext i hi
    simp [BitVec.getLsbD_of_ge]
  unfold agreesWithDescriptor segFromDesc descLimit
  cases descG d <;> simp [base, low, high]

/-- The 20 bits a descriptor stores of an effective limit (20_memory.md R71). -/
def limit20Of (g : Seg) : Nat := if g.g then g.limit.toNat / 2 ^ 12 else g.limit.toNat

/-- A descriptor as a number, from its fields, the lowest first (20_memory.md R71). -/
def descriptorNat (l0 b0 t s d p l1 l db g b1 : Nat) : Nat :=
  l0 + 2 ^ 16 * (b0 + 2 ^ 24 * (t + 2 ^ 4 * (s + 2 * (d + 2 ^ 2 * (p + 2 * (l1 + 2 ^ 5 *
    (l + 2 * (db + 2 * (g + 2 * b1)))))))))

/-- A descriptor with a given hidden part (20_memory.md R71). -/
def descriptorOf (g : Seg) : BitVec 64 :=
  BitVec.ofNat 64 (descriptorNat (limit20Of g % 2 ^ 16) (g.base.toNat % 2 ^ 24) g.typ.toNat g.s.toNat
    g.dpl.toNat g.p.toNat (limit20Of g / 2 ^ 16) g.l.toNat g.db.toNat g.g.toNat (g.base.toNat / 2 ^ 24))

/-- The lowest digit of a number in mixed radix, and the rest. -/
theorem digit {m a b : Nat} (h : a < m) : (a + m * b) % m = a ∧ (a + m * b) / m = b := by
  rw [Nat.add_mul_mod_self_left, Nat.add_mul_div_left _ _ (by omega), Nat.mod_eq_of_lt h, Nat.div_eq_of_lt h]
  simp

/-- A field of a descriptor given as a number. -/
theorem extract_ofNat {n : Nat} (hn : n < 2 ^ 64) (i k : Nat) :
    ((BitVec.ofNat 64 n).extractLsb' i k).toNat = n / 2 ^ i % 2 ^ k := by
  rw [BitVec.extractLsb'_toNat, BitVec.toNat_ofNat, Nat.mod_eq_of_lt hn, Nat.shiftRight_eq_div_pow]

/-- A bit of a descriptor given as a number. -/
theorem bit_ofNat {n : Nat} (hn : n < 2 ^ 64) (i : Nat) :
    (BitVec.ofNat 64 n).getLsbD i = decide (n / 2 ^ i % 2 = 1) := by
  rw [BitVec.getLsbD, BitVec.toNat_ofNat, Nat.mod_eq_of_lt hn, Nat.testBit_eq_decide_div_mod_eq]

/-- Concatenation as arithmetic. -/
theorem append_toNat {v w : Nat} (x : BitVec v) (y : BitVec w) :
    (x ++ y).toNat = x.toNat * 2 ^ w + y.toNat := by
  rw [BitVec.toNat_append, ← Nat.shiftLeft_add_eq_or_of_lt (BitVec.isLt _), Nat.shiftLeft_eq]

/-- The base of a descriptor given as a number (20_memory.md R71). -/
theorem descBase_ofNat {n : Nat} (hn : n < 2 ^ 64) :
    (descBase (BitVec.ofNat 64 n)).toNat = n / 2 ^ 56 % 2 ^ 8 * 2 ^ 24 + n / 2 ^ 16 % 2 ^ 24 := by
  unfold descBase
  rw [append_toNat, extract_ofNat hn, extract_ofNat hn]

/-- The 20-bit limit of a descriptor given as a number (20_memory.md R71). -/
theorem descLimit20_ofNat {n : Nat} (hn : n < 2 ^ 64) :
    (descLimit20 (BitVec.ofNat 64 n)).toNat = n / 2 ^ 48 % 2 ^ 4 * 2 ^ 16 + n / 2 ^ 0 % 2 ^ 16 := by
  unfold descLimit20
  rw [append_toNat, extract_ofNat hn, extract_ofNat hn]

/-- The fields of a descriptor made of digits (20_memory.md R71). -/
theorem descriptor_digits {l0 b0 t s d p l1 l db g b1 n : Nat} (hl0 : l0 < 2 ^ 16) (hb0 : b0 < 2 ^ 24)
    (ht : t < 2 ^ 4) (hs : s < 2) (hd : d < 2 ^ 2) (hp : p < 2) (hl1 : l1 < 2 ^ 4) (hl : l < 2)
    (hdb : db < 2) (hg : g < 2) (hb1 : b1 < 2 ^ 8)
    (hn : descriptorNat l0 b0 t s d p l1 l db g b1 = n) :
    n < 2 ^ 64 ∧ n / 2 ^ 0 % 2 ^ 16 = l0 ∧ n / 2 ^ 16 % 2 ^ 24 = b0 ∧ n / 2 ^ 40 % 2 ^ 4 = t ∧
      n / 2 ^ 44 % 2 = s ∧ n / 2 ^ 45 % 2 ^ 2 = d ∧ n / 2 ^ 47 % 2 = p ∧ n / 2 ^ 48 % 2 ^ 4 = l1 ∧
      n / 2 ^ 53 % 2 = l ∧ n / 2 ^ 54 % 2 = db ∧ n / 2 ^ 55 % 2 = g ∧ n / 2 ^ 56 % 2 ^ 8 = b1 := by
  obtain ⟨m0, q0⟩ := digit (b := b0 + 2 ^ 24 * (t + 2 ^ 4 * (s + 2 * (d + 2 ^ 2 * (p + 2 * (l1 + 2 ^ 5 *
      (l + 2 * (db + 2 * (g + 2 * b1))))))))) hl0
  have hn' := hn.symm
  unfold descriptorNat at hn hn'
  rw [hn] at m0 q0
  obtain ⟨m1, q1⟩ := digit (b := t + 2 ^ 4 * (s + 2 * (d + 2 ^ 2 * (p + 2 * (l1 + 2 ^ 5 *
      (l + 2 * (db + 2 * (g + 2 * b1)))))))) hb0
  obtain ⟨m2, q2⟩ := digit (b := s + 2 * (d + 2 ^ 2 * (p + 2 * (l1 + 2 ^ 5 *
      (l + 2 * (db + 2 * (g + 2 * b1))))))) ht
  obtain ⟨m3, q3⟩ := digit (b := d + 2 ^ 2 * (p + 2 * (l1 + 2 ^ 5 * (l + 2 * (db + 2 * (g + 2 * b1)))))) hs
  obtain ⟨m4, q4⟩ := digit (b := p + 2 * (l1 + 2 ^ 5 * (l + 2 * (db + 2 * (g + 2 * b1))))) hd
  obtain ⟨m5, q5⟩ := digit (b := l1 + 2 ^ 5 * (l + 2 * (db + 2 * (g + 2 * b1)))) hp
  obtain ⟨m6, q6⟩ := digit (m := 2 ^ 5) (a := l1) (b := l + 2 * (db + 2 * (g + 2 * b1))) (by omega)
  obtain ⟨m7, q7⟩ := digit (b := db + 2 * (g + 2 * b1)) hl
  obtain ⟨m8, q8⟩ := digit (b := g + 2 * b1) hdb
  obtain ⟨m9, q9⟩ := digit (b := b1) hg
  have e40 : n / 2 ^ 40 = n / 2 ^ 16 / 2 ^ 24 := by rw [Nat.div_div_eq_div_mul]; norm_num
  have e44 : n / 2 ^ 44 = n / 2 ^ 40 / 2 ^ 4 := by rw [Nat.div_div_eq_div_mul]; norm_num
  have e45 : n / 2 ^ 45 = n / 2 ^ 44 / 2 := by rw [Nat.div_div_eq_div_mul]; norm_num
  have e47 : n / 2 ^ 47 = n / 2 ^ 45 / 2 ^ 2 := by rw [Nat.div_div_eq_div_mul]; norm_num
  have e48 : n / 2 ^ 48 = n / 2 ^ 47 / 2 := by rw [Nat.div_div_eq_div_mul]; norm_num
  have e53 : n / 2 ^ 53 = n / 2 ^ 48 / 2 ^ 5 := by rw [Nat.div_div_eq_div_mul]; norm_num
  have e54 : n / 2 ^ 54 = n / 2 ^ 53 / 2 := by rw [Nat.div_div_eq_div_mul]; norm_num
  have e55 : n / 2 ^ 55 = n / 2 ^ 54 / 2 := by rw [Nat.div_div_eq_div_mul]; norm_num
  have e56 : n / 2 ^ 56 = n / 2 ^ 55 / 2 := by rw [Nat.div_div_eq_div_mul]; norm_num
  rw [q0, q1] at e40
  rw [e40, q2] at e44
  rw [e44, q3] at e45
  rw [e45, q4] at e47
  rw [e47, q5] at e48
  rw [e48, q6] at e53
  rw [e53, q7] at e54
  rw [e54, q8] at e55
  rw [e55, q9] at e56
  refine ⟨by omega, by rw [Nat.pow_zero, Nat.div_one, m0], by rw [q0, m1], by rw [e40, m2], by rw [e44, m3],
    by rw [e45, m4], by rw [e47, m5], ?_, by rw [e53, m7], by rw [e54, m8], by rw [e55, m9],
    by rw [e56, Nat.mod_eq_of_lt hb1]⟩
  rw [e48, ← Nat.mod_mod_of_dvd _ (show 2 ^ 4 ∣ 2 ^ 5 by decide), m6, Nat.mod_eq_of_lt hl1]

/-- A hidden part that passes the test is that of `descriptorOf`. -/
theorem segFromDesc_descriptorOf {g : Seg} (h : agreesWithDescriptor false g = true) :
    segFromDesc g.sel (descriptorOf g) = g := by
  obtain ⟨sel, base, limit, typ, s, dpl, p, l, db, gr⟩ := g
  simp only [agreesWithDescriptor, Bool.false_or, Bool.and_eq_true, beq_iff_eq] at h
  obtain ⟨hb, hl⟩ := h
  have hb' : base.toNat < 2 ^ 32 := by
    have := congrArg BitVec.toNat hb
    simp only [BitVec.extractLsb'_toNat, Nat.shiftRight_eq_div_pow, BitVec.toNat_ofNat] at this
    have := base.isLt
    omega
  have hlim : limit20Of ⟨sel, base, limit, typ, s, dpl, p, l, db, gr⟩ < 2 ^ 20 ∧
      limit.toNat = if gr then limit20Of ⟨sel, base, limit, typ, s, dpl, p, l, db, gr⟩ * 2 ^ 12 + 4095
        else limit20Of ⟨sel, base, limit, typ, s, dpl, p, l, db, gr⟩ := by
    have := limit.isLt
    cases gr
    · have hl := congrArg BitVec.toNat (eq_of_beq (show (limit.extractLsb' 20 12 == 0#12) = true from hl))
      show limit.toNat < 2 ^ 20 ∧ limit.toNat = limit.toNat
      simp only [BitVec.extractLsb'_toNat, Nat.shiftRight_eq_div_pow, BitVec.toNat_ofNat] at hl
      omega
    · have hl := congrArg BitVec.toNat (eq_of_beq (show (limit.extractLsb' 0 12 == 0xFFF#12) = true from hl))
      show limit.toNat / 2 ^ 12 < 2 ^ 20 ∧ limit.toNat = limit.toNat / 2 ^ 12 * 2 ^ 12 + 4095
      simp only [BitVec.extractLsb'_toNat, Nat.shiftRight_zero, BitVec.toNat_ofNat] at hl
      omega
  have bit (b : Bool) : b.toNat < 2 ∧ decide (b.toNat = 1) = b := by cases b <;> decide
  simp only [segFromDesc, descriptorOf, Seg.mk.injEq, true_and]
  generalize limit20Of ⟨sel, base, limit, typ, s, dpl, p, l, db, gr⟩ = lim at hlim ⊢
  generalize hn : descriptorNat _ _ _ _ _ _ _ _ _ _ _ = n
  have h0 : lim % 2 ^ 16 < 2 ^ 16 := Nat.mod_lt _ (by omega)
  have h1 : lim / 2 ^ 16 < 2 ^ 4 := by omega
  have h2 : base.toNat % 2 ^ 24 < 2 ^ 24 := Nat.mod_lt _ (by omega)
  have h3 : base.toNat / 2 ^ 24 < 2 ^ 8 := by omega
  obtain ⟨hlt, e0, e16, e40, e44, e45, e47, e48, e53, e54, e55, e56⟩ := descriptor_digits h0 h2 typ.isLt
    (bit s).1 dpl.isLt (bit p).1 h1 (bit l).1 (bit db).1 (bit gr).1 h3 hn
  clear hn
  refine ⟨?_, ?_, ?_, ?_, ?_, ?_, ?_, ?_, ?_⟩
  · apply BitVec.eq_of_toNat_eq
    rw [BitVec.toNat_setWidth, descBase_ofNat hlt, e16, e56, Nat.div_add_mod', Nat.mod_eq_of_lt base.isLt]
  · apply BitVec.eq_of_toNat_eq
    have h20 : (descLimit20 (BitVec.ofNat 64 n)).toNat = lim := by
      rw [descLimit20_ofNat hlt, e0, e48, Nat.div_add_mod']
    rw [descLimit, descG, bit_ofNat hlt, e55, (bit gr).2]
    cases gr
    · simp only [Bool.false_eq_true, if_false, BitVec.toNat_setWidth, h20] at hlim ⊢
      rw [hlim.2, Nat.mod_eq_of_lt (Nat.lt_trans hlim.1 (by decide))]
    · simp only [if_true, append_toNat, h20] at hlim ⊢
      simpa using hlim.2.symm
  · exact BitVec.eq_of_toNat_eq (by rw [descType, extract_ofNat hlt, e40])
  · rw [descS, bit_ofNat hlt, e44, (bit s).2]
  · exact BitVec.eq_of_toNat_eq (by rw [descDpl, extract_ofNat hlt, e45])
  · rw [descP, bit_ofNat hlt, e47, (bit p).2]
  · rw [bit_ofNat hlt, e53, (bit l).2]
  · rw [bit_ofNat hlt, e54, (bit db).2]
  · rw [descG, bit_ofNat hlt, e55, (bit gr).2]

/-- The test of R301 (d) says what the rule says: some descriptor has this hidden part. -/
theorem agreesWithDescriptor_iff (g : Seg) :
    agreesWithDescriptor false g = true ↔ ∃ d, segFromDesc g.sel d = g :=
  ⟨fun h => ⟨_, segFromDesc_descriptorOf h⟩, fun ⟨d, h⟩ => h ▸ agreesWithDescriptor_segFromDesc _ d _⟩

end Sys2Proof.Machine
end

