-- ==== Sys2Proof/Laws/NearCall.lean ====
section
/-! SUPPORT. What the shared operations of the near calls can do (40_near_call.md R140 to R150). -/

namespace Sys2Proof.Machine

/-- The run a near call ends in, before the tracker. -/
def nearDone (k : Size) (target ret : BitVec 64) (shadow : Bool) (r : Run) : Run :=
  let v := if shadow then nearShadowPush k ret (pushed k.bytes ret r) else pushed k.bytes ret r
  v.upd (branchTo v.st k target)

theorem Size.bytes_pos (k : Size) : 0 < k.bytes := by cases k <;> decide

/-- A near transfer answers exactly when the target is inside the segment and the push raises nothing;
the room test adds nothing but its place in the order (R67). -/
theorem nearTransfer_ok {k : Size} {rule : RuleId} {target ret : BitVec 64} {shadow : Bool}
    {r r' : Run} : nearTransfer k rule target ret shadow r = .ok r' ↔
      nearTargetBad r.st k target = false ∧ stackRoom r.st k.bytes k.bytes = true ∧
        segFault r.st .ss r.st.ss (pushOffset r.st k.bytes) k.bytes true = none ∧
          r' = nearDone k target ret shadow r := by
  unfold nearTransfer
  rw [raiseIf_bind_ok, raiseIf_bind_ok, except_bind_ok]
  simp only [Bool.not_eq_false', push_ok]
  constructor
  · rintro ⟨hb, hr, _, ⟨hf, rfl⟩, h⟩
    exact ⟨hb, hr, hf, by cases h; rfl⟩
  · rintro ⟨hb, hr, hf, rfl⟩
    exact ⟨hb, hr, _, ⟨hf, rfl⟩, rfl⟩

/-- With a writable stack, a target inside the segment and room, a near transfer answers. -/
theorem nearTransfer_of_room {k : Size} {rule : RuleId} {target ret : BitVec 64} {shadow : Bool}
    {r : Run} (hw : StackWritable r.st) (hb : nearTargetBad r.st k target = false)
    (hr : stackRoom r.st k.bytes k.bytes = true) :
    nearTransfer k rule target ret shadow r = .ok (nearDone k target ret shadow r) :=
  nearTransfer_ok.2 ⟨hb, hr, (stackRoom_one (Size.bytes_pos k) hw).1 hr, rfl⟩

/-- A bad target is the first test to fail (R264). -/
theorem nearTransfer_bad {k : Size} {rule : RuleId} {target ret : BitVec 64} {shadow : Bool} {r : Run}
    (hb : nearTargetBad r.st k target = true) : nearTransfer k rule target ret shadow r =
      .error (.exc .gp (some 0#16) (nearTargetRule k rule) r.wrote r.st.draws) := by
  unfold nearTransfer
  rw [hb]
  rfl

/-- No room is the second. -/
theorem nearTransfer_noRoom {k : Size} {rule : RuleId} {target ret : BitVec 64} {shadow : Bool}
    {r : Run} (hb : nearTargetBad r.st k target = false)
    (hr : stackRoom r.st k.bytes k.bytes = false) : nearTransfer k rule target ret shadow r =
      .error (.exc .ss (some 0#16) rule r.wrote r.st.draws) := by
  unfold nearTransfer
  rw [hb, hr]
  rfl

/-- A near transfer writes `RIP`, `RSP`, `SSP` and memory, nothing else (R149). -/
theorem nearDone_st (k : Size) (target ret : BitVec 64) (shadow : Bool) (r : Run) :
    (nearDone k target ret shadow r).st =
      ((((r.st.setRsp (withView (stackAddrSize r.st) r.st.gpr.rsp (pushOffset r.st k.bytes))).setSsp
        (nearDone k target ret shadow r).st.ssp).setMem (nearDone k target ret shadow r).st.mem).setRip
          (branchTo r.st k target).rip) := by
  have h : ∀ s t : State, (branchTo s k target).rip = (branchTo t k target).rip := by
    cases k <;> exact fun _ _ => rfl
  unfold nearDone
  cases shadow
  · simp only [Bool.false_eq_true, if_false, Run.upd_st]
    rw [branchTo_eq, pushed_st, h _ r.st]
    rfl
  · simp only [if_true, Run.upd_st]
    generalize hw : nearShadowPush k ret (pushed k.bytes ret r) = w
    have hs := nearShadowPush_st k ret (pushed k.bytes ret r)
    rw [hw, pushed_st] at hs
    rw [branchTo_eq, h _ r.st, hs]
    rfl

theorem RunGrows.nearDone (k : Size) (target ret : BitVec 64) (shadow : Bool) (r : Run) :
    RunGrows r (nearDone k target ret shadow r) := by
  unfold Machine.nearDone
  have hb : ∀ w : Run, RunGrows w (w.upd (branchTo w.st k target)) := fun w =>
    RunGrows.upd w (SameRest.branchTo _ _ _) (by rw [branchTo_eq]; rfl)
  cases shadow
  · exact (RunGrows.pushed _ _ _).trans (hb _)
  · exact ((RunGrows.pushed _ _ _).trans (RunGrows.nearShadowPush _ _ _)).trans (hb _)

/-- An indirect call answers exactly when its operand is read and the transfer answers; then the tracker
is updated (R147, R148). -/
theorem nearIndirect_ok {k : Size} {rule : RuleId} {p : Prefixes} {o : RmOperand} {ret : BitVec 64}
    {r r' : Run} : nearIndirect k rule p o ret r = .ok r' ↔
      ∃ target w, readRm r p ret k o = .ok target ∧ nearTransfer k rule target ret true r = .ok w ∧
        r' = w.upd (trackerUpdate (p.seg == some .ds) w.st) := by
  unfold nearIndirect
  simp only [except_bind_ok]
  constructor
  · rintro ⟨t, ht, w, hw, h⟩
    exact ⟨t, w, ht, hw, by cases h; rfl⟩
  · rintro ⟨t, w, ht, hw, rfl⟩
    exact ⟨t, ht, w, hw, rfl⟩

theorem RunGrows.nearTransfer {k : Size} {rule : RuleId} {target ret : BitVec 64} {shadow : Bool}
    {r r' : Run} (h : nearTransfer k rule target ret shadow r = .ok r') : RunGrows r r' := by
  obtain ⟨_, _, _, rfl⟩ := nearTransfer_ok.1 h
  exact RunGrows.nearDone _ _ _ _ _

theorem RunGrows.nearIndirect {k : Size} {rule : RuleId} {p : Prefixes} {o : RmOperand}
    {ret : BitVec 64} {r r' : Run} (h : nearIndirect k rule p o ret r = .ok r') : RunGrows r r' := by
  obtain ⟨t, w, _, hw, rfl⟩ := nearIndirect_ok.1 h
  exact (RunGrows.nearTransfer hw).trans (RunGrows.upd w (SameRest.trackerUpdate _ _) (by simp))

end Sys2Proof.Machine
end

