-- ==== Sys2Proof/Laws/PerInstr.lean ====
section
/-! SUPPORT. Statements about every instruction, proved constructor by constructor: the encoding has the
length the decoder counts, and never more than 15 bytes (30_encoding.md R113, R117). -/

namespace Sys2Proof.Laws

/-- The encoding of an instruction has the length R117 gives it, at most 15 bytes (R113). -/
def EncodeLength.Statement (i : Instr) : Prop :=
  (encode i).length = instrLength i ∧ instrLength i ≤ 15

theorem length_bytesOfU16 (v : BitVec 16) : (bytesOfU16 v).length = 2 := rfl

theorem length_bytesOfU32 (v : BitVec 32) : (bytesOfU32 v).length = 4 := rfl

/-- The prefixes are as long as counted, at most five bytes. -/
theorem length_encodePrefixes (p : Prefixes) :
    (encodePrefixes p).length = prefixLength p ∧ prefixLength p ≤ 5 := by
  obtain ⟨l, s, o, a, r⟩ := p
  cases l <;> cases s <;> cases o <;> cases a <;> cases r <;>
    exact ⟨rfl, by simp [prefixLength]⟩

/-- A memory operand is ModR/M and what follows it, at most six bytes. -/
theorem length_encodeMem (reg : BitVec 3) (m : Mem) :
    (encodeMem reg m).length = 1 + memLength m ∧ memLength m ≤ 5 := by
  cases m with
  | base16 b d => cases d <;> exact ⟨rfl, by simp [memLength, disp16Length]⟩
  | abs16 d => exact ⟨rfl, by simp [memLength]⟩
  | base rm d => cases d <;> exact ⟨rfl, by simp [memLength, disp32Length]⟩
  | disp32 d => exact ⟨rfl, by simp [memLength]⟩
  | sib s i b d => cases d <;> exact ⟨rfl, by simp [memLength, disp32Length]⟩
  | sibNoBase s i d => exact ⟨rfl, by simp [memLength]⟩

/-- The same for the operand of `FF /2`. -/
theorem length_encodeRm (o : RmOperand) : (encodeRm o).length = 1 + rmLength o ∧ rmLength o ≤ 5 := by
  cases o with
  | reg rm => exact ⟨rfl, by simp [rmLength]⟩
  | mem m => exact length_encodeMem _ m

/-- An encoding is its prefixes and a body. -/
theorem EncodeLength.of_body {i : Instr} {body : List Byte}
    (h : encode i = encodePrefixes (prefixesOfInstr i) ++ body) (hb : body.length = bodyLength i)
    (hl : bodyLength i ≤ 10) : EncodeLength.Statement i := by
  obtain ⟨hp, hp5⟩ := length_encodePrefixes (prefixesOfInstr i)
  unfold EncodeLength.Statement instrLength
  rw [h, List.length_append, hp, hb]
  exact ⟨rfl, by omega⟩

theorem EncodeLength.callRel16 (p : Prefixes) (rel : BitVec 16) : EncodeLength.Statement (.callRel16 p rel) :=
  EncodeLength.of_body rfl rfl (by simp [bodyLength])

theorem EncodeLength.callRel32 (p : Prefixes) (rel : BitVec 32) : EncodeLength.Statement (.callRel32 p rel) :=
  EncodeLength.of_body rfl rfl (by simp [bodyLength])

theorem EncodeLength.callRel64 (p : Prefixes) (rel : BitVec 32) : EncodeLength.Statement (.callRel64 p rel) :=
  EncodeLength.of_body rfl rfl (by simp [bodyLength])

theorem EncodeLength.callRm16 (p : Prefixes) (o : RmOperand) : EncodeLength.Statement (.callRm16 p o) :=
  EncodeLength.of_body rfl (by simp [bodyLength, length_encodeRm]; omega)
    (by have := (length_encodeRm o).2; simp only [bodyLength]; omega)

theorem EncodeLength.callRm32 (p : Prefixes) (o : RmOperand) : EncodeLength.Statement (.callRm32 p o) :=
  EncodeLength.of_body rfl (by simp [bodyLength, length_encodeRm]; omega)
    (by have := (length_encodeRm o).2; simp only [bodyLength]; omega)

theorem EncodeLength.callRm64 (p : Prefixes) (o : RmOperand) : EncodeLength.Statement (.callRm64 p o) :=
  EncodeLength.of_body rfl (by simp [bodyLength, length_encodeRm]; omega)
    (by have := (length_encodeRm o).2; simp only [bodyLength]; omega)

theorem EncodeLength.callPtr1616Real (p : Prefixes) (off sel : BitVec 16) : EncodeLength.Statement (.callPtr1616Real p off sel) :=
  EncodeLength.of_body rfl rfl (by simp [bodyLength])

theorem EncodeLength.callPtr1616Prot (p : Prefixes) (off sel : BitVec 16) : EncodeLength.Statement (.callPtr1616Prot p off sel) :=
  EncodeLength.of_body rfl rfl (by simp [bodyLength])

theorem EncodeLength.callPtr1632Real (p : Prefixes) (off : BitVec 32) (sel : BitVec 16) : EncodeLength.Statement (.callPtr1632Real p off sel) :=
  EncodeLength.of_body rfl rfl (by simp [bodyLength])

theorem EncodeLength.callPtr1632Prot (p : Prefixes) (off : BitVec 32) (sel : BitVec 16) : EncodeLength.Statement (.callPtr1632Prot p off sel) :=
  EncodeLength.of_body rfl rfl (by simp [bodyLength])

theorem EncodeLength.callM1616Real (p : Prefixes) (m : Mem) : EncodeLength.Statement (.callM1616Real p m) :=
  EncodeLength.of_body rfl (by simp [bodyLength, length_encodeMem]; omega)
    (by have := (length_encodeMem 3#3 m).2; simp only [bodyLength]; omega)

theorem EncodeLength.callM1616Prot (p : Prefixes) (m : Mem) : EncodeLength.Statement (.callM1616Prot p m) :=
  EncodeLength.of_body rfl (by simp [bodyLength, length_encodeMem]; omega)
    (by have := (length_encodeMem 3#3 m).2; simp only [bodyLength]; omega)

theorem EncodeLength.callM1632Real (p : Prefixes) (m : Mem) : EncodeLength.Statement (.callM1632Real p m) :=
  EncodeLength.of_body rfl (by simp [bodyLength, length_encodeMem]; omega)
    (by have := (length_encodeMem 3#3 m).2; simp only [bodyLength]; omega)

theorem EncodeLength.callM1632Prot (p : Prefixes) (m : Mem) : EncodeLength.Statement (.callM1632Prot p m) :=
  EncodeLength.of_body rfl (by simp [bodyLength, length_encodeMem]; omega)
    (by have := (length_encodeMem 3#3 m).2; simp only [bodyLength]; omega)

theorem EncodeLength.callM1664 (p : Prefixes) (m : Mem) : EncodeLength.Statement (.callM1664 p m) :=
  EncodeLength.of_body rfl (by simp [bodyLength, length_encodeMem]; omega)
    (by have := (length_encodeMem 3#3 m).2; simp only [bodyLength]; omega)

theorem EncodeLength.illegal9A64 (p : Prefixes) : EncodeLength.Statement (.illegal9A64 p) :=
  EncodeLength.of_body rfl rfl (by simp [bodyLength])

theorem EncodeLength.illegalFF3Reg (p : Prefixes) (rm : BitVec 3) : EncodeLength.Statement (.illegalFF3Reg p rm) :=
  EncodeLength.of_body rfl rfl (by simp [bodyLength])

end Sys2Proof.Laws
end

