-- ==== Sys2Proof/Tests/Slice0.lean ====
section
/-! SUPPORT. Tests: ill-formed terms refused, one word per constructor decoded, vectors of
95_test_vectors.md (V.., E..) run for one step, and for every obligation with hypotheses a state and
operands that meet them (witness_..). Expected results are the spec's own. -/

namespace Sys2Proof.Tests

open Sys2Proof Sys2Proof.Machine

set_option Elab.async false

/-! ## Small states -/

/-- The implementation of the vectors: `LA_WIDTH` 48, every feature there. -/
def cpu48 : Config.Cpu := { laWidth := 48, hasIntel64 := true, hasCetSs := true, hasCetIbt := true }

/-- No prefix. -/
def noPrefix : Prefixes := { lock := false, seg := none, opSize := false, addrSize := false, rex := none }
def p66 : Prefixes := { noPrefix with opSize := true }
def p3E : Prefixes := { noPrefix with seg := some .ds }
def pLock : Prefixes := { noPrefix with lock := true }
def rexW : Prefixes := { noPrefix with rex := some ⟨true, false, false, false⟩ }
def rexB1 : Prefixes := { noPrefix with rex := some ⟨false, false, false, true⟩ }

/-- Bytes at an address. -/
def putBytes : Nat → List Byte → Memory → Memory
  | _, [], m => m
  | a, b :: bs, m => putBytes (a + 1) bs (memPut m a b)

/-- The `n` bytes of a number at an address. -/
def putLe (a : Nat) (n : Nat) (v : Nat) (m : Memory) : Memory :=
  putBytes a ((List.range n).map fun i => BitVec.ofNat 8 (v / 2 ^ (8 * i))) m

/-- A real-mode segment of a selector. -/
def realSeg (sel : BitVec 16) : Seg := { resetDataSeg with sel := sel, base := (sel.setWidth 64) <<< 4 }

/-- Real-address mode: `CS`, `SS`, `DS` by selector, and the bytes at the instruction pointer. -/
def realAt (cs : BitVec 16) (pc : Nat) (ss : BitVec 16) (sp : Nat) (bs : List Byte) : State :=
  { State.reset with
    cpu := cpu48
    cs := { resetCodeSeg with sel := cs, base := (cs.setWidth 64) <<< 4 }
    ss := realSeg ss
    ds := realSeg 0x4000
    rip := BitVec.ofNat 64 pc
    gpr := { resetGprs with rsp := BitVec.ofNat 64 sp }
    mem := putBytes (cs.toNat * 16 + pc) bs [] }

/-- The descriptors most vectors use, by index 1 to 4: flat code, flat data, two more. -/
def gdt (d1 d2 d3 d4 : Nat) (m : Memory) : Memory :=
  putLe 0x10020 8 d4 (putLe 0x10018 8 d3 (putLe 0x10010 8 d2 (putLe 0x10008 8 d1 m)))

/-- Protected mode at a level, flat `CS` and `SS`. -/
def protAt (cpl : BitVec 2) (cs ss : BitVec 16) (pc sp : Nat) (bs : List Byte) (m : Memory) : State :=
  { State.reset with
    cpu := cpu48
    cr0 := 1
    cpl := cpl
    cs := segFromDesc cs (0x00CF9B000000FFFF#64 ||| (cpl.setWidth 64) <<< 45)
    ss := segFromDesc ss (0x00CF93000000FFFF#64 ||| (cpl.setWidth 64) <<< 45)
    ds := segFromDesc 0x10 0x00CF93000000FFFF#64
    gdtr := { base := 0x10000, limit := 0x27 }
    rip := BitVec.ofNat 64 pc
    gpr := { resetGprs with rsp := BitVec.ofNat 64 sp }
    mem := putBytes pc bs m }

/-- State F of the vectors. -/
def stateF (bs : List Byte) : State :=
  protAt 0 0x08 0x10 0x1000 0x90000 bs
    (gdt 0x00CF9B000000FFFF 0x00CF93000000FFFF 0x00409B100000FFFF 0x00CFFA000000FFFF [])

/-- 64-bit mode at a level. -/
def longAt (cpl : BitVec 2) (cs ss : BitVec 16) (pc sp rax : Nat) (bs : List Byte) (m : Memory) : State :=
  { State.reset with
    cpu := cpu48
    cr0 := 0x80000001
    cr4 := 0x20
    efer := 0x500
    cpl := cpl
    cs := segFromDesc cs (0x00209B0000000000#64 ||| (cpl.setWidth 64) <<< 45)
    ss := segFromDesc ss (0x00CF93000000FFFF#64 ||| (cpl.setWidth 64) <<< 45)
    gdtr := { base := 0x10000, limit := 0x5F }
    tr := { sel := 0x50, base := 0x20000, limit := 0x67, kind := .tss64, busy := true }
    rip := BitVec.ofNat 64 pc
    gpr := { resetGprs with rsp := BitVec.ofNat 64 sp, rax := BitVec.ofNat 64 rax }
    mem := putBytes pc bs m }

/-- State L of the vectors, with bytes at `0x600000`, where `RAX` points. -/
def stateL (bs far : List Byte) : State :=
  longAt 0 0x08 0x10 0x401000 0x00007FFFFFFFE000 0x600000 bs
    (putBytes 0x600000 far
      (gdt 0x00209B0000000000 0x00CF93000000FFFF 0x00209B0000000000 0x00CF9B000000FFFF []))

/-- State G of the vectors: level 3, a 32-bit call gate at index 6 to level 0, two parameters. -/
def stateG (d1 gate : Nat) : State :=
  { protAt 3 0x1B 0x23 0x400000 0x700000 [0x9A, 0, 0, 0, 0, 0x33, 0]
      (putLe 0x700000 8 0x2222222211111111 (putLe 0x20004 6 0x001000080000
        (putLe 0x10030 8 gate (putLe 0x10028 8 0x00008B0200000067
          (gdt d1 0x00CF93000000FFFF 0x00CFFB000000FFFF 0x00CFF3000000FFFF []))))) with
    gdtr := { base := 0x10000, limit := 0x37 }
    tr := { sel := 0x28, base := 0x20000, limit := 0x67, kind := .tss32, busy := true } }

/-- The start of vector V43: level 3, a 64-bit gate at index 8 to level 0. -/
def state43 (gate upper : Nat) : State :=
  longAt 3 0x33 0x2B 0x400000 0x00007FFFFFFFE000 0x600000 [0xFF, 0x18]
    (putBytes 0x600000 [0, 0, 0, 0, 0x43, 0] (putLe 0x20004 8 0xFFFF800000200000
      (putLe 0x10048 8 upper (putLe 0x10040 8 gate (putLe 0x10008 8 0x00209B0000000000 [])))))

/-- What a function says of the next state. -/
def after {α : Type} (o : Host.Outcome State Fault Refusal) (f : State → α) : Option α :=
  match o with
  | .next t => some (f t)
  | .fault _ => none
  | .refused _ => none

/-- The exception, error code and rule of a fault. -/
def faultOf (o : Host.Outcome State Fault Refusal) : Option (Exc × Option (BitVec 16) × RuleId) :=
  match o with
  | .next _ => none
  | .fault (.exception x e r _) => some (x, e, r)
  | .refused _ => none

/-- The pointers a call moves, and the loaded code segment. -/
def ipSpCs (t : State) : BitVec 64 × BitVec 64 × BitVec 16 := (t.rip, t.gpr.rsp, t.cs.sel)

/-- The outcome is a next state. -/
def isNext (o : Host.Outcome State Fault Refusal) : Bool := (after o fun _ => ()).isSome

theorem isNext_sound {o : Host.Outcome State Fault Refusal} (h : isNext o = true) : ∃ t, o = .next t := by
  cases o with
  | next t => exact ⟨t, rfl⟩
  | fault x => simp [isNext, after] at h
  | refused x => simp [isNext, after] at h

theorem after_sound {α : Type} {o : Host.Outcome State Fault Refusal} {f : State → α} {x : α}
    (h : after o f = some x) : ∃ t, o = .next t ∧ f t = x := by
  cases o with
  | next t => exact ⟨t, rfl, by simpa [after] using h⟩
  | fault x => simp [after] at h
  | refused x => simp [after] at h

/-- The outcome is this refusal. -/
def refusedAs (o : Host.Outcome State Fault Refusal) (w : Refusal) : Bool :=
  match o with
  | .next _ => false
  | .fault _ => false
  | .refused x => x == w

/-- A far call in protected mode, its operand and the descriptor its selector names, tested. -/
def farWitness (i : Instr) (s : State) (cond : FarPtr → BitVec 64 → Bool) : Bool :=
  match farOperand i s with
  | some (.ok f) =>
    match fetchDescriptor s f.sel with
    | some d => isFarProt i && runnable i s && !isNullSel f.sel && cond f d
    | none => false
  | some (.error _) => false
  | none => false

theorem farWitness_sound {i : Instr} {s : State} {cond : FarPtr → BitVec 64 → Bool}
    (h : farWitness i s cond = true) : ∃ f d, FarCallTo i s f d ∧ cond f d = true := by
  unfold farWitness at h
  split at h
  · rename_i f hf
    split at h
    · rename_i d hd
      simp only [Bool.and_eq_true, Bool.not_eq_true'] at h
      exact ⟨f, d, ⟨h.1.1.1, h.1.1.2, hf, h.1.2, hd⟩, h.2⟩
    · cases h
  · cases h
  · cases h

/-- A far call through a call gate whose tests pass, tested. -/
def gateWitness (i : Instr) (s : State) (cond : BitVec 64 → BitVec 64 → BitVec 64 → Bool) : Bool :=
  farWitness i s fun f d =>
    let h := if s.lma then (fetchUpper s f.sel).getD 0 else 0
    let sel := (gateOf s.lma d h).sel
    match fetchDescriptor s sel with
    | some cd =>
      let c := segFromDesc sel cd
      isCallGate s.lma d && (!s.lma || ((fetchUpper s f.sel).isSome && h.extractLsb' 40 5 == 0#5)) &&
        decide (s.cpl ≤ descDpl d) && decide (rplOf f.sel ≤ descDpl d) && descP d && !isNullSel sel &&
        c.isCode && decide (descDpl cd ≤ s.cpl) && (!s.lma || (c.l && !c.db)) && descP cd && cond d h cd
    | none => false

theorem gateWitness_sound {i : Instr} {s : State} {cond : BitVec 64 → BitVec 64 → BitVec 64 → Bool}
    (w : gateWitness i s cond = true) : ∃ f d h cd, GateCallTo i s f d h cd ∧ cond d h cd = true := by
  obtain ⟨f, d, hc, w⟩ := farWitness_sound w
  simp only at w
  split at w
  · rename_i cd hcd
    simp only [Bool.and_eq_true, Bool.not_eq_true', decide_eq_true_eq] at w
    obtain ⟨⟨⟨⟨⟨⟨⟨⟨⟨⟨hg, hu⟩, h1⟩, h2⟩, h3⟩, h4⟩, h5⟩, h6⟩, h7⟩, h8⟩, h9⟩ := w
    refine ⟨f, d, _, cd, ⟨hc, hg, ?_, ⟨h1, h2⟩, h3, h4, hcd, h5, h6, ?_, h8⟩, h9⟩
    · cases hl : s.lma
      · simp
      · simp only [hl, Bool.not_true, Bool.false_or, Bool.and_eq_true, if_true, beq_iff_eq] at hu ⊢
        obtain ⟨x, hx⟩ := Option.isSome_iff_exists.1 hu.1
        exact ⟨by simp [hx], hu.2⟩
    · intro hl
      simpa [hl] using h7
  · cases w

/-! ## Ill-formed terms are refused (WellFormed) -/

theorem test_wf_rel16_rex : (Instr.callRel16 rexW 0).wf = false := by decide
theorem test_wf_rel32_rex : (Instr.callRel32 rexW 0).wf = false := by decide
theorem test_wf_rm16_rex : (Instr.callRm16 rexB1 (.reg 0)).wf = false := by decide
theorem test_wf_rm32_rex : (Instr.callRm32 rexB1 (.reg 0)).wf = false := by decide
theorem test_wf_rm16_bp_without_disp :
    (Instr.callRm16 noPrefix (.mem (.base16 .bp .none))).wf = false := by decide
theorem test_wf_rm32_base4 : (Instr.callRm32 noPrefix (.mem (.base 4 .none))).wf = false := by decide
theorem test_wf_rm32_base5_without_disp :
    (Instr.callRm32 noPrefix (.mem (.base 5 .none))).wf = false := by decide
theorem test_wf_rm64_sib_base5_without_disp :
    (Instr.callRm64 noPrefix (.mem (.sib 0 1 5 .none))).wf = false := by decide
theorem test_wf_rm64_16bit_addressing :
    (Instr.callRm64 noPrefix (.mem (.abs16 0))).wf = false := by decide
theorem test_wf_far_real_rex : (Instr.callPtr1616Real rexW 0 0).wf = false ∧
    (Instr.callPtr1632Real rexW 0 0).wf = false ∧ (Instr.callM1616Real rexW (.abs16 0)).wf = false ∧
    (Instr.callM1632Real rexW (.abs16 0)).wf = false := by decide
theorem test_wf_ptr_prot_rex : (Instr.callPtr1616Prot rexW 0 0).wf = false ∧
    (Instr.callPtr1632Prot rexW 0 0).wf = false := by decide
theorem test_wf_m1616_rexw : (Instr.callM1616Prot rexW (.base 0 .none)).wf = false ∧
    (Instr.callM1616Prot rexB1 (.base 0 .none)).wf = false := by decide
theorem test_wf_m1632_rexw : (Instr.callM1632Prot rexW (.base 0 .none)).wf = false ∧
    (Instr.callM1632Prot { rexB1 with opSize := true } (.base 0 .none)).wf = false := by decide
theorem test_wf_m1664_needs_rexw : (Instr.callM1664 noPrefix (.base 0 .none)).wf = false ∧
    (Instr.callM1664 rexW (.abs16 0)).wf = false := by decide

/-! ## Decoding: a word written out from the encoding for every constructor (R118, E1 to E18) -/

def real16 : Ctx := { mode := .real, csD := false }
def prot16 : Ctx := { mode := .prot, csD := false }
def prot32 : Ctx := { mode := .prot, csD := true }
def long64 : Ctx := { mode := .long64, csD := false }

theorem test_decode_rel16 : decode prot32 [0x66, 0xE8, 0xFC, 0x0F] = .instr (.callRel16 p66 0x0FFC) := by
  decide
theorem test_decode_rel32 : decode prot32 [0xE8, 0xFB, 0x0F, 0, 0] = .instr (.callRel32 noPrefix 0xFFB) := by
  decide
/-- E3: `0x66` is ignored. -/
theorem test_decode_rel64 : decode long64 [0x66, 0xE8, 1, 2, 3, 4] = .instr (.callRel64 p66 0x04030201) := by
  decide
theorem test_decode_rm16 : decode real16 [0xFF, 0xD3] = .instr (.callRm16 noPrefix (.reg 3)) := by decide
theorem test_decode_rm32 :
    decode prot32 [0xFF, 0x54, 0x8B, 0x10] = .instr (.callRm32 noPrefix (.mem (.sib 2 1 3 (.d8 0x10)))) := by
  decide
/-- E5. -/
theorem test_decode_rm64 : decode long64 [0x41, 0xFF, 0xD7] = .instr (.callRm64 rexB1 (.reg 7)) := by decide
theorem test_decode_ptr1616_real :
    decode real16 [0x9A, 0, 2, 0, 0x30] = .instr (.callPtr1616Real noPrefix 0x0200 0x3000) := by decide
/-- E18. -/
theorem test_decode_ptr1616_prot :
    decode prot16 [0x9A, 0, 2, 0, 0x30] = .instr (.callPtr1616Prot noPrefix 0x0200 0x3000) := by decide
/-- E16. -/
theorem test_decode_ptr1632_real : decode real16 [0x66, 0x9A, 0, 2, 0, 0, 0, 0x30] =
    .instr (.callPtr1632Real p66 0x00000200 0x3000) := by decide
/-- E17. -/
theorem test_decode_ptr1632_prot : decode prot32 [0x9A, 0, 0x20, 0, 0, 0x18, 0] =
    .instr (.callPtr1632Prot noPrefix 0x00002000 0x0018) := by decide
/-- E8. -/
theorem test_decode_m1616_real :
    decode real16 [0xFF, 0x1E, 0x10, 0] = .instr (.callM1616Real noPrefix (.abs16 0x0010)) := by decide
theorem test_decode_m1616_prot :
    decode long64 [0x66, 0xFF, 0x18] = .instr (.callM1616Prot p66 (.base 0 .none)) := by decide
theorem test_decode_m1632_real : decode real16 [0x66, 0xFF, 0x5F, 0x80] =
    .instr (.callM1632Real p66 (.base16 .bx (.d8 0x80))) := by decide
/-- E10. -/
theorem test_decode_m1632_prot :
    decode long64 [0xFF, 0x18] = .instr (.callM1632Prot noPrefix (.base 0 .none)) := by decide
/-- E9. -/
theorem test_decode_m1664 :
    decode long64 [0x48, 0xFF, 0x18] = .instr (.callM1664 rexW (.base 0 .none)) := by decide
/-- E11. -/
theorem test_decode_illegal9A : decode long64 [0x9A, 1] = .instr (.illegal9A64 noPrefix) := by decide
/-- E12. -/
theorem test_decode_illegalFF3 : decode prot32 [0xFF, 0xD8] = .instr (.illegalFF3Reg noPrefix 0) := by decide
/-- The encoder writes the bytes of R118. -/
theorem test_encode : encode (.callM1664 rexW (.base 0 .none)) = [0x48, 0xFF, 0x18] ∧
    encode (.callRm64 noPrefix (.mem (.sib 0 4 4 .none))) = [0xFF, 0x14, 0x24] ∧
    encode (.callPtr1632Real p66 0x00000200 0x3000) = [0x66, 0x9A, 0, 2, 0, 0, 0, 0x30] := by decide

/-! ## Vectors: one step each -/

theorem test_v1_rel16 : (after (step (realAt 0x3000 0x200 0x2000 0xFA [0xE8, 0xFD, 0xFD])) fun t =>
    (ipSpCs t, memRead t 0x200F8 2)) = some ((0, 0xF8, 0x3000), 0x0203) := by decide +kernel
theorem test_v5_rel16 :
    faultOf (step (realAt 0x3000 0x200 0x2000 1 [0xE8, 0, 0])) = some (.ss, some 0, .r141) := by
  decide +kernel
theorem test_v7_rel32 : (after (step (stateF [0xE8, 0xFB, 0x0F, 0, 0])) fun t =>
    (ipSpCs t, memRead t 0x8FFFC 4)) = some ((0x2000, 0x8FFFC, 0x8), 0x1005) := by decide +kernel
theorem test_v10_rel32 :
    faultOf (step (realAt 0x3000 0x100 0x2000 0x80 [0x66, 0xE8, 0, 0, 1, 0])) =
      some (.gp, some 0, .r142) := by decide +kernel
theorem test_v11_rel64 : (after (step (stateL [0xE8, 0x0B, 0, 0, 0] [])) fun t =>
    (ipSpCs t, memRead t 0x00007FFFFFFFDFF8 8)) =
      some ((0x401010, 0x00007FFFFFFFDFF8, 0x8), 0x401005) := by decide +kernel
theorem test_v14_rel64 :
    faultOf (step (longAt 0 0x8 0x10 0x00007FFFFFFFF000 0x8000 0 [0xE8, 0xFF, 0xFF, 0xFF, 0x7F] [])) =
      some (.gp, some 0, .r150) := by decide +kernel
theorem test_v17_rm16 : (after (step { realAt 0x3000 0x10 0x2000 0x100 [0xFF, 0xD3] with
      gpr := { resetGprs with rsp := 0x100, rbx := 0x1234 } }) fun t =>
    (ipSpCs t, memRead t 0x200FE 2)) = some ((0x1234, 0xFE, 0x3000), 0x0012) := by decide +kernel
theorem test_v18_rm16 : (after (step { stateF [0x66, 0xFF, 0xD0] with
      gpr := { resetGprs with rsp := 0x90000, rax := 0x12345678 } }) fun t =>
    (ipSpCs t, memRead t 0x8FFFE 2)) = some ((0x5678, 0x8FFFE, 0x8), 0x1003) := by decide +kernel
theorem test_v19_rm32 : (after (step { protAt 0 0x18 0x10 0x103000 0x8FFF6 [0xFF, 0x15, 0, 0, 5, 0]
        (putLe 0x50000 4 0x4000 []) with
      cs := segFromDesc 0x18 0x00409B100000FFFF, rip := 0x3000 }) fun t =>
    (ipSpCs t, memRead t 0x8FFF2 4)) = some ((0x4000, 0x8FFF2, 0x18), 0x3006) := by decide +kernel
theorem test_v20_rm32 : (after (step (stateF [0xFF, 0xD4])) fun t => (ipSpCs t, memRead t 0x8FFFC 4)) =
    some ((0x90000, 0x8FFFC, 0x8), 0x1002) := by decide +kernel
theorem test_v22_rm64 : (after (step (longAt 3 0x33 0x2B 0x402000 0x00007FFFFFFFDFF0 0 [0xFF, 0x14, 0x24]
      (putLe 0x00007FFFFFFFDFF0 8 0x401012 []))) fun t => (ipSpCs t, memRead t 0x00007FFFFFFFDFE8 8)) =
    some ((0x401012, 0x00007FFFFFFFDFE8, 0x33), 0x402003) := by decide +kernel

/-- 64-bit mode at level 3 with CET on; the bits of `IA32_U_CET` are given. -/
def cetL (uCet : BitVec 64) (bs : List Byte) : State :=
  { longAt 3 0x33 0x2B 0x401000 0x00007FFFFFFFE000 0x402000 bs [] with
    cr4 := 0x800020, uCet := uCet, ssp := 0x0000700000001000 }

/-- V24 (no `3E`: armed), V25 (`3E` with `NO_TRACK_EN`: not), V26 (`3E` without: armed), V27 (suppressed:
not). -/
theorem test_v24_to_v27_rm64 :
    (after (step (cetL 0x14 [0xFF, 0xD0])) fun t => t.uCet) = some 0x814 ∧
    (after (step (cetL 0x14 [0x3E, 0xFF, 0xD0])) fun t => t.uCet) = some 0x14 ∧
    (after (step (cetL 0x04 [0x3E, 0xFF, 0xD0])) fun t => t.uCet) = some 0x804 ∧
    (after (step (cetL 0x414 [0xFF, 0xD0])) fun t => t.uCet) = some 0x414 := by decide +kernel
theorem test_v30_ptr1616_real :
    (after (step (realAt 0x1000 0x100 0x2000 0x100 [0x9A, 0, 2, 0, 0x30])) fun t =>
      (ipSpCs t, t.cs.base, memRead t 0x200FC 4)) =
    some ((0x200, 0xFC, 0x3000), 0x30000, 0x10000105) := by decide +kernel
/-- V36r: virtual-8086 mode with `CR4.CET`. -/
theorem test_v36_ptr1616_v86 :
    (after (step { realAt 0x1000 0x100 0x2000 0x100 [0x9A, 0, 2, 0, 0x30] with
        cr0 := 1, eflags := 0x20002, cpl := 3, cr4 := 0x800000, uCet := 0x5, ssp := 0x300FFC }) fun t =>
      (ipSpCs t, t.cpl, t.ssp, t.uCet)) = some ((0x200, 0xFC, 0x3000), 3, 0x300FFC, 0x5) := by
  decide +kernel
theorem test_v32_ptr1632_real :
    (after (step (realAt 0x1000 0x100 0x2000 0x100 [0x66, 0x9A, 0, 2, 0, 0, 0, 0x30])) ipSpCs) =
    some (0x200, 0xF8, 0x3000) := by decide +kernel
theorem test_v13_ptr1632_real :
    faultOf (step (realAt 0x1000 0x100 0x2000 7 [0x66, 0x9A, 0, 2, 0, 0, 0, 0x30])) =
      some (.ss, some 0, .r162) := by decide +kernel
theorem test_v31_m1616_real :
    (after (step { realAt 0x3000 0 0x2000 0xFA [0xFF, 0x1E, 0x10, 0] with
        mem := putLe 0x40010 4 0x50001234 (putBytes 0x30000 [0xFF, 0x1E, 0x10, 0] []) }) fun t =>
      (ipSpCs t, t.cs.base, memRead t 0x200F6 4)) =
    some ((0x1234, 0xF6, 0x5000), 0x50000, 0x30000004) := by decide +kernel
/-- The operand's selector lies above its 4-byte offset (20_memory.md R68). -/
theorem test_m1632_real :
    (after (step { realAt 0x3000 0 0x2000 0xFA [0x66, 0xFF, 0x1E, 0x10, 0] with
        mem := putLe 0x40010 6 0x500000001234 (putBytes 0x30000 [0x66, 0xFF, 0x1E, 0x10, 0] []) }) ipSpCs) =
    some (0x1234, 0xF2, 0x5000) := by decide +kernel
/-- V40 at operand size 16, with the accessed bit clear as in V53. -/
theorem test_ptr1616_prot :
    (after (step (protAt 0 0x08 0x10 0x1000 0x90000 [0x66, 0x9A, 0, 0x20, 0x18, 0]
        (gdt 0x00CF9B000000FFFF 0x00CF93000000FFFF 0x00409A100000FFFF 0 []))) fun t =>
      (ipSpCs t, memRead t 0x8FFFC 4, memRead t 0x1001D 1)) =
    some ((0x2000, 0x8FFFC, 0x18), 0x00081006, 0x9B) := by decide +kernel
theorem test_v40_ptr1632_prot :
    (after (step (stateF [0x9A, 0, 0x20, 0, 0, 0x18, 0])) fun t =>
      (ipSpCs t, t.cs.base, t.cs.limit)) = some ((0x2000, 0x8FFF8, 0x18), 0x100000, 0xFFFF) := by
  decide +kernel
/-- V60: a call through a gate to level 0. -/
theorem test_v60_ptr1632_prot :
    (after (step (stateG 0x00CF9B000000FFFF 0x0010EC0200085000)) fun t => (ipSpCs t, t.ss.sel, t.cpl)) =
    some ((0x105000, 0x7FFE8, 0x08), 0x10, 0) := by decide +kernel
/-- Like V31 at operand size 16. -/
theorem test_m1616_long :
    (after (step (stateL [0x66, 0xFF, 0x18] [0, 0x20, 0x18, 0])) fun t =>
      (ipSpCs t, memRead t 0x00007FFFFFFFDFFC 4)) =
    some ((0x2000, 0x00007FFFFFFFDFFC, 0x18), 0x00081003) := by decide +kernel
/-- V56: to a compatibility-mode segment. -/
theorem test_v56_m1632_long :
    (after (step (stateL [0xFF, 0x18] [0, 0x20, 0, 0, 0x20, 0])) fun t => (ipSpCs t, t.mode)) =
    some ((0x2000, 0x00007FFFFFFFDFF8, 0x20), .compat) := by decide +kernel
/-- V43: a 64-bit gate to level 0. -/
theorem test_v43_m1632_long :
    (after (step (state43 0x0010EC0000085000 0x00000000FFFF8000)) fun t => (ipSpCs t, t.ss.sel, t.cpl)) =
    some ((0xFFFF800000105000, 0xFFFF8000001FFFE0, 0x08), 0, 0) := by decide +kernel
theorem test_v29_m1664 :
    (after (step (stateL [0x48, 0xFF, 0x18] [0, 0x20, 0x40, 0, 0, 0, 0, 0, 0x18, 0])) ipSpCs) =
    some (0x402000, 0x00007FFFFFFFDFF0, 0x18) := by decide +kernel
theorem test_v54_m1664 :
    faultOf (step (stateL [0x48, 0xFF, 0x18] [0, 0, 0, 0, 0, 0x80, 0, 0, 0x18, 0])) =
      some (.gp, some 0, .r177) := by decide +kernel
theorem test_e11_illegal9A : faultOf (step (stateL [0x9A] [])) = some (.ud, none, .r113) := by
  decide +kernel
theorem test_e12_illegalFF3 : faultOf (step (stateF [0xFF, 0xD8])) = some (.ud, none, .r113) := by
  decide +kernel

/-! ## Witnesses: the hypotheses of each obligation are met -/

theorem witness_DecodeEncodeRoundTrip :
    (Instr.callM1664 rexW (.sib 3 2 5 (.d8 0xFF))).wf = true ∧
      instrFits long64 (.callM1664 rexW (.sib 3 2 5 (.d8 0xFF))) = true := by decide
theorem witness_DecodedInstructionsAreWellFormed : decode long64 [0x3E, 0x41, 0xFF, 0x14, 0x24, 0xCC] =
    .instr (.callRm64 { rexB1 with seg := some .ds } (.mem (.sib 0 4 4 .none))) := by decide

/-- `call eax`, and `call ax` behind `0x66`. -/
def callEax : Instr := .callRm32 noPrefix (.reg 0)
def callAx : Instr := .callRm16 p66 (.reg 0)

/-- Lengths 16 and 15 (`0x3E` 14 and 13 times before two bytes), a repeat prefix, one prefix of each group,
fifteen prefix bytes at the instruction pointer. `FF /6` is `PUSH`. -/
theorem witness_IllegalEncodings :
    (instrFits (stateF []).ctx (.callRm32 pLock (.reg 0)) = true ∧
      (prefixesOfInstr (.callRm32 pLock (.reg 0))).lock = true) ∧
    (instrFits (stateL [] []).ctx (.illegal9A64 noPrefix) = true ∧
      isIllegal (.illegal9A64 noPrefix) = true) ∧
    (regOf 0xF0 ≠ 2 ∧ regOf 0xF0 ≠ 3) ∧
    (callEax.wf = true ∧ instrFits prot32 callEax = true ∧ afterLegacy callEax = [0xFF, 0xD0] ∧
      decode prot32 (List.replicate 14 0x3E ++ [0xFF, 0xD0]) = .tooLong ∧
      decode prot32 (List.replicate 13 0x3E ++ [0xFF, 0xD0]) = .reject .doubledPrefix ∧
      decode prot32 [0xF3, 0xFF, 0xD0] = .reject .repeatPrefix ∧
      decode prot32 [0xF0, 0xF3, 0xFF, 0xD0] = .reject .repeatPrefix ∧
      decode prot32 [0x66, 0x66, 0xFF, 0xD8] = .reject .doubledPrefix) ∧
    (callAx.wf = true ∧ instrFits prot32 callAx = true ∧ (prefixesOfInstr callAx).opSize = true ∧
      decode prot32 [0x3E, 0x66, 0xF0, 0xFF, 0xD0] =
        .instr (.callRm16 { p66 with lock := true, seg := some .ds } (.reg 0))) ∧
    decode (stateF (List.replicate 15 0x66)).ctx (fetchWindow (stateF (List.replicate 15 0x66))) = .tooLong ∧
    decode (stateF [0xF2, 0xFF, 0xD0]).ctx (fetchWindow (stateF [0xF2, 0xFF, 0xD0])) =
      .reject .repeatPrefix ∧
    decode (stateF [0x66, 0x66, 0xFF, 0xD0]).ctx (fetchWindow (stateF [0x66, 0x66, 0xFF, 0xD0])) =
      .reject .doubledPrefix ∧
    decode (stateF [0xFF, 0xF0]).ctx (fetchWindow (stateF [0xFF, 0xF0])) = .reject (.notCall 0xFF) := by
  decide +kernel
theorem witness_UndefinedEncodingsStop : (stateL [] []).mode = .long64 ∧ noPrefix.rex = none := by
  decide +kernel
theorem witness_StepRunsTheDecodedInstruction :
    decode (stateF [0xFF, 0xD4]).ctx (fetchWindow (stateF [0xFF, 0xD4])) =
      .instr (.callRm32 noPrefix (.reg 4)) := by decide +kernel
theorem witness_StepRunsTheEncodedInstruction :
    (Instr.callRm32 noPrefix (.reg 4)).wf = true ∧
    instrFits (stateF [0xFF, 0xD4]).ctx (.callRm32 noPrefix (.reg 4)) = true ∧
    ∀ j, j < (encode (.callRm32 noPrefix (.reg 4))).length → fetchOk (stateF [0xFF, 0xD4]) j = true ∧
      (encode (.callRm32 noPrefix (.reg 4)))[j]? =
        some (memGet (stateF [0xFF, 0xD4]).mem
          (byteAddr (stateF [0xFF, 0xD4]) (fetchLinear (stateF [0xFF, 0xD4])) j)) := by decide +kernel

/-- Real mode at offset `0xFFFF`: one byte may be fetched; at `0x10000` none. -/
theorem witness_FetchFaults :
    fetchOk (realAt 0x3000 0x10000 0x2000 0xFA []) 0 = false ∧
    decode (realAt 0x3000 0xFFFF 0x2000 0xFA [0xE8]).ctx
      (fetchWindow (realAt 0x3000 0xFFFF 0x2000 0xFA [0xE8])) = .truncated := by decide +kernel
theorem witness_StepKeepsMemoryForm : memWf (stateF [0xFF, 0xD4]).mem = true ∧
    ∃ t, step (stateF [0xFF, 0xD4]) = .next t :=
  ⟨by decide +kernel, isNext_sound (by decide +kernel)⟩

/-- The machine of the vectors right after reset, with `CALL rel16` at the instruction pointer. -/
def reset48 : State := { State.reset with cpu := cpu48, mem := putBytes 0xFFFFFFF0 [0xE8, 0, 0] [] }

/-- Protected mode at two levels, IA-32e mode, real-address mode; and the `CS` of reset, which is no launch
state of R301 (c). -/
theorem witness_StepKeepsLaunchPremises :
    ((stateF [0xFF, 0xD4]).launchOk = true ∧ ∃ t, step (stateF [0xFF, 0xD4]) = .next t) ∧
    ((stateG 0x00CF9B000000FFFF 0x0010EC0200085000).launchOk = true ∧
      ∃ t, step (stateG 0x00CF9B000000FFFF 0x0010EC0200085000) = .next t) ∧
    ((state43 0x0010EC0000085000 0x00000000FFFF8000).launchOk = true ∧
      ∃ t, step (state43 0x0010EC0000085000 0x00000000FFFF8000) = .next t) ∧
    ((realAt 0x3000 0x200 0x2000 0xFA [0xE8, 0xFD, 0xFD]).launchOk = true ∧
      ∃ t, step (realAt 0x3000 0x200 0x2000 0xFA [0xE8, 0xFD, 0xFD]) = .next t) ∧
    (reset48.wf = true ∧ reset48.launchOk = false ∧ ∃ t, step reset48 = .next t) :=
  ⟨⟨by decide +kernel, isNext_sound (by decide +kernel)⟩,
    ⟨by decide +kernel, isNext_sound (by decide +kernel)⟩,
    ⟨by decide +kernel, isNext_sound (by decide +kernel)⟩,
    ⟨by decide +kernel, isNext_sound (by decide +kernel)⟩,
    by decide +kernel, by decide +kernel, isNext_sound (by decide +kernel)⟩
/-- A hidden part no descriptor has breaks R301 (d): a base above 2^32, a limit that `G` rules out. A `TSS`
that is not busy breaks (f). -/
theorem test_launch_premises :
    ((stateF []).setSs { (stateF []).ss with base := 0x100000000 }).wf = false ∧
    ((stateF []).setSs { (stateF []).ss with limit := 0xFFFFFFFE }).wf = false ∧
    { stateF [] with tr := { (stateF []).tr with busy := false } }.wf = false := by decide +kernel

/-- Vector state F on a machine without CET. -/
def noCetF : State := { stateF [0xFF, 0xD4] with cpu := { cpu48 with hasCetSs := false, hasCetIbt := false } }

/-- R301 (g): without CET a launch state has every CET field zero, the ones no `CALL` reads too. A NULL `DS`
whose base no descriptor has breaks (d); what a 64-bit gate leaves of `SS` does not. -/
theorem test_launch_premises_cet :
    noCetF.launchOk = true ∧ { noCetF with sCet := 0x2 }.wf = false ∧
    { noCetF with uCet := 0x1000 }.wf = false ∧ { noCetF with ssp := 4 }.wf = false ∧
    { noCetF with pl2Ssp := 8 }.wf = false ∧
    { stateL [] [] with ds := { resetDataSeg with base := 0x100000000 } }.wf = false ∧
    { stateL [] [] with ss := nullSs 0 0 0x00FFFFFFFF }.launchOk = true := by decide +kernel
theorem witness_StoredValuesReadBack : memWf (stateF []).mem = true ∧ 8 ≤ 8 := by decide +kernel
theorem witness_CanonicalAddresses : 0 < 48 ∧ 48 ≤ 64 ∧ canonical 48 0x00007FFFFFFFFFFF = true ∧
    canonical 48 0x0000800000000000 = false := by decide
theorem witness_StackRoomIsRoomForThePushes : stackWritable (realAt 0x3000 0 0x2000 4 []) = true ∧
    stackRoom (realAt 0x3000 0 0x2000 4 []) (2 * 2) 2 = true ∧
    stackRoom (realAt 0x3000 0 0x2000 3 []) (2 * 2) 2 = false := by decide +kernel
theorem witness_PushResult : memWf (realAt 0x3000 0 0x2000 0 []).mem = true ∧
    segFault (realAt 0x3000 0 0x2000 0 []) .ss (realSeg 0x2000)
      (pushOffset (realAt 0x3000 0 0x2000 0 []) 2) 2 true = none ∧
    segFault (realAt 0x3000 0 0x2000 1 []) .ss (realSeg 0x2000)
      (pushOffset (realAt 0x3000 0 0x2000 1 []) 2) 2 true = some .ss := by decide +kernel


/-- 32-bit addressing in protected mode and, behind `0x67`, in real and 64-bit mode; 64-bit addressing; and
the examples of R107 to R109: `[bp+si-1]`, `[esp]`, `[ebx+ecx*4+0x10]`, RIP-relative, `[r12*8]`. -/
theorem witness_EffectiveAddresses32 :
    addrSizeOf (stateF []) noPrefix = .s32 ∧ addrSizeOf (stateL [] []) noPrefix = .s64 ∧
    addrSizeOf (realAt 0 0 0 0 []) { noPrefix with addrSize := true } = .s32 ∧
    addrSizeOf (stateL [] []) { noPrefix with addrSize := true } = .s32 := by decide +kernel
theorem test_effective_addresses :
    let regs : Gprs := { resetGprs with
      rcx := 0x40000000, rbx := 0x1000, rsp := 0x8000, rbp := 0xFFFF, rsi := 0x2, r12 := 0x100 }
    let real := { realAt 0 0 0 0 [] with gpr := regs }
    let prot := { stateF [] with gpr := regs }
    let long := { stateL [] [] with gpr := regs }
    (effAddr real noPrefix 0 (.base16 .bpSi (.d8 0xFF)), defaultSeg noPrefix (.base16 .bpSi (.d8 0xFF))) =
      (0, .ss) ∧
    (effAddr prot noPrefix 0 (.sib 0 4 4 .none), defaultSeg noPrefix (.sib 0 4 4 .none)) = (0x8000, .ss) ∧
    (effAddr prot noPrefix 0 (.sib 2 1 3 (.d8 0x10)), defaultSeg noPrefix (.sib 2 1 3 (.d8 0x10))) =
      (0x1010, .ds) ∧
    effAddr long noPrefix 0x401006 (.disp32 0xFFFFFFF0) = 0x400FF6 ∧
    effAddr long { noPrefix with rex := some ⟨false, false, true, false⟩ } 0 (.sibNoBase 3 4 0) = 0x800 := by
  decide +kernel

/-- A far pointer at the end of the 32-bit range, behind `0x67`: in 64-bit mode its selector is past 2^32, in
real-address mode (16-bit base at `0xFFFE`) at offset 0 (R61, R68). -/
theorem test_far_pointer_at_the_end :
    let p67 : Prefixes := { noPrefix with addrSize := true }
    let long := longAt 0 0x08 0x10 0x401000 0x8000 0xFFFFFFFC []
      (putLe 0x100000000 2 0x18 (putLe 0xFFFFFFFC 4 0x2000 []))
    let real := { realAt 0 0 0 0 [] with mem := putLe 0x4FFFE 2 0x1234 (putLe 0x40000 2 0x3000 []) }
    farOperand (.callM1632Prot p67 (.base 0 .none)) long = some (.ok ⟨0x2000, 0x18⟩) ∧
    farOperand (.callM1616Real noPrefix (.abs16 0xFFFE)) real = some (.ok ⟨0x1234, 0x3000⟩) :=
  ⟨by rfl, by rfl⟩
theorem witness_RegistersAndOverrides : noPrefix.seg = none ∧ p3E.seg = some .ds ∧
    operandSeg (stateF []) p3E (.base 5 (.d8 0)) = .ds ∧
    operandSeg (stateL [] []) p3E (.base 5 (.d8 0)) = .ss ∧
    operandSeg (stateL [] []) { noPrefix with seg := some .gs } (.base 5 (.d8 0)) = .gs := by decide +kernel

/-- 64-bit mode at the canonical boundary; the last word inside the limit and one byte on; an expand-down
segment at its limit; a read-only and an execute-only segment; `DS` with selectors 3 and 4 in real mode. -/
theorem witness_SegmentAccesses :
    let ds := realSeg 0x4000
    let real := realAt 0x3000 0 0x2000 0 []
    ((stateL [] []).mode = .long64 ∧
      segFault (stateL [] []) .ds ds 0x00007FFFFFFFFFFE 2 false = none ∧
      segFault (stateL [] []) .ss ds 0x00007FFFFFFFFFFF 2 false = some .ss) ∧
    (real.mode ≠ .long64 ∧ segFault real .ds ds 0xFFFE 2 false = none ∧
      segFault real .ds ds 0xFFFF 2 false = some .gp ∧ segFault real .ss ds 0xFFFF 2 false = some .ss) ∧
    (segFault real .ds { ds with typ := 7, limit := 0xFFF } 0x1000 2 true = none ∧
      segFault real .ds { ds with typ := 7, limit := 0xFFF } 0xFFF 2 true = some .gp) ∧
    (segFault real .ss { ds with typ := 1 } 0 2 true = some .gp ∧
      segFault real .cs { ds with typ := 9 } 0 2 false = some .gp ∧
      segFault real .cs { ds with typ := 11 } 0 2 false = none) ∧
    segFault real .ds (realSeg 3) 0 2 false = some .gp ∧ segFault real .ds (realSeg 4) 0 2 false = none := by
  decide +kernel

/-- A state whose stack segment is not writable. -/
def readOnlySs (s : State) : State := s.setSs { s.ss with typ := 1 }

/-- Protected mode, 16-bit `CS` of limit `0xFFF` (V4). -/
def small16 : State :=
  { protAt 0 0x08 0x10 0x100 0x800 [] [] with cs := segFromDesc 0x08 0x00009B0000000FFF }

/-- Target at the limit and one past it; stack pointers 2 and 1; a stack that takes no writes; shadow stacks
on. -/
theorem witness_CallRel16Result :
    (stateL [] []).mode = .long64 ∧
    (runnable (.callRel16 noPrefix 0x0EFD) small16 = true ∧
      faultOf (exec (.callRel16 noPrefix 0x0EFD) small16) = some (.gp, some 0, .r141)) ∧
    (runnable (.callRel16 noPrefix 0) (realAt 0x3000 0 0x2000 1 []) = true ∧
      faultOf (exec (.callRel16 noPrefix 0) (realAt 0x3000 0 0x2000 1 [])) = some (.ss, some 0, .r141)) ∧
    (runnable (.callRel16 noPrefix 0x0EFC) (readOnlySs small16) = true ∧
      faultOf (exec (.callRel16 noPrefix 0x0EFC) (readOnlySs small16)) = some (.gp, some 0, .r65)) ∧
    (runnable (.callRel16 noPrefix 0x0EFC) small16 = true ∧
      isNext (exec (.callRel16 noPrefix 0x0EFC) small16) = true) ∧
    (runnable (.callRel16 noPrefix 0) (realAt 0x3000 0 0x2000 2 []) = true ∧
      isNext (exec (.callRel16 noPrefix 0) (realAt 0x3000 0 0x2000 2 [])) = true) := by decide +kernel

/-- V9's state: protected mode at level 3 with shadow stacks. -/
def shadow3 : State :=
  { protAt 3 0x1B 0x23 0x1000 0x90000 [] [] with cr4 := 0x800000, uCet := 1, ssp := 0x300FFC }

theorem witness_CallRel32Result :
    (stateL [] []).mode = .long64 ∧
    (runnable (.callRel32 p66 0xFEFA) (realAt 0x3000 0x100 0x2000 4 []) = true ∧
      faultOf (exec (.callRel32 p66 0xFEFA) (realAt 0x3000 0x100 0x2000 4 [])) =
        some (.gp, some 0, .r142)) ∧
    (runnable (.callRel32 p66 0xFEF9) (realAt 0x3000 0x100 0x2000 3 []) = true ∧
      faultOf (exec (.callRel32 p66 0xFEF9) (realAt 0x3000 0x100 0x2000 3 [])) =
        some (.ss, some 0, .r142)) ∧
    (runnable (.callRel32 noPrefix 0xFFB) (readOnlySs (stateF [])) = true ∧
      faultOf (exec (.callRel32 noPrefix 0xFFB) (readOnlySs (stateF []))) = some (.gp, some 0, .r65)) ∧
    (runnable (.callRel32 p66 0xFEF9) (realAt 0x3000 0x100 0x2000 4 []) = true ∧
      isNext (exec (.callRel32 p66 0xFEF9) (realAt 0x3000 0x100 0x2000 4 [])) = true) ∧
    (runnable (.callRel32 noPrefix 0xFFB) shadow3 = true ∧ shadowStackEnabled shadow3 shadow3.cpl = true ∧
      (after (exec (.callRel32 noPrefix 0xFFB) shadow3) fun t => (t.ssp, memRead t 0x300FF8 4)) =
        some (0x300FF8, 0x1005)) := by decide +kernel

/-- 64-bit mode just below the canonical boundary: the target is `0x7FFFFFFFFFFF` or one more. -/
def edgeL : State := longAt 3 0x33 0x2B 0x00007FFFFFFFFFF0 0x00007FFFFFFFE000 0x00007FFFFFFFFFFF [] []

/-- V15's stack pointer. -/
def noRoomL : State := longAt 3 0x33 0x2B 0x401000 0x0000800000000004 0x402000 [] []

theorem witness_CallRel64Result :
    (stateF []).mode ≠ .long64 ∧
    (runnable (.callRel64 noPrefix 0xB) edgeL = true ∧
      faultOf (exec (.callRel64 noPrefix 0xB) edgeL) = some (.gp, some 0, .r150)) ∧
    (runnable (.callRel64 noPrefix 0) noRoomL = true ∧
      faultOf (exec (.callRel64 noPrefix 0) noRoomL) = some (.ss, some 0, .r143)) ∧
    (runnable (.callRel64 noPrefix 0xA) edgeL = true ∧
      isNext (exec (.callRel64 noPrefix 0xA) edgeL) = true) ∧
    (runnable (.callRel64 noPrefix 0xB) (cetL 1 []) = true ∧
      shadowStackEnabled (cetL 1 []) (cetL 1 []).cpl = true ∧
      (after (exec (.callRel64 noPrefix 0xB) (cetL 1 [])) fun t => (t.ssp, memRead t 0x700000000FF8 8)) =
        some (0x700000000FF8, 0x401005)) := by decide +kernel

/-- V4's code segment with shadow stacks at level 0. -/
def shadow16 : State := { small16 with cr4 := 0x800000, sCet := 1, ssp := 0x300FFC }

theorem witness_CallRm16Result :
    (stateL [] []).mode = .long64 ∧
    (runnable (.callRm16 noPrefix (.mem (.abs16 0xFFFF))) (realAt 0x3000 0 0x2000 2 []) = true ∧
      faultOf (exec (.callRm16 noPrefix (.mem (.abs16 0xFFFF))) (realAt 0x3000 0 0x2000 2 [])) =
        some (.gp, some 0, .r65)) ∧
    (runnable (.callRm16 noPrefix (.reg 4)) { small16 with gpr := { resetGprs with rsp := 0x1000 } } = true ∧
      faultOf (exec (.callRm16 noPrefix (.reg 4)) { small16 with gpr := { resetGprs with rsp := 0x1000 } }) =
        some (.gp, some 0, .r144)) ∧
    (runnable (.callRm16 noPrefix (.reg 0)) (realAt 0x3000 0 0x2000 1 []) = true ∧
      faultOf (exec (.callRm16 noPrefix (.reg 0)) (realAt 0x3000 0 0x2000 1 [])) =
        some (.ss, some 0, .r144)) ∧
    (runnable (.callRm16 noPrefix (.reg 4)) (readOnlySs small16) = true ∧
      faultOf (exec (.callRm16 noPrefix (.reg 4)) (readOnlySs small16)) = some (.gp, some 0, .r65)) ∧
    (runnable (.callRm16 noPrefix (.mem (.abs16 0xFFFE))) (realAt 0x3000 0 0x2000 2 []) = true ∧
      isNext (exec (.callRm16 noPrefix (.mem (.abs16 0xFFFE))) (realAt 0x3000 0 0x2000 2 [])) = true) ∧
    (runnable (.callRm16 noPrefix (.reg 0)) shadow16 = true ∧
      shadowStackEnabled shadow16 shadow16.cpl = true ∧
      (after (exec (.callRm16 noPrefix (.reg 0)) shadow16) fun t => (t.ssp, memRead t 0x300FF8 4)) =
        some (0x300FF8, 0x102)) := by decide +kernel

theorem witness_CallRm32Result :
    (stateL [] []).mode = .long64 ∧
    (runnable (.callRm32 noPrefix (.mem (.disp32 0xFFFFFFFD))) (stateF []) = true ∧
      faultOf (exec (.callRm32 noPrefix (.mem (.disp32 0xFFFFFFFD))) (stateF [])) =
        some (.gp, some 0, .r65)) ∧
    (runnable (.callRm32 p66 (.reg 4)) (realAt 0x3000 0 0x2000 0x10000 []) = true ∧
      faultOf (exec (.callRm32 p66 (.reg 4)) (realAt 0x3000 0 0x2000 0x10000 [])) =
        some (.gp, some 0, .r145)) ∧
    (runnable (.callRm32 p66 (.reg 4)) (realAt 0x3000 0 0x2000 3 []) = true ∧
      faultOf (exec (.callRm32 p66 (.reg 4)) (realAt 0x3000 0 0x2000 3 [])) = some (.ss, some 0, .r145)) ∧
    (runnable (.callRm32 noPrefix (.reg 4)) (readOnlySs (stateF [])) = true ∧
      faultOf (exec (.callRm32 noPrefix (.reg 4)) (readOnlySs (stateF []))) = some (.gp, some 0, .r65)) ∧
    (runnable (.callRm32 noPrefix (.mem (.disp32 0xFFFFFFFC))) (stateF []) = true ∧
      isNext (exec (.callRm32 noPrefix (.mem (.disp32 0xFFFFFFFC))) (stateF [])) = true) ∧
    (runnable (.callRm32 noPrefix (.reg 0)) shadow3 = true ∧ shadowStackEnabled shadow3 shadow3.cpl = true ∧
      (after (exec (.callRm32 noPrefix (.reg 0)) shadow3) fun t => (t.ssp, memRead t 0x300FF8 4)) =
        some (0x300FF8, 0x1002)) := by decide +kernel

theorem witness_CallRm64Result :
    (stateF []).mode ≠ .long64 ∧
    (runnable (.callRm64 noPrefix (.mem (.base 0 .none))) edgeL = true ∧
      faultOf (exec (.callRm64 noPrefix (.mem (.base 0 .none))) edgeL) = some (.gp, some 0, .r65)) ∧
    (runnable (.callRm64 noPrefix (.reg 4)) noRoomL = true ∧
      faultOf (exec (.callRm64 noPrefix (.reg 4)) noRoomL) = some (.gp, some 0, .r150)) ∧
    (runnable (.callRm64 noPrefix (.reg 0)) noRoomL = true ∧
      faultOf (exec (.callRm64 noPrefix (.reg 0)) noRoomL) = some (.ss, some 0, .r146)) ∧
    (runnable (.callRm64 noPrefix (.reg 0)) edgeL = true ∧
      isNext (exec (.callRm64 noPrefix (.reg 0)) edgeL) = true) ∧
    (runnable (.callRm64 noPrefix (.reg 0)) (cetL 1 []) = true ∧
      shadowStackEnabled (cetL 1 []) (cetL 1 []).cpl = true ∧
      (after (exec (.callRm64 noPrefix (.reg 0)) (cetL 1 [])) fun t => (t.ssp, memRead t 0x700000000FF8 8)) =
        some (0x700000000FF8, 0x401002)) := by decide +kernel

theorem witness_NearCallFrame : isNear (.callRm64 noPrefix (.reg 0)) = true ∧
    (∃ t, exec (.callRm64 noPrefix (.reg 0)) (cetL 0x15 []) = .next t) ∧
    shadowStackEnabled (cetL 0x15 []) 3 = true ∧
    isNear (.callRm64 noPrefix (.reg 0)) = true ∧ shadowStackEnabled edgeL 3 = false ∧
    (∃ t, exec (.callRm64 noPrefix (.reg 0)) edgeL = .next t) :=
  ⟨by decide, isNext_sound (by decide +kernel), by decide +kernel, by decide, by decide +kernel,
    isNext_sound (by decide +kernel)⟩

/-- 64-bit mode at level 0 with tracking on. -/
def trackL0 : State := { stateL [] [] with cr4 := 0x800020, sCet := 0x4 }

/-- Armed at level 3, armed at level 0, not armed: suppressed, and a relative call. -/
theorem witness_NearCallTracker :
    (∃ t, exec (.callRm64 p3E (.reg 0)) (cetL 0x04 []) = .next t ∧ t.uCet = 0x804) ∧
    (∃ t, exec (.callRm64 noPrefix (.reg 0)) trackL0 = .next t ∧ t.sCet = 0x804) ∧
    (∃ t, exec (.callRm64 noPrefix (.reg 0)) (cetL 0x404 []) = .next t ∧ t.uCet = 0x404) ∧
    (∃ t, exec (.callRel64 noPrefix 1) (cetL 0x04 []) = .next t ∧ t.uCet = 0x04) := 
  ⟨after_sound (by decide +kernel), after_sound (by decide +kernel), after_sound (by decide +kernel),
    after_sound (by decide +kernel)⟩

theorem witness_FarReal16Result :
    (stateF []).mode.isRealLike = false ∧
    (runnable (.callM1616Real noPrefix (.abs16 0xFFFF)) (realAt 0x1000 0 0x2000 4 []) = true ∧
      faultOf (exec (.callM1616Real noPrefix (.abs16 0xFFFF)) (realAt 0x1000 0 0x2000 4 [])) =
        some (.gp, some 0, .r65)) ∧
    (runnable (.callPtr1616Real noPrefix 0x200 0x3000) (realAt 0x1000 0 0x2000 3 []) = true ∧
      faultOf (exec (.callPtr1616Real noPrefix 0x200 0x3000) (realAt 0x1000 0 0x2000 3 [])) =
        some (.ss, some 0, .r161)) ∧
    (runnable (.callPtr1616Real noPrefix 0x200 0x3000) (readOnlySs (realAt 0x1000 0 0x2000 4 [])) = true ∧
      faultOf (exec (.callPtr1616Real noPrefix 0x200 0x3000) (readOnlySs (realAt 0x1000 0 0x2000 4 []))) =
        some (.gp, some 0, .r65)) ∧
    (runnable (.callPtr1616Real noPrefix 0x200 0x3000) (realAt 0x1000 0 0x2000 4 []) = true ∧
      isNext (exec (.callPtr1616Real noPrefix 0x200 0x3000) (realAt 0x1000 0 0x2000 4 [])) = true) ∧
    (runnable (.callM1616Real noPrefix (.abs16 0xFFFE)) (realAt 0x1000 0 0x2000 4 []) = true ∧
      isNext (exec (.callM1616Real noPrefix (.abs16 0xFFFE)) (realAt 0x1000 0 0x2000 4 [])) = true) := by
  decide +kernel

/-- Stack pointers 8 and 7; offsets `0xFFFF` and `0x10000`. -/
theorem witness_FarReal32Result :
    (stateF []).mode.isRealLike = false ∧
    (runnable (.callM1632Real p66 (.abs16 0xFFFD)) (realAt 0x1000 0 0x2000 8 []) = true ∧
      faultOf (exec (.callM1632Real p66 (.abs16 0xFFFD)) (realAt 0x1000 0 0x2000 8 [])) =
        some (.gp, some 0, .r65)) ∧
    (runnable (.callPtr1632Real p66 0xFFFF 0x3000) (realAt 0x1000 0 0x2000 7 []) = true ∧
      faultOf (exec (.callPtr1632Real p66 0xFFFF 0x3000) (realAt 0x1000 0 0x2000 7 [])) =
        some (.ss, some 0, .r162)) ∧
    (runnable (.callPtr1632Real p66 0x10000 0x3000) (realAt 0x1000 0 0x2000 8 []) = true ∧
      faultOf (exec (.callPtr1632Real p66 0x10000 0x3000) (realAt 0x1000 0 0x2000 8 [])) =
        some (.gp, some 0, .r162)) ∧
    (runnable (.callPtr1632Real p66 0xFFFF 0x3000) (readOnlySs (realAt 0x1000 0 0x2000 8 [])) = true ∧
      faultOf (exec (.callPtr1632Real p66 0xFFFF 0x3000) (readOnlySs (realAt 0x1000 0 0x2000 8 []))) =
        some (.gp, some 0, .r65)) ∧
    (runnable (.callPtr1632Real p66 0xFFFF 0x3000) (realAt 0x1000 0 0x2000 8 []) = true ∧
      isNext (exec (.callPtr1632Real p66 0xFFFF 0x3000) (realAt 0x1000 0 0x2000 8 [])) = true) ∧
    (runnable (.callM1632Real p66 (.abs16 0xFFFA)) (realAt 0x1000 0 0x2000 8 []) = true ∧
      isNext (exec (.callM1632Real p66 (.abs16 0xFFFA)) (realAt 0x1000 0 0x2000 8 [])) = true) := by
  decide +kernel
theorem witness_FarRealFrame : isFarReal (.callPtr1632Real p66 0xFFFF 0x3000) = true ∧
    ∃ t, exec (.callPtr1632Real p66 0xFFFF 0x3000) (realAt 0x1000 0 0x2000 8 []) = .next t :=
  ⟨by decide, isNext_sound (by decide +kernel)⟩

theorem witness_FarOperandIsReadFirst :
    (isFarProt (.callPtr1616Prot noPrefix 0 0) = true ∧
      (realAt 0x1000 0 0x2000 8 []).mode.isRealLike = true) ∧
    (isFarProt (.callM1632Prot noPrefix (.disp32 0xFFFFFFFB)) = true ∧
      runnable (.callM1632Prot noPrefix (.disp32 0xFFFFFFFB)) (stateF []) = true ∧
      farOperand (.callM1632Prot noPrefix (.disp32 0xFFFFFFFB)) (stateF []) = some (.error .gp)) :=
  ⟨by decide +kernel, by decide, by decide +kernel, by rfl⟩
theorem witness_NullSelectorFaults : isFarProt (.callPtr1632Prot noPrefix 0 3) = true ∧
    runnable (.callPtr1632Prot noPrefix 0 3) (stateF []) = true ∧
    farOperand (.callPtr1632Prot noPrefix 0 3) (stateF []) = some (.ok ⟨0, 3⟩) :=
  ⟨by decide, by decide +kernel, by rfl⟩

/-- Selectors 4 (an `LDT` that is not loaded) and `0x28` (the first past the limit `0x27`). -/
theorem witness_TableLimitFaults :
    (runnable (.callPtr1632Prot noPrefix 0 4) (stateF []) = true ∧ (stateF []).ldtr.sel.toNat ≤ 3 ∧
      faultOf (exec (.callPtr1632Prot noPrefix 0 4) (stateF [])) = some (.gp, some 4, .r172)) ∧
    (runnable (.callPtr1632Prot noPrefix 0 0x28) (stateF []) = true ∧
      (stateF []).gdtr.limit.toNat < 0x28 / 8 * 8 + 7 ∧
      faultOf (exec (.callPtr1632Prot noPrefix 0 0x28) (stateF [])) = some (.gp, some 0x28, .r172)) := by
  decide +kernel

/-- A state whose descriptor at index 3 is given. -/
def withDesc3 (s : State) (d : Nat) : State := s.setMem (putLe 0x10018 8 d s.mem)

/-- Protected mode, the call `0x18:off`. -/
def ptr18 (off : BitVec 32) : Instr := .callPtr1632Prot noPrefix off 0x18

/-- A data segment in protected mode, a `TSS` in IA-32e mode (V44, V57). -/
theorem witness_TypeTestFaults :
    (∃ f d, FarCallTo (.callPtr1632Prot noPrefix 0 0x10) (stateF []) f d ∧
      (!(stateF []).lma && descS d && decide ((descType d).toNat < 8)) = true) ∧
    (∃ f d, FarCallTo (.callM1632Prot noPrefix (.base 0 .none))
        (withDesc3 (stateL [] [0, 0x20, 0, 0, 0x18, 0]) 0x0000890300000067) f d ∧
      (!descS d && descType d == 9) = true) :=
  ⟨farWitness_sound (cond := fun _ d => !(stateF []).lma && descS d && decide ((descType d).toNat < 8))
      (by decide +kernel),
    farWitness_sound (cond := fun _ d => !descS d && descType d == 9) (by decide +kernel)⟩

/-- 64-bit mode, `m16:64` at `RAX`: the far address is given. -/
def farL (off : Nat) (sel : Nat) (d3 : Nat) : State :=
  withDesc3 ((stateL [] []).setMem (putLe 0x600000 10 (off + sel * 2 ^ 64) (stateL [] []).mem)) d3

/-- `m16:64` at `RAX`. -/
def m1664 : Instr := .callM1664 rexW (.base 0 .none)

/-- Protected mode at level 0 with shadow stacks (V50, V51). -/
def shadow0 (ssp : BitVec 64) (d3 : Nat) : State :=
  { withDesc3 (stateF []) d3 with cr4 := 0x800000, sCet := 0x5, ssp := ssp }

/-- Each clause of R176, at the edge where it has one: both `L` and `D`; a higher `DPL`; not present; stack
pointer 3; an offset one past the limit; not canonical; a read-only stack; `SSP` of 2^32; and it completes. -/
theorem witness_ConformingCodeSegmentResult :
    (∃ f d, FarCallTo m1664 (farL 0 0x18 0x00609F0000000000) f d ∧
      ((segFromDesc f.sel d).isConforming && (segFromDesc f.sel d).l && (segFromDesc f.sel d).db) = true) ∧
    (∃ f d, FarCallTo (ptr18 0) (withDesc3 (stateF []) 0x00CFBF000000FFFF) f d ∧
      ((segFromDesc f.sel d).isConforming && descDpl d == 1) = true) ∧
    (∃ f d, FarCallTo (ptr18 0) (withDesc3 (stateF []) 0x00CF1F000000FFFF) f d ∧
      ((segFromDesc f.sel d).isConforming && !descP d) = true) ∧
    (∃ f d, FarCallTo (ptr18 0) ((withDesc3 (stateF []) 0x00CF9F000000FFFF).setRsp 3) f d ∧
      ((segFromDesc f.sel d).isConforming && descP d &&
        !stackRoom ((withDesc3 (stateF []) 0x00CF9F000000FFFF).setRsp 3) 8 4) = true) ∧
    (∃ f d, FarCallTo (ptr18 0x10000) (withDesc3 (stateF []) 0x00409F000000FFFF) f d ∧
      ((segFromDesc f.sel d).isConforming && !inLimit (segFromDesc f.sel d) f.off.toNat) = true) ∧
    (∃ f d, FarCallTo m1664 (farL 0x0000800000000000 0x18 0x00209F0000000000) f d ∧
      ((segFromDesc f.sel d).isConforming && !canonical 48 f.off) = true) ∧
    (∃ f d, FarCallTo (ptr18 0) (readOnlySs (withDesc3 (stateF []) 0x00CF9F000000FFFF)) f d ∧
      (segFromDesc f.sel d).isConforming = true) ∧
    (∃ f d, FarCallTo (ptr18 0) (shadow0 0x100000000 0x00CF9F000000FFFF) f d ∧
      (segFromDesc f.sel d).isConforming = true) ∧
    (∃ f d, FarCallTo (ptr18 0xFFFF) (shadow0 0xFFFFFFFC 0x00409F000000FFFF) f d ∧
      ((segFromDesc f.sel d).isConforming &&
        isNext (exec (ptr18 0xFFFF) (shadow0 0xFFFFFFFC 0x00409F000000FFFF))) = true) :=
  ⟨farWitness_sound (cond := fun f d => (segFromDesc f.sel d).isConforming && (segFromDesc f.sel d).l &&
      (segFromDesc f.sel d).db) (by decide +kernel),
    farWitness_sound (cond := fun f d => (segFromDesc f.sel d).isConforming && descDpl d == 1)
      (by decide +kernel),
    farWitness_sound (cond := fun f d => (segFromDesc f.sel d).isConforming && !descP d) (by decide +kernel),
    farWitness_sound (cond := fun f d => (segFromDesc f.sel d).isConforming && descP d &&
      !stackRoom ((withDesc3 (stateF []) 0x00CF9F000000FFFF).setRsp 3) 8 4) (by decide +kernel),
    farWitness_sound (cond := fun f d => (segFromDesc f.sel d).isConforming &&
      !inLimit (segFromDesc f.sel d) f.off.toNat) (by decide +kernel),
    farWitness_sound (cond := fun f d => (segFromDesc f.sel d).isConforming && !canonical 48 f.off)
      (by decide +kernel),
    farWitness_sound (cond := fun f d => (segFromDesc f.sel d).isConforming) (by decide +kernel),
    farWitness_sound (cond := fun f d => (segFromDesc f.sel d).isConforming) (by decide +kernel),
    farWitness_sound (cond := fun f d => (segFromDesc f.sel d).isConforming &&
      isNext (exec (ptr18 0xFFFF) (shadow0 0xFFFFFFFC 0x00409F000000FFFF))) (by decide +kernel)⟩

/-- The same for R177; its privilege clause by `RPL` and by `DPL`. -/
theorem witness_NonconformingCodeSegmentResult :
    (∃ f d, FarCallTo m1664 (farL 0 0x18 0x00609B0000000000) f d ∧
      ((segFromDesc f.sel d).isNonconforming && (segFromDesc f.sel d).l && (segFromDesc f.sel d).db) = true) ∧
    (∃ f d, FarCallTo (.callPtr1632Prot noPrefix 0 0x19) (stateF []) f d ∧
      (segFromDesc f.sel d).isNonconforming = true) ∧
    (∃ f d, FarCallTo (ptr18 0) (withDesc3 (stateF []) 0x00CFBB000000FFFF) f d ∧
      ((segFromDesc f.sel d).isNonconforming && descDpl d == 1) = true) ∧
    (∃ f d, FarCallTo (ptr18 0) (withDesc3 (stateF []) 0x00401B100000FFFF) f d ∧
      ((segFromDesc f.sel d).isNonconforming && !descP d) = true) ∧
    (∃ f d, FarCallTo (ptr18 0) ((stateF []).setRsp 3) f d ∧
      ((segFromDesc f.sel d).isNonconforming && !stackRoom ((stateF []).setRsp 3) 8 4) = true) ∧
    (∃ f d, FarCallTo (ptr18 0x10000) (stateF []) f d ∧
      ((segFromDesc f.sel d).isNonconforming && !inLimit (segFromDesc f.sel d) f.off.toNat) = true) ∧
    (∃ f d, FarCallTo m1664 (farL 0x0000800000000000 0x18 0x00209B0000000000) f d ∧
      ((segFromDesc f.sel d).isNonconforming && !canonical 48 f.off) = true) ∧
    (∃ f d, FarCallTo (ptr18 0) (readOnlySs (stateF [])) f d ∧
      (segFromDesc f.sel d).isNonconforming = true) ∧
    (∃ f d, FarCallTo (ptr18 0) (shadow0 0x100000000 0x00CF9B000000FFFF) f d ∧
      (segFromDesc f.sel d).isNonconforming = true) ∧
    (∃ f d, FarCallTo (ptr18 0xFFFF) (stateF []) f d ∧
      ((segFromDesc f.sel d).isNonconforming && isNext (exec (ptr18 0xFFFF) (stateF []))) = true) :=
  ⟨farWitness_sound (cond := fun f d => (segFromDesc f.sel d).isNonconforming && (segFromDesc f.sel d).l &&
      (segFromDesc f.sel d).db) (by decide +kernel),
    farWitness_sound (cond := fun f d => (segFromDesc f.sel d).isNonconforming) (by decide +kernel),
    farWitness_sound (cond := fun f d => (segFromDesc f.sel d).isNonconforming && descDpl d == 1)
      (by decide +kernel),
    farWitness_sound (cond := fun f d => (segFromDesc f.sel d).isNonconforming && !descP d)
      (by decide +kernel),
    farWitness_sound (cond := fun f d => (segFromDesc f.sel d).isNonconforming &&
      !stackRoom ((stateF []).setRsp 3) 8 4) (by decide +kernel),
    farWitness_sound (cond := fun f d => (segFromDesc f.sel d).isNonconforming &&
      !inLimit (segFromDesc f.sel d) f.off.toNat) (by decide +kernel),
    farWitness_sound (cond := fun f d => (segFromDesc f.sel d).isNonconforming && !canonical 48 f.off)
      (by decide +kernel),
    farWitness_sound (cond := fun f d => (segFromDesc f.sel d).isNonconforming) (by decide +kernel),
    farWitness_sound (cond := fun f d => (segFromDesc f.sel d).isNonconforming) (by decide +kernel),
    farWitness_sound (cond := fun f d => (segFromDesc f.sel d).isNonconforming &&
      isNext (exec (ptr18 0xFFFF) (stateF []))) (by decide +kernel)⟩

theorem witness_CodeSegmentIsLoaded :
    (∃ f d, FarCallTo (ptr18 0) (stateF []) f d ∧ (segFromDesc f.sel d).isCode = true) ∧
    (∃ t, exec (ptr18 0) (stateF []) = .next t) ∧
    memWf (stateF []).mem = true ∧ shadowStackEnabled (stateF []) 0 = false :=
  ⟨farWitness_sound (cond := fun f d => (segFromDesc f.sel d).isCode) (by decide +kernel),
    isNext_sound (by decide +kernel), by decide +kernel, by decide +kernel⟩

/-- `SSP` 4 modulo 8, as in V50; and above 4 GB with a 32-bit target, as in V51. -/
theorem witness_FarShadowFrame :
    ((∃ f d, FarCallTo (ptr18 0) (shadow0 0x300FFC 0x00CF9B000000FFFF) f d ∧
      (segFromDesc f.sel d).isCode = true) ∧
      shadowStackEnabled (shadow0 0x300FFC 0x00CF9B000000FFFF) 0 = true ∧
      memWf (shadow0 0x300FFC 0x00CF9B000000FFFF).mem = true ∧
      ∃ t, exec (ptr18 0) (shadow0 0x300FFC 0x00CF9B000000FFFF) = .next t) ∧
    (∃ f d, FarCallTo (ptr18 0) (shadow0 0x100000000 0x00CF9B000000FFFF) f d ∧
      (segFromDesc f.sel d).isCode = true) ∧
      shadowStackEnabled (shadow0 0x100000000 0x00CF9B000000FFFF) 0 = true :=
  ⟨⟨farWitness_sound (cond := fun f d => (segFromDesc f.sel d).isCode) (by decide +kernel),
      by decide +kernel, by decide +kernel, isNext_sound (by decide +kernel)⟩,
    farWitness_sound (cond := fun f d => (segFromDesc f.sel d).isCode) (by decide +kernel),
    by decide +kernel⟩

/-- Level 3 in protected mode, conforming target, tracking on and suppressed (V49, V52). -/
def track3 : State :=
  { withDesc3 (protAt 3 0x1B 0x23 0x1000 0x90000 [] []) 0x00CF9F000000FFFF with
    cr4 := 0x800000, uCet := 0x404 }

/-- Tracking off; on at level 3; on at level 0. -/
theorem witness_FarCallTracker :
    (∃ t, exec (ptr18 0) (stateF []) = .next t ∧ t.cpl = 0) ∧
    (∃ t, exec (ptr18 0) track3 = .next t ∧ (t.cpl, t.uCet) = (3, 0x804)) ∧
    (∃ t, exec (ptr18 0) (shadow0 0x300FFC 0x00CF9B000000FFFF) = .next t ∧ (t.cpl, t.sCet) = (0, 0x805)) ∧
    endbranchEnabled (stateF []) 0 = false ∧ endbranchEnabled track3 3 = true ∧
    endbranchEnabled (shadow0 0x300FFC 0x00CF9B000000FFFF) 0 = true :=
  ⟨after_sound (by decide +kernel), after_sound (by decide +kernel), after_sound (by decide +kernel),
    by decide +kernel⟩
theorem witness_CodeSegmentFrame :
    (∃ f d, FarCallTo m1664 (farL 0x402000 0x18 0x00209A0000000000) f d ∧
      (segFromDesc f.sel d).isCode = true) ∧
    ∃ t, exec m1664 { farL 0x402000 0x18 0x00209B0000000000 with ssp := 8 } = .next t :=
  ⟨farWitness_sound (cond := fun f d => (segFromDesc f.sel d).isCode) (by decide +kernel),
    isNext_sound (by decide +kernel)⟩

/-! ### Call gates -/

/-- The call of the vectors on state G. -/
def ptr33 : Instr := .callPtr1632Prot noPrefix 0 0x33

/-- The call of the vectors on V43. -/
def m1632 : Instr := .callM1632Prot noPrefix (.base 0 .none)

/-- Flat code of level 0; the gate of state G. -/
def code0 : Nat := 0x00CF9B000000FFFF
def gate6 : Nat := 0x0010EC0200085000
/-- V43. -/
def start43 : State := state43 0x0010EC0000085000 0x00000000FFFF8000
/-- V43 with a `GDTR` limit that ends one byte before the gate does. -/
def short43 : State := { start43 with gdtr := { base := 0x10000, limit := 0x4E } }

/-- Each clause of R200 and R201 in order (V74, V61 by `DPL`, by `RPL`, V62, V63, V64, V65, V75, a code
segment that is not present, and all tests passed). -/
theorem witness_GateChecks :
    (∃ f d, FarCallTo m1632 short43 f d ∧ isCallGate true d = true) ∧
    (∃ f d, FarCallTo m1632 (state43 0x0010EC0000085000 0x00000100FFFF8000) f d ∧
      isCallGate true d = true) ∧
    (∃ f d, FarCallTo ptr33 (stateG code0 0x00108C0200085000) f d ∧ isCallGate false d = true) ∧
    (∃ f d, FarCallTo ptr33 ((stateG code0 0x0010CC0200085000).setCpl 0) f d ∧ isCallGate false d = true) ∧
    (∃ f d, FarCallTo ptr33 (stateG code0 0x00106C0200085000) f d ∧ isCallGate false d = true) ∧
    (∃ f d, FarCallTo ptr33 (stateG code0 0x0010EC0200035000) f d ∧ isCallGate false d = true) ∧
    (∃ f d, FarCallTo ptr33 (stateG code0 0x0010EC0200385000) f d ∧ isCallGate false d = true) ∧
    (∃ f d, FarCallTo ptr33 (stateG code0 0x0010EC0200105000) f d ∧ isCallGate false d = true) ∧
    (∃ f d, FarCallTo m1632 (start43.setMem (putLe 0x10008 8 code0 start43.mem)) f d ∧
      isCallGate true d = true) ∧
    (∃ f d, FarCallTo ptr33 (stateG 0x00CF1B000000FFFF gate6) f d ∧ isCallGate false d = true) ∧
    (∃ f d, FarCallTo m1632 start43 f d ∧ isCallGate true d = true) ∧
    (∃ f d, FarCallTo ptr33 (stateG code0 gate6) f d ∧ isCallGate false d = true) :=
  ⟨farWitness_sound (cond := fun _ d => isCallGate true d) (by decide +kernel),
    farWitness_sound (cond := fun _ d => isCallGate true d) (by decide +kernel),
    farWitness_sound (cond := fun _ d => isCallGate false d) (by decide +kernel),
    farWitness_sound (cond := fun _ d => isCallGate false d) (by decide +kernel),
    farWitness_sound (cond := fun _ d => isCallGate false d) (by decide +kernel),
    farWitness_sound (cond := fun _ d => isCallGate false d) (by decide +kernel),
    farWitness_sound (cond := fun _ d => isCallGate false d) (by decide +kernel),
    farWitness_sound (cond := fun _ d => isCallGate false d) (by decide +kernel),
    farWitness_sound (cond := fun _ d => isCallGate true d) (by decide +kernel),
    farWitness_sound (cond := fun _ d => isCallGate false d) (by decide +kernel),
    farWitness_sound (cond := fun _ d => isCallGate true d) (by decide +kernel),
    farWitness_sound (cond := fun _ d => isCallGate false d) (by decide +kernel)⟩

/-- The outcomes of those clauses, as 95_test_vectors.md gives them. -/
theorem test_gate_checks :
    faultOf (exec m1632 short43) = some (.gp, some 0x40, .r201) ∧
    faultOf (exec m1632 (state43 0x0010EC0000085000 0x00000100FFFF8000)) = some (.gp, some 0x40, .r201) ∧
    faultOf (exec ptr33 (stateG code0 0x00108C0200085000)) = some (.gp, some 0x30, .r200) ∧
    faultOf (exec ptr33 ((stateG code0 0x0010CC0200085000).setCpl 0)) = some (.gp, some 0x30, .r200) ∧
    faultOf (exec ptr33 (stateG code0 0x00106C0200085000)) = some (.np, some 0x30, .r200) := by
  decide +kernel

theorem test_gate_code_checks :
    faultOf (exec ptr33 (stateG code0 0x0010EC0200035000)) = some (.gp, some 0, .r200) ∧
    faultOf (exec ptr33 (stateG code0 0x0010EC0200405000)) = some (.gp, some 0x40, .r200) ∧
    faultOf (exec ptr33 (stateG code0 0x0010EC0200105000)) = some (.gp, some 0x10, .r200) ∧
    faultOf (exec m1632 (start43.setMem (putLe 0x10008 8 code0 start43.mem))) = some (.gp, some 8, .r200) ∧
    faultOf (exec ptr33 (stateG 0x00CF1B000000FFFF gate6)) = some (.np, some 8, .r200) := by decide +kernel

/-- Whether a gate call goes to more privilege, as the obligations ask it. -/
def goesMore (s : State) (d h cd : BitVec 64) : Bool := goesToMorePrivilege (gateOf s.lma d h) cd s

/-- State G at level 0: the gate stays at the level (V71). -/
def sameG (sp : BitVec 64) (d1 gate : Nat) : State :=
  { (stateG d1 gate).setRsp sp with
    cpl := 0, cs := segFromDesc 0x18 0x00CF9B000000FFFF, ss := segFromDesc 0x10 0x00CF93000000FFFF }

/-- The same with a stack that takes no writes and a code segment not yet accessed. -/
def sameRo : State := readOnlySs (sameG 0x90000 0x00CF9A000000FFFF gate6)

/-- Stack pointers 3 and 4; a code segment of limit `0xFFFF` and a gate to `0x10000` and to `0xFFFF`; a
16-bit gate; a stack that takes no writes. -/
theorem witness_SamePrivilegeLegacyResult :
    ((sameG 3 code0 gate6).lma = false ∧
      (∃ f d h cd, GateCallTo ptr33 (sameG 3 code0 gate6) f d h cd ∧
        (!goesMore (sameG 3 code0 gate6) d h cd) = true) ∧
      faultOf (exec ptr33 (sameG 3 code0 gate6)) = some (.ss, some 0, .r215)) ∧
    (∃ f d h cd, GateCallTo ptr33 (sameG 4 0x00409B000000FFFF 0x0001EC0000080000) f d h cd ∧
      (!goesMore (sameG 4 0x00409B000000FFFF 0x0001EC0000080000) d h cd) = true) ∧
    faultOf (exec ptr33 (sameG 4 0x00409B000000FFFF 0x0001EC0000080000)) = some (.gp, some 0, .r215) ∧
    (∃ f d h cd, GateCallTo ptr33 (sameG 4 0x00409B000000FFFF 0x0000EC000008FFFF) f d h cd ∧
      (!goesMore (sameG 4 0x00409B000000FFFF 0x0000EC000008FFFF) d h cd) = true) ∧
    (after (exec ptr33 (sameG 4 0x00409B000000FFFF 0x0000EC000008FFFF)) ipSpCs) =
      some (0xFFFF, 0xFFFFFFFC, 0x08) ∧
    (∃ f d h cd, GateCallTo ptr33 (sameG 0x90000 code0 0x0000E40000085000) f d h cd ∧
      (!goesMore (sameG 0x90000 code0 0x0000E40000085000) d h cd) = true) ∧
    (after (exec ptr33 (sameG 0x90000 code0 0x0000E40000085000)) fun t => (ipSpCs t, memRead t 0x8FFFC 4)) =
      some ((0x5000, 0x8FFFC, 0x08), 0x00180007) ∧
    sameRo.lma = false ∧ stackWritable sameRo = false ∧
    (∃ f d h cd, GateCallTo ptr33 sameRo f d h cd ∧ (!goesMore sameRo d h cd && !cd.getLsbD 40) = true) ∧
    faultOf (exec ptr33 sameRo) = some (.gp, some 0, .r65) :=
  ⟨⟨by decide +kernel,
      gateWitness_sound (cond := fun d h cd => !goesMore (sameG 3 code0 gate6) d h cd) (by decide +kernel),
      by decide +kernel⟩,
    gateWitness_sound (cond := fun d h cd =>
      !goesMore (sameG 4 0x00409B000000FFFF 0x0001EC0000080000) d h cd) (by decide +kernel),
    by decide +kernel,
    gateWitness_sound (cond := fun d h cd =>
      !goesMore (sameG 4 0x00409B000000FFFF 0x0000EC000008FFFF) d h cd) (by decide +kernel),
    by decide +kernel,
    gateWitness_sound (cond := fun d h cd =>
      !goesMore (sameG 0x90000 code0 0x0000E40000085000) d h cd) (by decide +kernel),
    by decide +kernel, by decide +kernel, by decide +kernel,
    gateWitness_sound (cond := fun d h cd => !goesMore sameRo d h cd && !cd.getLsbD 40) (by decide +kernel),
    by decide +kernel⟩

/-- V43's gate called at level 0. -/
def same43 (sp : BitVec 64) (upper : Nat) : State :=
  { (state43 0x0010EC0000085000 upper).setRsp sp with
    cpl := 0, cs := segFromDesc 0x08 0x00209B0000000000, ss := segFromDesc 0x10 0x00CF93000000FFFF }

/-- V84: compatibility mode at level 0. -/
def compat84 : State :=
  { state43 0x0010EC0000085000 0 with
    cpl := 0, cs := segFromDesc 0x20 0x00CF9B000000FFFF, ss := segFromDesc 0x10 0x00CF93000000FFFF,
    ds := segFromDesc 0x10 0x00CF93000000FFFF }

theorem witness_SamePrivilege64Result :
    ((∃ f d h cd, GateCallTo m1632 (same43 0x0000800000000008 0) f d h cd ∧
        (!goesMore (same43 0x0000800000000008 0) d h cd) = true) ∧
      faultOf (exec m1632 (same43 0x0000800000000008 0)) = some (.ss, some 0, .r217)) ∧
    ((∃ f d h cd, GateCallTo m1632 (same43 0x00007FFFFFFFE000 0x8000) f d h cd ∧
        (!goesMore (same43 0x00007FFFFFFFE000 0x8000) d h cd) = true) ∧
      faultOf (exec m1632 (same43 0x00007FFFFFFFE000 0x8000)) = some (.gp, some 0, .r217)) ∧
    ((∃ f d h cd, GateCallTo m1632 (same43 0x0000800000000000 0x7FFF) f d h cd ∧
        (!goesMore (same43 0x0000800000000000 0x7FFF) d h cd) = true) ∧
      (after (exec m1632 (same43 0x0000800000000000 0x7FFF)) ipSpCs) =
        some (0x00007FFF00105000, 0x00007FFFFFFFFFF0, 0x08)) ∧
    compat84.mode = .compat ∧ compat84.lma = true ∧
    (∃ f d h cd, GateCallTo m1632 compat84 f d h cd ∧ (!goesMore compat84 d h cd) = true) :=
  ⟨⟨gateWitness_sound (cond := fun d h cd => !goesMore (same43 0x0000800000000008 0) d h cd)
        (by decide +kernel), by decide +kernel⟩,
    ⟨gateWitness_sound (cond := fun d h cd => !goesMore (same43 0x00007FFFFFFFE000 0x8000) d h cd)
        (by decide +kernel), by decide +kernel⟩,
    ⟨gateWitness_sound (cond := fun d h cd => !goesMore (same43 0x0000800000000000 0x7FFF) d h cd)
        (by decide +kernel), by decide +kernel⟩,
    by decide +kernel, by decide +kernel,
    gateWitness_sound (cond := fun d h cd => !goesMore compat84 d h cd) (by decide +kernel)⟩

/-- State G with another task register. -/
def withTr (s : State) (limit : BitVec 32) (kind : TssKind) : State :=
  { s with tr := { s.tr with limit := limit, kind := kind } }

/-- V66 and V76, at the limit itself; a 16-bit `TSS`. -/
theorem witness_TssLimitFaults :
    (∃ f d h cd, GateCallTo ptr33 (withTr (stateG code0 gate6) 8 .tss32) f d h cd ∧
      goesMore (withTr (stateG code0 gate6) 8 .tss32) d h cd = true) ∧
    faultOf (exec ptr33 (withTr (stateG code0 gate6) 8 .tss32)) = some (.ts, some 0x28, .r204) ∧
    (∃ f d h cd, GateCallTo ptr33 (withTr (stateG code0 gate6) 4 .tss16) f d h cd ∧
      goesMore (withTr (stateG code0 gate6) 4 .tss16) d h cd = true) ∧
    faultOf (exec ptr33 (withTr (stateG code0 gate6) 4 .tss16)) = some (.ts, some 0x28, .r204) ∧
    (∃ f d h cd, GateCallTo m1632 (withTr start43 10 .tss64) f d h cd ∧
      goesMore (withTr start43 10 .tss64) d h cd = true) ∧
    faultOf (exec m1632 (withTr start43 10 .tss64)) = some (.ts, some 0x50, .r204) ∧
    isNext (exec m1632 (withTr start43 11 .tss64)) = true :=
  ⟨gateWitness_sound (cond := goesMore (withTr (stateG code0 gate6) 8 .tss32)) (by decide +kernel),
    by decide +kernel,
    gateWitness_sound (cond := goesMore (withTr (stateG code0 gate6) 4 .tss16)) (by decide +kernel),
    by decide +kernel,
    gateWitness_sound (cond := goesMore (withTr start43 10 .tss64)) (by decide +kernel),
    by decide +kernel, by decide +kernel⟩

/-- State G with another stack selector in its `TSS`. -/
def withNewSs (sel : Nat) : State :=
  (stateG code0 gate6).setMem (putLe 0x20008 2 sel (stateG code0 gate6).mem)

/-- State G with another descriptor of the new stack, and another new stack pointer. -/
def withNewStack (sd sp : Nat) (s : State) : State :=
  s.setMem (putLe 0x20004 4 sp (putLe 0x10010 8 sd s.mem))

/-- V68, a selector outside the table, V67, V69 (each on its clause); state G passes them. -/
theorem witness_NewStackSegmentChecks :
    ((∃ f d h cd, GateCallTo ptr33 (withNewSs 3) f d h cd ∧ goesMore (withNewSs 3) d h cd = true) ∧
      faultOf (exec ptr33 (withNewSs 3)) = some (.ts, some 0, .r205)) ∧
    ((∃ f d h cd, GateCallTo ptr33 (withNewSs 0x38) f d h cd ∧ goesMore (withNewSs 0x38) d h cd = true) ∧
      faultOf (exec ptr33 (withNewSs 0x38)) = some (.ts, some 0x38, .r205)) ∧
    ((∃ f d h cd, GateCallTo ptr33 (withNewSs 0x13) f d h cd ∧ goesMore (withNewSs 0x13) d h cd = true) ∧
      faultOf (exec ptr33 (withNewSs 0x13)) = some (.ts, some 0x10, .r205)) ∧
    ((∃ f d h cd, GateCallTo ptr33 (withNewStack 0x00CF13000000FFFF 0x80000 (stateG code0 gate6)) f d h cd ∧
        goesMore (withNewStack 0x00CF13000000FFFF 0x80000 (stateG code0 gate6)) d h cd = true) ∧
      faultOf (exec ptr33 (withNewStack 0x00CF13000000FFFF 0x80000 (stateG code0 gate6))) =
        some (.ss, some 0x10, .r205)) :=
  ⟨⟨gateWitness_sound (cond := goesMore (withNewSs 3)) (by decide +kernel), by decide +kernel⟩,
    ⟨gateWitness_sound (cond := goesMore (withNewSs 0x38)) (by decide +kernel), by decide +kernel⟩,
    ⟨gateWitness_sound (cond := goesMore (withNewSs 0x13)) (by decide +kernel), by decide +kernel⟩,
    ⟨gateWitness_sound
        (cond := goesMore (withNewStack 0x00CF13000000FFFF 0x80000 (stateG code0 gate6)))
        (by decide +kernel), by decide +kernel⟩⟩

/-- The hypotheses of the obligations on a more privileged call outside IA-32e mode, on the new stack. -/
def moreReady (s : State) (d h cd : BitVec 64) : Bool :=
  let inner := tssInnerStack s (descDpl cd)
  goesMore s d h cd && !s.lma &&
    decide (tssStackAddress s.tr.kind (descDpl cd) + tssStackLast s.tr.kind ≤ s.tr.limit.toNat) &&
    !isNullSel inner.ss && rplOf inner.ss == descDpl cd &&
    match fetchDescriptor s inner.ss with
    | some sd => descDpl sd == descDpl cd && (segFromDesc inner.ss sd).isWritableData && descP sd
    | none => false

/-- State G with a 16-bit gate of one parameter to offset `0x5000` (V72), shadow stacks at levels 3 and 0,
and a token. -/
def cetG (token : Nat) : State :=
  let s := stateG code0 0x0000E40100085000
  { s with
    cr4 := 0x800000, uCet := 1, sCet := 0x5, ssp := 0x300FFC, pl0Ssp := 0x500FF8,
    mem := putLe 0x500FF8 8 token s.mem }

/-- V70, one byte of limit too few for the gate's offset, a parameter outside the old stack, a busy token
(V80), and completion (V60, V79). -/
theorem witness_MorePrivilegeLegacyResult :
    ((∃ f d h cd, GateCallTo ptr33 (withNewStack 0x004093000000FFFF 0x10 (stateG code0 gate6)) f d h cd ∧
        moreReady (withNewStack 0x004093000000FFFF 0x10 (stateG code0 gate6)) d h cd = true) ∧
      faultOf (exec ptr33 (withNewStack 0x004093000000FFFF 0x10 (stateG code0 gate6))) =
        some (.ss, some 0x10, .r206)) ∧
    ((∃ f d h cd, GateCallTo ptr33 (stateG 0x00419B0000004FFF gate6) f d h cd ∧
        moreReady (stateG 0x00419B0000004FFF gate6) d h cd = true) ∧
      faultOf (exec ptr33 (stateG 0x00419B0000004FFF gate6)) = some (.gp, some 0, .r206)) ∧
    ((∃ f d h cd, GateCallTo ptr33 ((stateG code0 gate6).setRsp 0xFFFFFFFA) f d h cd ∧
        moreReady ((stateG code0 gate6).setRsp 0xFFFFFFFA) d h cd = true) ∧
      faultOf (exec ptr33 ((stateG code0 gate6).setRsp 0xFFFFFFFA)) = some (.ss, some 0, .r214)) ∧
    ((∃ f d h cd, GateCallTo ptr33 (cetG 0x500FF9) f d h cd ∧ moreReady (cetG 0x500FF9) d h cd = true) ∧
      faultOf (exec ptr33 (cetG 0x500FF9)) = some (.gp, some 0, .r212)) ∧
    ((∃ f d h cd, GateCallTo ptr33 (cetG 0x500FF8) f d h cd ∧ moreReady (cetG 0x500FF8) d h cd = true) ∧
      (after (exec ptr33 (cetG 0x500FF8)) fun t => (ipSpCs t, t.ssp, t.pl3Ssp, t.sCet)) =
        some ((0x5000, 0x7FFF6, 0x08), 0x500FF8, 0x300FFC, 0x805)) ∧
    ((∃ f d h cd, GateCallTo ptr33 (stateG code0 gate6) f d h cd ∧
        moreReady (stateG code0 gate6) d h cd = true) ∧
      isNext (exec ptr33 (stateG code0 gate6)) = true) :=
  ⟨⟨gateWitness_sound (cond := moreReady (withNewStack 0x004093000000FFFF 0x10 (stateG code0 gate6)))
        (by decide +kernel), by decide +kernel⟩,
    ⟨gateWitness_sound (cond := moreReady (stateG 0x00419B0000004FFF gate6)) (by decide +kernel),
      by decide +kernel⟩,
    ⟨gateWitness_sound (cond := moreReady ((stateG code0 gate6).setRsp 0xFFFFFFFA)) (by decide +kernel),
      by decide +kernel⟩,
    ⟨gateWitness_sound (cond := moreReady (cetG 0x500FF9)) (by decide +kernel), by decide +kernel⟩,
    ⟨gateWitness_sound (cond := moreReady (cetG 0x500FF8)) (by decide +kernel), by decide +kernel⟩,
    ⟨gateWitness_sound (cond := moreReady (stateG code0 gate6)) (by decide +kernel), by decide +kernel⟩⟩

/-- The words V72 and V79 put in memory. -/
theorem test_v72_v79 : (after (exec ptr33 (cetG 0x500FF8)) fun t =>
      (memRead t 0x7FFFE 2, memRead t 0x7FFFC 2, memRead t 0x7FFFA 2, memRead t 0x7FFF8 2,
        memRead t 0x7FFF6 2, memRead t 0x500FF8 8)) =
    some (0x23, 0x0000, 0x1111, 0x1B, 0x0007, 0x500FF9) := by decide +kernel

/-- V43 with the new stack pointer given. -/
def sp43 (sp upper : Nat) : State :=
  (state43 0x0010EC0000085000 upper).setMem (putLe 0x20004 8 sp (state43 0x0010EC0000085000 upper).mem)

/-- V82: the supervisor shadow-stack pointer is not aligned, so the token fails. -/
def cet43 : State := { start43 with cr4 := 0x800020, sCet := 1, pl0Ssp := 0x500FFC }

theorem witness_MorePrivilege64Result :
    ((∃ f d h cd, GateCallTo m1632 (sp43 0x0000800000000010 0) f d h cd ∧
        goesMore (sp43 0x0000800000000010 0) d h cd = true) ∧
      faultOf (exec m1632 (sp43 0x0000800000000010 0)) = some (.ss, some 0, .r209)) ∧
    ((∃ f d h cd, GateCallTo m1632 (state43 0x0010EC0000085000 0x8000) f d h cd ∧
        goesMore (state43 0x0010EC0000085000 0x8000) d h cd = true) ∧
      faultOf (exec m1632 (state43 0x0010EC0000085000 0x8000)) = some (.gp, some 0, .r209)) ∧
    ((∃ f d h cd, GateCallTo m1632 cet43 f d h cd ∧ goesMore cet43 d h cd = true) ∧
      faultOf (exec m1632 cet43) = some (.gp, some 0, .r212)) ∧
    ((∃ f d h cd, GateCallTo m1632 start43 f d h cd ∧ goesMore start43 d h cd = true) ∧
      start43.lma = true ∧ start43.tr.kind = .tss64 ∧ 0 * 8 + 11 ≤ start43.tr.limit.toNat ∧
      isNext (exec m1632 start43) = true) :=
  ⟨⟨gateWitness_sound (cond := goesMore (sp43 0x0000800000000010 0)) (by decide +kernel), by decide +kernel⟩,
    ⟨gateWitness_sound (cond := goesMore (state43 0x0010EC0000085000 0x8000)) (by decide +kernel),
      by decide +kernel⟩,
    ⟨gateWitness_sound (cond := goesMore cet43) (by decide +kernel), by decide +kernel⟩,
    gateWitness_sound (cond := goesMore start43) (by decide +kernel), by decide +kernel⟩

theorem witness_MorePrivilegeRegisters :
    ((∃ f d h cd, GateCallTo ptr33 (cetG 0x500FF8) f d h cd ∧ goesMore (cetG 0x500FF8) d h cd = true) ∧
      ∃ t, exec ptr33 (cetG 0x500FF8) = .next t) ∧
    ((∃ f d h cd, GateCallTo m1632 start43 f d h cd ∧ goesMore start43 d h cd = true) ∧
      ∃ t, exec m1632 start43 = .next t) :=
  ⟨⟨gateWitness_sound (cond := goesMore (cetG 0x500FF8)) (by decide +kernel),
      isNext_sound (by decide +kernel)⟩,
    gateWitness_sound (cond := goesMore start43) (by decide +kernel), isNext_sound (by decide +kernel)⟩

/-- V83: the caller's stack segment is of level 1. -/
def caller1 : State := { cetG 0x500FF8 with ss := { (cetG 0x500FF8).ss with dpl := 1 } }

/-- Without a shadow stack at the new level; from level 3; from another level. -/
theorem witness_SupervisorShadowStack :
    ((∃ f d h cd, GateCallTo ptr33 (stateG code0 gate6) f d h cd ∧
        goesMore (stateG code0 gate6) d h cd = true) ∧
      shadowStackEnabled (stateG code0 gate6) 0 = false ∧
      ∃ t, exec ptr33 (stateG code0 gate6) = .next t) ∧
    ((∃ f d h cd, GateCallTo ptr33 (cetG 0x500FF8) f d h cd ∧ goesMore (cetG 0x500FF8) d h cd = true) ∧
      memWf (cetG 0x500FF8).mem = true ∧ shadowStackEnabled (cetG 0x500FF8) 0 = true ∧
      (cetG 0x500FF8).ss.dpl = 3 ∧ ∃ t, exec ptr33 (cetG 0x500FF8) = .next t) ∧
    ((∃ f d h cd, GateCallTo ptr33 caller1 f d h cd ∧ goesMore caller1 d h cd = true) ∧
      memWf caller1.mem = true ∧ shadowStackEnabled caller1 0 = true ∧ caller1.ss.dpl ≠ 3 ∧
      ∃ t, exec ptr33 caller1 = .next t ∧
        (t.ssp, memRead t 0x500FF0 8, memRead t 0x500FE8 8, memRead t 0x500FE0 8, memRead t 0x500FF8 8) =
          (0x500FE0, 0x1B, 0x400007, 0x300FFC, 0x500FF9)) :=
  ⟨⟨gateWitness_sound (cond := goesMore (stateG code0 gate6)) (by decide +kernel), by decide +kernel,
      isNext_sound (by decide +kernel)⟩,
    ⟨gateWitness_sound (cond := goesMore (cetG 0x500FF8)) (by decide +kernel), by decide +kernel,
      by decide +kernel, by decide +kernel, isNext_sound (by decide +kernel)⟩,
    gateWitness_sound (cond := goesMore caller1) (by decide +kernel), by decide +kernel,
    by decide +kernel, by decide +kernel, after_sound (by decide +kernel)⟩

theorem witness_GateFrame :
    ((∃ f d h cd, GateCallTo ptr33 (sameG 4 code0 gate6) f d h cd ∧
        (!goesMore (sameG 4 code0 gate6) d h cd) = true) ∧
      ∃ t, exec ptr33 (sameG 4 code0 gate6) = .next t) ∧
    ((∃ f d h cd, GateCallTo m1632 (same43 0x00007FFFFFFFE000 0) f d h cd ∧
        (!goesMore (same43 0x00007FFFFFFFE000 0) d h cd) = true) ∧
      ∃ t, exec m1632 (same43 0x00007FFFFFFFE000 0) = .next t) ∧
    ((∃ f d h cd, GateCallTo ptr33 (cetG 0x500FF8) f d h cd ∧ moreReady (cetG 0x500FF8) d h cd = true) ∧
      ∃ t, exec ptr33 (cetG 0x500FF8) = .next t) ∧
    ((∃ f d h cd, GateCallTo m1632 start43 f d h cd ∧ goesMore start43 d h cd = true) ∧
      ∃ t, exec m1632 start43 = .next t) :=
  ⟨⟨gateWitness_sound (cond := fun d h cd => !goesMore (sameG 4 code0 gate6) d h cd) (by decide +kernel),
      isNext_sound (by decide +kernel)⟩,
    ⟨gateWitness_sound (cond := fun d h cd => !goesMore (same43 0x00007FFFFFFFE000 0) d h cd)
        (by decide +kernel), isNext_sound (by decide +kernel)⟩,
    ⟨gateWitness_sound (cond := moreReady (cetG 0x500FF8)) (by decide +kernel),
      isNext_sound (by decide +kernel)⟩,
    gateWitness_sound (cond := goesMore start43) (by decide +kernel), isNext_sound (by decide +kernel)⟩

/-! ### Task switches -/

/-- State G with a system descriptor at index 6 and one at index 5. -/
def taskG (d6 d5 : Nat) : State := (stateG code0 d6).setMem (putLe 0x10028 8 d5 (stateG code0 d6).mem)

/-- A task gate of `DPL` 2, one not present (V91), one whose selector names the `LDT` (V90), one past the
table, one to a code segment, to a busy `TSS` (V92), to one not present, and to an available one. -/
theorem witness_TaskGateChecks :
    (∃ f d, FarCallTo ptr33 (taskG 0x0000C50000280000 0x0000890200000067) f d ∧
      (!descS d && descType d == 5) = true) ∧
    faultOf (exec ptr33 (taskG 0x0000C50000280000 0x0000890200000067)) = some (.gp, some 0x30, .r240) ∧
    faultOf (exec ptr33 (taskG 0x0000650000280000 0x0000890200000067)) = some (.np, some 0x30, .r240) ∧
    faultOf (exec ptr33 (taskG 0x0000E50000440000 0x0000890200000067)) = some (.gp, some 0x44, .r240) ∧
    faultOf (exec ptr33 (taskG 0x0000E50000380000 0x0000890200000067)) = some (.gp, some 0x38, .r240) ∧
    faultOf (exec ptr33 (taskG 0x0000E50000080000 0x0000890200000067)) = some (.gp, some 0x08, .r240) ∧
    faultOf (exec ptr33 (taskG 0x0000E50000280000 0x00008B0200000067)) = some (.gp, some 0x28, .r240) ∧
    faultOf (exec ptr33 (taskG 0x0000E50000280000 0x0000090200000067)) = some (.np, some 0x28, .r240) ∧
    (∃ f d, FarCallTo ptr33 (taskG 0x0000E50000280000 0x0000890200000067) f d ∧
      (!descS d && descType d == 5) = true) ∧
    refusedAs (exec ptr33 (taskG 0x0000E50000280000 0x0000890200000067)) .taskSwitch = true :=
  ⟨farWitness_sound (cond := fun _ d => !descS d && descType d == 5) (by decide +kernel),
    by decide +kernel, by decide +kernel, by decide +kernel, by decide +kernel, by decide +kernel,
    by decide +kernel, by decide +kernel,
    farWitness_sound (cond := fun _ d => !descS d && descType d == 5) (by decide +kernel),
    by decide +kernel⟩

/-- V95 (`DPL` below `CPL`), V93 (busy), not present, V94 (refused). -/
theorem witness_TssSelectorChecks :
    (∃ f d, FarCallTo ptr33 (taskG 0x0000C90300000067 0) f d ∧ (!descS d && descType d == 9) = true) ∧
    faultOf (exec ptr33 (taskG 0x0000C90300000067 0)) = some (.gp, some 0x30, .r241) ∧
    faultOf (exec ptr33 (taskG 0x0000EB0300000067 0)) = some (.gp, some 0x30, .r241) ∧
    faultOf (exec ptr33 (taskG 0x0000690300000067 0)) = some (.np, some 0x30, .r241) ∧
    (∃ f d, FarCallTo ptr33 (taskG 0x0000E90300000067 0) f d ∧ (!descS d && descType d == 9) = true) ∧
    refusedAs (exec ptr33 (taskG 0x0000E90300000067 0)) .taskSwitch = true :=
  ⟨farWitness_sound (cond := fun _ d => !descS d && descType d == 9) (by decide +kernel),
    by decide +kernel, by decide +kernel, by decide +kernel,
    farWitness_sound (cond := fun _ d => !descS d && descType d == 9) (by decide +kernel),
    by decide +kernel⟩

/-- V96 and a task gate in IA-32e mode. -/
theorem witness_NoTaskSwitchInIa32e :
    (∃ f d, FarCallTo m1632 (withDesc3 (stateL [] [0, 0, 0, 0, 0x18, 0]) 0x0000890300000067) f d ∧
      (!descS d && descType d == 9) = true) ∧
    (∃ f d, FarCallTo m1632 (withDesc3 (stateL [] [0, 0, 0, 0, 0x18, 0]) 0x0000850000280000) f d ∧
      (!descS d && descType d == 5) = true) ∧ (stateL [] []).lma = true :=
  ⟨farWitness_sound (cond := fun _ d => !descS d && descType d == 9) (by decide +kernel),
    farWitness_sound (cond := fun _ d => !descS d && descType d == 5) (by decide +kernel),
    by decide +kernel⟩

/-! ### Whole-machine rules -/

theorem witness_CompletedCallsKeepTheRest :
    ∃ t, step (stateG code0 gate6) = .next t := isNext_sound (by decide +kernel)
theorem witness_PrivilegeChangesOnlyThroughGates :
    ∃ t, exec ptr33 (stateG code0 gate6) = .next t ∧ t.cpl = 0 := after_sound (by decide +kernel)

/-- Compatibility mode, a code segment with `L` 1 at index 1. -/
def compatToLong : Instr := .callPtr1632Prot noPrefix 0x2000 0x08

/-- From 64-bit to compatibility mode (V56) and back. -/
theorem witness_ModeChangesOnlyWithinIa32e :
    ((stateL [] [0, 0x20, 0, 0, 0x20, 0]).mode = .long64 ∧
      ∃ t, exec m1632 (stateL [] [0, 0x20, 0, 0, 0x20, 0]) = .next t ∧ t.mode = .compat) ∧
    (compat84.mode = .compat ∧ ∃ t, exec compatToLong compat84 = .next t ∧ t.mode = .long64) :=
  ⟨⟨by decide +kernel, after_sound (by decide +kernel)⟩, by decide +kernel, after_sound (by decide +kernel)⟩

/-- Faults before any write: of a near call (V10), a real-mode far call, an operand read, a gate's test; and
after some: R65 on a stack that takes no writes, R180 (V51), R212 in both modes, R214. -/
theorem witness_FaultsLeaveRegisters :
    farOperand (.callM1632Prot noPrefix (.disp32 0xFFFFFFFB)) (stateF []) = some (.error .gp) ∧
    (faultOf (exec (.callRel32 p66 0x10000) (realAt 0x3000 0x100 0x2000 0x80 [])) =
        some (.gp, some 0, .r142) ∧
      faultOf (exec (.callPtr1632Real p66 0x10000 0x3000) (realAt 0x1000 0 0x2000 8 [])) =
        some (.gp, some 0, .r162) ∧
      faultOf (exec (.callM1632Prot noPrefix (.disp32 0xFFFFFFFB)) (stateF [])) = some (.gp, some 0, .r65) ∧
      faultOf (exec ptr33 (stateG code0 0x00106C0200085000)) = some (.np, some 0x30, .r200)) ∧
    (faultOf (exec ptr33 sameRo) = some (.gp, some 0, .r65) ∧
      faultOf (exec (ptr18 0x2000) (shadow0 0x100300FF8 0x00CF9F000000FFFF)) = some (.gp, some 0, .r180) ∧
      faultOf (exec ptr33 (cetG 0x500FF9)) = some (.gp, some 0, .r212) ∧
      faultOf (exec m1632 cet43) = some (.gp, some 0, .r212) ∧
      faultOf (exec ptr33 ((stateG code0 gate6).setRsp 0xFFFFFFFA)) = some (.ss, some 0, .r214)) ∧
    faultOf (step (stateF (List.replicate 15 0x66))) = some (.gp, some 0, .r113) :=
  ⟨by rfl, by decide +kernel, by decide +kernel, by decide +kernel⟩

/-- `#UD`, `#GP`, `#SS`, `#NP` and `#TS`. -/
theorem witness_ErrorCodes :
    faultOf (exec (.illegal9A64 noPrefix) (stateL [] [])) = some (.ud, none, .r113) ∧
    faultOf (exec (.callPtr1632Prot noPrefix 0 0x1B) (stateF [])) = some (.gp, some 0x18, .r177) ∧
    faultOf (exec (.callRel64 noPrefix 0) noRoomL) = some (.ss, some 0, .r143) ∧
    faultOf (exec ptr33 (stateG code0 0x00106C0200085000)) = some (.np, some 0x30, .r200) ∧
    faultOf (exec ptr33 (withNewSs 0x13)) = some (.ts, some 0x10, .r205) := by decide +kernel

/-- The interface runs a table word as the first instruction after reset: `E8` with zeros, `CALL rel16`. -/
theorem test_table_word : decodeTableWord 8 0xE8 = some (.callRel16 noPrefix 0) ∧
    (after (step (State.reset.withFetchWord 8 0xE8)) fun t => (t.rip, t.gpr.rsp)) =
      some (0xFFF3, 0xFFFE) := by decide +kernel

end Sys2Proof.Tests
end

section
/-! The state: what reset gives (10_state.md R42), when CET is enabled (R37, R38), and what no step changes
(R24, R25, R28, R30 to R32, R36). -/

namespace Sys2Proof.Machine

/-! ## Reset (10_state.md R42) -/

/-- `CR0.PE` is 0 after reset, so no other bit is asked for the mode (R29). -/
@[simp] theorem State.reset_mode : State.reset.mode = .real := rfl

/-- The first fetch is at the top of the 32-bit space: `CS.base + EIP` (R20, R42). -/
theorem fetchLinear_reset : fetchLinear State.reset = 0xFFFFFFF0#64 := by
  have hm : (State.reset.mode == Mode.long64) = false := by rw [State.reset_mode]; rfl
  rw [fetchLinear, hm]
  rfl

/-- Every general register is 0 after reset, `RAX` and `RDX` by log entry 3. -/
theorem gprGet_resetGprs (i : BitVec 4) : gprGet resetGprs i = 0 := by
  unfold gprGet
  split <;> rfl

/-- Settles O12, by evaluation of `State.reset`, register by register. -/
theorem resetValues : Obligations.ResetValues := by
  unfold Obligations.ResetValues
  have hdata : resetDataSeg.isWritableData = true := by decide
  have hseg : ∀ g ∈ [State.reset.ss, State.reset.ds, State.reset.es, State.reset.fs, State.reset.gs],
      g = resetDataSeg := by
    intro g hg
    simpa [State.reset] using hg
  refine ⟨rfl, rfl, rfl, rfl, rfl, rfl, State.reset_mode, fetchLinear_reset,
    rfl, rfl, rfl, rfl, rfl, rfl, rfl, rfl, ?dataSegments, fun i _ _ => gprGet_resetGprs i,
    rfl, rfl, rfl, rfl, rfl, rfl, rfl, rfl, rfl, rfl, rfl, rfl, rfl, rfl, rfl⟩
  case dataSegments =>
    intro g hg
    rw [hseg g hg]
    exact ⟨rfl, rfl, rfl, rfl, hdata, rfl⟩

/-! ## The CET predicates (10_state.md R37, R38) -/

/-- CET is on when `CR4.CET` and `CR0.PE` are 1 and `EFLAGS.VM` is 0 (R28, R34). -/
theorem cetActive_iff (s : State) : cetActive s = true ↔
    s.cr4.getLsbD 23 = true ∧ s.cr0.getLsbD 0 = true ∧ s.eflags.getLsbD 17 = false := by
  simp only [cetActive, State.pe, State.vm, State.cr4Cet, Bool.and_eq_true, Bool.not_eq_true']
  tauto

/-- The CET register of a level is `IA32_U_CET` at 3 and `IA32_S_CET` below (R34). -/
theorem cetOf_eq (s : State) (level : BitVec 2) :
    cetOf s level = if level = 3 then s.uCet else s.sCet := by
  simp [cetOf]

theorem shadowStackEnabled_iff (s : State) (level : BitVec 2) : shadowStackEnabled s level = true ↔
    s.cpu.hasCetSs = true ∧ cetActive s = true ∧ (cetOf s level).getLsbD 0 = true := by
  simp only [shadowStackEnabled, cetShStkEn, Bool.and_eq_true]
  tauto

theorem endbranchEnabled_iff (s : State) (level : BitVec 2) : endbranchEnabled s level = true ↔
    s.cpu.hasCetIbt = true ∧ cetActive s = true ∧ (cetOf s level).getLsbD 2 = true := by
  simp only [endbranchEnabled, cetEndbrEn, Bool.and_eq_true]
  tauto

theorem endbranchEnabledAndNotSuppressed_iff (s : State) (level : BitVec 2) :
    endbranchEnabledAndNotSuppressed s level = true ↔
      endbranchEnabled s level = true ∧ (cetOf s level).getLsbD 10 = false := by
  simp [endbranchEnabledAndNotSuppressed, cetSuppress]

/-- Settles O60, from the meaning of each predicate in bits of the registers. -/
theorem cetPredicates : Obligations.CetPredicates := by
  intro s level
  simp only [shadowStackEnabled_iff, endbranchEnabledAndNotSuppressed_iff, endbranchEnabled_iff,
    cetActive_iff, cetNoTrackEn, cetOf_eq, and_assoc, and_self]

/-! ## The frame of a step (10_state.md R24, R25, R28, R30 to R32, R36) -/

/-- The two ways to say what a completed `CALL` leaves alone agree on the general registers: all but the
fourth, the stack pointer (R24). -/
theorem SameRest.keepsRest {s t : State} (h : SameRest s t) : keepsRest s t := by
  have hgpr : ∀ i : BitVec 4, i ≠ 4#4 → gprGet t.gpr i = gprGet s.gpr i := by
    intro i hi
    rw [h.gpr, gprGet_setRsp _ _ hi]
  exact ⟨h.eflags, h.cr0, h.cr4, h.efer, h.es, h.ds, h.fs, h.gs, h.gdtr, h.idtr, h.ldtr, h.tr, h.pl0Ssp,
    h.pl1Ssp, h.pl2Ssp, h.cpu, hgpr⟩

/-- A step completes exactly when the bytes fetched decode to an instruction that completes. -/
theorem step_next {s t : State} : step s = .next t ↔
    ∃ i, decode s.ctx (fetchWindow s) = .instr i ∧ exec i s = .next t := by
  unfold step
  cases decode s.ctx (fetchWindow s) <;> simp [stepDecoded, takeException]

theorem RunGrows.farReal16 {f : FarPtr} {ret : BitVec 64} {r r' : Run}
    (h : farReal16 f ret r = .ok r') : RunGrows r r' := by
  obtain ⟨_, _, rfl⟩ := farReal16_ok.1 h
  exact RunGrows.farRealDone _ _ _ _

theorem RunGrows.farReal32 {f : FarPtr} {ret : BitVec 64} {r r' : Run}
    (h : farReal32 f ret r = .ok r') : RunGrows r r' := by
  obtain ⟨_, _, _, rfl⟩ := farReal32_ok.1 h
  exact RunGrows.farRealDone _ _ _ _

/-- A body that reads a far pointer first grows a run when the rest does: reading changes nothing
(20_memory.md R68). -/
theorem RunGrows.readFarPtr_bind {r r' : Run} {p : Prefixes} {ret : BitVec 64} {k : Size} {m : Mem}
    {rest : FarPtr → Except Halt Run} (hrest : ∀ f, rest f = .ok r' → RunGrows r r')
    (h : (readFarPtr r p ret k m >>= rest) = .ok r') : RunGrows r r' := by
  obtain ⟨f, _, hf⟩ := except_bind_ok.1 h
  exact hrest f hf

/-- The body each form runs under `runCall`: what `exec` does once the form exists and carries no `LOCK`. -/
def bodyOf (i : Instr) (s : State) : Run → Except Halt Run :=
  match i with
  | .callRel16 _ rel =>
    nearTransfer .s16 .r141 (relTarget .s16 (nrip i s) (rel.signExtend 64)) (nrip i s) (rel != 0#16)
  | .callRel32 _ rel =>
    nearTransfer .s32 .r142 (relTarget .s32 (nrip i s) (rel.signExtend 64)) (nrip i s) (rel != 0#32)
  | .callRel64 _ rel =>
    nearTransfer .s64 .r143 (relTarget .s64 (nrip i s) (rel.signExtend 64)) (nrip i s) (rel != 0#32)
  | .callRm16 p o => nearIndirect .s16 .r144 p o (nrip i s)
  | .callRm32 p o => nearIndirect .s32 .r145 p o (nrip i s)
  | .callRm64 p o => nearIndirect .s64 .r146 p o (nrip i s)
  | .callPtr1616Real _ off sel => farReal16 { off := off.setWidth 64, sel := sel } (nrip i s)
  | .callPtr1616Prot _ off sel => farProtected .s16 { off := off.setWidth 64, sel := sel } (nrip i s)
  | .callPtr1632Real _ off sel => farReal32 { off := off.setWidth 64, sel := sel } (nrip i s)
  | .callPtr1632Prot _ off sel => farProtected .s32 { off := off.setWidth 64, sel := sel } (nrip i s)
  | .callM1616Real p m => fun r => readFarPtr r p (nrip i s) .s16 m >>= (farReal16 · (nrip i s) r)
  | .callM1616Prot p m => fun r => readFarPtr r p (nrip i s) .s16 m >>= (farProtected .s16 · (nrip i s) r)
  | .callM1632Real p m => fun r => readFarPtr r p (nrip i s) .s32 m >>= (farReal32 · (nrip i s) r)
  | .callM1632Prot p m => fun r => readFarPtr r p (nrip i s) .s32 m >>= (farProtected .s32 · (nrip i s) r)
  | .callM1664 p m => fun r => readFarPtr r p (nrip i s) .s64 m >>= (farProtected .s64 · (nrip i s) r)
  | .illegal9A64 _ => raiseUd
  | .illegalFF3Reg _ _ => raiseUd

/-- Every arm of `exec` is its body under `runCall`. -/
theorem exec_eq_runCall (i : Instr) (s : State) : exec i s = runCall i s (bodyOf i s) := by
  cases i <;> rfl

/-- An instruction completes exactly when its form exists here, it carries no `LOCK`, and its body
answers. -/
theorem exec_next {i : Instr} {s t : State} : exec i s = .next t ↔
    instrFits s.ctx i = true ∧ (prefixesOfInstr i).lock = false ∧
      ∃ r, bodyOf i s (startRun s) = .ok r ∧ t = r.st := by
  rw [exec_eq_runCall, runCall_next]

/-- Every body that answers grew its run: the two undefined encodings never answer (R113), and each other
form ends in a near transfer or in one of the far transfers. -/
theorem RunGrows.bodyOf {i : Instr} {s : State} {r r' : Run} (h : bodyOf i s r = .ok r') :
    RunGrows r r' := by
  cases i with
  | callRel16 | callRel32 | callRel64 => exact RunGrows.nearTransfer h
  | callRm16 | callRm32 | callRm64 => exact RunGrows.nearIndirect h
  | callPtr1616Real => exact RunGrows.farReal16 h
  | callPtr1632Real => exact RunGrows.farReal32 h
  | callPtr1616Prot | callPtr1632Prot => exact RunGrows.farProtected h
  | callM1616Real => exact RunGrows.readFarPtr_bind (fun _ => RunGrows.farReal16) h
  | callM1632Real => exact RunGrows.readFarPtr_bind (fun _ => RunGrows.farReal32) h
  | callM1616Prot | callM1632Prot | callM1664 =>
    exact RunGrows.readFarPtr_bind (fun _ => RunGrows.farProtected) h
  | illegal9A64 | illegalFF3Reg => simp [Machine.bodyOf, raiseUd] at h

theorem exec_next_sameRest {i : Instr} {s t : State} (h : exec i s = .next t) : SameRest s t := by
  obtain ⟨_, _, r, hbody, rfl⟩ := exec_next.1 h
  exact (RunGrows.bodyOf hbody).rest

/-- Settles O51: a step that completes is an instruction that completes, and every operation an
instruction is written in keeps the rest. -/
theorem completedCallsKeepTheRest : Obligations.CompletedCallsKeepTheRest := by
  intro s t h
  obtain ⟨_, _, hexec⟩ := step_next.1 h
  exact (exec_next_sameRest hexec).keepsRest

end Sys2Proof.Machine
end

section
/-! The memory of the machine: one step and its fetch (20_memory.md R89), canonical addresses (R81),
segment-relative accesses (R61, R65, R82), loads and stores (R63, R64) and the stack (R66, R67). -/

namespace Sys2Proof.Machine

/-! ## One step (R89) -/

/-- A step runs what the decoder gives (R89, 30_encoding.md R111). -/
theorem step_of_decode {s : State} {i : Instr} (h : decode s.ctx (fetchWindow s) = .instr i) :
    step s = exec i s := by
  rw [step, h]
  rfl

/-- Settles O6, from the definition of a step. -/
theorem stepRunsTheDecodedInstruction : Obligations.StepRunsTheDecodedInstruction :=
  fun _ _ => step_of_decode

/-- Settles O9: a step that completes is an instruction that completes, and every operation an instruction is
written in keeps the canonical form. -/
theorem stepKeepsMemoryForm : Obligations.StepKeepsMemoryForm := by
  intro s t hwf h
  obtain ⟨i, _, hexec⟩ := step_next.1 h
  obtain ⟨_, _, r, hbody, rfl⟩ := exec_next.1 hexec
  exact (RunGrows.bodyOf hbody).wf hwf

/-! ## The fetch (R89) -/

/-- No byte may be fetched when the first may not. -/
theorem fetchWindow_eq_nil {s : State} (h : fetchOk s 0 = false) : fetchWindow s = [] := by
  simp [fetchWindow, fetchFrom, h]

/-- No bytes are no whole instruction. -/
theorem decode_nil (c : Ctx) : decode c [] = .truncated := rfl

/-- Bytes that end inside the instruction are `#GP(0)` with nothing written (R89). -/
theorem step_of_truncated {s : State} (h : decode s.ctx (fetchWindow s) = .truncated) :
    faultsClean (step s) s .gp 0 .r89 := by
  rw [step, h]
  exact congrArg (fun t => Host.Outcome.fault (Fault.exception .gp (some 0) .r89 t)) (faultState_nil s)

/-- Which bytes may be fetched, by mode (R89). -/
theorem fetchOk_eq (s : State) (j : Nat) : fetchOk s j =
    if s.mode = .long64 then canonical s.cpu.laWidth (s.rip + BitVec.ofNat 64 j)
    else inLimit s.cs (s.rip.toNat % 2 ^ 32 + j) := by
  simp only [fetchOk, beq_iff_eq, viewOf_toNat, Size.bits]

/-- Settles O8: where the first byte may not be fetched, the bytes are none, which are truncated. -/
theorem fetchFaults : Obligations.FetchFaults := by
  intro s
  refine ⟨fun h => step_of_truncated ?_, step_of_truncated, fetchOk_eq s⟩
  rw [fetchWindow_eq_nil h, decode_nil]

/-- Bytes that may be fetched and stand in memory from offset `i` on are the first of those fetched. -/
theorem fetchFrom_of_mem {s : State} {l : List Byte} {n i : Nat} (hlen : l.length ≤ n)
    (h : ∀ j, j < l.length → fetchOk s (i + j) = true ∧
      l[j]? = some (memGet s.mem (byteAddr s (fetchLinear s) (i + j)))) :
    ∃ tail, fetchFrom s n i = l ++ tail := by
  induction l generalizing n i with
  | nil => exact ⟨_, rfl⟩
  | cons b l ih =>
    obtain ⟨n, rfl⟩ : ∃ k, n = k + 1 := ⟨n - 1, by simp at hlen; omega⟩
    obtain ⟨hok, hb⟩ := h 0 (by simp)
    obtain ⟨tail, htail⟩ : ∃ tail, fetchFrom s n (i + 1) = l ++ tail := by
      refine ih (by simpa using hlen) fun j hj => ?_
      obtain ⟨hok', hb'⟩ := h (j + 1) (by simpa using hj)
      rw [show i + 1 + j = i + (j + 1) by omega]
      exact ⟨hok', by simpa using hb'⟩
    have hb : b = memGet s.mem (byteAddr s (fetchLinear s) i) := by simpa using hb
    rw [Nat.add_zero] at hok
    exact ⟨tail, by simp [fetchFrom, hok, htail, ← hb]⟩

/-! ## Canonical addresses (R81) -/

/-- `LA_adjust` by bit (R81). -/
theorem laAdjust_getLsbD {width : Nat} (v : BitVec 64) (h0 : 0 < width) (h64 : width ≤ 64) {j : Nat}
    (hj : j < 64) : (laAdjust width v).getLsbD j =
      if j < width then v.getLsbD j else v.getLsbD (width - 1) := by
  have hmsb : (v <<< (64 - width)).msb = v.getLsbD (width - 1) := by
    rw [BitVec.msb_eq_getLsbD_last, BitVec.getLsbD_shiftLeft, show 64 - 1 - (64 - width) = width - 1 by omega]
    simp; omega
  rw [laAdjust, BitVec.getLsbD_sshiftRight, hmsb]
  by_cases h : j < width
  · have h1 : 64 - width + j < 64 := by omega
    simp only [h1, if_true, if_pos h, BitVec.getLsbD_shiftLeft]
    simp [hj, show 64 - width + j - (64 - width) = j by omega]
  · have h1 : ¬ 64 - width + j < 64 := by omega
    simp [h, h1, Nat.not_le.2 hj]

/-- Settles O14: a value is canonical when `LA_adjust` leaves each of its bits alone. -/
theorem canonicalAddresses : Obligations.CanonicalAddresses := by
  intro width v h0 h64
  have hbit := fun {j} => laAdjust_getLsbD (j := j) v h0 h64
  refine ⟨?_, fun j => hbit⟩
  rw [canonical, beq_iff_eq, BitVec.eq_of_getLsbD_eq_iff]
  constructor
  · intro h j hj hj64
    by_cases he : j = width - 1
    · rw [he]
    · rw [← h j hj64, hbit hj64, if_neg (by omega)]
  · intro h j hj
    rw [hbit hj]
    split
    · rfl
    · exact (h j (by omega) hj).symm

/-! ## Segment-relative accesses (R61, R65, R82) -/

/-- Where an access goes (R61). -/
theorem segLinear_toNat (s : State) (name : SegName) (g : Seg) (off : BitVec 64) :
    (segLinear s name g off).toNat =
      if s.mode = .long64 then
        if name = .fs ∨ name = .gs then (g.base.toNat + off.toNat) % 2 ^ 64 else off.toNat
      else (g.base.toNat + off.toNat) % 2 ^ 32 := by
  unfold segLinear
  by_cases h : s.mode = .long64
  · cases name <;> simp [h]
  · simp only [h, beq_iff_eq, if_false, viewOf_toNat, BitVec.toNat_add, Size.bits]
    omega

theorem addrsCanonical_iff {width : Nat} {lin : BitVec 64} {n : Nat} : addrsCanonical width lin n = true ↔
    ∀ j, j < n → canonical width (lin + BitVec.ofNat 64 j) = true := by
  simp [addrsCanonical]

/-- The types of R72 by number. -/
theorem isExpandDown_iff (g : Seg) :
    g.isExpandDown = true ↔ g.s = true ∧ g.typ.toNat ∈ [4, 5, 6, 7] := by
  have h : ∀ t : BitVec 4, (!t.getLsbD 3 && t.getLsbD 2) = true ↔ t.toNat ∈ [4, 5, 6, 7] := by decide
  rw [Seg.isExpandDown, Bool.and_assoc, Bool.and_eq_true, h]

theorem isWritableData_iff (g : Seg) :
    g.isWritableData = true ↔ g.s = true ∧ g.typ.toNat ∈ [2, 3, 6, 7] := by
  have h : ∀ t : BitVec 4, (!t.getLsbD 3 && t.getLsbD 1) = true ↔ t.toNat ∈ [2, 3, 6, 7] := by decide
  rw [Seg.isWritableData, Bool.and_assoc, Bool.and_eq_true, h]

theorem isExecuteOnly_iff (g : Seg) :
    g.isExecuteOnly = true ↔ g.s = true ∧ g.typ.toNat ∈ [8, 9, 0xC, 0xD] := by
  have h : ∀ t : BitVec 4, (t.getLsbD 3 && !t.getLsbD 1) = true ↔ t.toNat ∈ [8, 9, 0xC, 0xD] := by decide
  rw [Seg.isExecuteOnly, Seg.isCode, Bool.and_assoc, Bool.and_eq_true, h]

/-- A NULL selector is 0 to 3 (R69). -/
theorem isNullSel_iff (sel : BitVec 16) : isNullSel sel = true ↔ sel.toNat ≤ 3 := by
  rw [isNullSel, beq_iff_eq, BitVec.toNat_eq, BitVec.extractLsb'_toNat, Nat.shiftRight_eq_div_pow]
  have := sel.isLt
  simp only [BitVec.toNat_ofNat]
  omega

theorem isNullDataSeg_iff (name : SegName) (g : Seg) : isNullDataSeg name g = true ↔
    name ∈ [SegName.ds, .es, .fs, .gs] ∧ g.sel.toNat ≤ 3 := by
  rw [← isNullSel_iff]
  cases name <;> simp [isNullDataSeg]

/-- The limit test by the kind of segment (R82). -/
theorem inLimit_iff (g : Seg) (o : Nat) : inLimit g o = true ↔
    if g.s = true ∧ g.typ.toNat ∈ [4, 5, 6, 7] then
      g.limit.toNat < o ∧ o < if g.db then 2 ^ 32 else 2 ^ 16
    else o ≤ g.limit.toNat := by
  simp only [inLimit, ← isExpandDown_iff]
  cases g.isExpandDown
  · simp
  · cases g.db <;> simp <;> omega

theorem offsetsInLimit_iff {g : Seg} {off : BitVec 64} {n : Nat} : offsetsInLimit g off n = true ↔
    ∀ j, j < n → inLimit g (off.toNat + j) = true := by
  simp [offsetsInLimit]

theorem segExc_eq (name : SegName) : segExc name = if name = .ss then Exc.ss else .gp := by
  simp [segExc]

/-- The one test of 64-bit mode (R65). -/
theorem segFault_long64 {s : State} {name : SegName} {g : Seg} {off : BitVec 64} {n : Nat} {write : Bool}
    (h : s.mode = .long64) : segFault s name g off n write =
      if addrsCanonical s.cpu.laWidth (segLinear s name g off) n = true then none
      else some (segExc name) := by
  simp [segFault, h]

/-- What an access outside 64-bit mode may not do, wherever it goes (R65). -/
def accessForbidden (name : SegName) (g : Seg) (write : Bool) : Bool :=
  (write && !g.isWritableData) || (!write && g.isExecuteOnly) || isNullDataSeg name g

theorem accessForbidden_iff {name : SegName} {g : Seg} {write : Bool} :
    accessForbidden name g write = true ↔
    (write = true ∧ ¬ g.isWritableData = true) ∨ (write = false ∧ g.isExecuteOnly = true) ∨
      isNullDataSeg name g = true := by
  simp [accessForbidden, or_assoc]

/-- The tests outside 64-bit mode: first the place, then what the access may not do (R65). -/
theorem segFault_of_not_long64 {s : State} {name : SegName} {g : Seg} {off : BitVec 64} {n : Nat}
    {write : Bool} (h : s.mode ≠ .long64) : segFault s name g off n write =
      if offsetsInLimit g off n = true then
        if accessForbidden name g write = true then some .gp else none
      else some (segExc name) := by
  unfold segFault accessForbidden
  simp only [beq_iff_eq, if_neg h, Bool.or_eq_true, ite_or]
  cases offsetsInLimit g off n <;> rfl

/-- Settles O59: the tests of R65 in the words of R61, R72 and R82. -/
theorem segmentAccesses : Obligations.SegmentAccesses := by
  intro s name g off n write
  dsimp only
  simp only [← inLimit_iff, ← offsetsInLimit_iff, ← addrsCanonical_iff, ← isWritableData_iff,
    ← isExecuteOnly_iff, ← isNullDataSeg_iff, ← accessForbidden_iff, ← segExc_eq, segLinear_toNat]
  constructor
  · intro h
    rw [segFault_long64 h]
    exact ⟨if_pos h, fun hr => if_pos hr, fun hr => if_neg hr⟩
  · intro h
    rw [segFault_of_not_long64 h]
    exact ⟨if_neg h, fun hi => if_neg hi, fun hi hb => (if_pos hi).trans (if_pos hb),
      fun hi hb => (if_pos hi).trans (if_neg hb)⟩

/-! ## Loads and stores (R63, R64) -/

/-- A store reaches memory and nothing else, so addresses are formed as before. -/
theorem memRead_afterStore {s : State} (lin v : BitVec 64) {n : Nat} (hw : memWf s.mem = true)
    (hn : n ≤ 8) : (memRead (afterStore lin n v s) lin n).toNat = v.toNat % 2 ^ (8 * n) :=
  memRead_storeBytes lin v hw hn rfl rfl

/-- Settles O13, from the laws of a store. -/
theorem storedValuesReadBack : Obligations.StoredValuesReadBack := by
  intro s lin v n hw hn
  refine ⟨memRead_afterStore lin v hw hn, fun i hi => memGet_storeBytes_in s lin v hw hi hn,
    fun a ha => memGet_storeBytes_out s lin v n s.mem ha, memWf_storeBytes s lin v n hw⟩

/-! ## The stack (R66, R67) -/

/-- The offset at which the item `j` items below the stack pointer goes raises nothing (R65, R66). -/
def ItemOk (s : State) (n j : Nat) : Prop :=
  segFault s .ss s.ss (itemOffset (stackAddrSize s) s.gpr.rsp ((j + 1) * n)) n true = none

/-- After a push the place of item `j` is where item `j + 1` was (R66). -/
theorem itemOk_pushed (n j : Nat) (v : BitVec 64) (r : Run) :
    ItemOk (pushed n v r).st n j ↔ ItemOk r.st n (j + 1) := by
  have hoff : itemOffset (stackAddrSize (pushed n v r).st) (pushed n v r).st.gpr.rsp ((j + 1) * n) =
      itemOffset (stackAddrSize r.st) r.st.gpr.rsp ((j + 1 + 1) * n) :=
    (pushOffset_pushed n ((j + 1) * n) v r).trans (congrArg _ (by ring))
  unfold ItemOk
  rw [hoff]
  exact Iff.rfl

/-- Pushes answer one after the other exactly when the place of each raises nothing. -/
theorem pushes_ok {n : Nat} {items : List (BitVec 64)} {r : Run} :
    (∃ r', items.foldlM (fun r v => push n v r) r = .ok r') ↔
      ∀ j, j < items.length → ItemOk r.st n j := by
  induction items generalizing r with
  | nil => simp [pure, Except.pure]
  | cons v items ih =>
    have hstep : (∃ r', (v :: items).foldlM (fun r v => push n v r) r = .ok r') ↔
        ItemOk r.st n 0 ∧ ∃ r', items.foldlM (fun r v => push n v r) (pushed n v r) = .ok r' := by
      simp only [List.foldlM_cons, except_bind_ok, push_ok, ItemOk, pushOffset, Nat.zero_add, Nat.one_mul]
      exact ⟨fun ⟨r', _, ⟨h0, he⟩, h⟩ => ⟨h0, r', he ▸ h⟩,
        fun ⟨h0, r', h⟩ => ⟨r', _, ⟨h0, rfl⟩, h⟩⟩
    rw [hstep, ih, List.length_cons, Nat.forall_lt_succ_left']
    simp only [itemOk_pushed]

/-- The room test looks at the place of each item (R67). -/
theorem stackRoom_iff {s : State} {n k : Nat} (hn : 0 < n) (hw : StackWritable s) :
    stackRoom s (k * n) n = true ↔ ∀ j, j < k → ItemOk s n j := by
  unfold ItemOk
  simp only [segFault_ss]
  unfold stackRoom roomFlat roomInSeg stackAddrSize
  rw [Nat.mul_div_cancel _ hn]
  by_cases h : s.mode = .long64
  · simp [h]
  · have hss : s.ss.isWritableData = true := hw.resolve_left h
    simp [h, hss]

/-- Settles O15: the room test and the pushes look at the same places. -/
theorem stackRoomIsRoomForThePushes : Obligations.StackRoomIsRoomForThePushes := by
  intro s n items hn hw
  have hpos : 0 < n := by omega
  have hw : StackWritable s := by simpa [stackWritable, StackWritable] using hw
  rw [stackRoom_iff hpos hw, pushes_ok, startRun_st]

/-- Writing the view of a register leaves the bits above it (10_state.md R23). -/
theorem withView_toNat_div (k : Size) (old v : BitVec 64) :
    (withView k old v).toNat / 2 ^ k.bits = old.toNat / 2 ^ k.bits := by
  have hold := old.isLt
  have hv := v.isLt
  cases k with
  | s64 => rw [Size.bits, Nat.div_eq_of_lt (BitVec.isLt _), Nat.div_eq_of_lt hold]
  | s16 | s32 =>
    simp only [withView, Size.bits, append_toNat, BitVec.extractLsb'_toNat, Nat.shiftRight_eq_div_pow]
    omega

/-- A push lowers the view of the stack pointer by the bytes of its item, modulo the stack-address size
(R66). -/
theorem pushed_rsp_mod (s : State) {n : Nat} (v : BitVec 64) (hn : n ≤ 8) :
    (pushed n v (startRun s)).st.gpr.rsp.toNat % 2 ^ (stackAddrSize s).bits =
      (s.gpr.rsp.toNat + 2 ^ 64 - n) % 2 ^ (stackAddrSize s).bits := by
  have hview : viewOf (stackAddrSize s) (pushed n v (startRun s)).st.gpr.rsp =
      viewOf (stackAddrSize s) (s.gpr.rsp - BitVec.ofNat 64 n) := by
    rw [pushed_st, State.setRsp_gpr, startRun_st, viewOf_withView, pushOffset, itemOffset, viewOf_viewOf]
  have := congrArg BitVec.toNat hview
  rw [viewOf_toNat, viewOf_toNat, BitVec.toNat_sub, BitVec.toNat_ofNat] at this
  rw [this]
  have hlt := s.gpr.rsp.isLt
  cases stackAddrSize s <;> simp only [Size.bits] <;> omega

/-- A push that R65 refuses writes nothing and reports the exception under it. -/
theorem push_error {n : Nat} {v : BitVec 64} {r : Run} {x : Exc}
    (h : segFault r.st .ss r.st.ss (pushOffset r.st n) n true = some x) :
    push n v r = .error (.exc x (some 0) .r65 r.wrote r.st.draws) := by
  rw [push, segWrite, h]
  rfl

/-- Settles O16, by whether R65 raises at the new top: no write and no change, or the item's bytes and the
view. -/
theorem pushResult : Obligations.PushResult := by
  intro s n v hn hw
  split
  case h_1 x h => exact push_error h
  case h_2 h =>
    exact ⟨pushed n v (startRun s), push_ok.2 ⟨h, rfl⟩, rfl, pushed_rsp_mod s v (by omega),
      withView_toNat_div _ _ _, memRead_storeBytes _ v hw (by omega) rfl rfl,
      fun a => memGet_storeBytes_out _ _ _ _ _⟩

end Sys2Proof.Machine
end

section
/-! The decoder reads back what the encoder writes (30_encoding.md R100 to R112), part by part: immediates,
prefixes, memory operands, then each form; so a step runs the instruction whose encoding stands at the
instruction pointer (20_memory.md R89). -/

namespace Sys2Proof.Laws

open Sys2Proof.Machine

/-! ## Length (R113, R117) -/

/-- The encoding of every instruction has the length the decoder counts, at most 15 bytes. -/
theorem encodeLength (i : Instr) : EncodeLength.Statement i :=
  match i with
  | .callRel16 p rel => EncodeLength.callRel16 p rel
  | .callRel32 p rel => EncodeLength.callRel32 p rel
  | .callRel64 p rel => EncodeLength.callRel64 p rel
  | .callRm16 p o => EncodeLength.callRm16 p o
  | .callRm32 p o => EncodeLength.callRm32 p o
  | .callRm64 p o => EncodeLength.callRm64 p o
  | .callPtr1616Real p off sel => EncodeLength.callPtr1616Real p off sel
  | .callPtr1616Prot p off sel => EncodeLength.callPtr1616Prot p off sel
  | .callPtr1632Real p off sel => EncodeLength.callPtr1632Real p off sel
  | .callPtr1632Prot p off sel => EncodeLength.callPtr1632Prot p off sel
  | .callM1616Real p m => EncodeLength.callM1616Real p m
  | .callM1616Prot p m => EncodeLength.callM1616Prot p m
  | .callM1632Real p m => EncodeLength.callM1632Real p m
  | .callM1632Prot p m => EncodeLength.callM1632Prot p m
  | .callM1664 p m => EncodeLength.callM1664 p m
  | .illegal9A64 p => EncodeLength.illegal9A64 p
  | .illegalFF3Reg p rm => EncodeLength.illegalFF3Reg p rm

theorem length_encode_le (i : Instr) : (encode i).length ≤ 15 := by
  obtain ⟨hlen, hle⟩ := encodeLength i
  exact hlen.trans_le hle

/-! ## Immediates (R104, R105) -/

theorem u16OfBytes_extract (v : BitVec 16) : u16OfBytes (v.extractLsb' 0 8) (v.extractLsb' 8 8) = v :=
  BitVec.extractLsb'_append_extractLsb'

theorem u32OfBytes_extract (v : BitVec 32) : u32OfBytes (v.extractLsb' 0 8) (v.extractLsb' 8 8)
    (v.extractLsb' 16 8) (v.extractLsb' 24 8) = v := by
  have hv := v.isLt
  apply BitVec.eq_of_toNat_eq
  simp only [u32OfBytes, append_toNat, BitVec.extractLsb'_toNat, Nat.shiftRight_eq_div_pow]
  omega

theorem takeU16_bytesOfU16 (v : BitVec 16) (tail : List Byte) :
    takeU16 (bytesOfU16 v ++ tail) = some (v, tail) := by
  simp [takeU16, bytesOfU16, u16OfBytes_extract]

theorem takeU32_bytesOfU32 (v : BitVec 32) (tail : List Byte) :
    takeU32 (bytesOfU32 v ++ tail) = some (v, tail) := by
  simp [takeU32, bytesOfU32, u32OfBytes_extract]

/-! ## ModR/M and SIB (R106, R108) -/

theorem modOf_modRmByte (mod : BitVec 2) (reg rm : BitVec 3) : modOf (modRmByte mod reg rm) = mod := by
  revert mod reg rm; decide

theorem regOf_modRmByte (mod : BitVec 2) (reg rm : BitVec 3) : regOf (modRmByte mod reg rm) = reg := by
  revert mod reg rm; decide

theorem rmOf_modRmByte (mod : BitVec 2) (reg rm : BitVec 3) : rmOf (modRmByte mod reg rm) = rm := by
  revert mod reg rm; decide

/-- A SIB byte has the fields of a ModR/M byte at the same bits. -/
theorem sibByte_eq_modRmByte (scale : BitVec 2) (index base : BitVec 3) :
    sibByte scale index base = modRmByte scale index base := rfl

/-! ## Prefixes (R109, R110) -/

/-- The prefixes before REX, in the order of the encoder. -/
def encodeLegacy (p : Prefixes) : List Byte :=
  (if p.lock then [0xF0#8] else []) ++ (p.seg.map segPrefixByte).toList ++
    (if p.opSize then [0x66#8] else []) ++ (if p.addrSize then [0x67#8] else [])

/-- The REX byte, if there is one. -/
def encodeRex (p : Prefixes) : List Byte := (p.rex.map rexByte).toList

theorem encodePrefixes_eq (p : Prefixes) : encodePrefixes p = encodeLegacy p ++ encodeRex p := by
  obtain ⟨lock, seg, op, ad, rex⟩ := p
  cases seg <;> cases rex <;> simp [encodePrefixes, encodeLegacy, encodeRex]

/-- What the scan has seen after the prefixes of an encoding: no group twice, no repetition. -/
def scanOf (p : Prefixes) : PrefixScan := ⟨p.lock, false, p.seg, p.opSize, p.addrSize, false⟩

theorem prefixesOf_scanOf (p : Prefixes) : prefixesOf (scanOf p) p.rex = p := rfl

/-- The scan stops at a byte that is none of the legacy prefixes. -/
theorem scanPrefixes_of_none {b : Byte} (hb : legacyPrefixOf b = none) (bs : List Byte) (a : PrefixScan) :
    scanPrefixes (b :: bs) a = (a, b :: bs) := by
  rw [scanPrefixes, hb]

/-- The scan sees the prefixes of an encoding, group by group, and leaves the rest. -/
theorem scanPrefixes_encodeLegacy (p : Prefixes) {b : Byte} (hb : legacyPrefixOf b = none)
    (bs : List Byte) : scanPrefixes (encodeLegacy p ++ b :: bs) emptyScan = (scanOf p, b :: bs) := by
  obtain ⟨lock, seg, op, ad, rex⟩ := p
  have hlock : ∀ rest, scanPrefixes ((if lock then [0xF0#8] else []) ++ rest) emptyScan =
      scanPrefixes rest ⟨lock, false, none, false, false, false⟩ := fun rest => by cases lock <;> rfl
  have hseg : ∀ rest, scanPrefixes ((seg.map segPrefixByte).toList ++ rest)
      ⟨lock, false, none, false, false, false⟩ =
        scanPrefixes rest ⟨lock, false, seg, false, false, false⟩ := fun rest => by
    cases seg with
    | none => rfl
    | some g => cases g <;> rfl
  have hop : ∀ rest, scanPrefixes ((if op then [0x66#8] else []) ++ rest)
      ⟨lock, false, seg, false, false, false⟩ =
        scanPrefixes rest ⟨lock, false, seg, op, false, false⟩ := fun rest => by cases op <;> rfl
  have had : ∀ rest, scanPrefixes ((if ad then [0x67#8] else []) ++ rest)
      ⟨lock, false, seg, op, false, false⟩ =
        scanPrefixes rest ⟨lock, false, seg, op, ad, false⟩ := fun rest => by cases ad <;> rfl
  simp only [encodeLegacy, List.append_assoc, hlock, hseg, hop, had, scanPrefixes_of_none hb, scanOf]

theorem legacyPrefixOf_rexByte (r : Rex) : legacyPrefixOf (rexByte r) = none := by
  obtain ⟨w, r, x, b⟩ := r
  revert w r x b
  decide

theorem rexByte_high (r : Rex) : (rexByte r).extractLsb' 4 4 = 4#4 := by
  obtain ⟨w, r, x, b⟩ := r
  revert w r x b
  decide

theorem rexOfByte_rexByte (r : Rex) : rexOfByte (rexByte r) = r := by
  obtain ⟨w, r, x, b⟩ := r
  revert w r x b
  decide

/-- A byte that is neither one of the legacy prefixes nor REX: the opcodes of `CALL` are such bytes (R103). -/
structure NoPrefix (b : Byte) : Prop where
  legacy : legacyPrefixOf b = none
  rex : b.extractLsb' 4 4 ≠ 4#4

theorem noPrefix_E8 : NoPrefix 0xE8#8 := ⟨by decide, by decide⟩
theorem noPrefix_9A : NoPrefix 0x9A#8 := ⟨by decide, by decide⟩
theorem noPrefix_FF : NoPrefix 0xFF#8 := ⟨by decide, by decide⟩

/-- REX is read back in the mode that has it (R109). -/
theorem scanRex_encodeRex {c : Ctx} {p : Prefixes} (hrex : rexFits c p = true) {op : Byte} (hop : NoPrefix op)
    (bs : List Byte) : scanRex c (encodeRex p ++ op :: bs) = (p.rex, op :: bs) := by
  cases h : p.rex with
  | none => simp [encodeRex, h, scanRex, hop.rex]
  | some r =>
    have hmode : c.mode = .long64 := by simpa [rexFits, Prefixes.noRex, h] using hrex
    simp [encodeRex, h, scanRex, hmode, rexByte_high, rexOfByte_rexByte]

/-- The prefixes of an encoding are consumed and the opcode is reached, whatever follows. -/
theorem scan_encodePrefixes (p : Prefixes) {op : Byte} (hop : NoPrefix op) (bs : List Byte) :
    scanPrefixes (encodePrefixes p ++ op :: bs) emptyScan = (scanOf p, encodeRex p ++ op :: bs) := by
  rw [encodePrefixes_eq, List.append_assoc]
  cases h : p.rex with
  | none =>
    simpa [encodeRex, h] using scanPrefixes_encodeLegacy p hop.legacy bs
  | some r =>
    simpa [encodeRex, h] using scanPrefixes_encodeLegacy p (legacyPrefixOf_rexByte r) (op :: bs)

/-- Decoding an encoding comes to its opcode with its prefixes read; of what follows the instruction some
bytes are cut off (R113). -/
theorem decode_encodePrefixes {c : Ctx} {p : Prefixes} (hrex : rexFits c p = true) {op : Byte}
    (hop : NoPrefix op) {operand : List Byte} (hlen : operand.length ≤ 9) (tail : List Byte) : ∃ bytes tail',
      decode c (encodePrefixes p ++ op :: operand ++ tail) =
        decodeOpcode c bytes (scanOf p) p (op :: (operand ++ tail')) := by
  obtain ⟨hp, hp5⟩ := length_encodePrefixes p
  have hall : (encodePrefixes p ++ op :: operand).length ≤ 15 := by
    rw [List.length_append, List.length_cons]
    omega
  obtain ⟨tail', htake⟩ : ∃ tail', (encodePrefixes p ++ op :: operand ++ tail).take 15 =
      encodePrefixes p ++ op :: (operand ++ tail') :=
    ⟨_, by rw [List.take_append, List.take_of_length_le hall, List.append_assoc, List.cons_append]⟩
  refine ⟨encodePrefixes p ++ op :: operand ++ tail, tail', ?_⟩
  rw [decode]
  simp only [htake, scan_encodePrefixes p hop, scanRex_encodeRex hrex hop, prefixesOf_scanOf]

/-! ## Memory operands (R107 to R109) -/

theorem base16Of_rmOfBase16 (b : Base16) : base16Of (rmOfBase16 b) = b := by cases b <;> rfl

theorem takeDisp32_encodeDisp32 (d : Disp32) (tail : List Byte) :
    takeDisp32 (encodeDisp32 d).1 ((encodeDisp32 d).2 ++ tail) = some d := by
  cases d with
  | none => rfl
  | d8 d => rfl
  | d32 d => simp [takeDisp32, encodeDisp32, takeU32_bytesOfU32]

/-- `mod` of a displacement is 0 exactly when there is none, and never 3. -/
theorem encodeDisp32_mod (d : Disp32) :
    ((encodeDisp32 d).1 = 0#2 ↔ d = .none) ∧ (encodeDisp32 d).1 ≠ 3#2 := by
  cases d <;> simp [encodeDisp32]

/-- A displacement does not stand with a base of 5 unless it is there: `mod` 0 means something else (R108). -/
theorem not_mod0_base5 {b : BitVec 3} {d : Disp32} (h : (!(b == 5#3 && d == .none)) = true) :
    ((encodeDisp32 d).1 == 0#2 && b == 5#3) = false := by
  have hmod : ((encodeDisp32 d).1 == 0#2) = (d == .none) := Bool.eq_iff_iff.2 (by simp [encodeDisp32_mod])
  rwa [hmod, Bool.and_comm, ← Bool.not_eq_true']

/-- What the decoder finds of a memory operand after the opcode: a ModR/M byte that holds `reg` and names
memory, and the operand in what follows. -/
structure ReadsAs (a : Size) (reg : BitVec 3) (m : Mem) (mb : Byte) (rest : List Byte) : Prop where
  bytes : encodeMem reg m = mb :: rest
  reg : regOf mb = reg
  mod : modOf mb ≠ 3#2
  operand : ∀ tail, decodeMem a (modOf mb) (rmOf mb) (rest ++ tail) = some m

theorem ReadsAs.of_fields {a : Size} {reg : BitVec 3} {m : Mem} {mod : BitVec 2} {rm : BitVec 3}
    {rest : List Byte} (hb : encodeMem reg m = modRmByte mod reg rm :: rest) (hmod : mod ≠ 3#2)
    (h : ∀ tail, decodeMem a mod rm (rest ++ tail) = some m) :
    ∃ mb rest, ReadsAs a reg m mb rest :=
  ⟨_, rest, hb, regOf_modRmByte _ _ _, by rwa [modOf_modRmByte], by rwa [modOf_modRmByte, rmOf_modRmByte]⟩

/-- A well-formed memory operand of the address size is read back (R107, R108). -/
theorem decodeMem_encodeMem {a : Size} (reg : BitVec 3) {m : Mem} (hwf : m.wf = true)
    (ha : m.is16 = (a == .s16)) : ∃ mb rest, ReadsAs a reg m mb rest := by
  have hsize : ∀ mod rm bs, decodeMem a mod rm bs =
      if m.is16 then decodeMem16 mod rm bs else decodeMem32 mod rm bs :=
    fun mod rm bs => by rw [decodeMem, ha]
  cases m with
  | base16 b d =>
    cases d with
    | none =>
      refine ReadsAs.of_fields (rest := []) rfl (by decide) fun tail => ?_
      have hb : b ≠ .bp := by simpa [Mem.wf] using hwf
      have hrm : rmOfBase16 b ≠ 6#3 := by revert hb; cases b <;> decide
      simp [hsize, Mem.is16, decodeMem16, takeDisp16, hrm, base16Of_rmOfBase16]
    | d8 d =>
      refine ReadsAs.of_fields (rest := [d]) rfl (by decide) fun tail => ?_
      simp [hsize, Mem.is16, decodeMem16, takeDisp16, base16Of_rmOfBase16]
    | d16 d =>
      refine ReadsAs.of_fields (rest := bytesOfU16 d) rfl (by decide) fun tail => ?_
      simp [hsize, Mem.is16, decodeMem16, takeDisp16, base16Of_rmOfBase16, takeU16_bytesOfU16]
  | abs16 d =>
    refine ReadsAs.of_fields (rest := bytesOfU16 d) rfl (by decide) fun tail => ?_
    simp [hsize, Mem.is16, decodeMem16, takeU16_bytesOfU16]
  | base rm d =>
    refine ReadsAs.of_fields rfl (encodeDisp32_mod d).2 fun tail => ?_
    rw [Mem.wf, Bool.and_eq_true, bne_iff_ne] at hwf
    obtain ⟨h4, h5⟩ := hwf
    simp only [hsize, Mem.is16, decodeMem32, beq_iff_eq, if_neg h4, not_mod0_base5 h5,
      takeDisp32_encodeDisp32]
    rfl
  | disp32 d =>
    refine ReadsAs.of_fields (rest := bytesOfU32 d) rfl (by decide) fun tail => ?_
    simp [hsize, Mem.is16, decodeMem32, takeU32_bytesOfU32]
  | sib sc ix b d =>
    refine ReadsAs.of_fields rfl (encodeDisp32_mod d).2 fun tail => ?_
    have h5 := not_mod0_base5 hwf
    simp only [hsize, Mem.is16, decodeMem32, List.cons_append, decodeSib, sibByte_eq_modRmByte,
      modOf_modRmByte, regOf_modRmByte, rmOf_modRmByte, h5, takeDisp32_encodeDisp32]
    rfl
  | sibNoBase sc ix d =>
    refine ReadsAs.of_fields (rest := sibByte sc ix 5#3 :: bytesOfU32 d) rfl (by decide) fun tail => ?_
    simp [hsize, Mem.is16, decodeMem32, decodeSib, sibByte_eq_modRmByte, modOf_modRmByte, regOf_modRmByte,
      rmOf_modRmByte, takeU32_bytesOfU32]

/-! ## The forms (R103 to R106, R112) -/

/-- The encoding is read back, whatever follows it. -/
def ReadBack (c : Ctx) (i : Instr) : Prop := ∀ tail, decode c (encode i ++ tail) = .instr i

/-- The near indirect call of an operand size. -/
def callRmOf (k : Size) (p : Prefixes) (o : RmOperand) : Instr :=
  match k with
  | .s16 => .callRm16 p o
  | .s32 => .callRm32 p o
  | .s64 => .callRm64 p o

/-- The far call through memory of an operand size, by whether the mode is real-address or virtual-8086. -/
def callMemOf (realLike : Bool) (k : Size) (p : Prefixes) (m : Mem) : Instr :=
  match k with
  | .s16 => if realLike then .callM1616Real p m else .callM1616Prot p m
  | .s32 => if realLike then .callM1632Real p m else .callM1632Prot p m
  | .s64 => .callM1664 p m

section
variable {c : Ctx} {p : Prefixes} {i : Instr}

/-- The prefixes of an encoding are no reason to reject it (R110). -/
theorem settleDecoded_scanOf (bytes : List Byte) : settleDecoded bytes (scanOf p) (some i) = .instr i := rfl

/-- An encoding is read back when the decoder of its opcode reads it back. -/
theorem ReadBack.of_opcode {op : Byte} {operand : List Byte} (hrex : rexFits c p = true) (hop : NoPrefix op)
    (hbytes : encode i = encodePrefixes p ++ op :: operand) (hlen : operand.length ≤ 9)
    (h : ∀ bytes tail, decodeOpcode c bytes (scanOf p) p (op :: (operand ++ tail)) = .instr i) :
    ReadBack c i := by
  intro tail
  obtain ⟨bytes, tail', hdec⟩ := decode_encodePrefixes hrex hop hlen tail
  rw [hbytes, hdec, h]

/-- `E8` (R104). -/
theorem ReadBack.of_E8 {operand : List Byte} (hrex : rexFits c p = true)
    (hbytes : encode i = encodePrefixes p ++ 0xE8#8 :: operand) (hlen : operand.length ≤ 9)
    (h : ∀ tail, decodeE8 c p (operand ++ tail) = some i) : ReadBack c i :=
  ReadBack.of_opcode hrex noPrefix_E8 hbytes hlen fun bytes tail => by
    simp [decodeOpcode, h, settleDecoded_scanOf]

/-- `9A` (R105). -/
theorem ReadBack.of_9A {operand : List Byte} (hrex : rexFits c p = true)
    (hbytes : encode i = encodePrefixes p ++ 0x9A#8 :: operand) (hlen : operand.length ≤ 9)
    (h : ∀ tail, decode9A c p (operand ++ tail) = some i) : ReadBack c i :=
  ReadBack.of_opcode hrex noPrefix_9A hbytes hlen fun bytes tail => by
    simp [decodeOpcode, h, settleDecoded_scanOf]

/-- `9A` at operand size 16 outside 64-bit mode: offset, then selector (R105). -/
theorem decode9A_s16 (hk : farOperandSize c p.opSize p.rexW = .s16) (hmode : c.mode ≠ .long64)
    (off sel : BitVec 16) (tail : List Byte) : decode9A c p (bytesOfU16 off ++ bytesOfU16 sel ++ tail) =
      some (if c.mode.isRealLike then .callPtr1616Real p off sel else .callPtr1616Prot p off sel) := by
  simp [decode9A, hk, hmode, takeU16_bytesOfU16]

/-- `9A` at operand size 32 outside 64-bit mode: offset, then selector (R105). -/
theorem decode9A_s32 (hk : farOperandSize c p.opSize p.rexW = .s32) (hmode : c.mode ≠ .long64)
    (off : BitVec 32) (sel : BitVec 16) (tail : List Byte) :
    decode9A c p (bytesOfU32 off ++ bytesOfU16 sel ++ tail) =
      some (if c.mode.isRealLike then .callPtr1632Real p off sel else .callPtr1632Prot p off sel) := by
  simp [decode9A, hk, hmode, takeU16_bytesOfU16, takeU32_bytesOfU32]

/-- `9A` in 64-bit mode is illegal at every operand size (R113). -/
theorem decode9A_long64 (hmode : c.mode = .long64) (bs : List Byte) :
    decode9A c p bs = some (.illegal9A64 p) := by
  unfold decode9A
  cases farOperandSize c p.opSize p.rexW <;> simp [hmode]

/-- Real-address and virtual-8086 mode are not 64-bit mode. -/
theorem mode_ne_long64 (h : c.mode.isRealLike = true) : c.mode ≠ .long64 := by
  intro hmode
  rw [hmode] at h
  exact absurd h (by decide)

/-- `FF /2` (R106): the operand and the operand size decide. -/
theorem ReadBack.of_FF2 {o : RmOperand} (hrex : rexFits c p = true) (hwf : o.wf = true)
    (hfits : rmFits c p o = true) (hi : i = callRmOf (nearOperandSize c p.opSize) p o)
    (hbytes : encode i = encodePrefixes p ++ 0xFF#8 :: encodeRm o) : ReadBack c i := by
  have hlen := length_encodeRm o
  refine ReadBack.of_opcode hrex noPrefix_FF hbytes (by omega) fun bytes tail => ?_
  subst hi
  cases o with
  | reg rm =>
    simp only [encodeRm, List.cons_append, decodeOpcode, regOf_modRmByte, modOf_modRmByte, rmOf_modRmByte,
      decodeFF2]
    cases nearOperandSize c p.opSize <;> rfl
  | mem m =>
    have ha : m.is16 = (addressSize c p.addrSize == .s16) := by simpa [rmFits, memFits] using hfits
    obtain ⟨mb, rest, hm⟩ := decodeMem_encodeMem 2#3 hwf ha
    simp only [encodeRm, hm.bytes, List.cons_append, decodeOpcode, hm.reg, decodeFF2, hm.operand, beq_iff_eq,
      if_neg hm.mod]
    cases nearOperandSize c p.opSize <;> rfl

/-- `FF /3` with a memory operand (R106): the operand size and the mode decide. -/
theorem ReadBack.of_FF3 {m : Mem} (hrex : rexFits c p = true) (hwf : m.wf = true)
    (hfits : memFits c p m = true) (hi : i = callMemOf c.mode.isRealLike (farOperandSize c p.opSize p.rexW) p m)
    (hbytes : encode i = encodePrefixes p ++ 0xFF#8 :: encodeMem 3#3 m) : ReadBack c i := by
  have hlen := length_encodeMem 3#3 m
  refine ReadBack.of_opcode hrex noPrefix_FF hbytes (by omega) fun bytes tail => ?_
  subst hi
  have ha : m.is16 = (addressSize c p.addrSize == .s16) := by simpa [memFits] using hfits
  obtain ⟨mb, rest, hm⟩ := decodeMem_encodeMem 3#3 hwf ha
  simp only [hm.bytes, List.cons_append, decodeOpcode, hm.reg, decodeFF3, hm.operand, beq_iff_eq,
    if_neg hm.mod]
  cases farOperandSize c p.opSize p.rexW <;> cases c.mode.isRealLike <;> rfl

end

/-- The encoding of a well-formed instruction that exists in a context is read back, whatever follows it: by
form, each through its opcode (R100 to R112). -/
theorem decode_encode_append {c : Ctx} {i : Instr} (hwf : i.wf = true) (hfits : instrFits c i = true)
    (tail : List Byte) : decode c (encode i ++ tail) = .instr i := by
  rw [instrFits, Bool.and_eq_true] at hfits
  obtain ⟨hrex, hform⟩ := hfits
  revert tail
  change ReadBack c i
  cases i with
  | callRel16 p rel =>
    have hk : nearOperandSize c p.opSize = .s16 := by simpa [formFits] using hform
    exact ReadBack.of_E8 (p := p) hrex rfl (by simp [length_bytesOfU16]) fun tail => by
      simp [decodeE8, hk, takeU16_bytesOfU16]
  | callRel32 p rel =>
    have hk : nearOperandSize c p.opSize = .s32 := by simpa [formFits] using hform
    exact ReadBack.of_E8 (p := p) hrex rfl (by simp [length_bytesOfU32]) fun tail => by
      simp [decodeE8, hk, takeU32_bytesOfU32]
  | callRel64 p rel =>
    have hk : nearOperandSize c p.opSize = .s64 := by simpa [formFits] using hform
    exact ReadBack.of_E8 (p := p) hrex rfl (by simp [length_bytesOfU32]) fun tail => by
      simp [decodeE8, hk, takeU32_bytesOfU32]
  | callRm16 p o | callRm32 p o | callRm64 p o =>
    simp only [formFits, Bool.and_eq_true, beq_iff_eq] at hform
    obtain ⟨hk, hfit⟩ := hform
    simp only [Instr.wf, Bool.and_eq_true] at hwf
    exact ReadBack.of_FF2 (p := p) hrex (by tauto) hfit (by rw [hk]; rfl) rfl
  | callPtr1616Real p off sel =>
    simp only [formFits, Bool.and_eq_true, beq_iff_eq] at hform
    obtain ⟨hreal, hk⟩ := hform
    exact ReadBack.of_9A (p := p) hrex rfl (by simp [length_bytesOfU16]) fun tail => by
      rw [decode9A_s16 hk (mode_ne_long64 hreal), if_pos hreal]
  | callPtr1632Real p off sel =>
    simp only [formFits, Bool.and_eq_true, beq_iff_eq] at hform
    obtain ⟨hreal, hk⟩ := hform
    exact ReadBack.of_9A (p := p) hrex rfl (by simp [length_bytesOfU16, length_bytesOfU32]) fun tail => by
      rw [decode9A_s32 hk (mode_ne_long64 hreal), if_pos hreal]
  | callPtr1616Prot p off sel =>
    simp only [formFits, Bool.and_eq_true, Bool.not_eq_true', bne_iff_ne, beq_iff_eq] at hform
    obtain ⟨⟨hreal, hmode⟩, hk⟩ := hform
    exact ReadBack.of_9A (p := p) hrex rfl (by simp [length_bytesOfU16]) fun tail => by
      rw [decode9A_s16 hk hmode, hreal]; rfl
  | callPtr1632Prot p off sel =>
    simp only [formFits, Bool.and_eq_true, Bool.not_eq_true', bne_iff_ne, beq_iff_eq] at hform
    obtain ⟨⟨hreal, hmode⟩, hk⟩ := hform
    exact ReadBack.of_9A (p := p) hrex rfl (by simp [length_bytesOfU16, length_bytesOfU32]) fun tail => by
      rw [decode9A_s32 hk hmode, hreal]; rfl
  | callM1616Real p m | callM1616Prot p m | callM1632Real p m | callM1632Prot p m =>
    simp only [formFits, Bool.and_eq_true, Bool.not_eq_true', beq_iff_eq] at hform
    obtain ⟨⟨hreal, hk⟩, hfit⟩ := hform
    simp only [Instr.wf, Bool.and_eq_true] at hwf
    exact ReadBack.of_FF3 (p := p) hrex (by tauto) hfit (by rw [hk, hreal]; rfl) rfl
  | callM1664 p m =>
    simp only [formFits, Bool.and_eq_true, beq_iff_eq] at hform
    obtain ⟨hk, hfit⟩ := hform
    simp only [Instr.wf, Bool.and_eq_true] at hwf
    exact ReadBack.of_FF3 (p := p) hrex (by tauto) hfit (by rw [hk]; rfl) rfl
  | illegal9A64 p =>
    have hmode : c.mode = .long64 := by simpa [formFits] using hform
    exact ReadBack.of_9A (p := p) (operand := []) hrex rfl (by simp) fun tail => decode9A_long64 hmode _
  | illegalFF3Reg p rm =>
    refine ReadBack.of_opcode (p := p) hrex noPrefix_FF rfl (by simp) fun bytes tail => ?_
    simp [decodeOpcode, regOf_modRmByte, modOf_modRmByte, rmOf_modRmByte, decodeFF3, settleDecoded_scanOf]

/-! ## One step (20_memory.md R89) -/

/-- Settles O7: the encoding is the first of the bytes fetched, and the decoder reads it back. -/
theorem stepRunsTheEncodedInstruction : Obligations.StepRunsTheEncodedInstruction := by
  intro s i hwf hfits hmem
  obtain ⟨tail, htail⟩ : ∃ tail, fetchWindow s = encode i ++ tail :=
    fetchFrom_of_mem (length_encode_le i) (by simpa only [Nat.zero_add] using hmem)
  exact step_of_decode (by rw [htail, decode_encode_append hwf hfits])

end Sys2Proof.Laws
end

section
/-! The decoder reads every encoding back (30_encoding.md R100 to R112), the examples of R118 among them. -/

namespace Sys2Proof.Laws

open Sys2Proof.Machine

/-! ## The round trip (R100 to R112, R118) -/

/-- Settles O1: the round trip, by form. -/
theorem decodeEncodeRoundTrip : Obligations.DecodeEncodeRoundTrip :=
  fun _ _ tail hwf hfits => decode_encode_append hwf hfits tail

/-- Bytes that are exactly the encoding of an instruction of the context decode to it. -/
theorem decode_of_eq_encode {c : Ctx} {bytes : List Byte} {i : Instr} (h : encode i = bytes)
    (hwf : i.wf = true) (hfits : instrFits c i = true) : decode c bytes = .instr i := by
  simpa [h] using decode_encode_append hwf hfits []

/-- Settles O3: the bytes of every row of R118 are the encoding of the instruction it names. -/
theorem decodingExamples : Obligations.DecodingExamples := by
  refine ⟨?_, ?_, ?_, ?_, ?_, ?_, ?_, ?_, ?_, ?_, ?_, ?_, ?_, fun c => ?_, ?_⟩ <;>
    exact decode_of_eq_encode rfl rfl rfl

end Sys2Proof.Laws
end

section
/-! The legacy prefixes before an instruction, in any order and number (30_encoding.md R110, R111): what a scan
sees of them, and when a group came twice. -/

namespace Sys2Proof.Laws

open Sys2Proof.Machine

/-! ## Legacy prefixes (R110) -/

theorem lock_byte {b : Byte} : 0xF0#8 = b ↔ legacyPrefixOf b = some .lock := by
  revert b; decide

theorem repeat_byte {b : Byte} : 0xF2#8 = b ∨ 0xF3#8 = b ↔ legacyPrefixOf b = some .repeated := by
  revert b; decide

theorem opSize_byte {b : Byte} : 0x66#8 = b ↔ legacyPrefixOf b = some .opSize := by
  revert b; decide

theorem addrSize_byte {b : Byte} : 0x67#8 = b ↔ legacyPrefixOf b = some .addrSize := by
  revert b; decide

theorem segment_byte {b : Byte} (g : SegName) :
    segPrefixByte g = b ↔ legacyPrefixOf b = some (.segment g) := by
  revert b; cases g <;> decide

/-- The bytes `pre` are all legacy prefixes, and noting them one by one leads from scan `a` to scan `t`. -/
inductive Scans : List Byte → PrefixScan → PrefixScan → Prop
  | nil (a : PrefixScan) : Scans [] a a
  | cons {b : Byte} {k : LegacyPrefix} {pre : List Byte} {a t : PrefixScan} (hk : legacyPrefixOf b = some k)
      (h : Scans pre (notePrefix a k) t) : Scans (b :: pre) a t

/-- The scan of the decoder consumes legacy prefixes and goes on. -/
theorem Scans.scanPrefixes_append {pre : List Byte} {a t : PrefixScan} (h : Scans pre a t) (rest : List Byte) :
    scanPrefixes (pre ++ rest) a = scanPrefixes rest t := by
  induction h with
  | nil => rfl
  | cons hk _ ih => rw [List.cons_append, scanPrefixes, hk, ← ih]

/-- What the scan of the decoder consumes is legacy prefixes. -/
theorem exists_scans (bs : List Byte) (a : PrefixScan) :
    ∃ pre, bs = pre ++ (scanPrefixes bs a).2 ∧ Scans pre a (scanPrefixes bs a).1 := by
  induction bs generalizing a with
  | nil => exact ⟨[], rfl, .nil a⟩
  | cons b bs ih =>
    cases hk : legacyPrefixOf b with
    | none => exact ⟨[], by simp [scanPrefixes, hk], by simpa [scanPrefixes, hk] using Scans.nil a⟩
    | some k =>
      obtain ⟨pre, hpre, hs⟩ := ih (notePrefix a k)
      rw [scanPrefixes, hk]
      exact ⟨b :: pre, congrArg (b :: ·) hpre, .cons hk hs⟩

/-- Bytes that are all legacy prefixes are scanned. -/
theorem exists_scans_of_legacy {pre : List Byte} (h : ∀ b ∈ pre, legacyPrefixOf b ≠ none)
    (a : PrefixScan) : ∃ t, Scans pre a t := by
  induction pre generalizing a with
  | nil => exact ⟨a, .nil a⟩
  | cons b pre ih =>
    obtain ⟨k, hk⟩ := Option.ne_none_iff_exists'.1 (h b (by simp))
    obtain ⟨t, ht⟩ := ih (fun b' hb' => h b' (by simp [hb'])) (notePrefix a k)
    exact ⟨t, .cons hk ht⟩

/-- A scan that stops before the end of the bytes does not depend on what follows them. -/
theorem scanPrefixes_append {bs : List Byte} {a : PrefixScan} (h : (scanPrefixes bs a).2 ≠ [])
    (tail : List Byte) : scanPrefixes (bs ++ tail) a = ((scanPrefixes bs a).1, (scanPrefixes bs a).2 ++ tail) := by
  induction bs generalizing a with
  | nil => exact absurd rfl h
  | cons b bs ih =>
    rw [scanPrefixes] at h
    rw [List.cons_append, scanPrefixes, scanPrefixes]
    cases hk : legacyPrefixOf b with
    | none => rfl
    | some k => exact ih (by simpa [hk] using h)

section
variable {pre : List Byte} {a t : PrefixScan}

theorem Scans.lock (h : Scans pre a t) : t.lock = (a.lock || decide (0xF0#8 ∈ pre)) := by
  induction h with
  | nil => simp
  | @cons b k _ _ _ hk _ ih => cases k <;> simp [ih, notePrefix, lock_byte, hk]

theorem Scans.opSize (h : Scans pre a t) : t.opSize = (a.opSize || decide (0x66#8 ∈ pre)) := by
  induction h with
  | nil => simp
  | @cons b k _ _ _ hk _ ih => cases k <;> simp [ih, notePrefix, opSize_byte, hk]

theorem Scans.addrSize (h : Scans pre a t) : t.addrSize = (a.addrSize || decide (0x67#8 ∈ pre)) := by
  induction h with
  | nil => simp
  | @cons b k _ _ _ hk _ ih => cases k <;> simp [ih, notePrefix, addrSize_byte, hk]

theorem Scans.repeated (h : Scans pre a t) :
    t.repeated = true ↔ a.repeated = true ∨ 0xF2#8 ∈ pre ∨ 0xF3#8 ∈ pre := by
  induction h with
  | nil => simp
  | @cons b k pre _ _ hk _ ih =>
    have hmem : (0xF2#8 ∈ b :: pre ∨ 0xF3#8 ∈ b :: pre) ↔
        legacyPrefixOf b = some .repeated ∨ 0xF2#8 ∈ pre ∨ 0xF3#8 ∈ pre := by
      rw [← repeat_byte, List.mem_cons, List.mem_cons]
      tauto
    rw [ih, hmem, hk]
    cases k <;> simp [notePrefix]

/-- That a group came twice is never unsaid. -/
theorem Scans.doubled_mono (h : Scans pre a t) (ht : t.doubled = false) : a.doubled = false := by
  induction h with
  | nil => exact ht
  | @cons b k _ _ _ hk _ ih => cases k <;> simp [notePrefix] at ih <;> simp [ih ht]

/-- The segment seen, when no group came twice, is the one whose byte stands there. -/
theorem Scans.seg (h : Scans pre a t) (ht : t.doubled = false) (g : SegName) :
    t.seg = some g ↔ a.seg = some g ∨ segPrefixByte g ∈ pre := by
  induction h with
  | nil => simp
  | @cons b k _ a _ hk hs ih =>
    have ha := hs.doubled_mono ht
    rw [ih ht, List.mem_cons, segment_byte, hk]
    cases k with
    | segment s =>
      have hnone : a.seg = none := by simp [notePrefix] at ha; exact ha.2
      simp [notePrefix, hnone]
    | _ => simp [notePrefix]

/-- The number of groups a scan has seen. -/
def groupsSeen (a : PrefixScan) : Nat :=
  a.lock.toNat + a.repeated.toNat + a.seg.isSome.toNat + a.opSize.toNat + a.addrSize.toNat

/-- When no group came twice, every byte is one more group. -/
theorem Scans.length (h : Scans pre a t) (ht : t.doubled = false) :
    groupsSeen t = groupsSeen a + pre.length := by
  induction h with
  | nil => rfl
  | @cons b k pre a _ hk hs ih =>
    have ha := hs.doubled_mono ht
    have hone : groupsSeen (notePrefix a k) = groupsSeen a + 1 := by
      cases k <;> simp [notePrefix] at ha <;> simp [groupsSeen, notePrefix, ha] <;> omega
    rw [ih ht, hone, List.length_cons]
    omega

end

/-- How many bytes of `pre` are of a group. -/
def countOf (group pre : List Byte) : Nat := (pre.filter fun b => decide (b ∈ group)).length

theorem countOf_cons (group : List Byte) (b : Byte) (pre : List Byte) :
    countOf group (b :: pre) = (decide (b ∈ group)).toNat + countOf group pre := by
  by_cases h : b ∈ group <;> simp [countOf, h]; omega

/-- The segment overrides (R110). -/
def segmentBytes : List Byte := [0x26#8, 0x2E#8, 0x36#8, 0x3E#8, 0x64#8, 0x65#8]

theorem mem_lockGroup {b : Byte} : b ∈ [0xF0#8, 0xF2#8, 0xF3#8] ↔
    legacyPrefixOf b = some .lock ∨ legacyPrefixOf b = some .repeated := by
  revert b; decide

/-- Segment overrides are told from the other groups. -/
def isSegmentOverride : LegacyPrefix → Bool
  | .segment _ => true
  | _ => false

theorem mem_segmentBytes {b : Byte} :
    b ∈ segmentBytes ↔ (legacyPrefixOf b).map isSegmentOverride = some true := by
  revert b; decide

/-- A group came twice: before, or with one byte before and one here, or with two here. -/
theorem Scans.doubled {pre : List Byte} {a t : PrefixScan} (h : Scans pre a t) :
    t.doubled = true ↔ a.doubled = true ∨
    2 ≤ (a.lock || a.repeated).toNat + countOf [0xF0#8, 0xF2#8, 0xF3#8] pre ∨
    2 ≤ a.seg.isSome.toNat + countOf segmentBytes pre ∨
    2 ≤ a.opSize.toNat + countOf [0x66#8] pre ∨ 2 ≤ a.addrSize.toNat + countOf [0x67#8] pre := by
  induction h with
  | nil a =>
    have := (a.lock || a.repeated).toNat_le
    have := a.seg.isSome.toNat_le
    have := a.opSize.toNat_le
    have := a.addrSize.toNat_le
    simp only [countOf, List.filter_nil, List.length_nil]
    refine ⟨.inl, fun h => h.resolve_right ?_⟩
    omega
  | @cons b k pre a _ hk hs ih =>
    obtain ⟨lock, rep, seg, op, ad, dbl⟩ := a
    simp only [ih, countOf_cons, mem_lockGroup, mem_segmentBytes, List.mem_singleton, eq_comm (a := b),
      opSize_byte, addrSize_byte, hk]
    cases k with
    | lock | repeated => cases lock <;> cases rep <;> simp [notePrefix, isSegmentOverride] <;> omega
    | segment g =>
      cases seg <;> simp [notePrefix, isSegmentOverride]
      omega
    | opSize =>
      cases op <;> simp [notePrefix, isSegmentOverride]
      omega
    | addrSize =>
      cases ad <;> simp [notePrefix, isSegmentOverride]
      omega

end Sys2Proof.Laws
end

section
/-! What the decoder gives stands in the bytes it is given (30_encoding.md R103 to R112, R117): part by part,
what is read is what the encoder writes, and no byte after it matters. -/

namespace Sys2Proof.Laws

open Sys2Proof.Machine

/-! ## Immediates and displacements, from the bytes (R104, R105, R107, R108) -/

theorem bytesOfU16_u16OfBytes (b0 b1 : Byte) : bytesOfU16 (u16OfBytes b0 b1) = [b0, b1] := by
  simp only [bytesOfU16, List.cons.injEq, and_true]
  constructor <;> apply BitVec.eq_of_toNat_eq <;>
    simp only [u16OfBytes, append_toNat, BitVec.extractLsb'_toNat, Nat.shiftRight_eq_div_pow] <;> omega

theorem bytesOfU32_u32OfBytes (b0 b1 b2 b3 : Byte) :
    bytesOfU32 (u32OfBytes b0 b1 b2 b3) = [b0, b1, b2, b3] := by
  simp only [bytesOfU32, List.cons.injEq, and_true]
  refine ⟨?_, ?_, ?_, ?_⟩ <;> apply BitVec.eq_of_toNat_eq <;>
    simp only [u32OfBytes, append_toNat, BitVec.extractLsb'_toNat, Nat.shiftRight_eq_div_pow] <;> omega

/-- A 16-bit immediate is taken exactly when its bytes come first. -/
theorem takeU16_eq_some {bs : List Byte} {x : BitVec 16 × List Byte} :
    takeU16 bs = some x ↔ bs = bytesOfU16 x.1 ++ x.2 := by
  constructor
  · intro h
    match bs with
    | b0 :: b1 :: bs =>
      obtain rfl := Option.some.inj h
      rw [bytesOfU16_u16OfBytes]
      rfl
  · rintro rfl
    exact takeU16_bytesOfU16 _ _

/-- A 32-bit immediate is taken exactly when its bytes come first. -/
theorem takeU32_eq_some {bs : List Byte} {x : BitVec 32 × List Byte} :
    takeU32 bs = some x ↔ bs = bytesOfU32 x.1 ++ x.2 := by
  constructor
  · intro h
    match bs with
    | b0 :: b1 :: b2 :: b3 :: bs =>
      obtain rfl := Option.some.inj h
      rw [bytesOfU32_u32OfBytes]
      rfl
  · rintro rfl
    exact takeU32_bytesOfU32 _ _

theorem takeU16_append {bs : List Byte} {x : BitVec 16 × List Byte} (h : takeU16 bs = some x)
    (tail : List Byte) : takeU16 (bs ++ tail) = some (x.1, x.2 ++ tail) := by
  rw [takeU16_eq_some.1 h, List.append_assoc, takeU16_bytesOfU16]

theorem takeU32_append {bs : List Byte} {x : BitVec 32 × List Byte} (h : takeU32 bs = some x)
    (tail : List Byte) : takeU32 (bs ++ tail) = some (x.1, x.2 ++ tail) := by
  rw [takeU32_eq_some.1 h, List.append_assoc, takeU32_bytesOfU32]

/-- Every two bits are 0, 1, 2 or 3. -/
theorem mod_cases (mod : BitVec 2) : mod = 0#2 ∨ mod = 1#2 ∨ mod = 2#2 ∨ mod = 3#2 := by
  revert mod; decide

/-- The displacement read after a 16-bit base is the one encoded there (R107). -/
theorem bytes_of_takeDisp16 {mod : BitVec 2} {bs : List Byte} {d : Disp16} (hmod : mod ≠ 3#2)
    (h : takeDisp16 mod bs = some d) : (mod = 0#2 ↔ d = .none) ∧ ∃ rest, ∀ reg b,
      modRmByte mod reg (rmOfBase16 b) :: bs = encodeBase16 reg b d ++ rest := by
  obtain rfl | rfl | rfl | rfl := mod_cases mod
  · obtain rfl := Option.some.inj h
    exact ⟨by simp, bs, fun _ _ => rfl⟩
  · match bs with
    | b :: bs =>
      obtain rfl := Option.some.inj h
      exact ⟨by simp, bs, fun _ _ => rfl⟩
  · obtain ⟨x, hx, rfl⟩ := Option.map_eq_some_iff.1 h
    exact ⟨by simp, x.2, fun _ _ => by rw [takeU16_eq_some.1 hx]; rfl⟩
  · exact absurd rfl hmod

/-- The displacement read after a 32- or 64-bit base is the one encoded there (R108). -/
theorem bytes_of_takeDisp32 {mod : BitVec 2} {bs : List Byte} {d : Disp32} (hmod : mod ≠ 3#2)
    (h : takeDisp32 mod bs = some d) : (mod = 0#2 ↔ d = .none) ∧ mod = (encodeDisp32 d).1 ∧
      ∃ rest, bs = (encodeDisp32 d).2 ++ rest := by
  obtain rfl | rfl | rfl | rfl := mod_cases mod
  · obtain rfl := Option.some.inj h
    exact ⟨by simp, rfl, bs, rfl⟩
  · match bs with
    | b :: bs =>
      obtain rfl := Option.some.inj h
      exact ⟨by simp, rfl, bs, rfl⟩
  · obtain ⟨x, hx, rfl⟩ := Option.map_eq_some_iff.1 h
    exact ⟨by simp, rfl, x.2, takeU32_eq_some.1 hx⟩
  · exact absurd rfl hmod

/-! ## Memory operands, from the bytes (R106 to R109) -/

theorem modRmByte_fields (b : Byte) : modRmByte (modOf b) (regOf b) (rmOf b) = b := by
  revert b; decide

theorem rmOfBase16_base16Of (rm : BitVec 3) : rmOfBase16 (base16Of rm) = rm := by
  revert rm; decide

/-- The operand is well-formed, of the address size, and encoded by a ModR/M byte with these fields and the
first of the bytes after it. -/
structure MemStands (a : Size) (mod : BitVec 2) (rm : BitVec 3) (bs : List Byte) (m : Mem) : Prop where
  wf : m.wf = true
  is16 : m.is16 = (a == .s16)
  bytes : ∃ rest, ∀ reg, modRmByte mod reg rm :: bs = encodeMem reg m ++ rest

/-- A memory operand under 16-bit addressing is the one encoded there (R107). -/
theorem memStands_of_decodeMem16 {mod : BitVec 2} {rm : BitVec 3} {bs : List Byte} {m : Mem}
    (hmod : mod ≠ 3#2) (h : decodeMem16 mod rm bs = some m) : MemStands .s16 mod rm bs m := by
  unfold decodeMem16 at h
  split at h
  next habs =>
    obtain ⟨x, hx, rfl⟩ := Option.map_eq_some_iff.1 h
    obtain ⟨rfl, rfl⟩ : mod = 0#2 ∧ rm = 6#3 := by simpa using habs
    exact ⟨rfl, rfl, x.2, fun _ => by rw [takeU16_eq_some.1 hx]; rfl⟩
  next habs =>
    obtain ⟨d, hd, rfl⟩ := Option.map_eq_some_iff.1 h
    obtain ⟨hnone, rest, hbytes⟩ := bytes_of_takeDisp16 hmod hd
    refine ⟨?_, rfl, rest, fun reg => by rw [encodeMem, ← hbytes, rmOfBase16_base16Of]⟩
    have hbp : base16Of rm = .bp → rm = 6#3 := fun hb => by rw [← rmOfBase16_base16Of rm, hb]; rfl
    simp only [Bool.and_eq_true, beq_iff_eq, not_and] at habs
    simp only [Mem.wf, Bool.not_eq_true', Bool.and_eq_false_imp, beq_iff_eq, beq_eq_false_iff_ne]
    exact fun hb hd => habs (hnone.2 hd) (hbp hb)

/-- A memory operand with a SIB byte is the one encoded there (R108). -/
theorem memStands_of_decodeSib {a : Size} {mod : BitVec 2} {s : Byte} {bs : List Byte} {m : Mem}
    (ha : a ≠ .s16) (hmod : mod ≠ 3#2) (h : decodeSib mod s bs = some m) : MemStands a mod 4#3 (s :: bs) m := by
  have ha : false = (a == .s16) := (beq_eq_false_iff_ne.2 ha).symm
  unfold decodeSib at h
  split at h
  next hbase =>
    obtain ⟨x, hx, rfl⟩ := Option.map_eq_some_iff.1 h
    obtain ⟨rfl, hs⟩ : mod = 0#2 ∧ rmOf s = 5#3 := by simpa using hbase
    refine ⟨rfl, ha, x.2, fun _ => ?_⟩
    rw [takeU32_eq_some.1 hx, encodeMem, sibByte_eq_modRmByte, ← hs, modRmByte_fields]
    rfl
  next hbase =>
    obtain ⟨d, hd, rfl⟩ := Option.map_eq_some_iff.1 h
    obtain ⟨hnone, rfl, rest, rfl⟩ := bytes_of_takeDisp32 hmod hd
    refine ⟨?_, ha, rest, fun _ => by rw [encodeMem, sibByte_eq_modRmByte, modRmByte_fields]; rfl⟩
    simp only [Bool.and_eq_true, beq_iff_eq, not_and] at hbase
    simp only [Mem.wf, Bool.not_eq_true', Bool.and_eq_false_imp, beq_iff_eq, beq_eq_false_iff_ne]
    exact fun hb hd => hbase (hnone.2 hd) hb

/-- A memory operand under 32- or 64-bit addressing is the one encoded there (R108, R109). -/
theorem memStands_of_decodeMem32 {a : Size} {mod : BitVec 2} {rm : BitVec 3} {bs : List Byte} {m : Mem}
    (ha : a ≠ .s16) (hmod : mod ≠ 3#2) (h : decodeMem32 mod rm bs = some m) : MemStands a mod rm bs m := by
  have ha' : false = (a == .s16) := (beq_eq_false_iff_ne.2 ha).symm
  unfold decodeMem32 at h
  split at h
  next h4 =>
    obtain rfl : rm = 4#3 := by simpa using h4
    match bs with
    | s :: bs => exact memStands_of_decodeSib ha hmod h
  next h4 =>
    split at h
    next h5 =>
      obtain ⟨x, hx, rfl⟩ := Option.map_eq_some_iff.1 h
      obtain ⟨rfl, rfl⟩ : mod = 0#2 ∧ rm = 5#3 := by simpa using h5
      exact ⟨rfl, ha', x.2, fun _ => by rw [takeU32_eq_some.1 hx]; rfl⟩
    next h5 =>
      obtain ⟨d, hd, rfl⟩ := Option.map_eq_some_iff.1 h
      obtain ⟨hnone, rfl, rest, rfl⟩ := bytes_of_takeDisp32 hmod hd
      refine ⟨?_, ha', rest, fun _ => rfl⟩
      simp only [Bool.and_eq_true, beq_iff_eq, not_and] at h4 h5
      simp only [Mem.wf, Bool.and_eq_true, bne_iff_ne, Bool.not_eq_true', Bool.and_eq_false_imp, beq_iff_eq,
        beq_eq_false_iff_ne]
      exact ⟨h4, fun hb hd => h5 (hnone.2 hd) hb⟩

/-- A memory operand is the one encoded in the bytes it is read from (R106). -/
theorem memStands_of_decodeMem {a : Size} {mod : BitVec 2} {rm : BitVec 3} {bs : List Byte} {m : Mem}
    (hmod : mod ≠ 3#2) (h : decodeMem a mod rm bs = some m) : MemStands a mod rm bs m := by
  unfold decodeMem at h
  split at h
  next ha =>
    obtain rfl : a = .s16 := by simpa using ha
    exact memStands_of_decodeMem16 hmod h
  next ha => exact memStands_of_decodeMem32 (by simpa using ha) hmod h

/-- A memory operand is read from its own bytes, whatever follows them. -/
theorem decodeMem_append {a : Size} {mod : BitVec 2} {rm : BitVec 3} {bs : List Byte} {m : Mem}
    (hmod : mod ≠ 3#2) (h : decodeMem a mod rm bs = some m) (tail : List Byte) :
    decodeMem a mod rm (bs ++ tail) = some m := by
  obtain ⟨hwf, ha, rest, hbytes⟩ := memStands_of_decodeMem hmod h
  obtain ⟨mb, own, hm⟩ := decodeMem_encodeMem 0#3 hwf ha
  have hcons := hbytes 0#3
  rw [hm.bytes, List.cons_append] at hcons
  obtain ⟨hmb, rfl⟩ := List.cons.inj hcons
  have hread := hm.operand (rest ++ tail)
  rwa [← hmb, modOf_modRmByte, rmOf_modRmByte, ← List.append_assoc] at hread

/-! ## The size tables (10_state.md R39, R40) -/

section
variable {c : Ctx}

theorem nearOperandSize_eq_s64 {op66 : Bool} : nearOperandSize c op66 = .s64 ↔ c.mode = .long64 := by
  obtain ⟨mode, csD⟩ := c
  cases mode <;> cases csD <;> cases op66 <;> decide

theorem addressSize_long64 (h : c.mode = .long64) (ad67 : Bool) : addressSize c ad67 ≠ .s16 := by
  cases ad67 <;> simp [addressSize, h]

theorem farOperandSize_eq_s64 {op66 rexW : Bool} :
    farOperandSize c op66 rexW = .s64 ↔ c.mode = .long64 ∧ rexW = true := by
  obtain ⟨mode, csD⟩ := c
  cases mode <;> cases csD <;> cases op66 <;> cases rexW <;> decide

/-- The prefixes that give a far call in 64-bit mode its operand size (R39). -/
theorem farOperandSize_long64 (h : c.mode = .long64) (op66 rexW : Bool) :
    farOperandSize c op66 rexW = if rexW then .s64 else if op66 then .s16 else .s32 := by
  rw [farOperandSize, h]

/-- There is no REX byte outside 64-bit mode (R109). -/
theorem noRex_of_mode {p : Prefixes} (hrex : rexFits c p = true) (h : c.mode ≠ .long64) : p.noRex = true := by
  simpa [rexFits, h] using hrex

end

/-! ## The bytes from the opcode on -/

/-- The same form and operand with other prefixes. -/
def withPrefixes (p : Prefixes) : Instr → Instr
  | .callRel16 _ rel => .callRel16 p rel
  | .callRel32 _ rel => .callRel32 p rel
  | .callRel64 _ rel => .callRel64 p rel
  | .callRm16 _ o => .callRm16 p o
  | .callRm32 _ o => .callRm32 p o
  | .callRm64 _ o => .callRm64 p o
  | .callPtr1616Real _ off sel => .callPtr1616Real p off sel
  | .callPtr1616Prot _ off sel => .callPtr1616Prot p off sel
  | .callPtr1632Real _ off sel => .callPtr1632Real p off sel
  | .callPtr1632Prot _ off sel => .callPtr1632Prot p off sel
  | .callM1616Real _ m => .callM1616Real p m
  | .callM1616Prot _ m => .callM1616Prot p m
  | .callM1632Real _ m => .callM1632Real p m
  | .callM1632Prot _ m => .callM1632Prot p m
  | .callM1664 _ m => .callM1664 p m
  | .illegal9A64 _ => .illegal9A64 p
  | .illegalFF3Reg _ rm => .illegalFF3Reg p rm

@[simp] theorem prefixesOfInstr_withPrefixes (p : Prefixes) (i : Instr) :
    prefixesOfInstr (withPrefixes p i) = p := by cases i <;> rfl

/-- Well-formedness looks at REX and `0x66` only (R109, R112). -/
theorem wf_withPrefixes {p : Prefixes} {i : Instr} (hrex : p.rex = (prefixesOfInstr i).rex)
    (hop : p.opSize = (prefixesOfInstr i).opSize) : (withPrefixes p i).wf = i.wf := by
  cases i <;>
    simp only [withPrefixes, prefixesOfInstr, Instr.wf, Prefixes.noRex, Prefixes.rexW] at hrex hop ⊢ <;>
    simp only [hrex, hop]

/-- Whether a form exists depends on REX and the two size prefixes (R39, R40, R112). -/
theorem instrFits_withPrefixes {c : Ctx} {p : Prefixes} {i : Instr} (hrex : p.rex = (prefixesOfInstr i).rex)
    (hop : p.opSize = (prefixesOfInstr i).opSize) (had : p.addrSize = (prefixesOfInstr i).addrSize) :
    instrFits c (withPrefixes p i) = instrFits c i := by
  have hmem (m : Mem) : memFits c p m = memFits c (prefixesOfInstr i) m := by rw [memFits, memFits, had]
  have hrm (o : RmOperand) : rmFits c p o = rmFits c (prefixesOfInstr i) o := by cases o <;> simp [rmFits, hmem]
  have hfits : rexFits c p = rexFits c (prefixesOfInstr i) := by simp [rexFits, Prefixes.noRex, hrex]
  have hw : p.rexW = (prefixesOfInstr i).rexW := by simp [Prefixes.rexW, hrex]
  rw [instrFits, instrFits, prefixesOfInstr_withPrefixes, hfits]
  congr 1
  cases i <;> simp only [withPrefixes, prefixesOfInstr, formFits] at hop hmem hrm hw ⊢ <;>
    simp only [hop, hmem, hrm, hw]

/-- The opcode byte and what follows it: the encoding without prefixes. -/
def opcodeBytes (i : Instr) : List Byte := encode (withPrefixes ⟨false, none, false, false, none⟩ i)

theorem encode_eq (i : Instr) : encode i = encodePrefixes (prefixesOfInstr i) ++ opcodeBytes i := by
  cases i <;> rfl

@[simp] theorem opcodeBytes_withPrefixes (p : Prefixes) (i : Instr) :
    opcodeBytes (withPrefixes p i) = opcodeBytes i := by cases i <;> rfl

/-- The bytes begin with an opcode of `CALL`, which is none of the prefixes (R103). -/
theorem opcodeBytes_head (i : Instr) : ∃ op operand, NoPrefix op ∧ opcodeBytes i = op :: operand := by
  cases i with
  | callRel16 | callRel32 | callRel64 => exact ⟨_, _, noPrefix_E8, rfl⟩
  | callPtr1616Real | callPtr1616Prot | callPtr1632Real | callPtr1632Prot | illegal9A64 =>
    exact ⟨_, _, noPrefix_9A, rfl⟩
  | callRm16 | callRm32 | callRm64 | callM1616Real | callM1616Prot | callM1632Real | callM1632Prot | callM1664 |
      illegalFF3Reg =>
    exact ⟨_, _, noPrefix_FF, rfl⟩

/-! ## What is read from the opcode on (R111 steps 2 to 4) -/

/-- The instruction has the prefixes it was read with, is well-formed, exists in the context, and is encoded in
the first of the bytes. -/
structure InstrStands (c : Ctx) (p : Prefixes) (bs : List Byte) (i : Instr) : Prop where
  prefixes : prefixesOfInstr i = p
  wf : i.wf = true
  fits : formFits c i = true
  bytes : ∃ rest, bs = opcodeBytes i ++ rest

section
variable {c : Ctx} {p : Prefixes} {bs : List Byte} {i : Instr}

theorem instrStands_of_E8 (hrex : rexFits c p = true) (h : decodeE8 c p bs = some i) :
    InstrStands c p (0xE8#8 :: bs) i := by
  unfold decodeE8 at h
  have hno : nearOperandSize c p.opSize ≠ .s64 → p.noRex = true := fun hk =>
    noRex_of_mode hrex (mt nearOperandSize_eq_s64.2 hk)
  cases hk : nearOperandSize c p.opSize <;> rw [hk] at h hno <;>
    obtain ⟨x, hx, rfl⟩ := Option.map_eq_some_iff.1 h
  case s16 => exact ⟨rfl, hno (by decide), by simp [formFits, hk], x.2, by rw [takeU16_eq_some.1 hx]; rfl⟩
  case s32 => exact ⟨rfl, hno (by decide), by simp [formFits, hk], x.2, by rw [takeU32_eq_some.1 hx]; rfl⟩
  case s64 => exact ⟨rfl, rfl, by simp [formFits, hk], x.2, by rw [takeU32_eq_some.1 hx]; rfl⟩

theorem decodeE8_append (h : decodeE8 c p bs = some i) (tail : List Byte) :
    decodeE8 c p (bs ++ tail) = some i := by
  unfold decodeE8 at h ⊢
  cases hk : nearOperandSize c p.opSize <;> rw [hk] at h <;>
    obtain ⟨x, hx, rfl⟩ := Option.map_eq_some_iff.1 h
  case s16 => simp [takeU16_append hx]
  case s32 | s64 => simp [takeU32_append hx]

/-- The far call with an immediate operand, outside 64-bit mode: the mode decides the form (R112). -/
theorem instrStands_of_9A (hrex : rexFits c p = true) (h : decode9A c p bs = some i) :
    InstrStands c p (0x9A#8 :: bs) i := by
  by_cases hmode : c.mode = .long64
  · obtain rfl := Option.some.inj ((decode9A_long64 hmode bs).symm.trans h)
    exact ⟨rfl, rfl, by simp [formFits, hmode], bs, rfl⟩
  have hno := noRex_of_mode hrex hmode
  unfold decode9A at h
  cases hk : farOperandSize c p.opSize p.rexW with
  | s64 => exact absurd (farOperandSize_eq_s64.1 hk).1 hmode
  | s16 =>
    simp only [hk, beq_iff_eq, if_neg hmode, Option.bind_eq_some_iff, Option.map_eq_some_iff] at h
    obtain ⟨o, ho, x, hx, rfl⟩ := h
    rw [takeU16_eq_some.1 ho, takeU16_eq_some.1 hx]
    split <;> rename_i hreal <;> exact ⟨rfl, hno, by simp [formFits, hk, hmode, hreal], x.2, rfl⟩
  | s32 =>
    simp only [hk, beq_iff_eq, if_neg hmode, Option.bind_eq_some_iff, Option.map_eq_some_iff] at h
    obtain ⟨o, ho, x, hx, rfl⟩ := h
    rw [takeU32_eq_some.1 ho, takeU16_eq_some.1 hx]
    split <;> rename_i hreal <;> exact ⟨rfl, hno, by simp [formFits, hk, hmode, hreal], x.2, rfl⟩

theorem decode9A_append (h : decode9A c p bs = some i) (tail : List Byte) :
    decode9A c p (bs ++ tail) = some i := by
  by_cases hmode : c.mode = .long64
  · rw [decode9A_long64 hmode] at h ⊢
    exact h
  unfold decode9A at h ⊢
  cases hk : farOperandSize c p.opSize p.rexW with
  | s64 => exact absurd (farOperandSize_eq_s64.1 hk).1 hmode
  | s16 =>
    simp only [hk, beq_iff_eq, if_neg hmode, Option.bind_eq_some_iff, Option.map_eq_some_iff] at h ⊢
    obtain ⟨o, ho, x, hx, rfl⟩ := h
    exact ⟨_, takeU16_append ho tail, _, takeU16_append hx tail, rfl⟩
  | s32 =>
    simp only [hk, beq_iff_eq, if_neg hmode, Option.bind_eq_some_iff, Option.map_eq_some_iff] at h ⊢
    obtain ⟨o, ho, x, hx, rfl⟩ := h
    exact ⟨_, takeU32_append ho tail, _, takeU16_append hx tail, rfl⟩

/-- The operand of `FF /2` (R106). -/
def readOperand (c : Ctx) (p : Prefixes) (mod : BitVec 2) (rm : BitVec 3) (bs : List Byte) : Option RmOperand :=
  if mod == 3#2 then some (.reg rm) else (decodeMem (addressSize c p.addrSize) mod rm bs).map .mem

theorem decodeFF2_eq (mod : BitVec 2) (rm : BitVec 3) : decodeFF2 c p mod rm bs =
    (readOperand c p mod rm bs).map (callRmOf (nearOperandSize c p.opSize) p) := by
  rw [decodeFF2]
  cases nearOperandSize c p.opSize <;> rfl

theorem readOperand_append {mod : BitVec 2} {rm : BitVec 3} {o : RmOperand}
    (h : readOperand c p mod rm bs = some o) (tail : List Byte) : readOperand c p mod rm (bs ++ tail) = some o := by
  unfold readOperand at h ⊢
  split at h
  next hmod => rw [if_pos hmod, h]
  next hmod =>
    obtain ⟨m, hm, rfl⟩ := Option.map_eq_some_iff.1 h
    rw [if_neg hmod, decodeMem_append (by simpa using hmod) hm, Option.map_some]

theorem decodeFF2_append {mod : BitVec 2} {rm : BitVec 3} (h : decodeFF2 c p mod rm bs = some i)
    (tail : List Byte) : decodeFF2 c p mod rm (bs ++ tail) = some i := by
  rw [decodeFF2_eq] at h ⊢
  obtain ⟨o, ho, rfl⟩ := Option.map_eq_some_iff.1 h
  rw [readOperand_append ho, Option.map_some]

theorem instrStands_of_FF2 {mb : Byte} (hreg : regOf mb = 2#3) (hrex : rexFits c p = true)
    (h : decodeFF2 c p (modOf mb) (rmOf mb) bs = some i) : InstrStands c p (0xFF#8 :: mb :: bs) i := by
  rw [decodeFF2_eq] at h
  obtain ⟨o, ho, rfl⟩ := Option.map_eq_some_iff.1 h
  obtain ⟨hwf, hfit, h16, rest, hbytes⟩ : o.wf = true ∧ rmFits c p o = true ∧
      (c.mode = .long64 → o.is16 = false) ∧ ∃ rest, mb :: bs = encodeRm o ++ rest := by
    unfold readOperand at ho
    split at ho
    next hmod =>
      obtain rfl := Option.some.inj ho
      rw [beq_iff_eq] at hmod
      exact ⟨rfl, rfl, fun _ => rfl, bs, by rw [encodeRm, ← hmod, ← hreg, modRmByte_fields]; rfl⟩
    next hmod =>
      obtain ⟨m, hm, rfl⟩ := Option.map_eq_some_iff.1 ho
      obtain ⟨hwf, h16, rest, hbytes⟩ := memStands_of_decodeMem (by simpa using hmod) hm
      refine ⟨hwf, by simp [rmFits, memFits, h16], fun hl => ?_, rest, ?_⟩
      · simp [RmOperand.is16, h16, addressSize_long64 hl]
      · rw [encodeRm, ← hbytes, ← hreg, modRmByte_fields]
  have hno : nearOperandSize c p.opSize ≠ .s64 → p.noRex = true := fun hk =>
    noRex_of_mode hrex (mt nearOperandSize_eq_s64.2 hk)
  cases hk : nearOperandSize c p.opSize <;> rw [hk] at hno
  case s16 | s32 =>
    exact ⟨rfl, by simp [callRmOf, Instr.wf, hno, hwf], by simp [callRmOf, formFits, hk, hfit], rest,
      by rw [hbytes]; rfl⟩
  case s64 =>
    exact ⟨rfl, by simp [callRmOf, Instr.wf, h16 (nearOperandSize_eq_s64.1 hk), hwf],
      by simp [callRmOf, formFits, hk, hfit], rest, by rw [hbytes]; rfl⟩

theorem decodeFF3_mem {mod : BitVec 2} (hmod : mod ≠ 3#2) (rm : BitVec 3) : decodeFF3 c p mod rm bs =
    (decodeMem (addressSize c p.addrSize) mod rm bs).map
      (callMemOf c.mode.isRealLike (farOperandSize c p.opSize p.rexW) p) := by
  simp only [decodeFF3, beq_iff_eq, if_neg hmod]
  cases farOperandSize c p.opSize p.rexW <;> cases c.mode.isRealLike <;> rfl

theorem decodeFF3_append {mod : BitVec 2} {rm : BitVec 3} (h : decodeFF3 c p mod rm bs = some i)
    (tail : List Byte) : decodeFF3 c p mod rm (bs ++ tail) = some i := by
  by_cases hmod : mod = 3#2
  · simpa [decodeFF3, hmod] using h
  · rw [decodeFF3_mem hmod] at h ⊢
    obtain ⟨m, hm, rfl⟩ := Option.map_eq_some_iff.1 h
    rw [decodeMem_append hmod hm, Option.map_some]

/-- The far call through memory that the mode and the prefixes select is well-formed and exists there. -/
theorem callMemOf_wf_fits (hrex : rexFits c p = true) {m : Mem} (hwf : m.wf = true)
    (h16 : m.is16 = (addressSize c p.addrSize == .s16)) :
    (callMemOf c.mode.isRealLike (farOperandSize c p.opSize p.rexW) p m).wf = true ∧
      formFits c (callMemOf c.mode.isRealLike (farOperandSize c p.opSize p.rexW) p m) = true := by
  have hfit : memFits c p m = true := by simp [memFits, h16]
  by_cases hmode : c.mode = .long64
  · have hreal : c.mode.isRealLike = false := by rw [hmode]; rfl
    have h16 : m.is16 = false := by simp [h16, addressSize_long64 hmode]
    have hk := farOperandSize_long64 hmode p.opSize p.rexW
    cases hw : p.rexW <;> cases hop : p.opSize <;> simp [hw, hop] at hk <;>
      simp [hk, callMemOf, hreal, Instr.wf, formFits, hwf, hw, hop, h16, hfit]
  · have hno := noRex_of_mode hrex hmode
    cases hk : farOperandSize c p.opSize p.rexW with
    | s64 => exact absurd (farOperandSize_eq_s64.1 hk).1 hmode
    | s16 | s32 =>
      cases hreal : c.mode.isRealLike <;>
        simp [callMemOf, hreal, Instr.wf, formFits, hk, hno, hwf, hfit]

theorem instrStands_of_FF3 {mb : Byte} (hreg : regOf mb = 3#3) (hrex : rexFits c p = true)
    (h : decodeFF3 c p (modOf mb) (rmOf mb) bs = some i) : InstrStands c p (0xFF#8 :: mb :: bs) i := by
  by_cases hmod : modOf mb = 3#2
  · obtain rfl : Instr.illegalFF3Reg p (rmOf mb) = i := by simpa [decodeFF3, hmod] using h
    refine ⟨rfl, rfl, rfl, bs, ?_⟩
    change _ = 0xFF#8 :: modRmByte 3#2 3#3 (rmOf mb) :: bs
    rw [← hmod, ← hreg, modRmByte_fields]
  · rw [decodeFF3_mem hmod] at h
    obtain ⟨m, hm, rfl⟩ := Option.map_eq_some_iff.1 h
    obtain ⟨hwf, h16, rest, hbytes⟩ := memStands_of_decodeMem hmod hm
    obtain ⟨hiwf, hifits⟩ := callMemOf_wf_fits hrex hwf h16
    have hown : opcodeBytes (callMemOf c.mode.isRealLike (farOperandSize c p.opSize p.rexW) p m) =
        0xFF#8 :: encodeMem 3#3 m := by
      cases farOperandSize c p.opSize p.rexW <;> cases c.mode.isRealLike <;> rfl
    refine ⟨?_, hiwf, hifits, rest, ?_⟩
    · cases farOperandSize c p.opSize p.rexW <;> cases c.mode.isRealLike <;> rfl
    · rw [hown, List.cons_append, ← hbytes, ← hreg, modRmByte_fields]

end

/-- The decoder from the opcode on, before any refusal and any limit on the bytes; it never answers
`tooLong`. -/
def readOpcode (c : Ctx) (p : Prefixes) (bs : List Byte) : Decoded := decodeOpcode c [] emptyScan p bs

/-- What the decoder makes of what is read, from the prefixes seen and the number of bytes (R110, R113). -/
def settleRead (bytes : List Byte) (a : PrefixScan) : Decoded → Decoded
  | .instr i => settleDecoded bytes a (some i)
  | .truncated => settleDecoded bytes a none
  | .tooLong => .truncated
  | .reject r => .reject r

theorem settleRead_settleDecoded (bytes : List Byte) (a : PrefixScan) (o : Option Instr) :
    settleRead bytes a (settleDecoded [] emptyScan o) = settleDecoded bytes a o := by
  cases o <;> rfl

theorem settleRead_eq_instr {bytes : List Byte} {a : PrefixScan} {d : Decoded} {i : Instr} :
    settleRead bytes a d = .instr i ↔ d = .instr i ∧ a.repeated = false ∧ a.doubled = false := by
  cases d with
  | instr j => cases hr : a.repeated <;> cases hd : a.doubled <;> simp [settleRead, settleDecoded, hr, hd]
  | truncated => by_cases h : 15 ≤ bytes.length <;> simp [settleRead, settleDecoded, h]
  | tooLong | reject => simp [settleRead]

theorem settleRead_eq_tooLong {bytes : List Byte} {a : PrefixScan} {d : Decoded} :
    settleRead bytes a d = .tooLong ↔ d = .truncated ∧ 15 ≤ bytes.length := by
  cases d with
  | instr j => cases hr : a.repeated <;> cases hd : a.doubled <;> simp [settleRead, settleDecoded, hr, hd]
  | truncated => by_cases h : 15 ≤ bytes.length <;> simp [settleRead, settleDecoded, h]
  | tooLong | reject => simp [settleRead]

section
variable {c : Ctx} {p : Prefixes} {bs : List Byte} {i : Instr}

theorem decodeOpcode_eq (bytes : List Byte) (a : PrefixScan) :
    decodeOpcode c bytes a p bs = settleRead bytes a (readOpcode c p bs) := by
  rcases bs with _ | ⟨op, _ | ⟨mb, bs⟩⟩ <;>
    simp only [readOpcode, decodeOpcode, apply_ite (settleRead bytes a), settleRead_settleDecoded] <;> rfl

/-- The bytes `own`, an opcode or an opcode and its ModR/M byte, choose the decoder `read` of what follows them;
an instruction it gives is encoded there, and needs none of the bytes after its own. -/
structure Chooses (c : Ctx) (p : Prefixes) (own : List Byte) (read : List Byte → Option Instr) : Prop where
  eq : ∀ bs, readOpcode c p (own ++ bs) = settleDecoded [] emptyScan (read bs)
  stands : rexFits c p = true → ∀ bs i, read bs = some i → InstrStands c p (own ++ bs) i
  append : ∀ bs i, read bs = some i → ∀ tail, read (bs ++ tail) = some i

theorem chooses_E8 : Chooses c p [0xE8#8] (decodeE8 c p) :=
  ⟨fun _ => rfl, fun hrex _ _ => instrStands_of_E8 hrex, fun _ _ => decodeE8_append⟩

theorem chooses_9A : Chooses c p [0x9A#8] (decode9A c p) :=
  ⟨fun _ => rfl, fun hrex _ _ => instrStands_of_9A hrex, fun _ _ => decode9A_append⟩

theorem chooses_FF2 {mb : Byte} (hreg : regOf mb = 2#3) :
    Chooses c p [0xFF#8, mb] (decodeFF2 c p (modOf mb) (rmOf mb)) :=
  ⟨fun _ => by simp [readOpcode, decodeOpcode, hreg], fun hrex _ _ => instrStands_of_FF2 hreg hrex,
    fun _ _ => decodeFF2_append⟩

theorem chooses_FF3 {mb : Byte} (hreg : regOf mb = 3#3) :
    Chooses c p [0xFF#8, mb] (decodeFF3 c p (modOf mb) (rmOf mb)) :=
  ⟨fun _ => by simp [readOpcode, decodeOpcode, hreg], fun hrex _ _ => instrStands_of_FF3 hreg hrex,
    fun _ _ => decodeFF3_append⟩

/-- Bytes run out before the decoder is chosen, or are another instruction's whatever follows, or choose it. -/
theorem readOpcode_cases (c : Ctx) (p : Prefixes) (bs : List Byte) :
    readOpcode c p bs = .truncated ∨ (∃ r, ∀ tail, readOpcode c p (bs ++ tail) = .reject r) ∨
      ∃ own read rest, bs = own ++ rest ∧ Chooses c p own read := by
  rcases bs with _ | ⟨op, bs⟩
  · exact .inl rfl
  by_cases hE8 : op = 0xE8#8
  · exact .inr (.inr ⟨_, _, bs, by rw [hE8]; rfl, chooses_E8⟩)
  by_cases h9A : op = 0x9A#8
  · exact .inr (.inr ⟨_, _, bs, by rw [h9A]; rfl, chooses_9A⟩)
  by_cases hFF : op = 0xFF#8
  · subst hFF
    rcases bs with _ | ⟨mb, bs⟩
    · exact .inl rfl
    by_cases h2 : regOf mb = 2#3
    · exact .inr (.inr ⟨_, _, bs, rfl, chooses_FF2 h2⟩)
    by_cases h3 : regOf mb = 3#3
    · exact .inr (.inr ⟨_, _, bs, rfl, chooses_FF3 h3⟩)
    exact .inr (.inl ⟨.notCall 0xFF#8, fun _ => by simp [readOpcode, decodeOpcode, h2, h3]⟩)
  · exact .inr (.inl ⟨.notCall op, fun _ => by simp [readOpcode, decodeOpcode, hE8, h9A, hFF]⟩)

theorem instrStands_of_readOpcode (hrex : rexFits c p = true) (h : readOpcode c p bs = .instr i) :
    InstrStands c p bs i := by
  obtain htrunc | ⟨r, hrej⟩ | ⟨own, read, rest, rfl, hread⟩ := readOpcode_cases c p bs
  · simp [htrunc] at h
  · have hnil := hrej []
    simp [h] at hnil
  · rw [hread.eq] at h
    cases hi : read rest with
    | none => simp [hi, settleDecoded] at h
    | some j =>
      obtain rfl : j = i := by simpa [hi, settleDecoded, emptyScan] using h
      exact hread.stands hrex rest j hi

/-- What is read does not depend on what follows, unless the bytes run out. -/
theorem readOpcode_append (h : readOpcode c p bs ≠ .truncated) (tail : List Byte) :
    readOpcode c p (bs ++ tail) = readOpcode c p bs := by
  obtain htrunc | ⟨r, hrej⟩ | ⟨own, read, rest, rfl, hread⟩ := readOpcode_cases c p bs
  · exact absurd htrunc h
  · have hnil := hrej []
    rw [List.append_nil] at hnil
    rw [hrej, hnil]
  · rw [hread.eq] at h
    rw [List.append_assoc, hread.eq, hread.eq]
    cases hi : read rest with
    | none => exact absurd (by rw [hi]; rfl) h
    | some j => rw [hread.append rest j hi]

end

/-! ## Whole instructions (R100, R111) -/

theorem afterLegacy_eq (i : Instr) : afterLegacy i = encodeRex (prefixesOfInstr i) ++ opcodeBytes i := by
  have hlegacy : encodeLegacy (prefixesOfInstr i) = encodePrefixes { prefixesOfInstr i with rex := none } := by
    rw [encodePrefixes_eq]
    exact (List.append_nil _).symm
  rw [afterLegacy, encode_eq, encodePrefixes_eq, List.append_assoc, hlegacy]
  exact List.drop_left' (length_encodePrefixes _).1

theorem length_afterLegacy (i : Instr) :
    instrLength i = prefixLength { prefixesOfInstr i with rex := none } + (afterLegacy i).length := by
  obtain ⟨hlen, _⟩ := encodeLength i
  have hle : prefixLength { prefixesOfInstr i with rex := none } ≤ instrLength i := by
    have hp : prefixLength { prefixesOfInstr i with rex := none } ≤ prefixLength (prefixesOfInstr i) := by
      simp [prefixLength]
    exact hp.trans (Nat.le_add_right _ _)
  rw [afterLegacy, List.length_drop, hlen]
  omega

theorem afterLegacy_withPrefixes {p : Prefixes} {i : Instr} (hrex : p.rex = (prefixesOfInstr i).rex) :
    afterLegacy (withPrefixes p i) = afterLegacy i := by
  simp only [afterLegacy_eq, prefixesOfInstr_withPrefixes, opcodeBytes_withPrefixes, encodeRex, hrex]

/-- The scan of the legacy prefixes stops at the REX byte or the opcode. -/
theorem scanPrefixes_afterLegacy {pre : List Byte} {a t : PrefixScan} (h : Scans pre a t) (i : Instr)
    (rest : List Byte) : scanPrefixes (pre ++ (afterLegacy i ++ rest)) a = (t, afterLegacy i ++ rest) := by
  obtain ⟨op, operand, hop, hbytes⟩ := opcodeBytes_head i
  rw [h.scanPrefixes_append, afterLegacy_eq, hbytes, encodeRex]
  cases (prefixesOfInstr i).rex with
  | none => exact scanPrefixes_of_none hop.legacy _ _
  | some r => exact scanPrefixes_of_none (legacyPrefixOf_rexByte r) _ _

/-- The decoder before any refusal and any limit on the bytes. -/
def readInstr (c : Ctx) (bs : List Byte) : Decoded :=
  let scan := scanPrefixes bs emptyScan
  let rex := scanRex c scan.2
  readOpcode c (prefixesOf scan.1 rex.1) rex.2

theorem decode_eq (c : Ctx) (bytes : List Byte) : decode c bytes =
    settleRead bytes (scanPrefixes (bytes.take 15) emptyScan).1 (readInstr c (bytes.take 15)) :=
  decodeOpcode_eq _ _

/-- A REX byte is the byte of its four bits (R109). -/
theorem rexByte_rexOfByte {b : Byte} (h : b.extractLsb' 4 4 = 4#4) : rexByte (rexOfByte b) = b := by
  revert b; decide

/-- What the scan for REX consumes is the REX byte, in 64-bit mode only (R109). -/
theorem bytes_of_scanRex (c : Ctx) (bs : List Byte) (t : PrefixScan) :
    bs = encodeRex (prefixesOf t (scanRex c bs).1) ++ (scanRex c bs).2 ∧
      rexFits c (prefixesOf t (scanRex c bs).1) = true := by
  rcases bs with _ | ⟨b, bs⟩
  · exact ⟨rfl, rfl⟩
  rw [scanRex]
  split
  next h =>
    obtain ⟨hmode, hb⟩ : c.mode = .long64 ∧ b.extractLsb' 4 4 = 4#4 := by simpa using h
    refine ⟨?_, by simp [rexFits, hmode]⟩
    change b :: bs = rexByte (rexOfByte b) :: bs
    rw [rexByte_rexOfByte hb]
  next => exact ⟨rfl, rfl⟩

/-- A well-formed instruction of the context whose own legacy prefixes are what a scan of `pre` sees. -/
structure StandsAfter (c : Ctx) (pre : List Byte) (t : PrefixScan) (i : Instr) : Prop where
  wf : i.wf = true
  fits : instrFits c i = true
  scans : Scans pre emptyScan t
  prefixes : prefixesOf t (prefixesOfInstr i).rex = prefixesOfInstr i

/-- An instruction that is read stands in the bytes: legacy prefixes, then what its encoding has after them. -/
theorem readInstr_stands {c : Ctx} {bs : List Byte} {i : Instr} (h : readInstr c bs = .instr i) :
    ∃ pre t rest, StandsAfter c pre t i ∧ bs = pre ++ (afterLegacy i ++ rest) := by
  obtain ⟨pre, hpre, hs⟩ := exists_scans bs emptyScan
  obtain ⟨hbytes, hrex⟩ := bytes_of_scanRex c (scanPrefixes bs emptyScan).2 (scanPrefixes bs emptyScan).1
  obtain ⟨hp, hwf, hform, rest, hrest⟩ := instrStands_of_readOpcode hrex h
  have hfits : instrFits c i = true := by rw [instrFits, hp, hrex, hform]; rfl
  refine ⟨pre, _, rest, ⟨hwf, hfits, hs, by rw [hp]; rfl⟩, ?_⟩
  rw [afterLegacy_eq, hp, List.append_assoc, ← hrest, ← hbytes, ← hpre]

/-- What is read does not depend on what follows, unless the bytes run out. -/
theorem readInstr_append {c : Ctx} {bs : List Byte} (h : readInstr c bs ≠ .truncated) (tail : List Byte) :
    readInstr c (bs ++ tail) = readInstr c bs := by
  have hscan : (scanPrefixes bs emptyScan).2 ≠ [] := fun hnil => h (by rw [readInstr, hnil]; rfl)
  have hrex : ∀ {rest : List Byte}, rest ≠ [] →
      scanRex c (rest ++ tail) = ((scanRex c rest).1, (scanRex c rest).2 ++ tail) := by
    intro rest hne
    rcases rest with _ | ⟨b, rest⟩
    · exact absurd rfl hne
    rw [List.cons_append, scanRex, scanRex]
    split <;> rfl
  rw [readInstr] at h
  rw [readInstr, readInstr, scanPrefixes_append hscan, hrex hscan]
  exact readOpcode_append h tail

/-- The encoding from the opcode on is read, by the round trip of the whole encoding. -/
theorem readOpcode_opcodeBytes {c : Ctx} {i : Instr} (hwf : i.wf = true) (hfits : instrFits c i = true) :
    readOpcode c (prefixesOfInstr i) (opcodeBytes i) = .instr i := by
  obtain ⟨op, operand, hop, hbytes⟩ := opcodeBytes_head i
  have hrex : rexFits c (prefixesOfInstr i) = true := (Bool.and_eq_true_iff.1 hfits).1
  have hdec := decode_encode_append hwf hfits []
  rw [List.append_nil, decode_eq, List.take_of_length_le (length_encode_le i)] at hdec
  obtain ⟨hread, _⟩ := settleRead_eq_instr.1 hdec
  simpa only [readInstr, encode_eq i, hbytes, scan_encodePrefixes _ hop, scanRex_encodeRex hrex hop,
    prefixesOf_scanOf] using hread

section
variable {c : Ctx} {i : Instr} {pre : List Byte} {t : PrefixScan}

/-- An instruction is read after any legacy prefixes that are its own, whatever follows it. -/
theorem readInstr_afterLegacy (h : StandsAfter c pre t i) (rest : List Byte) :
    readInstr c (pre ++ (afterLegacy i ++ rest)) = .instr i := by
  obtain ⟨op, operand, hop, hbytes⟩ := opcodeBytes_head i
  have hrex : rexFits c (prefixesOfInstr i) = true := (Bool.and_eq_true_iff.1 h.fits).1
  have hread := readOpcode_opcodeBytes h.wf h.fits
  have hscan : scanRex c (afterLegacy i ++ rest) = ((prefixesOfInstr i).rex, opcodeBytes i ++ rest) := by
    rw [afterLegacy_eq, hbytes, List.append_assoc, List.cons_append, scanRex_encodeRex hrex hop]
  rw [readInstr, scanPrefixes_afterLegacy h.scans]
  simp only [hscan, h.prefixes]
  rw [readOpcode_append (by rw [hread]; simp), hread]

/-- Bytes that end inside an instruction are truncated: an instruction read from them would need fewer. -/
theorem readInstr_truncated (h : StandsAfter c pre t i) {bs tail : List Byte}
    (hbs : bs ++ tail = pre ++ afterLegacy i) (htail : tail ≠ []) : readInstr c bs = .truncated := by
  by_contra hne
  have hwhole : readInstr c (bs ++ tail) = .instr i := by simpa [hbs] using readInstr_afterLegacy h []
  have hread : readInstr c bs = .instr i := (readInstr_append hne tail).symm.trans hwhole
  obtain ⟨pre', t', rest, h', hstands⟩ := readInstr_stands hread
  have hscan := scanPrefixes_afterLegacy h.scans i []
  have hscan' := scanPrefixes_afterLegacy h'.scans i (rest ++ tail)
  rw [List.append_nil, ← hbs, hstands, List.append_assoc, List.append_assoc, hscan'] at hscan
  simp [htail] at hscan

/-! ## What the decoder gives (R111, R112, R117) -/

/-- When no group came twice and nothing repeats, the legacy prefixes are counted once each. -/
theorem Scans.length_eq (hs : Scans pre emptyScan t) (hr : t.repeated = false) (hd : t.doubled = false)
    (rex : Option Rex) : pre.length = prefixLength { prefixesOf t rex with rex := none } := by
  have h := hs.length hd
  simpa [groupsSeen, emptyScan, prefixLength, prefixesOf, hr] using h.symm

/-- The bytes an instruction stands in are as many as `ilen` says (R117). -/
theorem StandsAfter.length_eq (h : StandsAfter c pre t i) (hr : t.repeated = false) (hd : t.doubled = false) :
    instrLength i = (pre ++ afterLegacy i).length := by
  rw [length_afterLegacy, List.length_append, h.scans.length_eq hr hd (prefixesOfInstr i).rex, h.prefixes]

/-- An instruction that stands in at most 15 bytes is decoded or refused by its prefixes alone. -/
theorem decode_afterLegacy (h : StandsAfter c pre t i) (hlen : (pre ++ afterLegacy i).length ≤ 15)
    (tail : List Byte) : decode c (pre ++ afterLegacy i ++ tail) =
      settleDecoded (pre ++ afterLegacy i ++ tail) t (some i) := by
  obtain ⟨rest, htake⟩ :
      ∃ rest, (pre ++ afterLegacy i ++ tail).take 15 = pre ++ (afterLegacy i ++ rest) :=
    ⟨_, by rw [List.take_append, List.take_of_length_le hlen, List.append_assoc]⟩
  rw [decode_eq, htake, readInstr_afterLegacy h, scanPrefixes_afterLegacy h.scans]
  rfl

/-- More than 15 bytes are too long, whatever their prefixes: the first 15 end inside the instruction. -/
theorem decode_tooLong (h : StandsAfter c pre t i) (hlen : 15 < (pre ++ afterLegacy i).length)
    (tail : List Byte) : decode c (pre ++ afterLegacy i ++ tail) = .tooLong := by
  rw [decode_eq, settleRead_eq_tooLong, List.take_append_of_le_length hlen.le]
  refine ⟨readInstr_truncated h (List.take_append_drop 15 _) ?_, ?_⟩
  · rw [← List.length_pos_iff, List.length_drop]
    omega
  · rw [List.length_append]
    omega

end

/-- Settles O2: the instruction stands in the first 15 bytes, and is read from the bytes it stands in. -/
theorem decodedInstructionsAreWellFormed : Obligations.DecodedInstructionsAreWellFormed := by
  intro c bytes i hdec
  rw [decode_eq, settleRead_eq_instr] at hdec
  obtain ⟨hread, hr, hd⟩ := hdec
  obtain ⟨pre, t, rest, h, hbytes⟩ := readInstr_stands hread
  rw [hbytes, scanPrefixes_afterLegacy h.scans] at hr hd
  have hlen := h.length_eq hr hd
  have htake := congrArg List.length hbytes
  rw [List.length_take, ← List.append_assoc, List.length_append, ← hlen] at htake
  have h15 : instrLength i ≤ 15 := by omega
  have hown : bytes.take (instrLength i) = pre ++ afterLegacy i := by
    rw [← min_eq_left h15, ← List.take_take, hbytes, ← List.append_assoc, hlen, List.take_left]
  refine ⟨h.wf, h.fits, h15, by omega, ?_⟩
  have hback := decode_afterLegacy h (hlen ▸ h15) []
  rw [List.append_nil] at hback
  rw [hown, hback, settleDecoded, hr, hd]
  rfl

end Sys2Proof.Laws
end

section
/-! The encodings that are not defined, refused prefixes and instructions of more than 15 bytes (30_encoding.md
R110, R113). -/

namespace Sys2Proof.Laws

open Sys2Proof.Machine

/-! ## The encodings that are not defined (R113) -/

/-- A form that is not defined, or that carries `LOCK`, raises `#UD` with nothing written, in every state in
which the form exists. -/
theorem exec_ud {i : Instr} {s : State} (hfits : instrFits s.ctx i = true)
    (h : isIllegal i = true ∨ (prefixesOfInstr i).lock = true) :
    exec i s = .fault (.exception .ud none .r113 s) := by
  rw [exec_eq_runCall, runCall_fault, startRun]
  refine ⟨hfits, ?_⟩
  cases hlock : (prefixesOfInstr i).lock with
  | true => exact .inl ⟨rfl, rfl⟩
  | false =>
    have hbody : bodyOf i s = raiseUd := by
      cases i with
      | illegal9A64 | illegalFF3Reg => rfl
      | _ => simp [isIllegal, hlock] at h
    exact .inr ⟨rfl, .ud, none, .r113, [], s.draws, by rw [hbody]; rfl, rfl⟩

/-- Settles O5: both forms exist in the states the statement names. -/
theorem undefinedEncodingsStop : Obligations.UndefinedEncodingsStop := by
  refine ⟨fun p s hmode => exec_ud ?_ (.inl rfl), fun p rm s h => exec_ud ?_ (.inl rfl)⟩
  · simp [instrFits, rexFits, formFits, State.ctx, hmode]
  · simpa [instrFits, rexFits, formFits, State.ctx, prefixesOfInstr, Prefixes.noRex] using h

/-! ## Refused prefixes and bytes that are too long (R110, R113) -/

/-- The bytes of the legacy prefixes (R110). -/
def legacyBytes : List Byte := [0xF0#8, 0xF2#8, 0xF3#8, 0x66#8, 0x67#8] ++ segmentBytes

theorem legacyPrefixOf_ne_none {b : Byte} (h : b ∈ legacyBytes) : legacyPrefixOf b ≠ none := by
  revert b; decide

/-- From the empty scan a group came twice exactly when two of its bytes stand there. -/
theorem Scans.doubled_iff {pre : List Byte} {t : PrefixScan} (hs : Scans pre emptyScan t)
    (hr : ¬ (0xF2#8 ∈ pre ∨ 0xF3#8 ∈ pre)) : t.doubled = true ↔
      2 ≤ countOf [0xF0#8] pre ∨ 2 ≤ countOf segmentBytes pre ∨ 2 ≤ countOf [0x66#8] pre ∨
        2 ≤ countOf [0x67#8] pre := by
  have hlock : countOf [0xF0#8, 0xF2#8, 0xF3#8] pre = countOf [0xF0#8] pre := by
    have hmem : ∀ b ∈ pre, decide (b ∈ [0xF0#8, 0xF2#8, 0xF3#8]) = decide (b ∈ [0xF0#8]) := by
      intro b hb
      have h2 : b ≠ 0xF2#8 := fun e => hr (.inl (e ▸ hb))
      have h3 : b ≠ 0xF3#8 := fun e => hr (.inr (e ▸ hb))
      simp [h2, h3]
    rw [countOf, countOf, List.filter_congr hmem]
  rw [hs.doubled, hlock]
  simp [emptyScan]

/-- Bytes that are too long are at least 15, and are truncated when fewer are given. -/
theorem truncated_of_tooLong {c : Ctx} {bytes : List Byte} (h : decode c bytes = .tooLong) :
    15 ≤ bytes.length ∧ ∀ n, n < 15 → decode c (bytes.take n) = .truncated := by
  rw [decode_eq, settleRead_eq_tooLong] at h
  obtain ⟨htrunc, h15⟩ := h
  refine ⟨h15, fun n hn => ?_⟩
  have hfew : readInstr c (bytes.take n) = .truncated := by
    by_contra hne
    have happ := readInstr_append hne ((bytes.take 15).drop n)
    have hfirst : bytes.take n = (bytes.take 15).take n := by rw [List.take_take, min_eq_left hn.le]
    rw [hfirst, List.take_append_drop, htrunc, ← hfirst] at happ
    exact hne happ.symm
  have hlen : ¬ 15 ≤ (bytes.take n).length := by
    rw [List.length_take]
    omega
  rw [decode_eq, List.take_take, min_eq_right hn.le, hfew, settleRead, settleDecoded, if_neg hlen]

/-- `FF` with a `reg` field other than 2 and 3 is another instruction (R113). -/
theorem decode_FF_other {m : Byte} (h2 : regOf m ≠ 2#3) (h3 : regOf m ≠ 3#3) (c : Ctx) (tail : List Byte) :
    decode c (0xFF#8 :: m :: tail) = .reject (.notCall 0xFF#8) := by
  rw [decode, List.take_succ_cons, List.take_succ_cons, scanPrefixes_of_none noPrefix_FF.legacy]
  simp [scanRex, decodeOpcode, h2, h3]

/-- Legacy prefixes that give a form its operand and address size are as good as its own: the form stands after
them, with the prefixes that are there. -/
theorem exists_standsAfter {c : Ctx} {i : Instr} {pre : List Byte} (hwf : i.wf = true)
    (hfits : instrFits c i = true) (hpre : ∀ b ∈ pre, b ∈ legacyBytes)
    (hop : (prefixesOfInstr i).opSize = decide (0x66#8 ∈ pre))
    (had : (prefixesOfInstr i).addrSize = decide (0x67#8 ∈ pre)) :
    ∃ t j, StandsAfter c pre t j ∧ afterLegacy j = afterLegacy i ∧
      prefixesOfInstr j = prefixesOf t (prefixesOfInstr i).rex := by
  obtain ⟨t, hs⟩ := exists_scans_of_legacy (fun b hb => legacyPrefixOf_ne_none (hpre b hb)) emptyScan
  have hop' : t.opSize = (prefixesOfInstr i).opSize := by rw [hop]; exact hs.opSize
  have had' : t.addrSize = (prefixesOfInstr i).addrSize := by rw [had]; exact hs.addrSize
  have hrex : (prefixesOf t (prefixesOfInstr i).rex).rex = (prefixesOfInstr i).rex := rfl
  refine ⟨t, withPrefixes (prefixesOf t (prefixesOfInstr i).rex) i, ⟨?_, ?_, hs, ?_⟩,
    afterLegacy_withPrefixes hrex, prefixesOfInstr_withPrefixes _ _⟩
  · rwa [wf_withPrefixes hrex hop']
  · rwa [instrFits_withPrefixes hrex hop' had']
  · rw [prefixesOfInstr_withPrefixes]
    rfl

/-- The answer of the decoder to any legacy prefixes before a well-formed instruction: the form with the
prefixes that stand there, unless they are too long or refused (R110, R113). -/
theorem decode_prefixed {c : Ctx} {i : Instr} {pre : List Byte} (hwf : i.wf = true)
    (hfits : instrFits c i = true) (hpre : ∀ b ∈ pre, b ∈ legacyBytes)
    (hop : (prefixesOfInstr i).opSize = decide (0x66#8 ∈ pre))
    (had : (prefixesOfInstr i).addrSize = decide (0x67#8 ∈ pre)) (tail : List Byte) :
    let answer := decode c (pre ++ afterLegacy i ++ tail)
    if 15 < (pre ++ afterLegacy i).length then answer = .tooLong
    else if 0xF2#8 ∈ pre ∨ 0xF3#8 ∈ pre then answer = .reject .repeatPrefix
    else if 2 ≤ countOf [0xF0#8] pre ∨ 2 ≤ countOf segmentBytes pre ∨ 2 ≤ countOf [0x66#8] pre ∨
        2 ≤ countOf [0x67#8] pre then
      answer = .reject .doubledPrefix
    else ∃ j, answer = .instr j ∧ afterLegacy j = afterLegacy i ∧
      instrLength j = (pre ++ afterLegacy i).length ∧ (prefixesOfInstr j).lock = decide (0xF0#8 ∈ pre) ∧
      ∀ g, (prefixesOfInstr j).seg = some g ↔ segPrefixByte g ∈ pre := by
  intro answer
  obtain ⟨t, j, h, hafter, hp⟩ := exists_standsAfter hwf hfits hpre hop had
  have hrep : t.repeated = true ↔ 0xF2#8 ∈ pre ∨ 0xF3#8 ∈ pre := by simpa [emptyScan] using h.scans.repeated
  simp only [answer, ← hafter]
  split_ifs with hlen hr hd
  · exact decode_tooLong h hlen tail
  all_goals rw [decode_afterLegacy h (not_lt.1 hlen) tail, settleDecoded]
  · rw [if_pos (hrep.2 hr)]
  · rw [if_neg (mt hrep.1 hr), if_pos ((h.scans.doubled_iff hr).2 hd)]
  · have hdbl := mt (h.scans.doubled_iff hr).1 hd
    rw [if_neg (mt hrep.1 hr), if_neg hdbl]
    rw [Bool.not_eq_true] at hdbl
    refine ⟨j, rfl, rfl, h.length_eq (by simpa using mt hrep.1 hr) hdbl, ?_, fun g => ?_⟩
    · rw [hp]
      exact h.scans.lock
    · rw [hp]
      exact (h.scans.seg hdbl g).trans (by simp [emptyScan])

theorem step_of_tooLong {s : State} (h : decode s.ctx (fetchWindow s) = .tooLong) :
    faultsClean (step s) s .gp 0 .r113 := by
  rw [step, h]
  exact congrArg (fun t => Host.Outcome.fault (Fault.exception .gp (some 0) .r113 t)) (faultState_nil s)

theorem step_of_reject {s : State} {r : Reject} (h : decode s.ctx (fetchWindow s) = .reject r) :
    step s = .refused (refusalOf r) := by
  rw [step, h]
  rfl

/-- Settles O4: the two forms by the round trip, every other clause by the lemma about it. -/
theorem illegalEncodings : Obligations.IllegalEncodings :=
  ⟨fun csD tail => decode_encode_append (c := ⟨.long64, csD⟩)
      (i := .illegal9A64 ⟨false, none, false, false, none⟩) rfl rfl tail,
    fun _ rm tail =>
      decode_encode_append (i := .illegalFF3Reg ⟨false, none, false, false, none⟩ rm) rfl rfl tail,
    fun _ _ => exec_ud, fun c _ tail h2 h3 => decode_FF_other h2 h3 c tail,
    fun _ _ _ tail hwf hfits hpre hop had => decode_prefixed hwf hfits hpre hop had tail,
    fun _ _ => truncated_of_tooLong,
    fun _ => ⟨step_of_tooLong, step_of_reject, step_of_reject, fun _ => step_of_reject⟩⟩

end Sys2Proof.Laws
end

section
/-! The operands of `CALL`: effective addresses and default segments in integer arithmetic (30_encoding.md R107
to R109), registers, segment overrides and the offsets of an operand's bytes (R106, R110, 20_memory.md R61). -/

namespace Sys2Proof.Machine

/-! ## Words as integers, modulo a size -/

/-- A word stands for an integer modulo 2 to a size. -/
def StandsFor (k : Size) (v : BitVec 64) (x : Int) : Prop := (v.toNat : Int) ≡ x [ZMOD 2 ^ k.bits]

theorem size_bits_le (k : Size) : k.bits ≤ 64 := by cases k <;> decide

/-- Reducing a number modulo 2^64 keeps it modulo 2 to every size. -/
theorem emod_modEq (k : Size) (x : Int) : x % 2 ^ 64 ≡ x [ZMOD 2 ^ k.bits] :=
  (Int.mod_modEq x _).of_dvd (pow_dvd_pow 2 (size_bits_le k))

theorem standsFor_toNat (k : Size) (v : BitVec 64) : StandsFor k v v.toNat := Int.ModEq.refl _

theorem standsFor_zero (k : Size) : StandsFor k 0 0 := Int.ModEq.refl _

/-- A sign-extended displacement stands for its signed value. -/
theorem standsFor_signExtend (k : Size) {w : Nat} (d : BitVec w) : StandsFor k (d.signExtend 64) d.toInt := by
  rw [StandsFor, BitVec.signExtend, BitVec.toNat_ofInt, Int.toNat_of_nonneg (Int.emod_nonneg _ (by decide))]
  exact emod_modEq k _

theorem StandsFor.add {k : Size} {v w : BitVec 64} {x y : Int} (hv : StandsFor k v x) (hw : StandsFor k w y) :
    StandsFor k (v + w) (x + y) := by
  rw [StandsFor, BitVec.toNat_add]
  exact (emod_modEq k _).trans (by simpa using Int.ModEq.add hv hw)

theorem StandsFor.shiftLeft {k : Size} {v : BitVec 64} {x : Int} (hv : StandsFor k v x) (n : Nat) :
    StandsFor k (v <<< n) (x * 2 ^ n) := by
  rw [StandsFor, BitVec.toNat_shiftLeft, Nat.shiftLeft_eq]
  exact (emod_modEq k _).trans (by simpa using Int.ModEq.mul_right (2 ^ n) hv)

/-- A view at a size is the remainder of what the word stands for. -/
theorem StandsFor.viewOf_eq {k : Size} {v : BitVec 64} {x : Int} (hv : StandsFor k v x) :
    ((viewOf k v).toNat : Int) = x % 2 ^ k.bits := by
  rw [viewOf_toNat]
  push_cast
  exact hv

theorem StandsFor.viewOf {k : Size} {v : BitVec 64} {x : Int} (hv : StandsFor k v x) :
    StandsFor k (viewOf k v) x := by
  rw [StandsFor, hv.viewOf_eq]
  exact Int.mod_modEq _ _

/-! ## 16-bit addressing (R107) -/

/-- The integer a 16-bit operand's displacement adds. -/
def disp16Int : Disp16 → Int
  | .none => 0
  | .d8 d => d.toInt
  | .d16 d => d.toInt

theorem standsFor_disp16 (k : Size) (d : Disp16) : StandsFor k (disp16Value d) (disp16Int d) := by
  cases d with
  | none => exact standsFor_zero k
  | d8 d => exact standsFor_signExtend k d
  | d16 d => exact standsFor_signExtend k d

/-- The effective address of a 16-bit base: what its registers stand for plus the displacement, modulo 2^16. -/
theorem effAddr_base16 {s : State} {b : Base16} {x : Int} (h : StandsFor .s16 (base16Value s.gpr b) x)
    (p : Prefixes) (ret : BitVec 64) (d : Disp16) :
    ((effAddr s p ret (.base16 b d)).toNat : Int) = (x + disp16Int d) % 2 ^ 16 :=
  (h.add (standsFor_disp16 .s16 d)).viewOf_eq

/-- Settles O56: each base is the sum of its registers. -/
theorem effectiveAddresses16 : Obligations.EffectiveAddresses16 := by
  intro s p ret d
  have one := standsFor_toNat .s16
  have two (v w : BitVec 64) : StandsFor .s16 (v + w) (v.toNat + w.toNat) := (one v).add (one w)
  exact ⟨by decide, effAddr_base16 (two _ _) p ret d, effAddr_base16 (two _ _) p ret d,
    effAddr_base16 (two _ _) p ret d, effAddr_base16 (two _ _) p ret d,
    effAddr_base16 (one _) p ret d, effAddr_base16 (one _) p ret d, effAddr_base16 (one _) p ret d,
    effAddr_base16 (one _) p ret d, fun x => ⟨by simp [effAddr]; omega, rfl⟩, fun b => by cases b <;> rfl⟩

/-! ## 32- and 64-bit addressing (R108, R109) -/

/-- The integer a 32- or 64-bit operand's displacement adds. -/
def disp32Int : Disp32 → Int
  | .none => 0
  | .d8 d => d.toInt
  | .d32 d => d.toInt

theorem standsFor_disp32 (k : Size) (d : Disp32) : StandsFor k (disp32Value d) (disp32Int d) := by
  cases d with
  | none => exact standsFor_zero k
  | d8 d => exact standsFor_signExtend k d
  | d32 d => exact standsFor_signExtend k d

/-- A REX bit adds 8 to a register number (R109). -/
theorem regNum_eq_ofNat (ext : Bool) (r : BitVec 3) :
    regNum ext r = BitVec.ofNat 4 (r.toNat + if ext then 8 else 0) := by
  revert ext r; decide

/-- `SS` when the number of the base register is 4 or 5 (R108). -/
theorem defaultSegOfBase_regNum (ext : Bool) (b : BitVec 3) : defaultSegOfBase (regNum ext b) =
    if b.toNat + (if ext then 8 else 0) = 4 ∨ b.toNat + (if ext then 8 else 0) = 5 then .ss else .ds := by
  revert ext b; decide

/-- A register, by the number the encoding and a REX bit give it, as an integer. -/
def regInt (s : State) (ext : Bool) (r : BitVec 3) : Int :=
  (gprGet s.gpr (BitVec.ofNat 4 (r.toNat + if ext then 8 else 0))).toNat

theorem standsFor_regView (s : State) (k : Size) (ext : Bool) (r : BitVec 3) :
    StandsFor k (regView s k (regNum ext r)) (regInt s ext r) := by
  rw [regInt, ← regNum_eq_ofNat]
  exact (standsFor_toNat k _).viewOf

/-- The integer an index adds: `index` 4 without `REX.X` is none (R108, R109). -/
def indexInt (s : State) (p : Prefixes) (ix : BitVec 3) (sc : BitVec 2) : Int :=
  if ix = 4 ∧ rexX p = false then 0 else regInt s (rexX p) ix * 2 ^ sc.toNat

theorem standsFor_indexValue (s : State) (k : Size) (p : Prefixes) (sc : BitVec 2) (ix : BitVec 3) :
    StandsFor k (indexValue s k p sc ix) (indexInt s p ix sc) := by
  have hcond : (ix == 4#3 && !rexX p) = true ↔ ix = 4 ∧ rexX p = false := by simp
  by_cases h : ix = 4 ∧ rexX p = false
  · rw [indexValue, indexInt, if_pos (hcond.2 h), if_pos h]
    exact standsFor_zero k
  · rw [indexValue, indexInt, if_neg (mt hcond.1 h), if_neg h]
    exact (standsFor_regView s k _ ix).shiftLeft _

section
variable (s : State) (p : Prefixes) (ret : BitVec 64)

theorem effAddr_base (rm : BitVec 3) (d : Disp32) : ((effAddr s p ret (.base rm d)).toNat : Int) =
    (regInt s (rexB p) rm + disp32Int d) % 2 ^ (addrSizeOf s p).bits :=
  ((standsFor_regView s _ _ rm).add (standsFor_disp32 _ d)).viewOf_eq

/-- `disp32` alone is relative to `nRIP` in 64-bit mode (R109). -/
theorem effAddr_disp32 (d : BitVec 32) : ((effAddr s p ret (.disp32 d)).toNat : Int) =
    ((if s.mode = .long64 then (ret.toNat : Int) else 0) + d.toInt) % 2 ^ (addrSizeOf s p).bits := by
  have hd := standsFor_signExtend (addrSizeOf s p) d
  by_cases hmode : s.mode = .long64
  · simpa [effAddr, hmode] using ((standsFor_toNat _ ret).add hd).viewOf_eq
  · simpa [effAddr, hmode] using hd.viewOf_eq

theorem effAddr_sib (sc : BitVec 2) (ix b : BitVec 3) (d : Disp32) :
    ((effAddr s p ret (.sib sc ix b d)).toNat : Int) =
      (regInt s (rexB p) b + indexInt s p ix sc + disp32Int d) % 2 ^ (addrSizeOf s p).bits :=
  (((standsFor_regView s _ _ b).add (standsFor_indexValue s _ p sc ix)).add (standsFor_disp32 _ d)).viewOf_eq

theorem effAddr_sibNoBase (sc : BitVec 2) (ix : BitVec 3) (d : BitVec 32) :
    ((effAddr s p ret (.sibNoBase sc ix d)).toNat : Int) =
      (indexInt s p ix sc + d.toInt) % 2 ^ (addrSizeOf s p).bits :=
  ((standsFor_indexValue s _ p sc ix).add (standsFor_signExtend _ d)).viewOf_eq

end

/-- Settles O57: form by form, the sum of what the parts stand for; the addressing is not used. -/
theorem effectiveAddresses32 : Obligations.EffectiveAddresses32 := by
  intro s p ret _
  exact ⟨fun rm d => ⟨effAddr_base s p ret rm d, defaultSegOfBase_regNum _ rm⟩,
    fun d => ⟨effAddr_disp32 s p ret d, rfl⟩,
    fun sc ix b d => ⟨effAddr_sib s p ret sc ix b d, defaultSegOfBase_regNum _ b⟩,
    fun sc ix d => ⟨effAddr_sibNoBase s p ret sc ix d, rfl⟩⟩

/-! ## Registers, overrides and operand bytes (R106, R110, 10_state.md R24, R40, 20_memory.md R61) -/

/-- The address size by mode, `CS.D` and `0x67` (10_state.md R40). -/
theorem addressSize_eq (c : Ctx) (ad67 : Bool) : addressSize c ad67 =
    if c.mode = .long64 then (if ad67 then .s32 else .s64)
    else if c.mode = .real ∨ c.mode = .v86 then (if ad67 then .s32 else .s16)
    else if c.csD = ad67 then .s16 else .s32 := by
  obtain ⟨mode, csD⟩ := c
  cases mode <;> cases csD <;> cases ad67 <;> rfl

theorem operandSeg_of_none {s : State} {p : Prefixes} (h : p.seg = none) (m : Mem) :
    operandSeg s p m = defaultSeg p m := by
  rw [operandSeg, h]

/-- An override replaces the default segment, but only `FS` and `GS` do in 64-bit mode (R110). -/
theorem operandSeg_of_some {s : State} {p : Prefixes} {g : SegName} (h : p.seg = some g) (m : Mem) :
    operandSeg s p m =
      if s.mode = .long64 ∧ g ∈ [SegName.cs, .ss, .ds, .es] then defaultSeg p m else g := by
  have hg : (g != .fs && g != .gs) = true ↔ g ∈ [SegName.cs, .ss, .ds, .es] := by cases g <;> decide
  simp only [operandSeg, h, Bool.and_assoc, Bool.and_eq_true, hg, beq_iff_eq]

theorem destValue_reg (s : State) (p : Prefixes) (ret : BitVec 64) (k : Size) (rm : BitVec 3) :
    (destValue s p ret k (.reg rm)).toNat =
      (gprGet s.gpr (BitVec.ofNat 4 (rm.toNat + if rexB p then 8 else 0))).toNat % 2 ^ k.bits := by
  rw [destValue, viewOf_toNat, regNum_eq_ofNat]

/-- The bytes of an operand wrap at the address size only outside 64-bit mode (20_memory.md R61). -/
theorem operandOffset_toNat (s : State) (p : Prefixes) (ret : BitVec 64) (m : Mem) (k : Nat) :
    (operandOffset s p ret m k).toNat = ((effAddr s p ret m).toNat + k) %
      if s.mode = .long64 then 2 ^ 64 else 2 ^ (addrSizeOf s p).bits := by
  have hadd (ea : BitVec 64) : (ea + BitVec.ofNat 64 k).toNat = (ea.toNat + k) % 2 ^ 64 := by
    rw [BitVec.toNat_add, BitVec.toNat_ofNat, Nat.add_mod_mod]
  by_cases hmode : s.mode = .long64
  · rw [if_pos hmode, operandOffset, operandByteOffset_long64 hmode, hadd]
  · rw [if_neg hmode, operandOffset, operandByteOffset_legacy hmode, viewOf_toNat, hadd,
      Nat.mod_mod_of_dvd _ (pow_dvd_pow 2 (size_bits_le _))]

/-- Settles O58, clause by clause. -/
theorem registersAndOverrides : Obligations.RegistersAndOverrides :=
  ⟨fun _ => rfl, fun s p => addressSize_eq s.ctx p.addrSize,
    fun _ _ m => ⟨fun h => operandSeg_of_none h m, fun _ h => operandSeg_of_some h m⟩,
    destValue_reg, operandOffset_toNat⟩

end Sys2Proof.Machine
end

section
/-! The near calls (40_near_call.md R140 to R150): what they test and in what order, the state they leave, what
they leave alone (R149), and the indirect-branch tracker (R147). -/

namespace Sys2Proof.Machine

/-! ## Values at a size (00_scope.md R6) -/

theorem viewOf_s16 (v : BitVec 64) : viewOf .s16 v = (v.setWidth 16).setWidth 64 :=
  congrArg (BitVec.setWidth 64) (BitVec.setWidth_eq_extractLsb' (x := v) (by decide)).symm

theorem viewOf_s32 (v : BitVec 64) : viewOf .s32 v = (v.setWidth 32).setWidth 64 :=
  congrArg (BitVec.setWidth 64) (BitVec.setWidth_eq_extractLsb' (x := v) (by decide)).symm

theorem viewOf_eq_self {k : Size} {v : BitVec 64} (h : v.toNat < 2 ^ k.bits) : viewOf k v = v :=
  BitVec.eq_of_toNat_eq (by rw [viewOf_toNat, Nat.mod_eq_of_lt h])

theorem viewOf_getLsbD (k : Size) (v : BitVec 64) (j : Nat) :
    (viewOf k v).getLsbD j = (decide (j < k.bits) && v.getLsbD j) := by
  rw [BitVec.getLsbD, viewOf_toNat, Nat.testBit_mod_two_pow, BitVec.getLsbD]

theorem size_bits_eq (k : Size) : k.bits = 8 * k.bytes := by cases k <;> rfl

/-- A store of some bytes depends on those bytes of the value only (20_memory.md R64). -/
theorem storeBytes_congr {s : State} {lin v w : BitVec 64} {n : Nat} {m : Memory}
    (h : ∀ i, i < n → v.extractLsb' (8 * i) 8 = w.extractLsb' (8 * i) 8) :
    storeBytes s lin v n m = storeBytes s lin w n m := by
  induction n with
  | zero => rfl
  | succ n ih => rw [storeBytes, storeBytes, ih fun i hi => h i (by omega), h n (by omega)]

/-- An item holds the value at its size. -/
theorem storeBytes_viewOf (s : State) (lin v : BitVec 64) (k : Size) (m : Memory) :
    storeBytes s lin (viewOf k v) k.bytes m = storeBytes s lin v k.bytes m := by
  refine storeBytes_congr fun i hi => BitVec.eq_of_getLsbD_eq fun j hj => ?_
  have hlt : 8 * i + j < k.bits := by rw [size_bits_eq]; omega
  simp [BitVec.getLsbD_extractLsb', viewOf_getLsbD, hlt]

/-! ## The target (R141 to R146) -/

/-- A branch to a target of the operand size goes to the target itself (10_state.md R22). -/
theorem branchTo_of_viewOf {k : Size} {v : BitVec 64} (s : State) (h : viewOf k v = v) :
    branchTo s k v = s.setRip v := by
  cases k with
  | s64 => rfl
  | s32 => exact congrArg s.setRip h
  | s16 =>
    have hlt : v.toNat < 2 ^ 16 := by
      rw [← h, viewOf_toNat]
      exact Nat.mod_lt _ (by decide)
    exact congrArg s.setRip (viewOf_eq_self (hlt.trans (by decide)))

/-- The low bits of a sign-extended displacement are the displacement. -/
theorem setWidth_signExtend {m n : Nat} (h : m ≤ n) (d : BitVec m) : (d.signExtend n).setWidth m = d := by
  ext i hi
  simp [BitVec.getElem_signExtend, hi, hi.trans_le h]

/-- The 16-bit sum of R141. -/
theorem relTarget_s16 (ret : BitVec 64) (rel : BitVec 16) :
    relTarget .s16 ret (rel.signExtend 64) = (ret.setWidth 16 + rel).setWidth 64 := by
  rw [relTarget, viewOf_s16, BitVec.setWidth_add _ _ (by decide), setWidth_signExtend (by decide)]

/-- The 32-bit sum of R142. -/
theorem relTarget_s32 (ret : BitVec 64) (rel : BitVec 32) :
    relTarget .s32 ret (rel.signExtend 64) = (ret.setWidth 32 + rel).setWidth 64 := by
  rw [relTarget, viewOf_s32, BitVec.setWidth_add _ _ (by decide), setWidth_signExtend (by decide)]

theorem viewOf_relTarget (k : Size) (ret disp : BitVec 64) :
    viewOf k (relTarget k ret disp) = relTarget k ret disp := viewOf_viewOf k _

/-- The operand of `FF /2` has the operand size (30_encoding.md R106). -/
theorem viewOf_destValue (s : State) (p : Prefixes) (ret : BitVec 64) (k : Size) (o : RmOperand) :
    viewOf k (destValue s p ret k o) = destValue s p ret k o := by
  cases o with
  | reg rm => exact viewOf_viewOf k _
  | mem m =>
    refine viewOf_eq_self ?_
    rw [size_bits_eq]
    exact memRead_lt _ _ (by cases k <;> decide)

/-- The operand of `FF /2` is read or faults; either way nothing is written (R148). -/
theorem readRm_startRun (s : State) (p : Prefixes) (ret : BitVec 64) (k : Size) (o : RmOperand) :
    readRm (startRun s) p ret k o = match destFault s p ret k o with
      | some x => .error (.exc x (some 0) .r65 [] s.draws)
      | none => .ok (destValue s p ret k o) := by
  cases o with
  | reg rm => rfl
  | mem m =>
    rw [readRm, readMemOperand, segRead]
    rfl

/-! ## The state after the pushes (R140) -/

/-- After the return offset is pushed, and, where `copy` says so and shadow stacks are enabled, its copy of at
least 4 bytes on the shadow stack (R141 to R146). -/
def afterNearPushes (k : Size) (ret : BitVec 64) (copy : Bool) (s : State) : State :=
  if shadowStackEnabled s s.cpl = true ∧ copy = true then
    afterShadowPush (max 4 k.bytes) (viewOf k ret) (afterPush k.bytes (viewOf k ret) s)
  else afterPush k.bytes (viewOf k ret) s

/-- A relative call copies the return offset unless its displacement is 0 (R141 to R143). -/
theorem afterNearPushes_relative {n : Nat} (k : Size) (ret : BitVec 64) (rel : BitVec n) (s : State) :
    afterNearPushes k ret (rel != 0#n) s = if shadowStackEnabled s s.cpl = true ∧ rel ≠ 0 then
      afterShadowPush (max 4 k.bytes) (viewOf k ret) (afterPush k.bytes (viewOf k ret) s)
    else afterPush k.bytes (viewOf k ret) s := by
  simp [afterNearPushes]

/-- An indirect call always copies the return offset (R144 to R146). -/
theorem afterNearPushes_indirect (k : Size) (ret : BitVec 64) (s : State) :
    afterNearPushes k ret true s = if shadowStackEnabled s s.cpl = true then
      afterShadowPush (max 4 k.bytes) (viewOf k ret) (afterPush k.bytes (viewOf k ret) s)
    else afterPush k.bytes (viewOf k ret) s := by
  simp [afterNearPushes]

theorem afterPush_viewOf (k : Size) (ret : BitVec 64) (s : State) :
    afterPush k.bytes (viewOf k ret) s = (pushed k.bytes ret (startRun s)).st := by
  rw [afterPush, storeBytes_viewOf]
  rfl

theorem nearShadowPush_eq (k : Size) (ret : BitVec 64) (r : Run) : nearShadowPush k ret r =
    if shadowStackEnabled r.st r.st.cpl then shadowPush (max 4 k.bytes) (viewOf k ret) r else r := by
  cases k <;> rfl

theorem nearDone_startRun (k : Size) (target ret : BitVec 64) (copy : Bool) (s : State) :
    (nearDone k target ret copy (startRun s)).st = branchTo (afterNearPushes k ret copy s) k target := by
  have henabled : shadowStackEnabled (pushed k.bytes ret (startRun s)).st
      (pushed k.bytes ret (startRun s)).st.cpl = shadowStackEnabled s s.cpl := rfl
  rw [nearDone, afterNearPushes, afterPush_viewOf, nearShadowPush_eq, henabled]
  cases copy <;> cases shadowStackEnabled s s.cpl <;> rfl

/-! ## The tests, in order (R140 to R146, R150) -/

theorem stackWritable_iff {s : State} : stackWritable s = true ↔ StackWritable s := by
  simp [stackWritable, StackWritable]

/-- With room, the push into a segment that takes no writes is the third test to fail (20_memory.md R65). -/
theorem nearTransfer_notWritable {k : Size} {rule : RuleId} {target ret : BitVec 64} {copy : Bool} {s : State}
    (hb : nearTargetBad s k target = false) (hr : stackRoom s k.bytes k.bytes = true)
    (hw : stackWritable s = false) : nearTransfer k rule target ret copy (startRun s) =
      .error (.exc .gp (some 0) .r65 [] s.draws) := by
  obtain ⟨hmode, hss⟩ : s.mode ≠ .long64 ∧ s.ss.isWritableData = false := by
    simpa [stackWritable] using hw
  have hplace : offsetsInLimit s.ss (pushOffset s k.bytes) k.bytes = true := by
    simpa [stackRoom, hmode, roomInSeg, pushOffset, Nat.div_self (Size.bytes_pos k)] using hr
  have hfault : segFault s .ss s.ss (pushOffset s k.bytes) k.bytes true = some .gp := by
    rw [segFault_of_not_long64 hmode, if_pos hplace, if_pos (by simp [accessForbidden, hss])]
  rw [nearTransfer, startRun_st, hb, hr, push_error (r := startRun s) hfault]
  rfl

/-- A target is inside the code segment, or canonical at operand size 64 (R141 to R146, R150). -/
def nearTargetInside (s : State) (k : Size) (target : BitVec 64) : Bool :=
  match k with
  | .s16 => inLimit s.cs target.toNat
  | .s32 => inLimit s.cs target.toNat
  | .s64 => canonical s.cpu.laWidth target

theorem nearTargetBad_eq (s : State) (k : Size) (target : BitVec 64) :
    nearTargetBad s k target = !nearTargetInside s k target := by cases k <;> rfl

/-- What a near call does once its target is known: the first test that fails, else the state `t`. -/
def NearResult (o : Host.Outcome State Fault Refusal) (s : State) (k : Size) (rule : RuleId)
    (target : BitVec 64) (t : State) : Prop :=
  if nearTargetInside s k target = false then faultsClean o s .gp 0 (nearTargetRule k rule)
  else if stackRoom s k.bytes k.bytes = false then faultsClean o s .ss 0 rule
  else if stackWritable s = false then faultsClean o s .gp 0 .r65
  else o = .next t

/-- In 64-bit mode the stack is flat, so that no push meets a segment that takes no writes. -/
theorem nearResult_s64 {o : Host.Outcome State Fault Refusal} {s t : State} {rule : RuleId}
    {target : BitVec 64} (hmode : s.mode = .long64) : NearResult o s .s64 rule target t ↔
      if canonical s.cpu.laWidth target = false then faultsClean o s .gp 0 .r150
      else if stackRoom s 8 8 = false then faultsClean o s .ss 0 rule
      else o = .next t := by
  have hw : ¬ stackWritable s = false := by simp [stackWritable, hmode]
  rw [NearResult, if_neg hw]
  rfl

/-- An exception before any write leaves the state as it was (60_exceptions.md R265). -/
theorem faultsClean_settle (s : State) (x : Exc) (code : BitVec 16) (rule : RuleId) :
    faultsClean (settle s (.error (.exc x (some code) rule [] s.draws))) s x code rule := rfl

/-- A near transfer, followed by a change `f` of the state it leaves: each test that fails is reported with
nothing written. -/
theorem nearTransfer_result {k : Size} {rule : RuleId} {target : BitVec 64} (ret : BitVec 64) (copy : Bool)
    (s : State) (f : State → State) (htarget : viewOf k target = target) :
    NearResult (settle s (nearTransfer k rule target ret copy (startRun s) >>= fun w => .ok (w.upd (f w.st))))
      s k rule target (f ((afterNearPushes k ret copy s).setRip target)) := by
  unfold NearResult
  split_ifs with hb hr hw
  · rw [nearTransfer_bad (r := startRun s) (by rw [startRun_st, nearTargetBad_eq, hb]; rfl)]
    exact faultsClean_settle s _ _ _
  all_goals replace hb : nearTargetBad s k target = false := by simpa [nearTargetBad_eq] using hb
  · rw [nearTransfer_noRoom (r := startRun s) hb hr]
    exact faultsClean_settle s _ _ _
  all_goals rw [Bool.not_eq_false] at hr
  · rw [nearTransfer_notWritable hb hr hw]
    exact faultsClean_settle s _ _ _
  · rw [Bool.not_eq_false, stackWritable_iff] at hw
    rw [nearTransfer_of_room (r := startRun s) hw hb hr, ← branchTo_of_viewOf _ htarget,
      ← nearDone_startRun]
    rfl

/-! ## When a form runs (30_encoding.md R112) -/

/-- A form that runs is its body. -/
theorem exec_of_runnable {i : Instr} {s : State} (h : runnable i s = true) :
    exec i s = settle s (bodyOf i s (startRun s)) := by
  obtain ⟨hfits, hlock⟩ : instrFits s.ctx i = true ∧ (prefixesOfInstr i).lock = false := by
    simpa [runnable] using h
  rw [exec_eq_runCall, runCall, hfits, hlock]
  rfl

theorem exec_of_not_fits {i : Instr} {s : State} (h : formFits s.ctx i = false) :
    exec i s = .refused .formNotInMode := by
  rw [exec_eq_runCall, runCall_refused]
  exact .inl ⟨by rw [instrFits, h, Bool.and_false], rfl⟩

/-- Near calls have operand size 64 in 64-bit mode and only there (10_state.md R39). -/
theorem formSize_of_formFits {i : Instr} {s : State} (hnear : isNear i = true)
    (h : formFits s.ctx i = true) : formSize i = .s64 ↔ s.mode = .long64 := by
  have hsize : nearOperandSize s.ctx (prefixesOfInstr i).opSize = formSize i := by
    cases i with
    | callRel16 | callRel32 | callRel64 => exact beq_iff_eq.1 h
    | callRm16 | callRm32 | callRm64 =>
      rw [formFits, Bool.and_eq_true, beq_iff_eq] at h
      exact h.1
    | _ => simp [isNear] at hnear
  rw [← hsize]
  exact Laws.nearOperandSize_eq_s64

theorem formSize_of_runnable {i : Instr} {s : State} (hnear : isNear i = true) (h : runnable i s = true) :
    formSize i = .s64 ↔ s.mode = .long64 := by
  obtain ⟨⟨-, hform⟩, -⟩ : (_ ∧ formFits s.ctx i = true) ∧ _ := by
    simpa only [runnable, instrFits, Bool.and_eq_true] using h
  exact formSize_of_formFits hnear hform

/-- A near call of another operand size than the mode's is refused (log entry 19). -/
theorem exec_near_refused {i : Instr} {s : State} (hnear : isNear i = true)
    (h : ¬ (formSize i = .s64 ↔ s.mode = .long64)) : exec i s = .refused .formNotInMode :=
  exec_of_not_fits (by simpa using mt (formSize_of_formFits hnear) h)

/-! ## The six forms -/

theorem bind_upd_self (x : Except Halt Run) : (x >>= fun w => .ok (w.upd w.st)) = x := bind_pure x

/-- A relative near call that runs: the transfer to the sum, copied unless the displacement is 0. -/
theorem exec_relative {i : Instr} {s : State} {k : Size} {rule : RuleId} {disp : BitVec 64} {copy : Bool}
    (hrun : runnable i s = true)
    (hbody : bodyOf i s = nearTransfer k rule (relTarget k (nrip i s) disp) (nrip i s) copy) :
    NearResult (exec i s) s k rule (relTarget k (nrip i s) disp)
      ((afterNearPushes k (nrip i s) copy s).setRip (relTarget k (nrip i s) disp)) := by
  rw [exec_of_runnable hrun, hbody]
  have h := nearTransfer_result (rule := rule) (nrip i s) copy s (fun t => t)
    (viewOf_relTarget k (nrip i s) disp)
  rwa [bind_upd_self] at h

/-- An indirect near call that runs: the fault of its operand, else the transfer to it and the tracker. -/
theorem exec_indirect {i : Instr} {s : State} {k : Size} {rule : RuleId} {p : Prefixes} {o : RmOperand}
    (hrun : runnable i s = true) (hbody : bodyOf i s = nearIndirect k rule p o (nrip i s)) :
    match destFault s p (nrip i s) k o with
    | some x => faultsClean (exec i s) s x 0 .r65
    | none => NearResult (exec i s) s k rule (destValue s p (nrip i s) k o)
        (trackerUpdate (p.seg == some .ds)
          ((afterNearPushes k (nrip i s) true s).setRip (destValue s p (nrip i s) k o))) := by
  rw [exec_of_runnable hrun, hbody, nearIndirect, readRm_startRun]
  cases destFault s p (nrip i s) k o with
  | some x => exact faultsClean_settle s x 0 .r65
  | none => exact nearTransfer_result _ true s _ (viewOf_destValue s p _ k o)

/-- Settles O17: the 16-bit sum and the 16-bit return offset are those of `relTarget` and of the pushes. -/
theorem callRel16Result : Obligations.CallRel16Result := by
  intro p rel s i nIP tempEIP pushed shadowed
  refine ⟨fun hmode => exec_near_refused rfl (by simp [i, formSize, hmode]), fun hrun => ?_⟩
  have h := exec_relative (disp := rel.signExtend 64) hrun rfl
  rw [relTarget_s16, afterNearPushes_relative, viewOf_s16] at h
  exact h

/-- Settles O18, as O17 at 32 bits. -/
theorem callRel32Result : Obligations.CallRel32Result := by
  intro p rel s i nEIP tempEIP pushed shadowed
  refine ⟨fun hmode => exec_near_refused rfl (by simp [i, formSize, hmode]), fun hrun => ?_⟩
  have h := exec_relative (disp := rel.signExtend 64) hrun rfl
  rw [relTarget_s32, afterNearPushes_relative, viewOf_s32] at h
  exact h

/-- Settles O19: the form runs in 64-bit mode only, where the stack takes writes. -/
theorem callRel64Result : Obligations.CallRel64Result := by
  intro p rel s i tempRIP pushed shadowed
  refine ⟨fun hmode => exec_near_refused rfl (by simp [i, formSize, hmode]), fun hrun => ?_⟩
  have h := exec_relative (disp := rel.signExtend 64) hrun rfl
  rw [afterNearPushes_relative, nearResult_s64 ((formSize_of_runnable rfl hrun).1 rfl)] at h
  exact h

/-- Settles O20: the operand's fault, then the transfer and the tracker. -/
theorem callRm16Result : Obligations.CallRm16Result := by
  intro p o s i nIP tempEIP pushed shadowed
  refine ⟨fun hmode => exec_near_refused rfl (by simp [i, formSize, hmode]), fun hrun => ?_⟩
  have h := exec_indirect hrun rfl
  rw [afterNearPushes_indirect, viewOf_s16] at h
  exact h

/-- Settles O21, as O20 at 32 bits. -/
theorem callRm32Result : Obligations.CallRm32Result := by
  intro p o s i nEIP tempEIP pushed shadowed
  refine ⟨fun hmode => exec_near_refused rfl (by simp [i, formSize, hmode]), fun hrun => ?_⟩
  have h := exec_indirect hrun rfl
  rw [afterNearPushes_indirect, viewOf_s32] at h
  exact h

/-- Settles O22, as O20 in 64-bit mode, where the stack takes writes. -/
theorem callRm64Result : Obligations.CallRm64Result := by
  intro p o s i tempRIP pushed shadowed
  refine ⟨fun hmode => exec_near_refused rfl (by simp [i, formSize, hmode]), fun hrun => ?_⟩
  have h := exec_indirect hrun rfl
  rw [afterNearPushes_indirect, nearResult_s64 ((formSize_of_runnable rfl hrun).1 rfl)] at h
  exact h

/-! ## What a completed near call writes (R147, R149) -/

/-- The near shadow-stack push writes the bytes below `SSP` where shadow stacks are enabled (R149). -/
theorem nearShadowPush_wrote (k : Size) (ret : BitVec 64) (r : Run) :
    (nearShadowPush k ret r).wrote = r.wrote ++ nearShadowWrites k r.st := by
  unfold nearShadowPush nearShadowWrites
  split
  · cases k <;> rfl
  · exact (List.append_nil _).symm

theorem nearDone_wrote (k : Size) (target ret : BitVec 64) (copy : Bool) (s : State) :
    (nearDone k target ret copy (startRun s)).wrote = storedAddrs s (pushLinear s k.bytes) k.bytes ++
      if copy then nearShadowWrites k s else [] := by
  unfold nearDone
  cases copy with
  | false => exact (List.append_nil _).symm
  | true => exact nearShadowPush_wrote k ret (pushed k.bytes ret (startRun s))

/-- A completed transfer leaves every byte but those of the return offset and of its copy (R149). -/
theorem nearDone_memorySameOutside (k : Size) (target ret : BitVec 64) (copy : Bool) (s : State) :
    memorySameOutside s (nearDone k target ret copy (startRun s)).st
      (storedAddrs s (pushLinear s k.bytes) k.bytes ++ nearShadowWrites k s) := by
  obtain ⟨l, hl, -, hsame⟩ := (RunGrows.nearDone k target ret copy (startRun s)).wrote
  rw [startRun_wrote, List.nil_append, nearDone_wrote] at hl
  refine fun a ha => hsame a fun hmem => ha ?_
  rw [← hl] at hmem
  cases copy with
  | false => exact List.mem_append_left _ (by simpa using hmem)
  | true => exact hmem

/-- A completed transfer leaves `CS`, `CPL`, `SS`, `IA32_PL3_SSP` and the CET registers (R149). -/
theorem nearDone_core (k : Size) (target ret : BitVec 64) (copy : Bool) (r : Run) :
    (nearDone k target ret copy r).st.cs = r.st.cs ∧ (nearDone k target ret copy r).st.cpl = r.st.cpl ∧
    (nearDone k target ret copy r).st.ss = r.st.ss ∧
    (nearDone k target ret copy r).st.pl3Ssp = r.st.pl3Ssp ∧
    (nearDone k target ret copy r).st.uCet = r.st.uCet ∧
    (nearDone k target ret copy r).st.sCet = r.st.sCet := by
  rw [nearDone_st]
  exact ⟨rfl, rfl, rfl, rfl, rfl, rfl⟩

/-- `SSP` stays where shadow stacks are off (R149). -/
theorem nearDone_ssp {s : State} (h : shadowStackEnabled s s.cpl = false) (k : Size) (target ret : BitVec 64)
    (copy : Bool) : (nearDone k target ret copy (startRun s)).st.ssp = s.ssp := by
  rw [nearDone_startRun, branchTo_eq, State.setRip_ssp, afterNearPushes, if_neg (by simp [h])]
  rfl

/-! ## The tracker (R147) -/

/-- The condition of R147 under which an indirect near call arms the tracker. -/
def armsTracker (has3E : Bool) (s : State) : Bool :=
  endbranchEnabledAndNotSuppressed s s.cpl && (!has3E || !cetNoTrackEn (cetOf s s.cpl))

theorem cetSuppress_armTracker (v : BitVec 64) : cetSuppress (armTracker v) = cetSuppress v := by
  obtain ⟨-, h, -⟩ := armTracker_bits v
  exact h

/-- The tracker update arms the CET register of the level, or does nothing (R147). -/
theorem trackerUpdate_eq (has3E : Bool) (s : State) : trackerUpdate has3E s =
    if armsTracker has3E s = true then
      if s.cpl = 3 then s.setUCet (armTracker s.uCet) else s.setSCet (armTracker s.sCet)
    else s := by
  have hwrite : setCetOf s s.cpl (armTracker (cetOf s s.cpl)) =
      if s.cpl = 3 then s.setUCet (armTracker s.uCet) else s.setSCet (armTracker s.sCet) := by
    rw [cetOf_eq, setCetOf]
    by_cases hcpl : s.cpl = 3#2 <;> simp [hcpl]
  rw [← hwrite]
  rfl

/-- The condition is on registers that a near transfer leaves alone. -/
theorem armsTracker_nearDone (has3E : Bool) (k : Size) (target ret : BitVec 64) (copy : Bool) (r : Run) :
    armsTracker has3E (nearDone k target ret copy r).st = armsTracker has3E r.st := by
  rw [nearDone_st]
  rfl

/-! ## Completed near calls -/

/-- The state a near call leaves: the transfer's, and for an indirect call the tracker updated. -/
def nearState (i : Instr) (target : BitVec 64) (copy : Bool) (s : State) : State :=
  let t := (nearDone (formSize i) target (nrip i s) copy (startRun s)).st
  if isNearIndirect i = true then trackerUpdate ((prefixesOfInstr i).seg == some .ds) t else t

/-- A near call that completes leaves such a state. -/
theorem exec_near_next {i : Instr} {s t : State} (hnear : isNear i = true) (h : exec i s = .next t) :
    ∃ target copy, t = nearState i target copy s := by
  obtain ⟨-, -, r, hbody, rfl⟩ := exec_next.1 h
  cases i with
  | callRel16 | callRel32 | callRel64 =>
    obtain ⟨-, -, -, rfl⟩ := nearTransfer_ok.1 hbody
    exact ⟨_, _, rfl⟩
  | callRm16 | callRm32 | callRm64 =>
    obtain ⟨target, w, -, hw, rfl⟩ := nearIndirect_ok.1 hbody
    obtain ⟨-, -, -, rfl⟩ := nearTransfer_ok.1 hw
    exact ⟨target, true, rfl⟩
  | _ => simp [isNear] at hnear

/-- A near call arms the tracker when it is indirect and the condition holds (R147). -/
def nearArms (i : Instr) (s : State) : Bool :=
  isNearIndirect i && armsTracker ((prefixesOfInstr i).seg == some .ds) s

/-- The tracker of the caller's level is armed where the call arms it; all else is the transfer's. -/
theorem nearState_eq (i : Instr) (target : BitVec 64) (copy : Bool) (s : State) :
    nearState i target copy s =
      let t := (nearDone (formSize i) target (nrip i s) copy (startRun s)).st
      if nearArms i s = true then
        if s.cpl = 3 then t.setUCet (armTracker s.uCet) else t.setSCet (armTracker s.sCet)
      else t := by
  obtain ⟨-, hcpl, -, -, hu, hs⟩ := nearDone_core (formSize i) target (nrip i s) copy (startRun s)
  by_cases hind : isNearIndirect i = true
  · simp only [nearState, hind, if_true, trackerUpdate_eq, armsTracker_nearDone, hcpl, hu, hs, startRun_st,
      nearArms, Bool.true_and]
  · simp [nearState, nearArms, hind]

/-- Settles O23: the transfer leaves all of it alone, and the tracker is not `SUPPRESS`. -/
theorem nearCallFrame : Obligations.NearCallFrame := by
  intro i s t hnear h
  have hrest := exec_next_sameRest h
  obtain ⟨target, copy, rfl⟩ := exec_near_next hnear h
  have hmem := nearDone_memorySameOutside (formSize i) target (nrip i s) copy s
  have hssp (hoff : shadowStackEnabled s s.cpl = false) :=
    nearDone_ssp hoff (formSize i) target (nrip i s) copy
  obtain ⟨hcs, hcpl, hss, hpl3, hu, hs⟩ := nearDone_core (formSize i) target (nrip i s) copy (startRun s)
  refine ⟨hrest.keepsRest, ?_⟩
  rw [nearState_eq]
  dsimp only
  split_ifs
  · exact ⟨hcs, hcpl, hss, hpl3, cetSuppress_armTracker _, congrArg _ hs, hssp, hmem⟩
  · exact ⟨hcs, hcpl, hss, hpl3, congrArg _ hu, cetSuppress_armTracker _, hssp, hmem⟩
  · exact ⟨hcs, hcpl, hss, hpl3, congrArg _ hu, congrArg _ hs, hssp, hmem⟩

/-- Settles O24: the transfer leaves both registers alone, so that only the tracker's own write shows. -/
theorem nearCallTracker : Obligations.NearCallTracker := by
  intro i s t hnear h arms
  obtain ⟨target, copy, rfl⟩ := exec_near_next hnear h
  have harms : arms ↔ nearArms i s = true := by simp [arms, nearArms, armsTracker]
  obtain ⟨-, -, -, -, hu, hs⟩ := nearDone_core (formSize i) target (nrip i s) copy (startRun s)
  rw [nearState_eq, harms]
  refine ⟨fun ⟨ha, h3⟩ => ?_, fun ⟨ha, h3⟩ => ?_, fun ha => ?_⟩
  · rw [if_pos ha, if_pos h3]
    exact ⟨rfl, hs⟩
  · rw [if_pos ha, if_neg h3]
    exact ⟨rfl, hu⟩
  · rw [if_neg ha]
    exact ⟨hu, hs⟩

end Sys2Proof.Machine
end

section
/-! The far calls of real-address and virtual-8086 mode (41_far_call_real.md R160 to R165): the far address, what
they test and in what order, the state they leave, what they leave alone. What is said of the far address and its
reading holds of the far calls of every mode. -/

namespace Sys2Proof.Machine

/-! ## The far address (R160, 20_memory.md R68) -/

/-- How a fault of the operand read ends a call that has written nothing (20_memory.md R65). -/
def operandHalt (s : State) (x : Exc) : Halt := .exc x (some 0) .r65 [] s.draws

theorem readMemOperand_startRun (s : State) (p : Prefixes) (ret : BitVec 64) (m : Mem) (k n : Nat) :
    readMemOperand (startRun s) p ret m k n = match operandFault s p ret m k n with
      | some x => .error (operandHalt s x)
      | none => .ok (operandValue s p ret m k n) := by
  rw [readMemOperand, segRead]
  rfl

/-- A far pointer in memory is read as `farMem` says; either way nothing is written (20_memory.md R68). -/
theorem readFarPtr_startRun (s : State) (p : Prefixes) (ret : BitVec 64) (k : Size) (m : Mem) :
    readFarPtr (startRun s) p ret k m = (farMem s p ret k m).mapError (operandHalt s) := by
  rw [readFarPtr, readMemOperand_startRun, readMemOperand_startRun, farMem]
  cases operandFault s p ret m 0 k.bytes with
  | some x => rfl
  | none => cases operandFault s p ret m k.bytes 2 <;> rfl

/-- The offset of a far address has the operand size (30_encoding.md R102). -/
theorem viewOf_farOperand_off {i : Instr} {s : State} {f : FarPtr} (h : farOperand i s = some (.ok f)) :
    viewOf (formSize i) f.off = f.off := by
  have hptr {w : Nat} {k : Size} (off : BitVec w) (hw : w = k.bits) :
      viewOf k (off.setWidth 64) = off.setWidth 64 := by
    refine viewOf_eq_self ?_
    rw [BitVec.toNat_setWidth, ← hw]
    exact (Nat.mod_le _ _).trans_lt off.isLt
  have hmem {p : Prefixes} {k : Size} {m : Mem} (hf : farMem s p (nrip i s) k m = .ok f) :
      viewOf k f.off = f.off := by
    unfold farMem at hf
    split at hf
    · cases hf
    split at hf
    · cases hf
    cases hf
    refine viewOf_eq_self ?_
    rw [size_bits_eq]
    exact memRead_lt _ _ (by cases k <;> decide)
  cases i with
  | callPtr1616Real _ off | callPtr1616Prot _ off | callPtr1632Real _ off | callPtr1632Prot _ off =>
    cases h
    exact hptr off rfl
  | callM1616Real | callM1616Prot | callM1632Real | callM1632Prot | callM1664 => exact hmem (Option.some.inj h)
  | _ => simp [farOperand] at h

/-- The transfer a far call makes once its far address is known. -/
def farTransfer (i : Instr) : FarPtr → BitVec 64 → Run → Except Halt Run :=
  if isFarReal i = true then
    if formSize i = .s16 then farReal16 else farReal32
  else farProtected (formSize i)

/-- A far call is the read of its far address and the transfer there (R160, 42_far_call_protected.md R170). -/
theorem bodyOf_far {i : Instr} {s : State} {x : Except Exc FarPtr} (h : farOperand i s = some x) :
    bodyOf i s (startRun s) =
      x.mapError (operandHalt s) >>= fun f => farTransfer i f (nrip i s) (startRun s) := by
  cases i with
  | callPtr1616Real | callPtr1616Prot | callPtr1632Real | callPtr1632Prot =>
    cases h
    rfl
  | callM1616Real | callM1616Prot | callM1632Real | callM1632Prot | callM1664 =>
    rw [← Option.some.inj h, ← readFarPtr_startRun]
    rfl
  | _ => simp [farOperand] at h

/-- A fault of the operand read is the call's, with nothing written (R160, 42_far_call_protected.md R170). -/
theorem exec_far_operandFault {i : Instr} {s : State} {x : Exc} (hrun : runnable i s = true)
    (h : farOperand i s = some (.error x)) : faultsClean (exec i s) s x 0 .r65 := by
  rw [exec_of_runnable hrun, bodyOf_far h]
  exact faultsClean_settle s x 0 .r65

theorem exec_far_of_operand {i : Instr} {s : State} {f : FarPtr} (hrun : runnable i s = true)
    (h : farOperand i s = some (.ok f)) :
    exec i s = settle s (farTransfer i f (nrip i s) (startRun s)) := by
  rw [exec_of_runnable hrun, bodyOf_far h]
  rfl

/-- A far call that completes has read its far address and made the transfer. -/
theorem exec_far_next {i : Instr} {s t : State} {x : Except Exc FarPtr} (hx : farOperand i s = some x)
    (h : exec i s = .next t) :
    ∃ f r, farOperand i s = some (.ok f) ∧ farTransfer i f (nrip i s) (startRun s) = .ok r ∧ t = r.st := by
  obtain ⟨-, -, r, hbody, rfl⟩ := exec_next.1 h
  rw [bodyOf_far hx] at hbody
  cases x with
  | error x => cases hbody
  | ok f => exact ⟨f, r, hx, hbody, rfl⟩

/-! ## The real-mode forms (30_encoding.md R112) -/

/-- In the other modes the forms are refused (log entry 19). -/
theorem exec_farReal_refused {i : Instr} {s : State} (hfar : isFarReal i = true)
    (h : s.mode.isRealLike = false) : exec i s = .refused .formNotInMode := by
  have hmode : s.ctx.mode.isRealLike = false := h
  refine exec_of_not_fits ?_
  cases i with
  | callPtr1616Real | callPtr1632Real | callM1616Real | callM1632Real => simp [formFits, hmode]
  | _ => simp [isFarReal] at hfar

theorem farReal_operand {i : Instr} (hfar : isFarReal i = true) (s : State) :
    ∃ x, farOperand i s = some x := by
  cases i with
  | callPtr1616Real | callPtr1632Real | callM1616Real | callM1632Real => exact ⟨_, rfl⟩
  | _ => simp [isFarReal] at hfar

theorem farReal_size {i : Instr} (hfar : isFarReal i = true) : formSize i = .s16 ∨ formSize i = .s32 := by
  cases i with
  | callPtr1616Real | callM1616Real => exact .inl rfl
  | callPtr1632Real | callM1632Real => exact .inr rfl
  | _ => simp [isFarReal] at hfar

/-! ## The tests, in order (R161, R162) -/

/-- What R161 and R162 do after their own tests: two pushes, `CS`, the branch. -/
def farRealEnter (k : Size) (f : FarPtr) (ret : BitVec 64) (r : Run) : Except Halt Run := do
  let w ← pushSel k r.st.cs.sel r
  let v ← push k.bytes ret w
  .ok (v.upd (branchTo (loadCsReal f.sel v.st) k f.off))

theorem farReal16_eq (f : FarPtr) (ret : BitVec 64) (r : Run) : farReal16 f ret r =
    raiseIf (!stackRoom r.st 4 2) r .ss 0 .r161 >>= fun _ => farRealEnter .s16 f ret r := rfl

theorem farReal32_eq (f : FarPtr) (ret : BitVec 64) (r : Run) : farReal32 f ret r =
    raiseIf (!stackRoom r.st 8 4) r .ss 0 .r162 >>= fun _ =>
      raiseIf (f.off.extractLsb' 16 16 != 0#16) r .gp 0 .r162 >>= fun _ => farRealEnter .s32 f ret r := rfl

/-- The state R161 and R162 leave: selector and return offset pushed, `CS` loaded as R163 says, the branch. -/
def afterFarReal (k : Size) (f : FarPtr) (ret : BitVec 64) (s : State) : State :=
  ((afterPush k.bytes ret (afterPushSel k s.cs.sel s)).setCs
    { s.cs with sel := f.sel, base := (f.sel.setWidth 64) <<< 4 }).setRip f.off

theorem farRealDone_startRun {k : Size} {f : FarPtr} (ret : BitVec 64) (s : State)
    (hoff : viewOf k f.off = f.off) : (farRealDone k f ret (startRun s)).st = afterFarReal k f ret s :=
  branchTo_of_viewOf _ hoff

/-- Outside 64-bit mode a push inside the limit of a segment that takes no writes is `#GP(0)`
(20_memory.md R65). -/
theorem segFault_push_notWritable {s : State} {k : Size} (hroom : stackRoom s (2 * k.bytes) k.bytes = true)
    (hw : stackWritable s = false) : segFault s .ss s.ss (pushOffset s k.bytes) k.bytes true = some .gp := by
  obtain ⟨hmode, hss⟩ : s.mode ≠ .long64 ∧ s.ss.isWritableData = false := by
    simpa [stackWritable] using hw
  have hplace : offsetsInLimit s.ss (pushOffset s k.bytes) k.bytes = true := by
    rw [stackRoom, beq_false_of_ne hmode, if_neg Bool.false_ne_true, roomInSeg,
      Nat.mul_div_cancel _ (Size.bytes_pos k)] at hroom
    simpa [pushOffset] using List.all_eq_true.1 hroom 0 (by simp)
  rw [segFault_of_not_long64 hmode, if_pos hplace, if_pos (by simp [accessForbidden, hss])]

/-- With room for both items, the one test left is that the stack takes writes. -/
theorem farRealEnter_result {k : Size} {f : FarPtr} (ret : BitVec 64) {s : State}
    (hroom : stackRoom s (2 * k.bytes) k.bytes = true) (hoff : viewOf k f.off = f.off) :
    if stackWritable s = false then
      faultsClean (settle s (farRealEnter k f ret (startRun s))) s .gp 0 .r65
    else settle s (farRealEnter k f ret (startRun s)) = .next (afterFarReal k f ret s) := by
  split_ifs with hw
  · have hpush : pushSel k s.cs.sel (startRun s) = .error (.exc .gp (some 0) .r65 [] s.draws) := by
      rw [pushSel, push_error (r := startRun s) (segFault_push_notWritable hroom hw)]
      rfl
    rw [farRealEnter, startRun_st, hpush]
    exact faultsClean_settle s .gp 0 .r65
  · rw [Bool.not_eq_false, stackWritable_iff] at hw
    have hpushes := (selThenPush_ok (sel := s.cs.sel) (v := ret) (r := startRun s)).2
      ⟨TwoPushesOk.of_room hw hroom, rfl⟩
    rw [farRealEnter, ← bind_assoc, startRun_st, hpushes, ← farRealDone_startRun ret s hoff]
    rfl

/-- The test on the offset's upper half says that the offset is above `FFFFH` (R162). -/
theorem offsetUpper_ne_zero {v : BitVec 64} (h : viewOf .s32 v = v) :
    (v.extractLsb' 16 16 != 0#16) = decide (0xFFFF < v.toNat) := by
  have hlt : v.toNat < 2 ^ 32 := by
    rw [← h, viewOf_toNat]
    exact Nat.mod_lt _ (by decide)
  rw [Bool.eq_iff_iff, bne_iff_ne, ne_eq, decide_eq_true_iff, ← BitVec.toNat_inj, BitVec.extractLsb'_toNat,
    Nat.shiftRight_eq_div_pow, BitVec.toNat_ofNat]
  omega

/-- Settles O25: the room test, then the pushes. -/
theorem farReal16Result : Obligations.FarReal16Result := by
  intro i s hfar hsize
  refine ⟨exec_farReal_refused hfar, fun x hrun => exec_far_operandFault hrun, ?_⟩
  intro f hrun hf pushed cs'
  have hoff : viewOf .s16 f.off = f.off := hsize ▸ viewOf_farOperand_off hf
  rw [exec_far_of_operand hrun hf, farTransfer, if_pos hfar, if_pos hsize, farReal16_eq, startRun_st]
  split
  case isTrue hroom =>
    rw [hroom]
    exact faultsClean_settle s .ss 0 .r161
  case isFalse hroom =>
    rw [Bool.not_eq_false] at hroom
    rw [hroom]
    exact farRealEnter_result (nrip i s) hroom hoff

/-- Settles O26: the room test for both items, the test on the offset, then the pushes. -/
theorem farReal32Result : Obligations.FarReal32Result := by
  intro i s hfar hsize
  refine ⟨exec_farReal_refused hfar, fun x hrun => exec_far_operandFault hrun, ?_⟩
  intro f hrun hf pushed cs'
  have hoff : viewOf .s32 f.off = f.off := hsize ▸ viewOf_farOperand_off hf
  have hne : formSize i ≠ .s16 := by simp [hsize]
  rw [exec_far_of_operand hrun hf, farTransfer, if_pos hfar, if_neg hne, farReal32_eq, startRun_st,
    offsetUpper_ne_zero hoff]
  split
  case isTrue hroom =>
    rw [hroom]
    exact faultsClean_settle s .ss 0 .r162
  case isFalse hroom =>
    rw [Bool.not_eq_false] at hroom
    rw [hroom]
    split
    case isTrue hlarge =>
      rw [decide_eq_true hlarge]
      exact faultsClean_settle s .gp 0 .r162
    case isFalse hsmall =>
      rw [decide_eq_false hsmall]
      exact farRealEnter_result (nrip i s) hroom hoff

/-! ## What a completed call writes (R164, R165) -/

/-- A completed call leaves every byte but those it has written. -/
theorem memorySameOutside_wrote {s : State} {r : Run} (h : RunGrows (startRun s) r) :
    memorySameOutside s r.st r.wrote := by
  obtain ⟨l, hl, -, hsame⟩ := h.wrote
  rw [startRun_wrote, List.nil_append] at hl
  rw [hl]
  exact hsame

/-- The bytes of the two stack items, the second below the first (20_memory.md R66). -/
theorem farRealDone_wrote (k : Size) (f : FarPtr) (ret : BitVec 64) (s : State) :
    (farRealDone k f ret (startRun s)).wrote = storedAddrs s (pushLinear s k.bytes) k.bytes ++
      storedAddrs s (segLinear s .ss s.ss (itemOffset (stackAddrSize s) s.gpr.rsp (2 * k.bytes))) k.bytes := by
  have hplace := pushOffset_selPushed k s.cs.sel (startRun s) k.bytes
  rw [← Nat.two_mul, startRun_st] at hplace
  rw [← hplace]
  rfl

/-- A real-mode far call that completes ends in the two pushes, `CS` and the branch. -/
theorem exec_farReal_next {i : Instr} {s t : State} (hfar : isFarReal i = true) (h : exec i s = .next t) :
    ∃ f, t = (farRealDone (formSize i) f (nrip i s) (startRun s)).st := by
  obtain ⟨x, hx⟩ := farReal_operand hfar s
  obtain ⟨f, r, -, hr, rfl⟩ := exec_far_next hx h
  refine ⟨f, congrArg Run.st ?_⟩
  rw [farTransfer, if_pos hfar] at hr
  rcases farReal_size hfar with hsize | hsize <;> rw [hsize] at hr ⊢
  · obtain ⟨-, -, hdone⟩ := farReal16_ok.1 hr
    exact hdone
  · obtain ⟨-, -, -, hdone⟩ := farReal32_ok.1 hr
    exact hdone

/-- Settles O27: registers by the state a completed call leaves, memory by the bytes it has written. -/
theorem farRealFrame : Obligations.FarRealFrame := by
  intro i s t hfar h
  have hrest := (exec_next_sameRest h).keepsRest
  obtain ⟨f, rfl⟩ := exec_farReal_next hfar h
  have hmem := memorySameOutside_wrote (RunGrows.farRealDone (formSize i) f (nrip i s) (startRun s))
  rw [farRealDone_wrote] at hmem
  refine ⟨hrest, ?_, ?_, ?_, ?_, ?_, ?_, ?_, hmem⟩ <;> rw [farRealDone_st] <;> rfl

end Sys2Proof.Machine
end

section
/-! The far calls of protected, compatibility and 64-bit mode (42_far_call_protected.md R170 to R177): the operand,
the tests on the selector and on its descriptor, and the call to a code segment, test by test. -/

namespace Sys2Proof.Machine

/-! ## The five forms (R170, 30_encoding.md R112) -/

/-- In real-address and virtual-8086 mode the forms are refused (log entry 19). -/
theorem exec_farProt_refused {i : Instr} {s : State} (hfar : isFarProt i = true)
    (h : s.mode.isRealLike = true) : exec i s = .refused .formNotInMode := by
  have hmode : s.ctx.mode.isRealLike = true := h
  have hnot64 : farOperandSize s.ctx (prefixesOfInstr i).opSize (prefixesOfInstr i).rexW ≠ .s64 :=
    fun h64 => Laws.mode_ne_long64 hmode (Laws.farOperandSize_eq_s64.1 h64).1
  refine exec_of_not_fits ?_
  cases i with
  | callPtr1616Prot | callPtr1632Prot | callM1616Prot | callM1632Prot => simp [formFits, hmode]
  | callM1664 p => simp [formFits, show farOperandSize s.ctx p.opSize p.rexW ≠ .s64 from hnot64]
  | _ => simp [isFarProt] at hfar

theorem farProt_operand {i : Instr} (hfar : isFarProt i = true) (s : State) :
    ∃ x, farOperand i s = some x := by
  cases i with
  | callPtr1616Prot | callPtr1632Prot | callM1616Prot | callM1632Prot | callM1664 => exact ⟨_, rfl⟩
  | _ => simp [isFarProt] at hfar

/-- What the five forms do with their far address (R170). -/
theorem farTransfer_farProt {i : Instr} (hfar : isFarProt i = true) :
    farTransfer i = farProtected (formSize i) := by
  cases i with
  | callPtr1616Prot | callPtr1632Prot | callM1616Prot | callM1632Prot | callM1664 => rfl
  | _ => simp [isFarProt] at hfar

/-- Settles O28: no test stands before the read of the far address. -/
theorem farOperandIsReadFirst : Obligations.FarOperandIsReadFirst :=
  fun _ _ hfar => ⟨exec_farProt_refused hfar, fun _ hrun => exec_far_operandFault hrun⟩

/-! ## Tests in the order of a rule (60_exceptions.md R264) -/

/-- An outcome whose next step is a test: the exception with nothing written where the test `p` fails, else
what the steps after the test make of it. -/
theorem faultsClean_or {o : Host.Outcome State Fault Refusal} {s : State} {bad : Bool} {x : Exc}
    {code : BitVec 16} {rule : RuleId} {rest : Unit → Except Halt Run} {p q : Prop} [Decidable p]
    (ho : o = settle s (raiseIf bad (startRun s) x code rule >>= rest)) (hp : bad = true ↔ p)
    (hq : ¬ p → o = settle s (rest ()) → q) : if p then faultsClean o s x code rule else q := by
  cases bad with
  | true => rw [if_pos (hp.1 rfl), ho]; rfl
  | false =>
    have hnot : ¬ p := fun h => Bool.false_ne_true (hp.2 h)
    rw [if_neg hnot]
    exact hq hnot ho

/-- A test that fails, as a fault of its own. -/
theorem faultsClean_of_test {o : Host.Outcome State Fault Refusal} {s : State} {bad : Bool} {x : Exc}
    {code : BitVec 16} {rule : RuleId} {rest : Unit → Except Halt Run}
    (ho : o = settle s (raiseIf bad (startRun s) x code rule >>= rest)) (hbad : bad = true) :
    faultsClean o s x code rule := by
  rw [ho, hbad]
  rfl

/-- A test that passes. -/
theorem raiseIf_of_false {bad : Bool} {r : Run} {x : Exc} {code : BitVec 16} {rule : RuleId}
    {rest : Unit → Except Halt Run} (h : bad = false) : (raiseIf bad r x code rule >>= rest) = rest () := by
  rw [h]
  rfl

/-! ## The tests on the selector (R171, R172) -/

/-- A far call of these modes with its operand read. -/
theorem exec_farProtected {i : Instr} {s : State} {f : FarPtr} (hfar : isFarProt i = true)
    (hrun : runnable i s = true) (hf : farOperand i s = some (.ok f)) :
    exec i s = settle s (farProtected (formSize i) f (nrip i s) (startRun s)) := by
  rw [exec_far_of_operand hrun hf, farTransfer_farProt hfar]

/-- The test for NULL passes, the descriptor is not in its table. -/
theorem farProtected_notFetched {k : Size} {f : FarPtr} {ret : BitVec 64} {r : Run}
    (hnull : isNullSel f.sel = false) (hfetch : fetchDescriptor r.st f.sel = none) :
    farProtected k f ret r = raise r .gp (errorCode f.sel) .r172 := by
  rw [farProtected, raiseIf_of_false hnull, hfetch]

/-- The test for NULL passes, the descriptor is fetched. -/
theorem farProtected_fetched {k : Size} {f : FarPtr} {d ret : BitVec 64} {r : Run}
    (hnull : isNullSel f.sel = false) (hfetch : fetchDescriptor r.st f.sel = some d) :
    farProtected k f ret r =
      raiseIf (!farTypeOk r.st.lma (segFromDesc f.sel d) d) r .gp (errorCode f.sel) .r173 >>= fun _ =>
        farDispatch k f d ret r := by
  rw [farProtected, raiseIf_of_false hnull, hfetch]

/-- Settles O29: NULL is the first test. -/
theorem nullSelectorFaults : Obligations.NullSelectorFaults :=
  fun _ _ f hfar hrun hf hnull =>
    faultsClean_of_test (exec_farProtected hfar hrun hf) ((isNullSel_iff f.sel).2 hnull)

theorem isNullSel_eq_false {sel : BitVec 16} : isNullSel sel = false ↔ 3 < sel.toNat := by
  rw [← Bool.not_eq_true, isNullSel_iff, Nat.not_le]

/-- A descriptor's offset in its table is the selector's index times 8 (20_memory.md R69, R70). -/
theorem selOffset_eq (sel : BitVec 16) : selOffset sel = sel.toNat / 8 * 8 := by
  have := sel.isLt
  rw [selOffset, BitVec.extractLsb'_toNat, Nat.shiftRight_eq_div_pow]
  omega

/-- The last byte of a descriptor is beyond its table, or its table is an `LDT` that is not loaded
(20_memory.md R70). -/
theorem inTable_eq_false {s : State} {sel : BitVec 16} {last : Nat} : inTable s sel last = false ↔
    if sel.getLsbD 2 then s.ldtr.sel.toNat ≤ 3 ∨ s.ldtr.limit.toNat < sel.toNat / 8 * 8 + last
    else s.gdtr.limit.toNat < sel.toNat / 8 * 8 + last := by
  rw [inTable, selTi, selOffset_eq]
  cases sel.getLsbD 2 with
  | true =>
    simp only [if_true, Bool.and_eq_false_iff, Bool.not_eq_false', isNullSel_iff, decide_eq_false_iff_not,
      Nat.not_le]
  | false => simp

/-- Settles O30: the descriptor is fetched right after the test for NULL. -/
theorem tableLimitFaults : Obligations.TableLimitFaults := by
  intro i s f hfar hrun hf hnull hlimit
  have hfetch : fetchDescriptor s f.sel = none :=
    if_neg (Bool.not_eq_true _ ▸ inTable_eq_false.2 hlimit)
  rw [exec_farProtected hfar hrun hf,
    farProtected_notFetched (r := startRun s) (isNullSel_eq_false.2 hnull) hfetch]
  exact faultsClean_settle s .gp (errorCode f.sel) .r172

/-! ## The test on the type (R173) -/

/-- A far call whose descriptor is fetched makes the type test and the dispatch of R174. -/
theorem FarCallTo.exec_eq {i : Instr} {s : State} {f : FarPtr} {d : BitVec 64} (h : FarCallTo i s f d) :
    exec i s = settle s (raiseIf (!farTypeOk s.lma (segFromDesc f.sel d) d) (startRun s) .gp
      (errorCode f.sel) .r173 >>= fun _ => farDispatch (formSize i) f d (nrip i s) (startRun s)) := by
  rw [exec_farProtected h.far h.runs h.operand, farProtected_fetched (r := startRun s) h.notNull h.fetched,
    startRun_st]

/-- Code segments by number (20_memory.md R72). -/
theorem isCode_segFromDesc (sel : BitVec 16) (d : BitVec 64) :
    (segFromDesc sel d).isCode = true ↔ descS d = true ∧ 8 ≤ (descType d).toNat := by
  have h : ∀ t : BitVec 4, t.getLsbD 3 = true ↔ 8 ≤ t.toNat := by decide
  rw [Seg.isCode, Bool.and_eq_true, ← h]
  rfl

/-- The types that pass, by number: in IA-32e mode only 64-bit call gates besides code segments (R173). -/
theorem farTypeOk_iff {lma : Bool} {sel : BitVec 16} {d : BitVec 64} :
    farTypeOk lma (segFromDesc sel d) d = true ↔
      (descS d = true ∧ 8 ≤ (descType d).toNat) ∨
        if lma then descS d = false ∧ (descType d).toNat = 0xC
        else descS d = false ∧ (descType d).toNat ∈ [0x4, 0xC, 0x5, 0x1, 0x3, 0x9, 0xB] := by
  have hgate : ∀ t : BitVec 4, t = 0xC#4 ↔ t.toNat = 0xC := by decide
  have hsystem : ∀ t : BitVec 4, (t = 4#4 ∨ t = 0xC#4 ∨ t = 5#4 ∨ t = 1#4 ∨ t = 3#4 ∨ t = 9#4 ∨ t = 0xB#4) ↔
      t.toNat ∈ [0x4, 0xC, 0x5, 0x1, 0x3, 0x9, 0xB] := by decide
  rw [← isCode_segFromDesc sel, ← hgate, ← hsystem, farTypeOk]
  cases lma with
  | true => simp [isCallGate64]
  | false =>
    simp only [isCallGate16, isCallGate32, isTaskGate, isTss, Bool.or_eq_true, Bool.and_eq_true,
      Bool.not_eq_true', beq_iff_eq, Bool.not_false, and_true, Bool.false_eq_true, if_false, or_assoc,
      ← and_or_left]

/-- Settles O31: neither a code segment nor one of the system types that pass. -/
theorem typeTestFaults : Obligations.TypeTestFaults := by
  intro i s f d h hcode hsystem
  refine faultsClean_of_test h.exec_eq ?_
  rw [Bool.not_eq_true', ← Bool.not_eq_true, farTypeOk_iff]
  rintro (hc | ht)
  · exact hcode hc
  · revert hsystem ht
    split <;> exact fun hn ht => hn ht

end Sys2Proof.Machine
end

section
/-! The far call to a code segment (42_far_call_protected.md R175 to R183): its tests in order, the state it leaves,
the shadow frame it stores, and what it leaves alone. -/

namespace Sys2Proof.Machine

/-! ## The target (R175 to R177) -/

theorem viewOf_s32_eq_and (v : BitVec 64) : viewOf .s32 v = v &&& 0xFFFFFFFF :=
  BitVec.eq_of_toNat_eq (by
    rw [viewOf_toNat, BitVec.toNat_and]
    exact (Nat.and_two_pow_sub_one_eq_mod _ 32).symm)

theorem viewOf_s16_eq_and (v : BitVec 64) : viewOf .s16 v = v &&& 0xFFFF :=
  BitVec.eq_of_toNat_eq (by
    rw [viewOf_toNat, BitVec.toNat_and]
    exact (Nat.and_two_pow_sub_one_eq_mod _ 16).symm)

theorem targetCompat_iff (s : State) (c : Seg) : targetCompat s c = true ↔ s.lma = true ∧ c.l = false := by
  simp [targetCompat]

/-- The offset in masks: to 32 bits for a compatibility-mode target, to 16 bits at operand size 16. -/
theorem farTarget_eq (s : State) (k : Size) (c : Seg) (off : BitVec 64) : farTarget s k c off =
    let masked := if s.lma = true ∧ c.l = false then off &&& 0xFFFFFFFF else off
    if k = .s16 then masked &&& 0xFFFF else masked := by
  simp only [farTarget, targetCompat_iff, ← viewOf_s32_eq_and, ← viewOf_s16_eq_and]
  cases k <;> rfl

/-- A narrower view of a view is a view still: masking keeps an offset at its operand size. -/
theorem viewOf_farTarget {k : Size} {off : BitVec 64} (h : viewOf k off = off) (s : State) (c : Seg) :
    viewOf k (farTarget s k c off) = farTarget s k c off := by
  cases k with
  | s16 => exact viewOf_viewOf .s16 _
  | s32 =>
    rw [farTarget]
    split
    · exact viewOf_viewOf .s32 off
    · exact h
  | s64 => rfl

/-! ## The state a completed call leaves (R178 to R181) -/

/-- The steps of R176 and R177 after their tests: the pushes, the `CS` load, the branch, the shadow frame, the
tracker. -/
def codeSegmentEnter (k : Size) (f : FarPtr) (d lip ret : BitVec 64) (r : Run) : Except Halt Run := do
  let r1 ← farReturnPush k ret r
  let r2 := loadCs f.sel d r1
  let r3 := r2.upd (branchTo r2.st k (farTarget r.st k (segFromDesc f.sel d) f.off))
  let r4 ← farShadowStackPush (segFromDesc f.sel d) r.st.cs.sel lip r3
  .ok (r4.upd (farEndbranch r4.st))

theorem codeSegmentTransfer_eq (rule : RuleId) (k : Size) (f : FarPtr) (d lip ret : BitVec 64) (r : Run) :
    codeSegmentTransfer rule k f d lip ret r =
      let c := segFromDesc f.sel d
      let t := farTarget r.st k c f.off
      raiseIf (!c.p) r .np (errorCode f.sel) rule >>= fun _ =>
      raiseIf (!stackRoom r.st (2 * k.bytes) k.bytes) r .ss 0 rule >>= fun _ =>
      raiseIf ((!r.st.lma || targetCompat r.st c) && !inLimit c t.toNat) r .gp 0 rule >>= fun _ =>
      raiseIf (!canonical r.st.cpu.laWidth t) r .gp 0 rule >>= fun _ =>
      codeSegmentEnter k f d lip ret r := rfl

/-- The pushes, when they raise nothing, leave the shadow frame to be stored. -/
theorem codeSegmentEnter_of_pushes {k : Size} {f : FarPtr} {d lip ret : BitVec 64} {r : Run}
    (h : TwoPushesOk k r.st) : codeSegmentEnter k f d lip ret r =
      farShadowStackPush (segFromDesc f.sel d) r.st.cs.sel lip (codeEntered k f d ret r) >>= fun r4 =>
        .ok (r4.upd (farEndbranch r4.st)) := by
  rw [codeSegmentEnter, farReturnPush_ok.2 ⟨h, rfl⟩]
  rfl

theorem farShadowDone_st (cs : BitVec 16) (lip : BitVec 64) (r : Run) :
    (farShadowDone cs lip r).st = afterFarShadow cs lip r.st := by
  unfold farShadowDone afterFarShadow
  split <;> rfl

theorem setAccessed_afterAccessed (sel : BitVec 16) (d : BitVec 64) (r : Run) :
    (setAccessed sel d r).st = afterAccessed sel d r.st := by
  unfold setAccessed afterAccessed
  split <;> rfl

theorem codeEntered_st (k : Size) (f : FarPtr) (d ret : BitVec 64) (s : State) :
    (codeEntered k f d ret (startRun s)).st =
      branchTo (afterLoadCs f.sel d (afterPush k.bytes ret (afterPushSel k s.cs.sel s))) k
        (farTarget s k (segFromDesc f.sel d) f.off) := by
  rw [codeEntered, Run.upd_st, loadCs, setAccessed_afterAccessed]
  rfl

/-- The run of a completed call holds the state R176 and R177 describe. -/
theorem codeDone_startRun (k : Size) (f : FarPtr) (d lip ret : BitVec 64) (s : State) :
    (codeDone k f d lip ret (startRun s)).st = afterCodeSegment k f d lip ret s := by
  rw [codeDone, Run.upd_st, farShadowDone_st, codeEntered_st]
  rfl

/-- The instruction pointer ends at the masked offset. -/
theorem afterCodeSegment_rip {k : Size} {f : FarPtr} (hoff : viewOf k f.off = f.off) (d lip ret : BitVec 64)
    (s : State) :
    (afterCodeSegment k f d lip ret s).rip = farTarget s k (segFromDesc f.sel d) f.off := by
  obtain ⟨-, hrip, -⟩ := codeDone_fields k f d lip ret (startRun s)
  rw [← codeDone_startRun, hrip, branchTo_of_viewOf _ (viewOf_farTarget hoff _ _)]
  rfl

/-! ## The bytes written (R77, R179) -/

theorem setAccessed_wrote (sel : BitVec 16) (d : BitVec 64) (r : Run) :
    (setAccessed sel d r).wrote = r.wrote ++ accessedWrites sel d r.st := by
  unfold setAccessed accessedWrites
  split
  · exact (List.append_nil _).symm
  · rfl

/-- The pushes of R179 write the two stack items: they are those of a real-mode far call (R161, R162). -/
theorem farReturnPushed_wrote (k : Size) (ret : BitVec 64) (s : State) :
    (pushed k.bytes ret (selPushed k s.cs.sel (startRun s))).wrote =
      storedAddrs s (pushLinear s k.bytes) k.bytes ++
        storedAddrs s (segLinear s .ss s.ss (itemOffset (stackAddrSize s) s.gpr.rsp (2 * k.bytes))) k.bytes :=
  farRealDone_wrote k ⟨0, 0⟩ ret s

theorem codeEntered_wrote (k : Size) (f : FarPtr) (d ret : BitVec 64) (s : State) :
    (codeEntered k f d ret (startRun s)).wrote = codeSegmentWrites k f d s := by
  rw [codeEntered, Run.upd_wrote, loadCs, setAccessed_wrote, Run.upd_wrote, startRun_st, farReturnPushed_wrote]
  rfl

/-! ## The tests, in order (R176, R177) -/

/-- A fault after some writes: the registers are as before, and so is memory but for the bytes written
(60_exceptions.md R265). -/
theorem faultsAfter_settle (s : State) (x : Exc) (code : BitVec 16) (rule : RuleId) (wrote : List Nat)
    (draws : Nat) :
    faultsAfter (settle s (.error (.exc x (some code) rule wrote draws))) s x code rule wrote :=
  ⟨faultState s wrote draws, rfl, rfl, fun _ ha => memGet_drawBytes_out wrote draws s.mem ha⟩

/-- The upper half of a 64-bit value is 0 below 4 GB. -/
theorem upperHalf_eq_zero {v : BitVec 64} : v.extractLsb' 32 32 = 0#32 ↔ v.toNat < 2 ^ 32 := by
  rw [BitVec.toNat_eq, BitVec.extractLsb'_toNat, Nat.shiftRight_eq_div_pow, BitVec.toNat_ofNat]
  have := v.isLt
  omega

/-- The far shadow frame raises when `SSP` is above 4 GB and the target is not 64-bit code (R180). -/
theorem farShadowStackPush_error {c : Seg} {cs : BitVec 16} {lip : BitVec 64} {r : Run}
    (hon : shadowStackEnabled r.st r.st.cpl = true) (hcode : (r.st.lma && c.l) = false)
    (hssp : 2 ^ 32 ≤ r.st.ssp.toNat) :
    farShadowStackPush c cs lip r = .error (.exc .gp (some 0) .r180 r.wrote r.st.draws) := by
  have hupper : r.st.ssp.extractLsb' 32 32 ≠ 0#32 := fun h => Nat.not_lt.2 hssp (upperHalf_eq_zero.1 h)
  rw [farShadowStackPush, if_pos hon, hcode, bne_iff_ne.2 hupper]
  rfl

/-- What a far call to a code segment does once its privilege test has passed, with `t` the masked offset: the
first test that fails, else the state R176 and R177 describe. -/
def CodeSegmentResult (o : Host.Outcome State Fault Refusal) (s : State) (rule : RuleId) (k : Size) (f : FarPtr)
    (d t lip ret : BitVec 64) : Prop :=
  let c := segFromDesc f.sel d
  if c.p = false then faultsClean o s .np (f.sel &&& 0xFFFC) rule
  else if stackRoom s (2 * k.bytes) k.bytes = false then faultsClean o s .ss 0 rule
  else if (s.lma = false ∨ s.lma = true ∧ c.l = false) ∧ inLimit c t.toNat = false then
    faultsClean o s .gp 0 rule
  else if canonical s.cpu.laWidth t = false then faultsClean o s .gp 0 rule
  else if stackWritable s = false then faultsClean o s .gp 0 .r65
  else if shadowStackEnabled s s.cpl = true ∧ (s.lma && c.l) = false ∧ 2 ^ 32 ≤ s.ssp.toNat then
    faultsAfter o s .gp 0 .r180 (codeSegmentWrites k f d s)
  else o = .next (afterCodeSegment k f d lip ret s) ∧ (afterCodeSegment k f d lip ret s).rip = t

/-- With room for both items two things are left to fail: the pushes, where the stack takes no writes, and the
shadow frame. -/
theorem codeSegmentEnter_result {o : Host.Outcome State Fault Refusal} {s : State} {k : Size} {f : FarPtr}
    {d lip ret : BitVec 64} (hroom : stackRoom s (2 * k.bytes) k.bytes = true)
    (ho : o = settle s (codeSegmentEnter k f d lip ret (startRun s))) :
    if stackWritable s = false then faultsClean o s .gp 0 .r65
    else if shadowStackEnabled s s.cpl = true ∧ (s.lma && (segFromDesc f.sel d).l) = false ∧
        2 ^ 32 ≤ s.ssp.toNat then
      faultsAfter o s .gp 0 .r180 (codeSegmentWrites k f d s)
    else o = .next (afterCodeSegment k f d lip ret s) := by
  have hentered := codeEntered_frame k f d ret (startRun s)
  have hsame := shadowStackEnabled_codeEntered k f d ret (startRun s)
  have hlma : (codeEntered k f d ret (startRun s)).st.lma = s.lma := by rw [hentered]; rfl
  have hssp : (codeEntered k f d ret (startRun s)).st.ssp = s.ssp := by rw [hentered]; rfl
  split_ifs with hw hshadow
  · have hpush : farReturnPush k ret (startRun s) = .error (.exc .gp (some 0) .r65 [] s.draws) := by
      rw [farReturnPush, pushSel, push_error (r := startRun s) (segFault_push_notWritable hroom hw)]
      rfl
    rw [ho, codeSegmentEnter, hpush]
    exact faultsClean_settle s .gp 0 .r65
  all_goals
    rw [Bool.not_eq_false, stackWritable_iff] at hw
    rw [ho, codeSegmentEnter_of_pushes (r := startRun s) (TwoPushesOk.of_room hw hroom)]
  · obtain ⟨hon, hcode, hhigh⟩ := hshadow
    rw [farShadowStackPush_error (hsame.trans hon) (hlma ▸ hcode) (hssp ▸ hhigh), ← codeEntered_wrote k f d ret]
    exact faultsAfter_settle s .gp 0 .r180 _ _
  · rw [farShadowStackPush_ok.2 ⟨?_, rfl⟩, ← codeDone_startRun]
    · rfl
    · rw [hsame, hlma, hssp, upperHalf_eq_zero]
      exact fun hon hcode => Nat.not_le.1 fun hhigh => hshadow ⟨hon, hcode, hhigh⟩

/-- The tests R176 and R177 share, in their order. -/
theorem codeSegmentTransfer_result {o : Host.Outcome State Fault Refusal} {s : State} {rule : RuleId} {k : Size}
    {f : FarPtr} {d t lip ret : BitVec 64} (hoff : viewOf k f.off = f.off)
    (ht : farTarget s k (segFromDesc f.sel d) f.off = t)
    (ho : o = settle s (codeSegmentTransfer rule k f d lip ret (startRun s))) :
    CodeSegmentResult o s rule k f d t lip ret := by
  simp only [codeSegmentTransfer_eq, startRun_st, ht] at ho
  refine faultsClean_or ho (by simp) fun _ ho => ?_
  refine faultsClean_or ho (by simp) fun hroom ho => ?_
  refine faultsClean_or ho (by simp [targetCompat_iff]) fun _ ho => ?_
  refine faultsClean_or ho (by simp) fun _ ho => ?_
  have henter := codeSegmentEnter_result (Bool.not_eq_false _ ▸ hroom) ho
  have hrip := (afterCodeSegment_rip hoff d lip ret s).trans ht
  split_ifs at henter ⊢
  · exact henter
  · exact henter
  · exact ⟨henter, hrip⟩

/-! ## Conforming and nonconforming segments (R176, R177) -/

theorem isCode_of_isConforming {c : Seg} (h : c.isConforming = true) : c.isCode = true := by
  rw [Seg.isConforming, Bool.and_eq_true] at h
  exact h.1

theorem isCode_of_isNonconforming {c : Seg} (h : c.isNonconforming = true) : c.isCode = true := by
  rw [Seg.isNonconforming, Bool.and_eq_true] at h
  exact h.1

/-- A code segment is not conforming exactly when it is nonconforming (20_memory.md R72). -/
theorem isConforming_eq_not {c : Seg} (h : c.isCode = true) : c.isConforming = !c.isNonconforming := by
  rw [Seg.isConforming, Seg.isNonconforming, h]
  simp

/-- A far call whose descriptor is a code segment's passes the type test. -/
theorem FarCallTo.exec_code {i : Instr} {s : State} {f : FarPtr} {d : BitVec 64} (h : FarCallTo i s f d)
    (hcode : (segFromDesc f.sel d).isCode = true) :
    exec i s = settle s (farDispatch (formSize i) f d (nrip i s) (startRun s)) := by
  have hok : farTypeOk s.lma (segFromDesc f.sel d) d = true :=
    farTypeOk_iff.2 (.inl ((isCode_segFromDesc f.sel d).1 hcode))
  rw [h.exec_eq, raiseIf_of_false (by rw [hok]; rfl)]

theorem FarCallTo.exec_conforming {i : Instr} {s : State} {f : FarPtr} {d : BitVec 64} (h : FarCallTo i s f d)
    (hc : (segFromDesc f.sel d).isConforming = true) :
    exec i s = settle s (conformingCall (formSize i) f d (nrip i s) (startRun s)) := by
  rw [h.exec_code (isCode_of_isConforming hc), farDispatch, if_pos hc]

theorem FarCallTo.exec_nonconforming {i : Instr} {s : State} {f : FarPtr} {d : BitVec 64}
    (h : FarCallTo i s f d) (hn : (segFromDesc f.sel d).isNonconforming = true) :
    exec i s = settle s (nonconformingCall (formSize i) f d (nrip i s) (startRun s)) := by
  have hcode := isCode_of_isNonconforming hn
  have hc : ¬ (segFromDesc f.sel d).isConforming = true := by rw [isConforming_eq_not hcode, hn]; decide
  rw [h.exec_code hcode, farDispatch, if_neg hc, if_pos hn]

/-- Settles O32: the two tests of its own, then those R176 shares with R177. -/
theorem conformingCodeSegmentResult : Obligations.ConformingCodeSegmentResult := by
  intro i s f d h hconf c k compat masked tempEIP sel
  have ho := h.exec_conforming hconf
  refine faultsClean_or ho (by simp [c, and_assoc]) fun _ ho => ?_
  refine faultsClean_or ho decide_eq_true_iff fun _ ho => ?_
  exact codeSegmentTransfer_result (viewOf_farOperand_off h.operand) (farTarget_eq s k c f.off) ho

/-- `RPL` is the selector modulo 4 (20_memory.md R69). -/
theorem rplOf_toNat (sel : BitVec 16) : (rplOf sel).toNat = sel.toNat % 4 := by
  rw [rplOf, BitVec.extractLsb'_toNat, Nat.shiftRight_zero]

/-- Settles O33: as O32 with the privilege test of R177. -/
theorem nonconformingCodeSegmentResult : Obligations.NonconformingCodeSegmentResult := by
  intro i s f d h hnonconf c k compat masked tempEIP sel
  have ho := h.exec_nonconforming hnonconf
  refine faultsClean_or ho (by simp [c, and_assoc]) fun _ ho => ?_
  refine faultsClean_or ho (by simp [c, BitVec.lt_def, rplOf_toNat]) fun _ ho => ?_
  exact codeSegmentTransfer_result (viewOf_farOperand_off h.operand) (farTarget_eq s k c f.off) ho

end Sys2Proof.Machine
end

section
/-! What a completed far call to a code segment leaves (42_far_call_protected.md R178 to R183): `CS`, the shadow
frame, the bytes written, and the tracker, the last for every far call that keeps its privilege level. -/

namespace Sys2Proof.Machine

/-! ## Completed calls -/

/-- The linear return address of a far call to a code segment: R176's for a conforming one, else R177's. -/
def codeLip (i : Instr) (s : State) (c : Seg) : BitVec 64 :=
  if c.isConforming then conformingLip s (formSize i) (nrip i s) else nonconformingLip s (nrip i s)

/-- The run a far call to a code segment ends in. -/
def codeRun (i : Instr) (s : State) (f : FarPtr) (d : BitVec 64) : Run :=
  codeDone (formSize i) f d (codeLip i s (segFromDesc f.sel d)) (nrip i s) (startRun s)

/-- The dispatch of R174 on a code segment answers only when the shared tests pass. -/
theorem farDispatch_code {i : Instr} {s : State} {f : FarPtr} {d : BitVec 64} {r : Run}
    (hcode : (segFromDesc f.sel d).isCode = true)
    (h : farDispatch (formSize i) f d (nrip i s) (startRun s) = .ok r) :
    CodeTests (formSize i) f d s ∧ r = codeRun i s f d := by
  unfold farDispatch at h
  unfold codeRun codeLip
  by_cases hconf : (segFromDesc f.sel d).isConforming = true
  · rw [if_pos hconf] at h ⊢
    obtain ⟨-, -, htests, hr⟩ := conformingCall_ok.1 h
    exact ⟨htests, hr⟩
  · have hnon : (segFromDesc f.sel d).isNonconforming = true := by
      rwa [isConforming_eq_not hcode, Bool.not_eq_true', Bool.not_eq_false] at hconf
    rw [if_neg hconf, if_pos hnon] at h
    rw [if_neg hconf]
    obtain ⟨-, -, -, htests, hr⟩ := nonconformingCall_ok.1 h
    exact ⟨htests, hr⟩

theorem settle_next {s t : State} {x : Except Halt Run} :
    settle s x = .next t ↔ ∃ r, x = .ok r ∧ t = r.st := by
  cases x with
  | ok r => simp [settle, eq_comm]
  | error e => cases e <;> simp [settle, takeException]

/-- A far call to a code segment that completes. -/
theorem FarCallTo.code_next {i : Instr} {s t : State} {f : FarPtr} {d : BitVec 64} (h : FarCallTo i s f d)
    (hcode : (segFromDesc f.sel d).isCode = true) (hexec : exec i s = .next t) :
    CodeTests (formSize i) f d s ∧ t = (codeRun i s f d).st := by
  obtain ⟨r, hr, rfl⟩ := settle_next.1 (h.exec_code hcode ▸ hexec)
  obtain ⟨htests, rfl⟩ := farDispatch_code hcode hr
  exact ⟨htests, rfl⟩

/-! ## `CS` (R178, 20_memory.md R71, R77) -/

theorem withRpl_toNat (sel : BitVec 16) (rpl : BitVec 2) :
    (withRpl sel rpl).toNat = sel.toNat / 4 * 4 + rpl.toNat := by
  have := sel.isLt
  rw [withRpl, append_toNat, BitVec.extractLsb'_toNat, Nat.shiftRight_eq_div_pow]
  omega

/-- A field of a descriptor as a number. -/
theorem extract_toNat (d : BitVec 64) (i k : Nat) : (d.extractLsb' i k).toNat = d.toNat / 2 ^ i % 2 ^ k := by
  have h := extract_ofNat d.isLt i k
  rwa [BitVec.ofNat_toNat, BitVec.setWidth_eq] at h

theorem descBase_toNat (d : BitVec 64) :
    (descBase d).toNat = d.toNat / 2 ^ 56 * 2 ^ 24 + d.toNat / 2 ^ 16 % 2 ^ 24 := by
  have h := descBase_ofNat d.isLt
  have := d.isLt
  rwa [BitVec.ofNat_toNat, BitVec.setWidth_eq, Nat.mod_eq_of_lt (b := 2 ^ 8) (by omega)] at h

theorem descLimit20_toNat (d : BitVec 64) :
    (descLimit20 d).toNat = d.toNat / 2 ^ 48 % 16 * 2 ^ 16 + d.toNat % 2 ^ 16 := by
  have h := descLimit20_ofNat d.isLt
  rwa [BitVec.ofNat_toNat, BitVec.setWidth_eq, Nat.pow_zero, Nat.div_one] at h

theorem descLimit_toNat (d : BitVec 64) : (descLimit d).toNat =
    if descG d then (descLimit20 d).toNat * 2 ^ 12 + 0xFFF else (descLimit20 d).toNat := by
  have := (descLimit20 d).isLt
  unfold descLimit
  split
  · rw [append_toNat]; rfl
  · rw [BitVec.toNat_setWidth, Nat.mod_eq_of_lt (by omega)]

/-- A store of one byte stores the lowest byte of its value (20_memory.md R64). -/
theorem memGet_afterStore_one {s : State} (lin v : BitVec 64) (hw : memWf s.mem = true) :
    memGet (afterStore lin 1 v s).mem (byteAddr s lin 0) = v.extractLsb' 0 8 :=
  memGet_storeBytes_in s lin v (n := 1) (i := 0) hw (by decide) (by decide)

/-- The accessed bit stands in the table after the segment is loaded, or stood in the descriptor before
(R77). -/
theorem afterAccessed_bit (sel : BitVec 16) (d : BitVec 64) {s : State} (hw : memWf s.mem = true) :
    (memGet (afterAccessed sel d s).mem (byteAddr s (linAdd s (descAddr s sel) 5) 0)).getLsbD 0 = true ∨
      d.getLsbD 40 = true := by
  unfold afterAccessed
  split
  · exact .inr ‹_›
  · left
    rw [memGet_afterStore_one _ _ hw]
    simp

/-- Without shadow stacks nothing is written after the `CS` load. -/
theorem codeDone_mem {s : State} (h : shadowStackEnabled s s.cpl = false) (k : Size) (f : FarPtr)
    (d lip ret : BitVec 64) : (codeDone k f d lip ret (startRun s)).st.mem =
      (afterLoadCs f.sel d (afterPush k.bytes ret (afterPushSel k s.cs.sel s))).mem := by
  have hoff := (shadowStackEnabled_codeEntered k f d ret (startRun s)).trans h
  rw [codeDone, Run.upd_st, farEndbranch_mem, farShadowDone, if_neg (Bool.not_eq_true _ ▸ hoff), codeEntered_st,
    branchTo_eq, State.setRip_mem]

theorem memWf_twoPushes {s : State} (hw : memWf s.mem = true) (k : Size) (sel : BitVec 16) (v : BitVec 64) :
    memWf (afterPush k.bytes v (afterPushSel k sel s)).mem = true :=
  memWf_storeBytes _ _ _ _ (memWf_storeBytes _ _ _ _ hw)

/-- Settles O34: `CS` holds the descriptor's fields, and its accessed bit is the last byte written. -/
theorem codeSegmentIsLoaded : Obligations.CodeSegmentIsLoaded := by
  intro i s t f d h hcode hexec
  obtain ⟨-, rfl⟩ := h.code_next hcode hexec
  obtain ⟨hcs, -⟩ := codeDone_fields (formSize i) f d (codeLip i s (segFromDesc f.sel d)) (nrip i s) (startRun s)
  rw [codeRun, hcs]
  refine ⟨withRpl_toNat f.sel s.cpl, ?base, ?limit, extract_toNat d 40 4, extract_toNat d 45 2, rfl, rfl, rfl,
    rfl, ?accessed⟩
  case base =>
    have := (descBase d).isLt
    rw [← descBase_toNat, segFromDesc, BitVec.toNat_setWidth, Nat.mod_eq_of_lt (by omega)]
  case limit =>
    rw [← descLimit20_toNat]
    exact descLimit_toNat d
  case accessed =>
    intro hw hoff
    rw [codeDone_mem hoff]
    exact afterAccessed_bit f.sel d (s := (afterPush (formSize i).bytes (nrip i s)
      (afterPushSel (formSize i) s.cs.sel s)).setCs (segFromDesc (withRpl f.sel s.cpl) d))
      (memWf_twoPushes hw (formSize i) s.cs.sel (nrip i s))

/-! ## The far shadow frame (R180, 20_memory.md R78, R79) -/

/-- Bytes counted from a later address (20_memory.md R64). -/
theorem byteAddr_add (s : State) (lin : BitVec 64) (a i : Nat) :
    byteAddr s (lin + BitVec.ofNat 64 a) i = byteAddr s lin (a + i) := by
  rw [byteAddr, byteAddr, linAdd, linAdd, BitVec.ofNat_add, BitVec.add_assoc]

/-- A read sees memory and the way addresses are formed. -/
theorem memRead_of_mem {s t : State} (hm : t.mem = s.mem) (hl : t.lma = s.lma) (lin : BitVec 64) (n : Nat) :
    memRead t lin n = memRead s lin n :=
  memRead_congr fun i _ => by rw [hm, byteAddr, byteAddr, linAdd, linAdd, hl]

theorem shadowPush_ssp (n : Nat) (v : BitVec 64) (r : Run) :
    (shadowPush n v r).st.ssp = r.st.ssp - BitVec.ofNat 64 n := rfl

/-- The `n` bytes that stand `j` bytes above `SSP`. -/
def aboveSsp (s : State) (j n : Nat) : BitVec 64 := memRead s (s.ssp + BitVec.ofNat 64 j) n

/-- The word just pushed stands at `SSP` (R78). -/
theorem aboveSsp_shadowPush_zero {r : Run} (hw : memWf r.st.mem = true) (v : BitVec 64) :
    aboveSsp (shadowPush 8 v r).st 0 8 = v := by
  have h := memRead_storeBytes (s := r.st.setSsp (r.st.ssp - 8#64)) (t := (shadowPush 8 v r).st)
    (r.st.ssp - 8#64) v (n := 8) hw (by decide) rfl rfl
  rw [Nat.mod_eq_of_lt v.isLt] at h
  rw [aboveSsp, BitVec.add_zero]
  exact BitVec.eq_of_toNat_eq h

/-- What stood at `SSP` and above stands 8 bytes higher after a push (R78). -/
theorem aboveSsp_shadowPush {r : Run} (v : BitVec 64) {j n : Nat} (hn : j + n ≤ 2 ^ 16) :
    aboveSsp (shadowPush 8 v r).st (8 + j) n = aboveSsp r.st j n := by
  have hbase : (shadowPush 8 v r).st.ssp + BitVec.ofNat 64 (8 + j) = r.st.ssp + BitVec.ofNat 64 j := by
    rw [shadowPush_ssp, BitVec.ofNat_add, ← BitVec.add_assoc, BitVec.sub_add_cancel]
  rw [aboveSsp, aboveSsp, hbase]
  refine memRead_congr fun i hi => memGet_storeBytes_out _ _ _ _ _ fun hmem => ?_
  obtain ⟨b, hb, heq⟩ := mem_storedAddrs.1 hmem
  have hbyte : byteAddr r.st (r.st.ssp + BitVec.ofNat 64 j) i =
      byteAddr r.st (r.st.ssp - 8#64) (8 + (j + i)) := by
    rw [byteAddr_add, ← byteAddr_add r.st (r.st.ssp - 8#64), BitVec.sub_add_cancel]
  have := byteAddr_inj r.st (r.st.ssp - 8#64) (by omega) (by omega) (heq.trans hbyte)
  omega

/-- A far frame is the old `SSP`, the linear return address and `CS`, upwards from the new `SSP`; what stood at
the `SSP` it was pushed from follows. -/
theorem aboveSsp_shadowFrame {r : Run} (hw : memWf r.st.mem = true) (cs : BitVec 16) (lip old : BitVec 64) :
    aboveSsp (shadowFrame cs lip old r).st 0 8 = old ∧ aboveSsp (shadowFrame cs lip old r).st 8 8 = lip ∧
    aboveSsp (shadowFrame cs lip old r).st 16 8 = cs.setWidth 64 ∧
    aboveSsp (shadowFrame cs lip old r).st 24 4 = aboveSsp r.st 0 4 := by
  have hw1 := (RunGrows.shadowPush 8 (cs.setWidth 64) r).wf hw
  have hw2 := (RunGrows.shadowPush 8 lip _).wf hw1
  refine ⟨aboveSsp_shadowPush_zero hw2 old, ?lip, ?cs, ?rest⟩
  case lip => exact (aboveSsp_shadowPush (j := 0) old (by decide)).trans (aboveSsp_shadowPush_zero hw1 lip)
  case cs =>
    exact (aboveSsp_shadowPush (j := 8) old (by decide)).trans
      ((aboveSsp_shadowPush (j := 0) lip (by decide)).trans (aboveSsp_shadowPush_zero hw _))
  case rest =>
    exact (aboveSsp_shadowPush (j := 16) old (by decide)).trans
      ((aboveSsp_shadowPush (j := 8) lip (by decide)).trans (aboveSsp_shadowPush (j := 0) _ (by decide)))

/-- The four zero bytes below `SSP`, and `SSP` aligned down to 8 (R180). -/
def zeroAligned (r : Run) : Run :=
  (shadowStore (r.st.ssp - 4#64) 4 0 r).upd
    ((shadowStore (r.st.ssp - 4#64) 4 0 r).st.setSsp (r.st.ssp &&& 0xFFFFFFFFFFFFFFF8#64))

theorem alignedShadowFrame_eq (cs : BitVec 16) (lip : BitVec 64) (r : Run) :
    alignedShadowFrame cs lip r = shadowFrame cs lip r.st.ssp (zeroAligned r) := rfl

theorem RunGrows.zeroAligned (r : Run) : RunGrows r (zeroAligned r) :=
  (RunGrows.store r _ 4 0).trans (RunGrows.upd _ (by constructor <;> rfl) rfl)

theorem alignDown_toNat (v : BitVec 64) : (v &&& 0xFFFFFFFFFFFFFFF8#64).toNat = v.toNat / 8 * 8 := by
  have hmask : 0xFFFFFFFFFFFFFFF8#64 = BitVec.allOnes 64 <<< 3 := by decide
  have hshift : v &&& 0xFFFFFFFFFFFFFFF8#64 = v >>> 3 <<< 3 := by
    rw [hmask]
    ext i hi
    simp only [BitVec.getElem_and, BitVec.getElem_shiftLeft, BitVec.getElem_allOnes, BitVec.getElem_ushiftRight]
    by_cases h3 : i < 3
    · simp [h3]
    · simp [h3, show 3 + (i - 3) = i by omega, hi]
  have := v.isLt
  rw [hshift, BitVec.toNat_shiftLeft, BitVec.toNat_ushiftRight, Nat.shiftLeft_eq, Nat.shiftRight_eq_div_pow]
  omega

theorem alignDown_of_four {v : BitVec 64} (h4 : v.toNat % 8 = 4) : v &&& 0xFFFFFFFFFFFFFFF8#64 = v - 4#64 := by
  have := v.isLt
  refine BitVec.eq_of_toNat_eq ?_
  rw [alignDown_toNat, BitVec.toNat_sub, BitVec.toNat_ofNat]
  omega

/-- An `SSP` of 4 modulo 8 is aligned onto the four zero bytes. -/
theorem aboveSsp_zeroAligned {r : Run} (hw : memWf r.st.mem = true) (h4 : r.st.ssp.toNat % 8 = 4) :
    aboveSsp (zeroAligned r).st 0 4 = 0 := by
  have hssp : (zeroAligned r).st.ssp = r.st.ssp - 4#64 := alignDown_of_four h4
  rw [aboveSsp, hssp, BitVec.add_zero]
  exact BitVec.eq_of_toNat_eq (memRead_storeBytes (s := r.st) (t := (zeroAligned r).st) (r.st.ssp - 4#64) 0
    (n := 4) hw (by decide) rfl rfl)

theorem RunGrows.codeEntered (k : Size) (f : FarPtr) (d ret : BitVec 64) (r : Run) :
    RunGrows r (codeEntered k f d ret r) :=
  (((RunGrows.selPushed _ _ _).trans (RunGrows.pushed _ _ _)).trans (RunGrows.loadCs _ _ _)).trans
    (RunGrows.upd _ (SameRest.branchTo _ _ _) (by rw [branchTo_eq]; rfl))

theorem codeEntered_ssp (k : Size) (f : FarPtr) (d ret : BitVec 64) (r : Run) :
    (codeEntered k f d ret r).st.ssp = r.st.ssp := by
  rw [codeEntered_frame]
  rfl

/-- The tracker does not reach the shadow stack. -/
theorem aboveSsp_farEndbranch (s : State) (j n : Nat) : aboveSsp (farEndbranch s) j n = aboveSsp s j n := by
  obtain ⟨-, -, -, -, -, -, hssp⟩ := farEndbranch_core s
  rw [aboveSsp, aboveSsp, hssp]
  exact memRead_of_mem (farEndbranch_mem s) (SameRest.farEndbranch s).lma _ _

/-- With shadow stacks the frame is the last thing a far call to a code segment stores (R180). -/
theorem aboveSsp_codeDone {s : State} (hon : shadowStackEnabled s s.cpl = true) (k : Size) (f : FarPtr)
    (d lip ret : BitVec 64) (j n : Nat) : aboveSsp (codeDone k f d lip ret (startRun s)).st j n =
      aboveSsp (shadowFrame s.cs.sel lip s.ssp (zeroAligned (codeEntered k f d ret (startRun s)))).st j n := by
  have hentered := (shadowStackEnabled_codeEntered k f d ret (startRun s)).trans hon
  rw [codeDone, Run.upd_st, aboveSsp_farEndbranch, farShadowDone, if_pos hentered, alignedShadowFrame_eq,
    codeEntered_ssp]
  rfl

/-- The shadow stack after a far call to a code segment, from the new `SSP` upwards (R180). -/
theorem aboveSsp_codeDone_frame {s : State} (hon : shadowStackEnabled s s.cpl = true)
    (hw : memWf s.mem = true) (k : Size) (f : FarPtr) (d lip ret : BitVec 64) :
    let t := (codeDone k f d lip ret (startRun s)).st
    aboveSsp t 0 8 = s.ssp ∧ aboveSsp t 8 8 = lip ∧ aboveSsp t 16 8 = s.cs.sel.setWidth 64 ∧
      (s.ssp.toNat % 8 = 4 → aboveSsp t 24 4 = 0) := by
  have hwe := (RunGrows.codeEntered k f d ret (startRun s)).wf hw
  have hwz := (RunGrows.zeroAligned _).wf hwe
  obtain ⟨hold, hlip, hcs, hrest⟩ := aboveSsp_shadowFrame hwz s.cs.sel lip s.ssp
  simp only [aboveSsp_codeDone hon]
  refine ⟨hold, hlip, hcs, fun h4 => hrest.trans (aboveSsp_zeroAligned hwe ?_)⟩
  rwa [codeEntered_ssp]

theorem memRead_eq_aboveSsp {t : State} {lin : BitVec 64} {j : Nat} (h : t.ssp + BitVec.ofNat 64 j = lin)
    (n : Nat) : memRead t lin n = aboveSsp t j n := by
  rw [aboveSsp, h]

/-- Settles O35: the words of the frame at their addresses, and the test of R180 that a completed call has
passed. -/
theorem farShadowFrame : Obligations.FarShadowFrame := by
  intro i s f d h hcode hon hw top lip
  constructor
  · intro t hexec
    obtain ⟨-, rfl⟩ := h.code_next hcode hexec
    obtain ⟨-, -, -, -, -, -, hfields, -⟩ := codeDone_fields (formSize i) f d lip (nrip i s) (startRun s)
    have hssp : (codeRun i s f d).st.ssp = top - 24#64 := hfields.trans (if_pos hon)
    have htop (h4 : s.ssp.toNat % 8 = 4) : top = s.ssp - 4#64 := alignDown_of_four h4
    obtain ⟨hold, hlip, hcs, hzero⟩ := aboveSsp_codeDone_frame hon hw (formSize i) f d lip (nrip i s)
    clear_value top
    refine ⟨hssp, Eq.trans (memRead_eq_aboveSsp ?_ 8) hold, Eq.trans (memRead_eq_aboveSsp ?_ 8) hlip,
      Eq.trans (memRead_eq_aboveSsp ?_ 8) hcs, fun h4 => Eq.trans (memRead_eq_aboveSsp ?_ 4) (hzero h4)⟩
    · rw [hssp]; bv_omega
    · rw [hssp]; bv_omega
    · rw [hssp]; bv_omega
    · rw [hssp, htop h4]; bv_omega
  · intro hnot64 hhigh t hexec
    obtain ⟨htests, -⟩ := h.code_next hcode hexec
    exact Nat.not_lt.2 hhigh (upperHalf_eq_zero.1 (htests.shadow hon hnot64))

/-! ## The bytes written (R183) -/

theorem storedAddrs_congr {s t : State} (hl : t.lma = s.lma) (lin : BitVec 64) (n : Nat) :
    storedAddrs t lin n = storedAddrs s lin n := by
  simp only [storedAddrs, byteAddr, linAdd, hl]

/-- A word of the frame lies in the 24 bytes below the aligned `SSP`. -/
theorem storedAddrs_subset_frameWrites {s : State} {ssp : BitVec 64} {m : Nat} (h8 : 8 ≤ m) (h24 : m ≤ 24) :
    storedAddrs s (ssp - BitVec.ofNat 64 m) 8 ⊆ frameWrites s ssp := by
  intro a ha
  obtain ⟨i, hi, rfl⟩ := mem_storedAddrs.1 ha
  have hbase : ssp - BitVec.ofNat 64 m = ssp - 24#64 + BitVec.ofNat 64 (24 - m) := by
    have := ssp.isLt
    refine BitVec.eq_of_toNat_eq ?_
    simp only [BitVec.toNat_add, BitVec.toNat_sub, BitVec.toNat_ofNat]
    omega
  rw [hbase, byteAddr_add]
  exact mem_storedAddrs.2 ⟨24 - m + i, by omega, rfl⟩

theorem shadowPush_lma (n : Nat) (v : BitVec 64) (r : Run) : (shadowPush n v r).st.lma = r.st.lma := rfl

theorem shadowPush_wrote (n : Nat) (v : BitVec 64) (r : Run) :
    (shadowPush n v r).wrote = r.wrote ++ storedAddrs r.st (r.st.ssp - BitVec.ofNat 64 n) n := rfl

/-- A far frame writes no more than the 24 bytes below `SSP` (R180). -/
theorem shadowFrame_wrote (cs : BitVec 16) (lip old : BitVec 64) (r : Run) :
    (shadowFrame cs lip old r).wrote ⊆ r.wrote ++ frameWrites r.st r.st.ssp := by
  have h16 : r.st.ssp - 8#64 - 8#64 = r.st.ssp - 16#64 := by bv_omega
  have h24 : r.st.ssp - 16#64 - 8#64 = r.st.ssp - 24#64 := by bv_omega
  have hl1 := shadowPush_lma 8 (cs.setWidth 64) r
  have hl2 := (shadowPush_lma 8 lip (shadowPush 8 (cs.setWidth 64) r)).trans hl1
  rw [shadowFrame, shadowPush_wrote, shadowPush_wrote, shadowPush_wrote, shadowPush_ssp, shadowPush_ssp,
    shadowPush_ssp, h16, h24, storedAddrs_congr hl2, storedAddrs_congr hl1, List.append_assoc, List.append_assoc]
  refine List.append_subset.2 ⟨List.subset_append_left _ _, List.Subset.trans ?_ (List.subset_append_right _ _)⟩
  refine List.append_subset.2 ⟨?_, List.append_subset.2 ⟨?_, ?_⟩⟩
  · exact storedAddrs_subset_frameWrites (by decide) (by decide)
  · exact storedAddrs_subset_frameWrites (by decide) (by decide)
  · exact storedAddrs_subset_frameWrites (by decide) (by decide)

/-- The shadow-stack bytes of a far call (R180). -/
theorem farShadowDone_wrote (cs : BitVec 16) (lip : BitVec 64) (r : Run) :
    (farShadowDone cs lip r).wrote ⊆ r.wrote ++ farShadowWrites r.st := by
  unfold farShadowDone farShadowWrites
  split
  · have h := shadowFrame_wrote cs lip r.st.ssp (zeroAligned r)
    rw [← List.append_assoc]
    exact h
  · rw [List.append_nil]
    exact List.Subset.refl _

/-- A far call to a code segment writes the two stack items, the accessed bit's byte and the shadow frame
(R183). -/
theorem codeDone_wrote (k : Size) (f : FarPtr) (d lip ret : BitVec 64) (s : State) :
    (codeDone k f d lip ret (startRun s)).wrote ⊆ codeSegmentWrites k f d s ++ farShadowWrites s := by
  have hshadow : farShadowWrites (codeEntered k f d ret (startRun s)).st = farShadowWrites s := by
    rw [codeEntered_frame]
    rfl
  rw [← hshadow, ← codeEntered_wrote k f d ret]
  exact farShadowDone_wrote s.cs.sel lip _

/-- Settles O37: registers by the state a completed call leaves, memory by the bytes it has written. -/
theorem codeSegmentFrame : Obligations.CodeSegmentFrame := by
  intro i s t f d h hcode hexec
  have hrest := (exec_next_sameRest hexec).keepsRest
  obtain ⟨-, rfl⟩ := h.code_next hcode hexec
  have hmem := memorySameOutside_wrote (RunGrows.codeDone (formSize i) f d
    (codeLip i s (segFromDesc f.sel d)) (nrip i s) (startRun s))
  obtain ⟨-, -, -, hss, hcpl, hpl3, hssp, -⟩ := codeDone_fields (formSize i) f d
    (codeLip i s (segFromDesc f.sel d)) (nrip i s) (startRun s)
  refine ⟨hrest, hss, hcpl, hpl3, fun hoff => hssp.trans (if_neg (Bool.not_eq_true _ ▸ hoff)), ?_⟩
  exact fun a ha => hmem a fun hin => ha (codeDone_wrote _ _ _ _ _ _ hin)

/-! ## The tracker (R181, 43_call_gate.md R218) -/

/-- The CET registers of `t` are those the tracker update of a far call from `s` leaves (R181). -/
def TrackedFrom (s t : State) : Prop := t.uCet = (farEndbranch s).uCet ∧ t.sCet = (farEndbranch s).sCet

theorem codeDone_tracked (k : Size) (f : FarPtr) (d lip ret : BitVec 64) (r : Run) :
    TrackedFrom r.st (codeDone k f d lip ret r).st := by
  obtain ⟨-, -, -, -, -, -, -, hu, hs⟩ := codeDone_fields k f d lip ret r
  exact ⟨hu, hs⟩

/-- A call through a gate that keeps the level goes by R215 to R218: the other way leads to a lower one (R200,
R211). -/
theorem callGate_tracked {sel : BitVec 16} {d ret : BitVec 64} {r r' : Run} (h : callGate sel d ret r = .ok r')
    (hcpl : r'.st.cpl = r.st.cpl) : TrackedFrom r.st r'.st := by
  obtain ⟨_, cd, -, -, -, -, -, hcall⟩ := callGate_ok.1 h
  split at hcall
  case isTrue hmore =>
    obtain ⟨-, hlower⟩ := hmore
    obtain ⟨_, w, v, -, -, hv, rfl⟩ := morePrivilege_ok.1 hcall
    obtain ⟨hlevel, -⟩ := morePrivilege_tail hv
    have heq : descDpl cd = r.st.cpl := hlevel.symm.trans hcpl
    exact absurd hlower (heq ▸ BitVec.lt_irrefl _)
  case isFalse =>
    obtain ⟨-, -, -, -, -, -, hu, hs⟩ := samePrivilege_fields hcall
    exact ⟨hu, hs⟩

/-- Every way a far call can complete at its level ends in the tracker update (R174, R181). -/
theorem farDispatch_tracked {k : Size} {f : FarPtr} {d ret : BitVec 64} {r r' : Run}
    (h : farDispatch k f d ret r = .ok r') (hcpl : r'.st.cpl = r.st.cpl) : TrackedFrom r.st r'.st := by
  unfold farDispatch at h
  split at h
  · obtain ⟨-, -, -, rfl⟩ := conformingCall_ok.1 h
    exact codeDone_tracked _ _ _ _ _ _
  split at h
  · obtain ⟨-, -, -, -, rfl⟩ := nonconformingCall_ok.1 h
    exact codeDone_tracked _ _ _ _ _ _
  split at h
  · exact callGate_tracked h hcpl
  split at h
  · exact absurd h (taskGate_ne_ok _ _ _ _)
  · exact absurd h (taskStateSegment_ne_ok _ _ _ _)

theorem exec_farProt_tracked {i : Instr} {s t : State} (hfar : isFarProt i = true) (h : exec i s = .next t)
    (hcpl : t.cpl = s.cpl) : TrackedFrom s t := by
  obtain ⟨x, hx⟩ := farProt_operand hfar s
  obtain ⟨f, r, -, hr, rfl⟩ := exec_far_next hx h
  rw [farTransfer_farProt hfar] at hr
  obtain ⟨-, d, -, -, hdispatch⟩ := farProtected_ok.1 hr
  exact farDispatch_tracked (r := startRun s) hdispatch hcpl

/-- The tracker update of a far call arms the CET register of the level and clears its `SUPPRESS` (R181). -/
theorem farEndbranch_eq (s : State) : farEndbranch s =
    if endbranchEnabled s s.cpl = true then
      if s.cpl = 3 then s.setUCet ((s.uCet ||| 0x800) &&& ~~~0x400)
      else s.setSCet ((s.sCet ||| 0x800) &&& ~~~0x400)
    else s := by
  have hwrite : setCetOf s s.cpl (clearSuppress (armTracker (cetOf s s.cpl))) =
      if s.cpl = 3 then s.setUCet ((s.uCet ||| 0x800) &&& ~~~0x400)
      else s.setSCet ((s.sCet ||| 0x800) &&& ~~~0x400) := by
    rw [cetOf_eq, setCetOf]
    by_cases hcpl : s.cpl = 3#2 <;> simp [hcpl, clearSuppress, armTracker]
  rw [← hwrite]
  rfl

/-- Settles O36: a call that keeps its level ends in the tracker update of the caller's register. -/
theorem farCallTracker : Obligations.FarCallTracker := by
  intro i s t hfar hexec hcpl
  obtain ⟨hu, hs⟩ := exec_farProt_tracked hfar hexec hcpl
  rw [hu, hs, farEndbranch_eq]
  refine ⟨fun hoff => ?_, fun hon h3 => ?_, fun hon h3 => ?_⟩
  · rw [if_neg (Bool.not_eq_true _ ▸ hoff)]
    exact ⟨rfl, rfl⟩
  · rw [if_pos hon, if_pos h3]
    exact ⟨rfl, rfl⟩
  · rw [if_pos hon, if_neg h3]
    exact ⟨rfl, rfl⟩

end Sys2Proof.Machine
end

section
/-! Calls through a gate: the checks on the gate and on the code segment it names, in order (43_call_gate.md R200,
R201), and what a call does whose checks have passed. -/

namespace Sys2Proof.Machine

/-! ## Reaching the gate (42_far_call_protected.md R173, R174) -/

/-- A call gate is a system descriptor; in IA-32e mode the 64-bit kind is the only one (20_memory.md R72). -/
theorem isCallGate_iff {lma : Bool} {d : BitVec 64} : isCallGate lma d = true ↔
    descS d = false ∧ (descType d = 0xC#4 ∨ (descType d = 0x4#4 ∧ lma = false)) := by
  cases lma
  · simp [isCallGate, isCallGate16, isCallGate32, isCallGate64]
    tauto
  · simp [isCallGate, isCallGate16, isCallGate32, isCallGate64]

/-- The gate of IA-32e mode is the 64-bit one (20_memory.md R73). -/
theorem gateSize_eq_s64 {lma : Bool} {d : BitVec 64} (h : isCallGate lma d = true) :
    gateSize lma d = .s64 ↔ lma = true := by
  obtain ⟨-, htype⟩ := isCallGate_iff.1 h
  cases lma with
  | false => simp [gateSize]; split <;> simp
  | true =>
    have htype : descType d = 0xC#4 := by simpa using htype
    simp [gateSize, htype]

/-- A far call whose selector names a call gate is the call through it. -/
theorem FarCallTo.exec_gate {i : Instr} {s : State} {f : FarPtr} {d : BitVec 64} (h : FarCallTo i s f d)
    (hgate : isCallGate s.lma d = true) :
    exec i s = settle s (callGate f.sel d (nrip i s) (startRun s)) := by
  obtain ⟨hsys, htype⟩ := isCallGate_iff.1 hgate
  have hcode : (segFromDesc f.sel d).isCode = false := by simp [Seg.isCode, segFromDesc, hsys]
  have hok : farTypeOk s.lma (segFromDesc f.sel d) d = true := by
    refine farTypeOk_iff.2 (.inr ?_)
    rcases htype with ht | ⟨ht, hlma⟩
    · rw [ht]; split <;> simp [hsys]
    · simp [ht, hlma, hsys]
  rw [h.exec_eq, raiseIf_of_false (by rw [hok]; rfl), farDispatch, Seg.isConforming, Seg.isNonconforming, hcode,
    startRun_st, hgate]
  rfl

/-- The form of a far call of these modes exists outside real-address and virtual-8086 mode only
(30_encoding.md R112). -/
theorem isRealLike_of_farProt {i : Instr} {c : Ctx} (hfar : isFarProt i = true) (h : formFits c i = true) :
    c.mode.isRealLike = false := by
  cases i with
  | callPtr1616Prot | callPtr1632Prot | callM1616Prot | callM1632Prot =>
    simp only [formFits, Bool.and_eq_true, Bool.not_eq_true'] at h
    simp only [h]
  | callM1664 =>
    rw [formFits, Bool.and_eq_true, beq_iff_eq] at h
    rw [(Laws.farOperandSize_eq_s64.1 h.1).1]
    rfl
  | _ => simp [isFarProt] at hfar

theorem FarCallTo.protectedMode {i : Instr} {s : State} {f : FarPtr} {d : BitVec 64} (h : FarCallTo i s f d) :
    s.pe = true ∧ s.vm = false := by
  obtain ⟨⟨-, hform⟩, -⟩ : (_ ∧ formFits s.ctx i = true) ∧ _ := by
    simpa only [runnable, instrFits, Bool.and_eq_true] using h.runs
  have hmode : s.mode.isRealLike = false := isRealLike_of_farProt h.far hform
  unfold State.mode at hmode
  cases hpe : s.pe <;> cases hvm : s.vm <;> simp_all [Mode.isRealLike]

/-! ## The checks (R200, R201) -/

/-- The upper half of a 16-byte gate is two tests, made in IA-32e mode only (R201). -/
theorem readGateUpper_eq (sel : BitVec 16) (r : Run) : readGateUpper sel r =
    let h := memRead r.st (linAdd r.st (descAddr r.st sel) 8) 8
    raiseIf (r.st.lma && !inTable r.st sel 15) r .gp (errorCode sel) .r201 >>= fun _ =>
    raiseIf (r.st.lma && h.extractLsb' 40 5 != 0#5) r .gp (errorCode sel) .r201 >>= fun _ =>
    .ok (if r.st.lma then h else 0) := by
  unfold readGateUpper fetchUpper
  cases r.st.lma
  · rfl
  · cases inTable r.st sel 15 <;> rfl

/-- The test of R201 on the table: the first 8 bytes of the gate were inside it. -/
theorem gateUpper_outside_iff {s : State} {sel : BitVec 16} {d : BitVec 64}
    (h : fetchDescriptor s sel = some d) : inTable s sel 15 = false ↔
      (if sel.getLsbD 2 then s.ldtr.limit.toNat else s.gdtr.limit.toNat) < sel.toNat / 8 * 8 + 15 := by
  have hin : inTable s sel 7 = true := by
    by_contra hout
    simp [fetchDescriptor, hout] at h
  rw [← Bool.not_eq_false, inTable_eq_false] at hin
  rw [inTable_eq_false]
  split at hin <;> simp_all

/-- The checks on the upper half of a gate, in order; `q` is what follows from passing them (R201). -/
theorem readGateUpper_result {o : Host.Outcome State Fault Refusal} {s : State} {sel : BitVec 16} {d : BitVec 64}
    {rest : BitVec 64 → Except Halt Run} {q : Prop} (hd : fetchDescriptor s sel = some d)
    (ho : o = settle s (readGateUpper sel (startRun s) >>= rest)) :
    let h := memRead s (linAdd s (descAddr s sel) 8) 8
    let h0 := if s.lma then h else 0
    (readGateUpper sel (startRun s) = .ok h0 → o = settle s (rest h0) → q) →
    if s.lma = true ∧ (if sel.getLsbD 2 then s.ldtr.limit.toNat else s.gdtr.limit.toNat) <
        sel.toNat / 8 * 8 + 15 then faultsClean o s .gp (sel &&& 0xFFFC) .r201
    else if s.lma = true ∧ h.extractLsb' 40 5 ≠ 0 then faultsClean o s .gp (sel &&& 0xFFFC) .r201
    else q := by
  intro h h0 hq
  have hlimit : (s.lma && !inTable s sel 15) = true ↔
      s.lma = true ∧ (if sel.getLsbD 2 then s.ldtr.limit.toNat else s.gdtr.limit.toNat) <
        sel.toNat / 8 * 8 + 15 := by
    rw [Bool.and_eq_true, Bool.not_eq_true', gateUpper_outside_iff hd]
  have htype : (s.lma && h.extractLsb' 40 5 != 0#5) = true ↔ s.lma = true ∧ h.extractLsb' 40 5 ≠ 0 := by
    simp
  rw [readGateUpper_eq, bind_assoc] at ho
  refine faultsClean_or ho hlimit fun hin ho => ?_
  rw [bind_assoc] at ho
  refine faultsClean_or ho htype fun hzero ho => hq ?_ ho
  simp only [readGateUpper_eq, raiseIf_bind_ok, startRun_st]
  exact ⟨Bool.eq_false_iff.2 (mt hlimit.1 hin), Bool.eq_false_iff.2 (mt htype.1 hzero), rfl⟩

/-- The checks on the code segment a gate names, in order; `q` is what follows from passing them (R200). -/
theorem readGateCode_result {o : Host.Outcome State Fault Refusal} {s : State} {g : Gate}
    {rest : BitVec 64 → Except Halt Run} {q : BitVec 64 → Prop}
    (ho : o = settle s (readGateCode g (startRun s) >>= rest))
    (hq : ∀ cd, readGateCode g (startRun s) = .ok cd → q cd) :
    if g.sel.toNat ≤ 3 then faultsClean o s .gp 0 .r200
    else match fetchDescriptor s g.sel with
      | none => faultsClean o s .gp (g.sel &&& 0xFFFC) .r200
      | some cd =>
        let c := segFromDesc g.sel cd
        if c.isCode = false ∨ s.cpl < c.dpl then faultsClean o s .gp (g.sel &&& 0xFFFC) .r200
        else if s.lma = true ∧ (c.l = false ∨ c.db = true) then
          faultsClean o s .gp (g.sel &&& 0xFFFC) .r200
        else if c.p = false then faultsClean o s .np (g.sel &&& 0xFFFC) .r200
        else q cd := by
  simp only [readGateCode_ok, startRun_st] at hq
  rw [readGateCode, bind_assoc, startRun_st] at ho
  refine faultsClean_or ho (isNullSel_iff g.sel) fun hnull ho => ?_
  cases hfetch : fetchDescriptor s g.sel with
  | none =>
    rw [ho, hfetch]
    exact faultsClean_settle s .gp (errorCode g.sel) .r200
  | some cd =>
    simp only [hfetch, bind_assoc] at ho
    refine faultsClean_or ho (by simp) fun hcode ho => ?_
    refine faultsClean_or ho (by simp) fun h64 ho => ?_
    refine faultsClean_or ho (by simp) fun hp _ => hq cd ?_
    simp only [not_or, Bool.not_eq_false] at hcode hp
    refine ⟨?_, hfetch, hcode.1, hcode.2, fun hl => ?_, hp⟩
    · rwa [isNullSel_eq_false, ← Nat.not_le]
    · simpa [hl] using h64

/-- The checks passed, as the operations of R200 and R201 report it. -/
theorem GateCallTo.of_checks {i : Instr} {s : State} {f : FarPtr} {d h cd : BitVec 64}
    (hcall : FarCallTo i s f d) (hgate : isCallGate s.lma d = true)
    (hupper : readGateUpper f.sel (startRun s) = .ok h) (hcpl : ¬ descDpl d < s.cpl)
    (hrpl : ¬ descDpl d < rplOf f.sel) (hpresent : descP d = true)
    (hcode : readGateCode (gateOf s.lma d h) (startRun s) = .ok cd) : GateCallTo i s f d h cd := by
  obtain ⟨hnull, hfetch, hisCode, hdpl, h64, hp⟩ := readGateCode_ok.1 hcode
  have hupper := readGateUpper_ok.1 hupper
  constructor
  case call => exact hcall
  case gate => exact hgate
  case upper => exact hupper
  case gateDpl => exact ⟨BitVec.not_lt.1 hcpl, BitVec.not_lt.1 hrpl⟩
  case present => exact hpresent
  case codeNotNull => exact hnull
  case codeFetched => exact hfetch
  case isCode => exact hisCode
  case codeDpl => exact BitVec.not_lt.1 hdpl
  case code64 => exact h64
  case codePresent => exact hp

/-- Settles O38: the tests of R201 and of R200, each after those before it. -/
theorem gateChecks : Obligations.GateChecks := by
  intro i s f d hcall hgate sel csel table h
  have ho := hcall.exec_gate hgate
  refine readGateUpper_result hcall.fetched ho fun hupper ho => ?_
  refine faultsClean_or ho (by simp [BitVec.lt_def, rplOf_toNat]) fun hpriv ho => ?_
  refine faultsClean_or ho (by simp) fun hpresent ho => ?_
  refine readGateCode_result ho fun cd hcode => ?_
  rw [BitVec.lt_def (y := s.cpl), ← rplOf_toNat, ← BitVec.lt_def, ← BitVec.lt_def, not_or] at hpriv
  exact GateCallTo.of_checks hcall hgate hupper hpriv.1 hpriv.2 (Bool.not_eq_false _ ▸ hpresent) hcode

/-! ## A call whose checks have passed -/

/-- A call whose checks have passed goes to more privilege or stays at its level (R200). -/
theorem GateCallTo.exec_eq {i : Instr} {s : State} {f : FarPtr} {d h cd : BitVec 64}
    (hcall : GateCallTo i s f d h cd) : exec i s = settle s
      (if goesToMorePrivilege (gateOf s.lma d h) cd s then
        morePrivilege (gateOf s.lma d h) cd (nrip i s) (startRun s)
      else samePrivilege (gateOf s.lma d h) cd (nrip i s) (startRun s)) := by
  have hupper : readGateUpper f.sel (startRun s) = .ok h := readGateUpper_ok.2 hcall.upper
  have hcode : readGateCode (gateOf s.lma d h) (startRun s) = .ok cd :=
    readGateCode_ok.2 ⟨hcall.codeNotNull, hcall.codeFetched, hcall.isCode, BitVec.not_lt.2 hcall.codeDpl,
      hcall.code64, hcall.codePresent⟩
  have hpriv : (decide (descDpl d < s.cpl) || decide (descDpl d < rplOf f.sel)) = false := by
    simpa using hcall.gateDpl
  have hpresent : (!descP d) = false := by simp [hcall.present]
  rw [hcall.call.exec_gate hcall.gate, callGate, hupper]
  change settle s (raiseIf _ _ _ _ _ >>= _) = _
  rw [startRun_st, raiseIf_of_false hpriv, raiseIf_of_false hpresent, hcode]
  rfl

theorem GateCallTo.exec_more {i : Instr} {s : State} {f : FarPtr} {d h cd : BitVec 64}
    (hcall : GateCallTo i s f d h cd) (hmore : goesToMorePrivilege (gateOf s.lma d h) cd s = true) :
    exec i s = settle s (morePrivilege (gateOf s.lma d h) cd (nrip i s) (startRun s)) := by
  rw [hcall.exec_eq, if_pos hmore]

theorem GateCallTo.exec_same {i : Instr} {s : State} {f : FarPtr} {d h cd : BitVec 64}
    (hcall : GateCallTo i s f d h cd) (hsame : goesToMorePrivilege (gateOf s.lma d h) cd s = false) :
    exec i s = settle s (samePrivilege (gateOf s.lma d h) cd (nrip i s) (startRun s)) := by
  rw [hcall.exec_eq, if_neg (Bool.not_eq_true _ ▸ hsame)]

/-- A gate has 64 bits exactly in IA-32e mode (20_memory.md R73). -/
theorem GateCallTo.size_eq_s64 {i : Instr} {s : State} {f : FarPtr} {d h cd : BitVec 64}
    (hcall : GateCallTo i s f d h cd) : (gateOf s.lma d h).size = .s64 ↔ s.lma = true :=
  gateSize_eq_s64 hcall.gate

/-- The offset of a gate has the gate's size (20_memory.md R73). -/
theorem viewOf_gateOffset (lma : Bool) (d h : BitVec 64) :
    viewOf (gateOf lma d h).size (gateOf lma d h).off = (gateOf lma d h).off := by
  change viewOf (gateSize lma d) (gateOffset (gateSize lma d) d h) = gateOffset (gateSize lma d) d h
  cases gateSize lma d with
  | s16 | s32 =>
    refine viewOf_eq_self ?_
    rw [gateOffset, BitVec.toNat_setWidth]
    exact (Nat.mod_le _ _).trans_lt (BitVec.isLt _)
  | s64 => rfl

end Sys2Proof.Machine
end

section
/-! Pushes of several items of one size (20_memory.md R66, R67): where they go, which bytes they write, and that each
of them raises nothing when there was room for all. -/

namespace Sys2Proof.Machine

/-! ## Views of the stack pointer -/

/-- Where items go depends on the view of the stack pointer only. -/
theorem itemOffset_congr {sa : Size} {a b : BitVec 64} (h : viewOf sa a = viewOf sa b) (m : Nat) :
    itemOffset sa a m = itemOffset sa b m := viewOf_sub sa a b _ h

theorem itemOffset_zero (sa : Size) (sp : BitVec 64) : itemOffset sa sp 0 = viewOf sa sp := by
  rw [itemOffset, BitVec.sub_zero]

/-- A narrower view of a view. -/
theorem viewOf_viewOf_s32 {sa : Size} (h : sa ≠ .s64) (v : BitVec 64) :
    viewOf sa (viewOf .s32 v) = viewOf sa v := by
  refine BitVec.eq_of_toNat_eq ?_
  rw [viewOf_toNat, viewOf_toNat, viewOf_toNat]
  cases sa with
  | s16 => exact Nat.mod_mod_of_dvd _ (by decide)
  | s32 => exact Nat.mod_mod _ _
  | s64 => exact absurd rfl h

/-- After `ESP` is written, items go by the value written (43_call_gate.md R207). -/
theorem itemOffset_withView_s32 {sa : Size} (h : sa ≠ .s64) (old sp : BitVec 64) (m : Nat) :
    itemOffset sa (withView .s32 old sp) m = itemOffset sa sp m :=
  itemOffset_congr (by rw [← viewOf_viewOf_s32 h, viewOf_withView, viewOf_viewOf_s32 h]) m

/-! ## What the mode decides -/

/-- Addresses are formed alike in states of one mode (20_memory.md R61). -/
theorem segLinear_congr {s t : State} (h : t.mode = s.mode) (name : SegName) (g : Seg) (off : BitVec 64) :
    segLinear t name g off = segLinear s name g off := by
  unfold segLinear
  rw [h]

/-- Accesses fault alike in states of one mode and one processor (20_memory.md R65). -/
theorem segFault_congr {s t : State} (h : t.mode = s.mode) (hcpu : t.cpu = s.cpu) (name : SegName) (g : Seg)
    (off : BitVec 64) (n : Nat) (write : Bool) :
    segFault t name g off n write = segFault s name g off n write := by
  unfold segFault
  rw [h, hcpu, segLinear_congr h]

/-! ## The bytes of the items -/

/-- The bytes of the next `c` items of `n` bytes, the first below the stack pointer first (20_memory.md R66). -/
def stackItems (s : State) (n c : Nat) : List Nat :=
  (List.range c).flatMap fun j =>
    storedAddrs s (segLinear s .ss s.ss (itemOffset (stackAddrSize s) s.gpr.rsp ((j + 1) * n))) n

/-- `c` items of `n` bytes have been pushed from `r` to `r'` (20_memory.md R66). -/
structure ItemsPushed (n c : Nat) (r r' : Run) : Prop where
  grows : RunGrows r r'
  core : SameCore r.st r'.st
  /-- the item `m` bytes below the new top is the one `c * n` bytes further below the old one -/
  top : ∀ m, itemOffset (stackAddrSize r.st) r'.st.gpr.rsp m =
    itemOffset (stackAddrSize r.st) r.st.gpr.rsp (c * n + m)
  wrote : r'.wrote = r.wrote ++ stackItems r.st n c

section
variable {n c c' : Nat} {r r' r'' : Run}

theorem ItemsPushed.mode (h : ItemsPushed n c r r') : r'.st.mode = r.st.mode :=
  h.grows.rest.mode (congrArg Seg.l h.core.cs)

theorem ItemsPushed.addrSize (h : ItemsPushed n c r r') : stackAddrSize r'.st = stackAddrSize r.st := by
  rw [stackAddrSize, stackAddrSize, h.mode, h.core.ss]

/-- The bytes of the items that follow. -/
theorem ItemsPushed.stackItems_add (h : ItemsPushed n c r r') (k : Nat) :
    stackItems r.st n c ++ stackItems r'.st n k = stackItems r.st n (c + k) := by
  unfold stackItems
  rw [List.range_add, List.flatMap_append, List.flatMap_map]
  refine congrArg _ (List.flatMap_congr fun j _ => ?_)
  rw [h.addrSize, h.top, h.core.ss, segLinear_congr h.mode, storedAddrs_congr h.grows.rest.lma,
    show c * n + (j + 1) * n = (c + j + 1) * n by ring]

theorem ItemsPushed.refl (n : Nat) (r : Run) : ItemsPushed n 0 r r :=
  ⟨RunGrows.refl r, SameCore.refl r.st, fun m => by rw [Nat.zero_mul, Nat.zero_add], (List.append_nil _).symm⟩

theorem ItemsPushed.trans (h : ItemsPushed n c r r') (k : ItemsPushed n c' r' r'') :
    ItemsPushed n (c + c') r r'' where
  grows := h.grows.trans k.grows
  core := h.core.trans k.core
  top m := by
    have hk := k.top m
    rw [h.addrSize, h.top] at hk
    rw [hk, show c * n + (c' * n + m) = (c + c') * n + m by ring]
  wrote := by rw [k.wrote, h.wrote, List.append_assoc, h.stackItems_add]

/-- The place of item `j` after `c` items (R66). -/
theorem ItemsPushed.itemOk (h : ItemsPushed n c r r') (j : Nat) : ItemOk r'.st n j ↔ ItemOk r.st n (c + j) := by
  unfold ItemOk
  rw [segFault_congr h.mode h.grows.rest.cpu, h.core.ss, h.addrSize, h.top,
    show c * n + (j + 1) * n = (c + j + 1) * n by ring]

end

/-- One item is pushed. -/
theorem ItemsPushed.pushed (n : Nat) (v : BitVec 64) (r : Run) : ItemsPushed n 1 r (pushed n v r) where
  grows := RunGrows.pushed n v r
  core := SameCore.pushed n v r
  top m := by rw [Nat.one_mul]; exact pushOffset_pushed n m v r
  wrote := by simp [stackItems, pushLinear, pushOffset]

/-- A selector is one item. -/
theorem ItemsPushed.selPushed (k : Size) (sel : BitVec 16) (r : Run) :
    ItemsPushed k.bytes 1 r (selPushed k sel r) where
  grows := RunGrows.selPushed k sel r
  core := SameCore.selPushed k sel r
  top m := by rw [Nat.one_mul]; exact pushOffset_selPushed k sel r m
  wrote := (ItemsPushed.pushed k.bytes (selItem k sel r.st) r).wrote

/-! ## Pushes that raise nothing (R65, R67) -/

theorem itemOk_zero {s : State} {n : Nat} :
    ItemOk s n 0 ↔ segFault s .ss s.ss (pushOffset s n) n true = none := by
  rw [ItemOk, Nat.zero_add, Nat.one_mul, pushOffset]

theorem push_of_itemOk {n : Nat} {r : Run} (h : ItemOk r.st n 0) (v : BitVec 64) :
    push n v r = .ok (pushed n v r) := push_ok.2 ⟨itemOk_zero.1 h, rfl⟩

theorem pushSel_of_itemOk {k : Size} {r : Run} (h : ItemOk r.st k.bytes 0) (sel : BitVec 16) :
    pushSel k sel r = .ok (selPushed k sel r) := pushSel_ok.2 ⟨itemOk_zero.1 h, rfl⟩

/-- On a flat stack the items are the bytes right below the stack pointer. -/
theorem stackItems_long64_subset {s : State} (h : s.mode = .long64) (n c : Nat) :
    stackItems s n c ⊆ storedAddrs s (s.gpr.rsp - BitVec.ofNat 64 (c * n)) (c * n) := by
  intro a ha
  obtain ⟨j, hj, ha⟩ := List.mem_flatMap.1 ha
  obtain ⟨i, hi, rfl⟩ := mem_storedAddrs.1 ha
  rw [List.mem_range] at hj
  have hsize : stackAddrSize s = .s64 := by simp [stackAddrSize, h]
  have hflat (off : BitVec 64) : segLinear s .ss s.ss off = off := by simp [segLinear, h]
  have hcount : c * n = (c - (j + 1)) * n + (j + 1) * n := by rw [← Nat.add_mul, Nat.sub_add_cancel hj]
  have hplace : itemOffset .s64 s.gpr.rsp ((j + 1) * n) =
      s.gpr.rsp - BitVec.ofNat 64 (c * n) + BitVec.ofNat 64 ((c - (j + 1)) * n) := by
    rw [itemOffset, viewOf, hcount, BitVec.ofNat_add]
    ring
  rw [hsize, hflat, hplace, byteAddr_add]
  refine mem_storedAddrs.2 ⟨(c - (j + 1)) * n + i, ?_, rfl⟩
  have : n ≤ (j + 1) * n := Nat.le_mul_of_pos_left n (Nat.succ_pos j)
  omega

/-- After pushes onto a flat stack the stack pointer has moved by their bytes. -/
theorem ItemsPushed.rsp_long64 {n c : Nat} {r r' : Run} (h : ItemsPushed n c r r') (hmode : r.st.mode = .long64) :
    r'.st.gpr.rsp = r.st.gpr.rsp - BitVec.ofNat 64 (c * n) := by
  have htop := h.top 0
  rwa [show stackAddrSize r.st = .s64 by simp [stackAddrSize, hmode], itemOffset_zero, viewOf, Nat.add_zero,
    itemOffset, viewOf] at htop

end Sys2Proof.Machine
end

section
/-! Calls through a gate that stay at their privilege level (43_call_gate.md R215 to R219): the tests in order, the
state they leave, and the bytes they write. -/

namespace Sys2Proof.Machine

/-! ## The mode after the `CS` load (10_state.md R29, 43_call_gate.md R200) -/

/-- Outside IA-32e mode no `CALL` changes the mode. -/
theorem SameRest.mode_legacy {s t : State} (h : SameRest s t) (hl : s.lma = false) : t.mode = s.mode := by
  simp [State.mode, h.pe, h.vm, h.lma, hl]

theorem mode_ne_long64_of_lma {s : State} (hl : s.lma = false) : s.mode ≠ .long64 := by
  unfold State.mode
  rw [hl]
  split_ifs <;> simp_all

/-- A gate of IA-32e mode leads to 64-bit mode: its code segment has `L` 1 (R200). -/
theorem GateCallTo.mode_long64 {i : Instr} {s t : State} {f : FarPtr} {d h cd : BitVec 64}
    (hcall : GateCallTo i s f d h cd) (hl : s.lma = true) (hrest : SameRest s t)
    (hcs : t.cs.l = (segFromDesc (gateOf s.lma d h).sel cd).l) : t.mode = .long64 := by
  obtain ⟨hpe, hvm⟩ := hcall.call.protectedMode
  obtain ⟨hcode, -⟩ := hcall.code64 hl
  rw [← hcs] at hcode
  simp [State.mode, hrest.pe, hrest.vm, hrest.lma, hpe, hvm, hl, hcode]

/-- The room test looks at the stack and at the mode (20_memory.md R67). -/
theorem stackRoom_congr {s t : State} (hmode : t.mode = s.mode) (hss : t.ss = s.ss)
    (hrsp : t.gpr.rsp = s.gpr.rsp) (hcpu : t.cpu = s.cpu) (total n : Nat) :
    stackRoom t total n = stackRoom s total n := by
  rw [stackRoom, stackRoom, stackAddrSize, stackAddrSize, hmode, hss, hrsp, hcpu]

/-! ## The state the pushes start from (R215 to R217, R219) -/

/-- Only a 64-bit gate switches the stack (R219). -/
theorem sameStackState_legacy {k : Size} (h : k ≠ .s64) (s : State) : sameStackState k s = s := by
  cases k with
  | s16 | s32 => rfl
  | s64 => exact absurd rfl h

theorem sameRoom_legacy {k : Size} (h : k ≠ .s64) (s : State) :
    sameRoom k s = stackRoom s (2 * k.bytes) k.bytes := by
  cases k with
  | s16 | s32 => rfl
  | s64 => exact absurd rfl h

theorem sameTargetBad_legacy {k : Size} (h : k ≠ .s64) (s : State) (cd off : BitVec 64) (sel : BitVec 16) :
    sameTargetBad k s cd off sel = !inLimit (segFromDesc sel cd) off.toNat := by
  cases k with
  | s16 | s32 => rfl
  | s64 => exact absurd rfl h

theorem sameRule_legacy {k : Size} (h : k ≠ .s64) : sameRule k = if k = .s16 then .r216 else .r215 := by
  cases k with
  | s16 | s32 => rfl
  | s64 => exact absurd rfl h

theorem sameStackState_sameRest (k : Size) (s : State) : SameRest s (sameStackState k s) := by
  rw [sameStackState_st]
  constructor <;> rfl

/-- The run after the `CS` load and the branch of a call through a gate (R206 to R209, R215 to R217). -/
def gateBranched (g : Gate) (cd : BitVec 64) (r : Run) : Run :=
  let r1 := loadCs g.sel cd r
  r1.upd (branchTo r1.st g.size g.off)

theorem gateBranched_st (g : Gate) (cd : BitVec 64) (r : Run) :
    (gateBranched g cd r).st = branchTo (afterLoadCs g.sel cd r.st) g.size g.off := by
  rw [gateBranched, Run.upd_st, loadCs, setAccessed_afterAccessed]
  rfl

theorem RunGrows.gateBranched (g : Gate) (cd : BitVec 64) (r : Run) : RunGrows r (gateBranched g cd r) :=
  (RunGrows.loadCs g.sel cd r).trans
    (RunGrows.upd _ (SameRest.branchTo _ _ _) (by rw [branchTo_eq, State.setRip_mem]))

/-- What the pushes find: the stack as it stood, and the code segment loaded. -/
theorem gateBranched_frame (g : Gate) (cd : BitVec 64) (r : Run) :
    (gateBranched g cd r).st.ss = r.st.ss ∧ (gateBranched g cd r).st.gpr = r.st.gpr ∧
      (gateBranched g cd r).st.cs.l = (segFromDesc g.sel cd).l := by
  rw [gateBranched, Run.upd_st, branchTo_eq, State.setRip_ss, State.setRip_gpr, State.setRip_cs, loadCs_st]
  exact ⟨rfl, rfl, rfl⟩

/-- Where a descriptor is depends on the table registers and on `LMA` (20_memory.md R70). -/
theorem accessedWrites_congr {s t : State} (h : SameRest s t) (sel : BitVec 16) (d : BitVec 64) :
    accessedWrites sel d t = accessedWrites sel d s := by
  simp only [accessedWrites, byteAddr, descAddr, tableBase, linAdd, h.lma, h.ldtr, h.gdtr]

/-- The `CS` load writes the accessed bit of the code segment (20_memory.md R77). -/
theorem gateBranched_wrote (g : Gate) (cd : BitVec 64) (r : Run) :
    (gateBranched g cd r).wrote = r.wrote ++ accessedWrites g.sel cd r.st := by
  rw [gateBranched, Run.upd_wrote, loadCs, setAccessed_wrote, Run.upd_st, Run.upd_wrote,
    accessedWrites_congr (s := r.st) (by constructor <;> rfl)]

theorem sameBranched_eq (g : Gate) (cd : BitVec 64) (r : Run) :
    sameBranched g cd r = gateBranched g cd (r.upd (sameStackState g.size r.st)) := rfl

theorem RunGrows.sameBranched (g : Gate) (cd : BitVec 64) (s : State) :
    RunGrows (startRun s) (sameBranched g cd (startRun s)) :=
  (RunGrows.upd (startRun s) (sameStackState_sameRest g.size s) (by rw [sameStackState_st]; rfl)).trans
    (RunGrows.gateBranched g cd _)

theorem sameBranched_frame (g : Gate) (cd : BitVec 64) (s : State) :
    (sameBranched g cd (startRun s)).st.ss = s.ss ∧
    (sameBranched g cd (startRun s)).st.gpr.rsp = (sameStackState g.size s).gpr.rsp ∧
    (sameBranched g cd (startRun s)).st.cs.l = (segFromDesc g.sel cd).l := by
  have hstack : (sameStackState g.size s).ss = s.ss := by rw [sameStackState_st]; rfl
  obtain ⟨hss, hgpr, hcs⟩ := gateBranched_frame g cd ((startRun s).upd (sameStackState g.size s))
  exact ⟨hss.trans hstack, congrArg Gprs.rsp hgpr, hcs⟩

/-- The bytes written before the pushes. -/
theorem sameBranched_wrote (g : Gate) (cd : BitVec 64) (s : State) :
    (sameBranched g cd (startRun s)).wrote = accessedWrites g.sel cd s := by
  rw [sameBranched_eq, gateBranched_wrote, Run.upd_st, startRun_st,
    accessedWrites_congr (sameStackState_sameRest g.size s)]
  rfl

/-- The mode the pushes are made in: 64-bit mode through a 64-bit gate, else the caller's (R217). -/
theorem GateCallTo.mode_sameBranched {i : Instr} {s : State} {f : FarPtr} {d h cd : BitVec 64}
    (hcall : GateCallTo i s f d h cd) :
    (sameBranched (gateOf s.lma d h) cd (startRun s)).st.mode = if s.lma then .long64 else s.mode := by
  have hrest := (RunGrows.sameBranched (gateOf s.lma d h) cd s).rest
  obtain ⟨-, -, hcs⟩ := sameBranched_frame (gateOf s.lma d h) cd s
  split
  case isTrue hl => exact hcall.mode_long64 hl hrest hcs
  case isFalse hl => exact hrest.mode_legacy (Bool.not_eq_true _ ▸ hl)

/-- The room test is made on the stack the pushes are made on (R215 to R217). -/
theorem GateCallTo.sameRoom_eq {i : Instr} {s : State} {f : FarPtr} {d h cd : BitVec 64}
    (hcall : GateCallTo i s f d h cd) :
    let g := gateOf s.lma d h
    sameRoom g.size (sameStackState g.size s) =
      stackRoom (sameBranched g cd (startRun s)).st (2 * g.size.bytes) g.size.bytes := by
  intro g
  have hrest := (RunGrows.sameBranched g cd s).rest
  have hmode := hcall.mode_sameBranched
  obtain ⟨hss, hrsp, -⟩ := sameBranched_frame g cd s
  cases hl : s.lma with
  | true =>
    have hsize : g.size = .s64 := hcall.size_eq_s64.2 hl
    have hmode : (sameBranched g cd (startRun s)).st.mode = .long64 := hmode.trans (if_pos hl)
    have hcpu : (sameStackState .s64 s).cpu = s.cpu := (sameStackState_sameRest .s64 s).cpu
    rw [stackRoom, hmode, hrsp, hrest.cpu, hsize, sameRoom, hcpu]
    rfl
  | false =>
    have hsize : g.size ≠ .s64 := mt hcall.size_eq_s64.1 (Bool.eq_false_iff.1 hl)
    have hmode : (sameBranched g cd (startRun s)).st.mode = s.mode := hmode.trans (by simp [hl])
    rw [sameStackState_legacy hsize] at hrsp ⊢
    rw [stackRoom_congr hmode hss hrsp hrest.cpu, sameRoom_legacy hsize]

/-! ## The pushes and the tail (R215 to R218) -/

/-- What R215 to R217 do after their tests. -/
def sameEnter (g : Gate) (cd ret : BitVec 64) (r : Run) : Except Halt Run := do
  let w ← pushSel g.size r.st.cs.sel (sameBranched g cd r)
  let v ← push g.size.bytes ret w
  .ok (samePrivilegeTail r.st ret v)

theorem samePrivilege_eq (g : Gate) (cd ret : BitVec 64) (r : Run) : samePrivilege g cd ret r =
    let r0 := r.upd (sameStackState g.size r.st)
    raiseIf (!sameRoom g.size r0.st) r0 .ss 0 (sameRule g.size) >>= fun _ =>
    raiseIf (sameTargetBad g.size r0.st cd g.off g.sel) r0 .gp 0 (sameRule g.size) >>= fun _ =>
    sameEnter g cd ret r := rfl

/-- The tests of R215 and R216: through a 16- or 32-bit gate the stack stays the caller's. -/
theorem samePrivilege_legacy_eq {g : Gate} (hsize : g.size ≠ .s64) (cd ret : BitVec 64) (s : State) :
    samePrivilege g cd ret (startRun s) =
      raiseIf (!stackRoom s (2 * g.size.bytes) g.size.bytes) (startRun s) .ss 0
        (if g.size = .s16 then .r216 else .r215) >>= fun _ =>
      raiseIf (!inLimit (segFromDesc g.sel cd) g.off.toNat) (startRun s) .gp 0
        (if g.size = .s16 then .r216 else .r215) >>= fun _ =>
      sameEnter g cd ret (startRun s) := by
  simp only [samePrivilege_eq, startRun_st, Run.upd_st, sameStackState_legacy hsize, sameRoom_legacy hsize,
    sameTargetBad_legacy hsize, sameRule_legacy hsize]
  rfl

/-- The tests of R217, on the stack of 64-bit mode. -/
theorem samePrivilege_s64_eq {g : Gate} (hsize : g.size = .s64) (cd ret : BitVec 64) (s : State) :
    samePrivilege g cd ret (startRun s) =
      let r0 := (startRun s).upd (implicitStackSwitch s)
      raiseIf (!roomFlat s.cpu.laWidth (implicitStackSwitch s).gpr.rsp 16 8) r0 .ss 0 .r217 >>= fun _ =>
      raiseIf (!canonical s.cpu.laWidth g.off) r0 .gp 0 .r217 >>= fun _ =>
      sameEnter g cd ret (startRun s) := by
  have hcpu : (implicitStackSwitch s).cpu = s.cpu := (sameStackState_sameRest .s64 s).cpu
  rw [samePrivilege_eq, hsize, ← hcpu]
  rfl

/-- The run of a completed call holds the state R215 to R218 describe. -/
theorem samePrivilegeTail_startRun (g : Gate) (cd ret : BitVec 64) (s : State) :
    (samePrivilegeTail s ret (sameEntered g cd ret (startRun s))).st = afterSamePrivilege g cd ret s := by
  have htail : (samePrivilegeTail s ret (sameEntered g cd ret (startRun s))).st =
      farEndbranch (farShadowDone s.cs.sel (callerLip s ret) (sameEntered g cd ret (startRun s))).st := rfl
  have hentered : (sameEntered g cd ret (startRun s)).st = afterPush g.size.bytes ret
      (afterPushSel g.size s.cs.sel (sameBranched g cd (startRun s)).st) := rfl
  rw [htail, farShadowDone_st, hentered, sameBranched_eq, gateBranched_st]
  rfl

/-- With room for both items the pushes raise nothing. -/
theorem sameEnter_of_room {g : Gate} {cd ret : BitVec 64} {s : State}
    (hw : StackWritable (sameBranched g cd (startRun s)).st)
    (hroom : stackRoom (sameBranched g cd (startRun s)).st (2 * g.size.bytes) g.size.bytes = true) :
    sameEnter g cd ret (startRun s) = .ok (samePrivilegeTail s ret (sameEntered g cd ret (startRun s))) := by
  have hpushes := (selThenPush_ok (sel := s.cs.sel) (v := ret)).2 ⟨TwoPushesOk.of_room hw hroom, rfl⟩
  rw [sameEnter, ← bind_assoc, startRun_st, hpushes]
  rfl

/-- On a stack that takes no writes the first push is refused, after the accessed bit was written (20_memory.md
R65). -/
theorem sameEnter_notWritable {g : Gate} {cd ret : BitVec 64} {s : State}
    (hroom : stackRoom (sameBranched g cd (startRun s)).st (2 * g.size.bytes) g.size.bytes = true)
    (hw : stackWritable (sameBranched g cd (startRun s)).st = false) :
    faultsAfter (settle s (sameEnter g cd ret (startRun s))) s .gp 0 .r65 (accessedWrites g.sel cd s) := by
  rw [sameEnter, pushSel, push_error (segFault_push_notWritable hroom hw), sameBranched_wrote]
  exact faultsAfter_settle s .gp 0 .r65 _ _

theorem afterSamePrivilege_rip {g : Gate} (hoff : viewOf g.size g.off = g.off) (cd ret : BitVec 64) (s : State) :
    (afterSamePrivilege g cd ret s).rip = g.off := by
  obtain ⟨hcore, -⟩ := sameEntered_core g cd ret (startRun s)
  rw [← samePrivilegeTail_startRun, samePrivilegeTail_frame]
  refine hcore.rip.trans ?_
  rw [branchTo_of_viewOf _ hoff]
  rfl

/-- What the pushes of a call at the same level do once there is room (R215 to R217, 20_memory.md R65). -/
theorem sameEnter_result {o : Host.Outcome State Fault Refusal} {g : Gate} {cd ret : BitVec 64} {s : State}
    (hroom : stackRoom (sameBranched g cd (startRun s)).st (2 * g.size.bytes) g.size.bytes = true)
    (ho : o = settle s (sameEnter g cd ret (startRun s))) :
    if stackWritable (sameBranched g cd (startRun s)).st = false then
      faultsAfter o s .gp 0 .r65 (accessedWrites g.sel cd s)
    else o = .next (afterSamePrivilege g cd ret s) := by
  rw [ho]
  split_ifs with hw
  · exact sameEnter_notWritable hroom hw
  · rw [Bool.not_eq_false, stackWritable_iff] at hw
    rw [sameEnter_of_room hw hroom, ← samePrivilegeTail_startRun]
    rfl

/-- Settles O39: the room test, the test on the target, then the pushes. -/
theorem samePrivilegeLegacyResult : Obligations.SamePrivilegeLegacyResult := by
  intro i s f d h cd hcall hl hsame g rule
  have hsize : g.size ≠ .s64 := mt hcall.size_eq_s64.1 (Bool.eq_false_iff.1 hl)
  have hmode : (sameBranched g cd (startRun s)).st.mode = s.mode :=
    hcall.mode_sameBranched.trans (by simp [hl])
  have hroomEq : sameRoom g.size (sameStackState g.size s) =
    stackRoom (sameBranched g cd (startRun s)).st (2 * g.size.bytes) g.size.bytes := hcall.sameRoom_eq
  rw [sameStackState_legacy hsize, sameRoom_legacy hsize] at hroomEq
  obtain ⟨hss, -, -⟩ := sameBranched_frame g cd s
  have ho : exec i s = settle s (samePrivilege g cd (nrip i s) (startRun s)) := hcall.exec_same hsame
  rw [samePrivilege_legacy_eq hsize] at ho
  refine faultsClean_or ho (by simp) fun hroom ho => ?_
  refine faultsClean_or ho (by simp) fun _ ho => ?_
  have hresult := sameEnter_result (hroomEq ▸ Bool.not_eq_false _ ▸ hroom) ho
  have hwritable : stackWritable (sameBranched g cd (startRun s)).st = stackWritable s := by
    rw [stackWritable, stackWritable, hmode, hss]
  rw [hwritable] at hresult
  split_ifs at hresult ⊢
  · exact hresult
  · exact ⟨hresult, afterSamePrivilege_rip (viewOf_gateOffset s.lma d h) cd (nrip i s) s⟩

/-- A test that fails after nothing but draws: registers and memory are as before, whatever was drawn
(60_exceptions.md R265). -/
theorem faultsAfter_or {o : Host.Outcome State Fault Refusal} {s : State} {r : Run} {bad : Bool} {x : Exc}
    {code : BitVec 16} {rule : RuleId} {rest : Unit → Except Halt Run} {p q : Prop} [Decidable p]
    (ho : o = settle s (raiseIf bad r x code rule >>= rest)) (hp : bad = true ↔ p)
    (hq : ¬ p → o = settle s (rest ()) → q) : if p then faultsAfter o s x code rule r.wrote else q := by
  cases bad with
  | true =>
    rw [if_pos (hp.1 rfl), ho]
    exact faultsAfter_settle s x code rule r.wrote r.st.draws
  | false =>
    have hnot : ¬ p := fun h => Bool.false_ne_true (hp.2 h)
    rw [if_neg hnot]
    exact hq hnot ho

/-- The stack pointer R219 gives: as it is in 64-bit mode, else with a free upper half. -/
theorem implicitStackSwitch_rsp (s : State) : (implicitStackSwitch s).gpr.rsp =
    if s.mode = .long64 then s.gpr.rsp else Config.rspUpper s.draws ++ s.gpr.rsp.extractLsb' 0 32 := by
  unfold implicitStackSwitch
  by_cases hmode : s.mode = .long64 <;> simp [hmode]

/-- The two items of a call at the same level are pushed on the stack its room test saw (R215 to R217). -/
theorem ItemsPushed.sameEntered (g : Gate) (cd ret : BitVec 64) (r : Run) :
    ItemsPushed g.size.bytes 2 (sameBranched g cd r) (sameEntered g cd ret r) :=
  (ItemsPushed.selPushed g.size r.st.cs.sel _).trans (ItemsPushed.pushed g.size.bytes ret _)

/-- The tail leaves the stack and `CS` alone (R218). -/
theorem samePrivilegeTail_stack (old : State) (ret : BitVec 64) (r : Run) :
    (samePrivilegeTail old ret r).st.gpr = r.st.gpr ∧ (samePrivilegeTail old ret r).st.cs = r.st.cs ∧
      (samePrivilegeTail old ret r).st.ss = r.st.ss := by
  rw [samePrivilegeTail_frame]
  simp only [State.setSCet_gpr, State.setSCet_cs, State.setSCet_ss, State.setUCet_gpr, State.setUCet_cs,
    State.setUCet_ss, State.setMem_gpr, State.setMem_cs, State.setMem_ss, State.setSsp_gpr, State.setSsp_cs,
    State.setSsp_ss, and_self]

theorem RunGrows.sameDone (g : Gate) (cd ret : BitVec 64) (s : State) :
    RunGrows (startRun s) (Machine.samePrivilegeTail s ret (sameEntered g cd ret (startRun s))) :=
  ((RunGrows.sameBranched g cd s).trans (ItemsPushed.sameEntered g cd ret (startRun s)).grows).trans
    (RunGrows.samePrivilegeTail s ret _)

/-- Stack and mode of the state R217 describes. -/
theorem GateCallTo.afterSamePrivilege_s64 {i : Instr} {s : State} {f : FarPtr} {d h cd : BitVec 64}
    (hcall : GateCallTo i s f d h cd) (hl : s.lma = true) (ret : BitVec 64) :
    let t := afterSamePrivilege (gateOf s.lma d h) cd ret s
    t.gpr.rsp = (implicitStackSwitch s).gpr.rsp - 16#64 ∧ t.mode = .long64 ∧ t.ss = s.ss := by
  have hsize : (gateOf s.lma d h).size = .s64 := hcall.size_eq_s64.2 hl
  have hmode := hcall.mode_sameBranched.trans (if_pos hl)
  have hrest := (RunGrows.sameDone (gateOf s.lma d h) cd ret s).rest
  have hpushed := ItemsPushed.sameEntered (gateOf s.lma d h) cd ret (startRun s)
  obtain ⟨hss, hrsp, hcs⟩ := sameBranched_frame (gateOf s.lma d h) cd s
  obtain ⟨hgpr, hcs', hss'⟩ := samePrivilegeTail_stack s ret (sameEntered (gateOf s.lma d h) cd ret (startRun s))
  rw [← samePrivilegeTail_startRun]
  refine ⟨?_, hcall.mode_long64 hl hrest ?_, ?_⟩
  · rw [hgpr, hpushed.rsp_long64 hmode, hrsp, hsize]
    rfl
  · rw [hcs', hpushed.core.cs, hcs]
  · rw [hss', hpushed.core.ss, hss]

/-- Settles O40: the tests on the switched stack and on the target, then the pushes in 64-bit mode. -/
theorem samePrivilege64Result : Obligations.SamePrivilege64Result := by
  intro i s f d h cd hcall hl hsame g rsp
  have hsize : g.size = .s64 := hcall.size_eq_s64.2 hl
  have hrsp : rsp = (implicitStackSwitch s).gpr.rsp := (implicitStackSwitch_rsp s).symm
  have hmode : (sameBranched g cd (startRun s)).st.mode = .long64 :=
    hcall.mode_sameBranched.trans (if_pos hl)
  have hroomEq : sameRoom g.size (sameStackState g.size s) =
    stackRoom (sameBranched g cd (startRun s)).st (2 * g.size.bytes) g.size.bytes := hcall.sameRoom_eq
  have ho : exec i s = settle s (samePrivilege g cd (nrip i s) (startRun s)) := hcall.exec_same hsame
  rw [samePrivilege_s64_eq hsize, ← hrsp] at ho
  refine faultsAfter_or ho (by simp) fun hroom ho => ?_
  refine faultsAfter_or ho (by simp) fun _ ho => ?_
  have hroom' : stackRoom (sameBranched g cd (startRun s)).st (2 * g.size.bytes) g.size.bytes = true := by
    have hcpu : (implicitStackSwitch s).cpu = s.cpu := (sameStackState_sameRest .s64 s).cpu
    rw [← hroomEq, hsize, ← Bool.not_eq_false]
    rwa [hrsp, ← hcpu] at hroom
  have hwritable : ¬ stackWritable (sameBranched g cd (startRun s)).st = false := by simp [stackWritable, hmode]
  have hresult := sameEnter_result hroom' ho
  rw [if_neg hwritable] at hresult
  obtain ⟨hsp, hmode', hss⟩ := hcall.afterSamePrivilege_s64 hl (nrip i s)
  rw [← hrsp] at hsp
  exact ⟨_, hresult, rfl, afterSamePrivilege_rip (viewOf_gateOffset s.lma d h) cd (nrip i s) s, hsp, hmode', hss⟩

end Sys2Proof.Machine
end

section
/-! Calls through a gate to more privilege (43_call_gate.md R203 to R214): the inner stack and its checks, the tests in
order, and the state a completed call leaves. -/

namespace Sys2Proof.Machine

/-! ## The inner stack (R204, R205) -/

/-- The steps of R210 to R213, after the pushes. -/
def moreTail (old : State) (p : BitVec 2) (ret : BitVec 64) (w : Run) : Except Halt Run := do
  let v ← supervisorShadow old ret (w.upd (enterLevel p (saveUserSsp w.st)))
  .ok (v.upd (farEndbranch v.st))

/-- The last byte of the stack fields of a level in the `TSS` (20_memory.md R76). -/
def tssStackEnd (kind : TssKind) (p : BitVec 2) : Nat := tssStackAddress kind p + tssStackLast kind

theorem morePrivilege_eq (g : Gate) (cd ret : BitVec 64) (s : State) :
    morePrivilege g cd ret (startRun s) =
      raiseIf (decide (s.tr.limit.toNat < tssStackEnd s.tr.kind (descDpl cd))) (startRun s) .ts
        (errorCode s.tr.sel) .r204 >>= fun _ =>
      (if g.size = .s64 then more64 g cd ret (tssInnerStack s (descDpl cd)) (startRun s)
        else moreLegacy g cd ret (tssInnerStack s (descDpl cd)) (startRun s)) >>= fun w =>
      moreTail s (descDpl cd) ret w := by
  rw [morePrivilege, readInnerStack, bind_assoc, tssStackEnd]
  cases g.size <;> rfl

/-- Settles O41: the limit of the `TSS` is the first test on the way to more privilege. -/
theorem tssLimitFaults : Obligations.TssLimitFaults := by
  intro i s f d h cd hcall hmore hshort
  have ho := hcall.exec_more hmore
  rw [morePrivilege_eq] at ho
  refine faultsClean_of_test ho (decide_eq_true ?_)
  cases hk : s.tr.kind with
  | tss16 | tss32 | tss64 =>
    rw [hk] at hshort
    exact hshort

/-- With the `TSS` long enough the call goes on with the inner stack as it stands there (R204). -/
theorem GateCallTo.exec_inner {i : Instr} {s : State} {f : FarPtr} {d h cd : BitVec 64}
    (hcall : GateCallTo i s f d h cd) (hmore : goesToMorePrivilege (gateOf s.lma d h) cd s = true)
    (hlimit : tssStackAddress s.tr.kind (descDpl cd) + tssStackLast s.tr.kind ≤ s.tr.limit.toNat) :
    exec i s = settle s
      ((if s.lma = true then
          more64 (gateOf s.lma d h) cd (nrip i s) (tssInnerStack s (descDpl cd)) (startRun s)
        else moreLegacy (gateOf s.lma d h) cd (nrip i s) (tssInnerStack s (descDpl cd)) (startRun s)) >>=
      moreTail s (descDpl cd) (nrip i s)) := by
  have hok : decide (s.tr.limit.toNat < tssStackEnd s.tr.kind (descDpl cd)) = false :=
    decide_eq_false (Nat.not_lt.2 hlimit)
  rw [hcall.exec_more hmore, morePrivilege_eq, raiseIf_of_false hok]
  simp only [hcall.size_eq_s64]

/-- The checks on the new stack segment, in order (R205). -/
theorem readNewStackDesc_result {o : Host.Outcome State Fault Refusal} {s : State} {p : BitVec 2}
    {sel : BitVec 16} {rest : BitVec 64 → Except Halt Run}
    (ho : o = settle s (readNewStackDesc (startRun s) p sel >>= rest)) :
    if sel.toNat ≤ 3 then faultsClean o s .ts (sel &&& 0xFFFC) .r205
    else match fetchDescriptor s sel with
      | none => faultsClean o s .ts (sel &&& 0xFFFC) .r205
      | some sd =>
        if sel.toNat % 4 ≠ p.toNat ∨ descDpl sd ≠ p ∨ ¬ (descS sd = true ∧ (descType sd).toNat ∈ [2, 3, 6, 7])
          then faultsClean o s .ts (sel &&& 0xFFFC) .r205
        else descP sd = false → faultsClean o s .ss (sel &&& 0xFFFC) .r205 := by
  rw [readNewStackDesc, bind_assoc] at ho
  refine faultsClean_or ho (isNullSel_iff sel) fun _ ho => ?_
  cases hfetch : fetchDescriptor s sel with
  | none =>
    rw [ho, startRun_st, hfetch]
    exact faultsClean_settle s .ts (errorCode sel) .r205
  | some sd =>
    have hdata : (segFromDesc sel sd).isWritableData = true ↔
      descS sd = true ∧ (descType sd).toNat ∈ [2, 3, 6, 7] := isWritableData_iff _
    simp only [startRun_st, hfetch, bind_assoc] at ho
    refine faultsClean_or ho ?_ fun _ ho hp => faultsClean_of_test ho (by rw [hp]; rfl)
    rw [← rplOf_toNat, ← hdata, ne_eq, BitVec.toNat_inj]
    simp [or_assoc]

/-- Settles O42: the checks of R205 come right after the read of the inner stack. -/
theorem newStackSegmentChecks : Obligations.NewStackSegmentChecks := by
  intro i s f d h cd hcall hmore hl hlimit
  have ho := hcall.exec_inner hmore hlimit
  rw [if_neg (Bool.eq_false_iff.1 hl), moreLegacy, bind_assoc] at ho
  exact readNewStackDesc_result ho

end Sys2Proof.Machine
end

section
/-! The steps of a call to more privilege after its tests: the parameters (43_call_gate.md R214), the pushes on the new
stack (R206 to R209), and the supervisor shadow stack (R210 to R213). -/

namespace Sys2Proof.Machine

/-- A selector and a value pushed, as states (20_memory.md R66). -/
theorem twoPushed_st (k : Size) (sel : BitVec 16) (v : BitVec 64) (r : Run) :
    (pushed k.bytes v (selPushed k sel r)).st = afterPush k.bytes v (afterPushSel k sel r.st) := rfl

theorem ok_bind {α β : Type} (a : α) (f : α → Except Halt β) : ((.ok a : Except Halt α) >>= f) = f a := rfl

/-! ## Parameters (R214) -/

/-- The fault of reading parameter `i` from the old stack. -/
def parameterFault (s : State) (oldSs : Seg) (sa : Size) (oldSp : BitVec 64) (n i : Nat) : Option Exc :=
  segFault s .ss oldSs (viewOf sa (oldSp + BitVec.ofNat 64 (i * n))) n false

/-- Parameter `i` on the old stack. -/
def parameterValue (s : State) (oldSs : Seg) (sa : Size) (oldSp : BitVec 64) (n i : Nat) : BitVec 64 :=
  memRead s (segLinear s .ss oldSs (viewOf sa (oldSp + BitVec.ofNat 64 (i * n)))) n

theorem parametersReadable_iff {s : State} {n count : Nat} : parametersReadable s n count = true ↔
    ∀ i, i < count → parameterFault s s.ss (stackAddrSize s) s.gpr.rsp n i = none := by
  simp [parametersReadable, parameterFault]

/-- Outside 64-bit mode a read of the stack raises `#SS`, or `#GP` of a segment that is execute-only
(20_memory.md R65). -/
theorem parameterFault_exc {s : State} (hmode : s.mode ≠ .long64) {oldSs : Seg} {sa : Size} {oldSp : BitVec 64}
    {n i : Nat} {x : Exc} (h : parameterFault s oldSs sa oldSp n i = some x) :
    x = .ss ∨ (x = .gp ∧ oldSs.isExecuteOnly = true) := by
  rw [parameterFault, segFault_of_not_long64 hmode] at h
  split_ifs at h with hplace hforbidden
  · have hdata : isNullDataSeg .ss oldSs = false := by simp [isNullDataSeg]
    rw [accessForbidden_iff] at hforbidden
    exact .inr ⟨(Option.some.inj h).symm, by simpa [hdata] using hforbidden⟩
  · exact .inl (Option.some.inj h).symm

section
variable {oldSs : Seg} {sa : Size} {oldSp : BitVec 64} {n c : Nat} {r : Run}

theorem copyParameters_fault {x : Exc} (h : parameterFault r.st oldSs sa oldSp n c = some x) :
    copyParameters oldSs sa oldSp n (c + 1) r = raise r x 0 .r214 := by
  rw [parameterFault] at h
  rw [copyParameters, segRead, h]
  rfl

theorem copyParameters_step (h : parameterFault r.st oldSs sa oldSp n c = none) (hitem : ItemOk r.st n 0) :
    copyParameters oldSs sa oldSp n (c + 1) r =
      copyParameters oldSs sa oldSp n c (pushed n (parameterValue r.st oldSs sa oldSp n c) r) := by
  have hread : segRead r .ss oldSs (viewOf sa (oldSp + BitVec.ofNat 64 (c * n))) n .r214 =
      .ok (parameterValue r.st oldSs sa oldSp n c) := segRead_ok.2 ⟨h, rfl⟩
  rw [copyParameters, hread]
  change (push _ _ _ >>= _) = _
  rw [push_of_itemOk hitem]
  rfl

/-- Whether a parameter can be read does not depend on what is pushed. -/
theorem ItemsPushed.parameterFault {k : Nat} {r' : Run} (h : ItemsPushed n k r r') (i : Nat) :
    parameterFault r'.st oldSs sa oldSp n i = Machine.parameterFault r.st oldSs sa oldSp n i :=
  segFault_congr h.mode h.grows.rest.cpu _ _ _ _ _

/-- With room for them all, parameters are copied up to the first that cannot be read. -/
theorem copyParameters_result (hroom : ∀ j, j < c → ItemOk r.st n j) :
    ((∀ i, i < c → parameterFault r.st oldSs sa oldSp n i = none) ∧
      ∃ r', copyParameters oldSs sa oldSp n c r = .ok r' ∧
        r'.st = afterParameters oldSs sa oldSp n c r.st ∧ ItemsPushed n c r r') ∨
    (∃ i x k r', i < c ∧ parameterFault r.st oldSs sa oldSp n i = some x ∧ k ≤ c ∧
      copyParameters oldSs sa oldSp n c r = raise r' x 0 .r214 ∧ ItemsPushed n k r r') := by
  induction c generalizing r with
  | zero => exact .inl ⟨by simp, r, rfl, rfl, ItemsPushed.refl n r⟩
  | succ c ih =>
    cases hfault : parameterFault r.st oldSs sa oldSp n c with
    | some x =>
      exact .inr ⟨c, x, 0, r, c.lt_succ_self, hfault, Nat.zero_le _, copyParameters_fault hfault,
        ItemsPushed.refl n r⟩
    | none =>
      have hone := ItemsPushed.pushed n (parameterValue r.st oldSs sa oldSp n c) r
      rw [copyParameters_step hfault (hroom 0 c.succ_pos)]
      have hroom' : ∀ j, j < c → ItemOk (pushed n (parameterValue r.st oldSs sa oldSp n c) r).st n j :=
        fun j hj => (hone.itemOk j).2 (hroom (1 + j) (by omega))
      rcases ih hroom' with ⟨hread, r', hcopy, hst, hpushed⟩ | ⟨i, x, k, r', hi, hx, hk, hcopy, hpushed⟩
      · refine .inl ⟨fun i hi => ?_, r', hcopy, hst, Nat.add_comm 1 c ▸ hone.trans hpushed⟩
        rcases Nat.lt_succ_iff_lt_or_eq.1 hi with hi | rfl
        · exact hone.parameterFault i ▸ hread i hi
        · exact hfault
      · exact .inr ⟨i, x, 1 + k, r', by omega, hone.parameterFault i ▸ hx, by omega, hcopy, hone.trans hpushed⟩

end

/-! ## The pushes of a 16- or 32-bit gate (R206, R208) -/

/-- The run with the new stack segment and stack pointer loaded. -/
def legacySwitched (sd : BitVec 64) (inner : InnerStack) (r : Run) : Run :=
  (loadSs inner.ss sd r).upd ((loadSs inner.ss sd r).st.setRsp
    (withView .s32 (loadSs inner.ss sd r).st.gpr.rsp inner.sp))

/-- The run the pushes start from: the new stack and `CS` loaded, the branch made. -/
def legacyBranched (g : Gate) (cd sd : BitVec 64) (inner : InnerStack) (r : Run) : Run :=
  gateBranched g cd (legacySwitched sd inner r)

/-- What R206 and R208 do after their tests. -/
def legacyEnter (g : Gate) (cd sd ret : BitVec 64) (inner : InnerStack) (r : Run) : Except Halt Run := do
  let r5 ← pushSel g.size r.st.ss.sel (legacyBranched g cd sd inner r)
  let r6 ← push g.size.bytes r.st.gpr.rsp r5
  let r7 ← copyParameters r.st.ss (stackAddrSize r.st) r.st.gpr.rsp g.size.bytes g.count r6
  let r8 ← pushSel g.size r.st.cs.sel r7
  push g.size.bytes ret r8

theorem moreLegacy_eq (g : Gate) (cd ret : BitVec 64) (inner : InnerStack) (r : Run) :
    moreLegacy g cd ret inner r = readNewStackDesc r (descDpl cd) inner.ss >>= fun sd =>
      raiseIf (!roomInSeg (segFromDesc inner.ss sd) (newStackAddrSize (segFromDesc inner.ss sd)) inner.sp
        (g.count * g.size.bytes + 4 * g.size.bytes) g.size.bytes) r .ss (errorCode inner.ss) (moreRule g.size)
        >>= fun _ =>
      raiseIf (!inLimit (segFromDesc g.sel cd) g.off.toNat) r .gp 0 (moreRule g.size) >>= fun _ =>
      legacyEnter g cd sd ret inner r := rfl

theorem legacySwitched_st (sd : BitVec 64) (inner : InnerStack) (r : Run) :
    (legacySwitched sd inner r).st = (afterLoadSs inner.ss sd r.st).setRsp
      (withView .s32 (afterLoadSs inner.ss sd r.st).gpr.rsp inner.sp) := by
  rw [legacySwitched, Run.upd_st, loadSs, setAccessed_afterAccessed]
  rfl

theorem RunGrows.legacySwitched (sd : BitVec 64) (inner : InnerStack) (r : Run) :
    RunGrows r (legacySwitched sd inner r) :=
  (RunGrows.loadSs inner.ss sd r).trans (RunGrows.upd _ (by constructor <;> rfl) rfl)

theorem legacyBranched_st (g : Gate) (cd sd : BitVec 64) (inner : InnerStack) (s : State) :
    (legacyBranched g cd sd inner (startRun s)).st =
      branchTo (afterLoadCs g.sel cd ((afterLoadSs inner.ss sd s).setRsp
        (withView .s32 (afterLoadSs inner.ss sd s).gpr.rsp inner.sp))) g.size g.off := by
  rw [legacyBranched, gateBranched_st, legacySwitched_st, startRun_st]

theorem RunGrows.legacyBranched (g : Gate) (cd sd : BitVec 64) (inner : InnerStack) (r : Run) :
    RunGrows r (legacyBranched g cd sd inner r) :=
  (RunGrows.legacySwitched sd inner r).trans (RunGrows.gateBranched g cd _)

/-- The bytes written before the pushes: the accessed bits of the new stack and code segments. -/
theorem legacyBranched_wrote (g : Gate) (cd sd : BitVec 64) (inner : InnerStack) (s : State) :
    (legacyBranched g cd sd inner (startRun s)).wrote =
      accessedWrites inner.ss sd s ++ accessedWrites g.sel cd s := by
  have hss : (legacySwitched sd inner (startRun s)).wrote = accessedWrites inner.ss sd s :=
    setAccessed_wrote inner.ss sd _
  rw [legacyBranched, gateBranched_wrote, hss,
    accessedWrites_congr (RunGrows.legacySwitched sd inner (startRun s)).rest, startRun_st]

/-- The stack the pushes are made on (R207). -/
theorem legacyBranched_stack (g : Gate) (cd sd : BitVec 64) (inner : InnerStack) (r : Run) :
    (legacyBranched g cd sd inner r).st.ss = segFromDesc inner.ss sd ∧
    (legacyBranched g cd sd inner r).st.gpr.rsp = withView .s32 r.st.gpr.rsp inner.sp := by
  obtain ⟨hss, hgpr, -⟩ := gateBranched_frame g cd (legacySwitched sd inner r)
  rw [legacyBranched, hss, hgpr, legacySwitched, Run.upd_st, loadSs_st]
  exact ⟨rfl, rfl⟩

theorem newStackAddrSize_ne (g : Seg) : newStackAddrSize g ≠ .s64 := by
  unfold newStackAddrSize
  split <;> decide

/-- Outside 64-bit mode the `B` bit of the stack segment gives the stack-address size (10_state.md R41). -/
theorem stackAddrSize_legacy {s : State} (h : s.mode ≠ .long64) : stackAddrSize s = newStackAddrSize s.ss := by
  rw [stackAddrSize, beq_false_of_ne h]
  rfl

section
variable {g : Gate} {cd sd ret : BitVec 64} {inner : InnerStack} {s : State}

theorem legacyBranched_mode (hl : s.lma = false) :
    (legacyBranched g cd sd inner (startRun s)).st.mode = s.mode :=
  (RunGrows.legacyBranched g cd sd inner (startRun s)).rest.mode_legacy hl

theorem legacyBranched_addrSize (hl : s.lma = false) :
    stackAddrSize (legacyBranched g cd sd inner (startRun s)).st = newStackAddrSize (segFromDesc inner.ss sd) := by
  obtain ⟨hss, -⟩ := legacyBranched_stack g cd sd inner (startRun s)
  rw [stackAddrSize_legacy (legacyBranched_mode hl ▸ mode_ne_long64_of_lma hl), hss]

/-- Where the items go on the new stack (R207). -/
theorem legacyBranched_item (hl : s.lma = false) (m : Nat) :
    itemOffset (stackAddrSize (legacyBranched g cd sd inner (startRun s)).st)
      (legacyBranched g cd sd inner (startRun s)).st.gpr.rsp m =
      itemOffset (newStackAddrSize (segFromDesc inner.ss sd)) inner.sp m := by
  obtain ⟨-, hrsp⟩ := legacyBranched_stack g cd sd inner (startRun s)
  rw [legacyBranched_addrSize hl, hrsp, itemOffset_withView_s32 (newStackAddrSize_ne _)]

/-- The room test of R206 and R208 is made on the new stack before it is loaded (R207). -/
theorem legacyBranched_room (hl : s.lma = false) (hw : (segFromDesc inner.ss sd).isWritableData = true)
    {n c : Nat} (hn : 0 < n) :
    roomInSeg (segFromDesc inner.ss sd) (newStackAddrSize (segFromDesc inner.ss sd)) inner.sp (c * n) n = true ↔
      ∀ j, j < c → ItemOk (legacyBranched g cd sd inner (startRun s)).st n j := by
  have hmode := legacyBranched_mode (g := g) (cd := cd) (sd := sd) (inner := inner) hl
  obtain ⟨hss, -⟩ := legacyBranched_stack g cd sd inner (startRun s)
  rw [← stackRoom_iff hn (.inr (hss ▸ hw)), stackRoom, hmode, beq_false_of_ne (mode_ne_long64_of_lma hl),
    if_neg Bool.false_ne_true, roomInSeg, roomInSeg, hss]
  simp only [legacyBranched_item hl]

/-- The bytes of the new stack (R206, R208). -/
theorem legacyBranched_items (hl : s.lma = false) (hsize : g.size ≠ .s64) :
    stackItems (legacyBranched g cd sd inner (startRun s)).st g.size.bytes (g.count + 4) =
      newStackWrites g sd inner s := by
  have hmode := legacyBranched_mode (g := g) (cd := cd) (sd := sd) (inner := inner) hl
  have hlma := (RunGrows.legacyBranched g cd sd inner (startRun s)).rest.lma
  obtain ⟨hss, -⟩ := legacyBranched_stack g cd sd inner (startRun s)
  have hlinear (off : BitVec 64) : segLinear s .ss (segFromDesc inner.ss sd) off =
      viewOf .s32 ((segFromDesc inner.ss sd).base + off) := by
    rw [segLinear, beq_false_of_ne (mode_ne_long64_of_lma hl)]
    rfl
  have hitem (j n : Nat) : storedAddrs (legacyBranched g cd sd inner (startRun s)).st
      (segLinear (legacyBranched g cd sd inner (startRun s)).st .ss
        (legacyBranched g cd sd inner (startRun s)).st.ss
        (itemOffset (stackAddrSize (legacyBranched g cd sd inner (startRun s)).st)
          (legacyBranched g cd sd inner (startRun s)).st.gpr.rsp ((j + 1) * n))) n =
      storedAddrs s (viewOf .s32 ((segFromDesc inner.ss sd).base +
        itemOffset (newStackAddrSize (segFromDesc inner.ss sd)) inner.sp ((j + 1) * n))) n := by
    rw [legacyBranched_item hl, hss, segLinear_congr hmode, hlinear, storedAddrs_congr hlma]
    rfl
  simp only [stackItems, hitem]
  cases hk : g.size with
  | s16 => simp only [newStackWrites, hk]; rfl
  | s32 => simp only [newStackWrites, hk]; rfl
  | s64 => exact absurd hk hsize

/-- With room on the new stack, the pushes answer with the state R206 and R208 describe, or are given up at a
parameter that cannot be read (R214). -/
theorem legacyEnter_result (hl : s.lma = false)
    (hroom : ∀ j, j < g.count + 4 → ItemOk (legacyBranched g cd sd inner (startRun s)).st g.size.bytes j) :
    (parametersReadable s g.size.bytes g.count = true ∧
      ∃ w, legacyEnter g cd sd ret inner (startRun s) = .ok w ∧ w.st = afterMoreLegacy g cd ret sd inner s ∧
        ItemsPushed g.size.bytes (g.count + 4) (legacyBranched g cd sd inner (startRun s)) w) ∨
    (parametersReadable s g.size.bytes g.count = false ∧
      ∃ x k w, (x = .ss ∨ (x = .gp ∧ s.ss.isExecuteOnly = true)) ∧ k ≤ g.count + 4 ∧
        legacyEnter g cd sd ret inner (startRun s) = raise w x 0 .r214 ∧
        ItemsPushed g.size.bytes k (legacyBranched g cd sd inner (startRun s)) w) := by
  have hst := legacyBranched_st g cd sd inner s
  have hmode := legacyBranched_mode (g := g) (cd := cd) (sd := sd) (inner := inner) hl
  have hcpu := (RunGrows.legacyBranched g cd sd inner (startRun s)).rest.cpu
  unfold legacyEnter
  rw [startRun_st]
  generalize legacyBranched g cd sd inner (startRun s) = b at hroom hst hmode hcpu ⊢
  have h5 := ItemsPushed.selPushed g.size s.ss.sel b
  have h6 := h5.trans (ItemsPushed.pushed g.size.bytes s.gpr.rsp _)
  rw [pushSel_of_itemOk (hroom 0 (by omega)), ok_bind, push_of_itemOk ((h5.itemOk 0).2 (hroom 1 (by omega))),
    ok_bind]
  have hparam (i : Nat) : parameterFault (pushed g.size.bytes s.gpr.rsp (selPushed g.size s.ss.sel b)).st s.ss
      (stackAddrSize s) s.gpr.rsp g.size.bytes i =
      parameterFault s s.ss (stackAddrSize s) s.gpr.rsp g.size.bytes i :=
    (h6.parameterFault i).trans (segFault_congr hmode hcpu _ _ _ _ _)
  rcases copyParameters_result (c := g.count) fun j hj => (h6.itemOk j).2 (hroom (1 + 1 + j) (by omega)) with
    ⟨hread, r7, hcopy, hst7, h7⟩ | ⟨i, x, k, w, hi, hx, hk, hcopy, hw⟩
  · refine .inl ⟨parametersReadable_iff.2 fun i hi => hparam i ▸ hread i hi, ?_⟩
    have h7 := h6.trans h7
    have h8 := h7.trans (ItemsPushed.selPushed g.size s.cs.sel r7)
    rw [hcopy, ok_bind, pushSel_of_itemOk ((h7.itemOk 0).2 (hroom _ (by omega))), ok_bind,
      push_of_itemOk ((h8.itemOk 0).2 (hroom _ (by omega)))]
    refine ⟨_, rfl, ?_, ?_⟩
    · rw [twoPushed_st, hst7, twoPushed_st, hst]
      rfl
    · have h9 := h8.trans (ItemsPushed.pushed g.size.bytes ret _)
      rwa [show 1 + 1 + g.count + 1 + 1 = g.count + 4 by omega] at h9
  · rw [hparam] at hx
    refine .inr ⟨?_, x, 1 + 1 + k, w, parameterFault_exc (mode_ne_long64_of_lma hl) hx, by omega, ?_, h6.trans hw⟩
    · rw [← Bool.not_eq_true, parametersReadable_iff]
      intro hall
      simp [hall i hi] at hx
    · rw [hcopy]
      rfl

end

/-! ## The pushes of a 64-bit gate (R209) -/

/-- The state with the NULL stack segment and the new stack pointer loaded. -/
def switched64 (cd : BitVec 64) (inner : InnerStack) (s : State) : State :=
  (loadNullSs inner.ss (descDpl cd) s).setRsp inner.sp

/-- The run the pushes start from: the new stack and `CS` loaded, the branch made. -/
def branched64 (g : Gate) (cd : BitVec 64) (inner : InnerStack) (r : Run) : Run :=
  gateBranched g cd (r.upd (switched64 cd inner r.st))

/-- What R209 does after its tests. -/
def enter64 (g : Gate) (cd ret : BitVec 64) (inner : InnerStack) (r : Run) : Except Halt Run := do
  let r4 ← pushSel .s64 r.st.ss.sel (branched64 g cd inner r)
  let r5 ← push Size.s64.bytes (callerSp r.st) r4
  let r6 ← pushSel .s64 r.st.cs.sel r5
  push Size.s64.bytes ret r6

theorem more64_eq {g : Gate} (hsize : g.size = .s64) (cd ret : BitVec 64) (inner : InnerStack) (r : Run) :
    more64 g cd ret inner r =
      raiseIf (!roomFlat r.st.cpu.laWidth inner.sp 32 8) r .ss (errorCode inner.ss) .r209 >>= fun _ =>
      raiseIf (!canonical r.st.cpu.laWidth g.off) r .gp 0 .r209 >>= fun _ =>
      enter64 g cd ret inner r := by
  unfold enter64 branched64 gateBranched
  rw [hsize]
  rfl

section
variable {g : Gate} {cd ret : BitVec 64} {inner : InnerStack} {s : State}

theorem RunGrows.branched64 (g : Gate) (cd : BitVec 64) (inner : InnerStack) (r : Run) :
    RunGrows r (branched64 g cd inner r) :=
  (RunGrows.upd r (s := switched64 cd inner r.st) (by constructor <;> rfl) rfl).trans
    (RunGrows.gateBranched g cd _)

theorem branched64_wrote : (branched64 g cd inner (startRun s)).wrote = accessedWrites g.sel cd s := by
  rw [branched64, gateBranched_wrote, Run.upd_st, startRun_st, accessedWrites_congr (s := s) (by constructor <;> rfl)]
  rfl

theorem branched64_rsp : (branched64 g cd inner (startRun s)).st.gpr.rsp = inner.sp := by
  obtain ⟨-, hgpr, -⟩ := gateBranched_frame g cd ((startRun s).upd (switched64 cd inner s))
  exact congrArg Gprs.rsp hgpr

/-- The pushes are made in 64-bit mode (R207). -/
theorem GateCallTo.mode_branched64 {i : Instr} {f : FarPtr} {d h : BitVec 64} (hcall : GateCallTo i s f d h cd)
    (hl : s.lma = true) : (branched64 (gateOf s.lma d h) cd inner (startRun s)).st.mode = .long64 := by
  obtain ⟨-, -, hcs⟩ := gateBranched_frame (gateOf s.lma d h) cd ((startRun s).upd (switched64 cd inner s))
  exact hcall.mode_long64 hl (RunGrows.branched64 _ cd inner (startRun s)).rest hcs

/-- The room test of R209 is made on the new stack before it is loaded (R207). -/
theorem branched64_room (hmode : (branched64 g cd inner (startRun s)).st.mode = .long64) :
    roomFlat s.cpu.laWidth inner.sp 32 8 = true ↔
      ∀ j, j < 4 → ItemOk (branched64 g cd inner (startRun s)).st Size.s64.bytes j := by
  have hcpu := (RunGrows.branched64 g cd inner (startRun s)).rest.cpu
  rw [← stackRoom_iff (n := Size.s64.bytes) (by decide) (.inl hmode), stackRoom, hmode, branched64_rsp, hcpu]
  rfl

/-- With room on the new stack, the pushes answer with the state R209 describes. -/
theorem enter64_result (hsize : g.size = .s64)
    (hroom : ∀ j, j < 4 → ItemOk (branched64 g cd inner (startRun s)).st Size.s64.bytes j) :
    ∃ w, enter64 g cd ret inner (startRun s) = .ok w ∧ w.st = afterMore64 g cd ret inner s ∧
      ItemsPushed Size.s64.bytes 4 (branched64 g cd inner (startRun s)) w := by
  have hst : (branched64 g cd inner (startRun s)).st =
      branchTo (afterLoadCs g.sel cd (switched64 cd inner s)) .s64 g.off := by
    rw [branched64, gateBranched_st, hsize]
    rfl
  unfold enter64
  rw [startRun_st]
  generalize branched64 g cd inner (startRun s) = b at hroom hst ⊢
  have h4 := ItemsPushed.selPushed .s64 s.ss.sel b
  have h5 := h4.trans (ItemsPushed.pushed Size.s64.bytes (callerSp s) _)
  have h6 := h5.trans (ItemsPushed.selPushed .s64 s.cs.sel _)
  rw [pushSel_of_itemOk (hroom 0 (by decide)), ok_bind, push_of_itemOk ((h4.itemOk 0).2 (hroom 1 (by decide))), ok_bind,
    pushSel_of_itemOk ((h5.itemOk 0).2 (hroom 2 (by decide))), ok_bind,
    push_of_itemOk ((h6.itemOk 0).2 (hroom 3 (by decide)))]
  refine ⟨_, rfl, ?_, h6.trans (ItemsPushed.pushed Size.s64.bytes ret _)⟩
  rw [twoPushed_st, twoPushed_st, hst]
  rfl

end

/-! ## The supervisor shadow stack (R212) -/

theorem and_seven_toNat (x : BitVec 64) : (x &&& 0x7#64).toNat = x.toNat % 8 := by
  rw [BitVec.toNat_and]
  exact Nat.and_two_pow_sub_one_eq_mod _ 3

theorem and_not_31_getLsbD (x : BitVec 64) {i : Nat} (hi : i < 64) :
    (x &&& ~~~0x1F#64).getLsbD i = (decide (5 ≤ i) && x.getLsbD i) := by
  have hmask : ∀ j, j < 64 → (~~~0x1F#64).getLsbD j = decide (5 ≤ j) := by decide
  rw [BitVec.getLsbD_and, hmask i hi, Bool.and_comm]

/-- The first test on the token's address: bits 2:0 are zero (R212). -/
theorem tokenAligned_eq (x : BitVec 64) : (x &&& 0x7#64 != 0#64) = !(x.extractLsb' 0 3 == 0#3) := by
  rw [bne, Bool.not_inj_iff, Bool.eq_iff_iff, beq_iff_eq, beq_iff_eq, ← BitVec.toNat_inj, ← BitVec.toNat_inj,
    and_seven_toNat, BitVec.extractLsb'_toNat]
  rfl

/-- The second: bits 63:5 are the same 24 bytes further down (R212). -/
theorem tokenBlock_eq (x y : BitVec 64) :
    (x &&& ~~~0x1F#64 != y &&& ~~~0x1F#64) = !(x.extractLsb' 5 59 == y.extractLsb' 5 59) := by
  rw [bne, Bool.not_inj_iff, Bool.eq_iff_iff, beq_iff_eq, beq_iff_eq]
  constructor
  · intro h
    refine BitVec.eq_of_getLsbD_eq fun i hi => ?_
    have hbit : (x &&& ~~~0x1F#64).getLsbD (5 + i) = (y &&& ~~~0x1F#64).getLsbD (5 + i) := by rw [h]
    rw [and_not_31_getLsbD _ (by omega), and_not_31_getLsbD _ (by omega)] at hbit
    simpa [hi] using hbit
  · intro h
    refine BitVec.eq_of_getLsbD_eq fun i hi => ?_
    rw [and_not_31_getLsbD _ hi, and_not_31_getLsbD _ hi]
    by_cases h5 : 5 ≤ i
    · have hbit := congrArg (BitVec.getLsbD · (i - 5)) h
      simpa [h5, show i - 5 < 59 by omega, show 5 + (i - 5) = i by omega] using hbit
    · simp [h5]

/-- The run after the token's busy bit is set. -/
def tokenTaken (r : Run) : Run :=
  (r.upd (r.st.setSsp (plSsp r.st r.st.cpl))).store (plSsp r.st r.st.cpl) 8 (plSsp r.st r.st.cpl ||| 1#64)

/-- The far frame below the token where the caller was not at level 3. -/
def supervisorFrame (old : State) (ret : BitVec 64) (r : Run) : Run :=
  if old.ss.dpl == 3#2 then r else shadowFrame old.cs.sel (callerLip old ret) old.ssp r

/-- Two tests that raise the same exception are one. -/
theorem raiseIf_raiseIf {a b : Bool} {r : Run} {x : Exc} {code : BitVec 16} {rule : RuleId} {α : Type}
    (rest : Unit → Except Halt α) :
    (raiseIf (!a) r x code rule >>= fun _ => raiseIf (!b) r x code rule >>= rest) =
      (raiseIf (!(a && b)) r x code rule >>= rest) := by
  cases a <;> rfl

/-- The exchange, and the test that the token was its own address (20_memory.md R80). -/
theorem shadowCmpxchg_bind {α : Type} (lin new : BitVec 64) (r : Run) (x : Exc) (code : BitVec 16) (rule : RuleId)
    (rest : Run → Except Halt α) :
    (raiseIf ((shadowCmpxchg lin new lin r).1 != lin) (shadowCmpxchg lin new lin r).2 x code rule >>= fun _ =>
      rest (shadowCmpxchg lin new lin r).2) =
    raiseIf (!(memRead r.st lin 8 == lin)) r x code rule >>= fun _ => rest (r.store lin 8 new) := by
  rw [shadowCmpxchg_eq, bne]
  by_cases h : memRead r.st lin 8 = lin
  · simp only [h, if_true, beq_self_eq_true, Bool.not_true]
    rfl
  · rw [if_neg h, beq_false_of_ne h]
    rfl

/-- The four tests of R212 raise one exception before anything is written; then the token is taken. -/
theorem supervisorShadow_eq (old : State) (ret : BitVec 64) (r : Run) : supervisorShadow old ret r =
    if shadowStackEnabled r.st r.st.cpl then
      raiseIf (!tokenOk r.st) (r.upd (r.st.setSsp (plSsp r.st r.st.cpl))) .gp 0 .r212 >>= fun _ =>
        .ok (supervisorFrame old ret (tokenTaken r))
    else .ok r := by
  have hhigh (b : Bool) (y : BitVec 32) : (!b && y != 0#32) = !(b || y == 0#32) := by
    rw [Bool.not_or]; rfl
  have hframe (w : Run) : (if old.ss.dpl != 3#2 then
      (.ok (shadowFrame old.cs.sel (callerLip old ret) old.ssp w) : Except Halt Run) else .ok w) =
      .ok (supervisorFrame old ret w) := by
    rw [supervisorFrame, bne]
    cases old.ss.dpl == 3#2 <;> rfl
  unfold supervisorShadow
  split
  case isFalse => rfl
  case isTrue =>
    simp only [tokenAligned_eq, tokenBlock_eq, hhigh, hframe]
    rw [shadowCmpxchg_bind (rest := fun w => .ok (supervisorFrame old ret w))]
    simp only [raiseIf_raiseIf, tokenOk, Bool.and_assoc]
    rfl

theorem supervisorFrame_st (old : State) (ret : BitVec 64) {s : State} {r : Run} (h : r.st = s)
    (hon : shadowStackEnabled s s.cpl = true) :
    (supervisorFrame old ret (tokenTaken r)).st = afterSupervisorShadow old ret s := by
  subst h
  rw [afterSupervisorShadow, if_pos hon, supervisorFrame]
  split <;> rfl

/-- The tests of the supervisor shadow stack, made of the state at the new level, and what follows them (R212,
R213). -/
theorem moreTail_result {o : Host.Outcome State Fault Refusal} {s entered : State} {p : BitVec 2} {ret : BitVec 64}
    {w : Run} (hentered : enterLevel p (saveUserSsp w.st) = entered)
    (ho : o = settle s (moreTail s p ret w)) :
    if shadowStackEnabled entered entered.cpl = true ∧ tokenOk entered = false then
      faultsAfter o s .gp 0 .r212 w.wrote
    else o = .next (farEndbranch (afterSupervisorShadow s ret entered)) := by
  rw [moreTail, hentered, supervisorShadow_eq, Run.upd_st] at ho
  by_cases hon : shadowStackEnabled entered entered.cpl = true
  · have hst := supervisorFrame_st s ret (Run.upd_st w entered) hon
    rw [if_pos hon, bind_assoc] at ho
    simp only [hon, true_and]
    refine faultsAfter_or (r := (w.upd entered).upd (entered.setSsp (plSsp entered entered.cpl))) ho (by simp)
      fun _ ho => ?_
    rw [ho, ok_bind, ← hst]
    rfl
  · rw [if_neg (fun h => hon h.1), ho, if_neg hon, ok_bind, afterSupervisorShadow, if_neg hon]
    rfl

end Sys2Proof.Machine
end

section
/-! Calls through a gate to more privilege (43_call_gate.md R203 to R214): what they test after the inner stack is
checked, in order, and the state they leave. -/

namespace Sys2Proof.Machine

/-! ## Bytes written so far -/

theorem faultsAfter.mono {o : Host.Outcome State Fault Refusal} {s : State} {x : Exc} {code : BitVec 16}
    {rule : RuleId} {wrote wrote' : List Nat} (h : faultsAfter o s x code rule wrote) (hsub : wrote ⊆ wrote') :
    faultsAfter o s x code rule wrote' := by
  obtain ⟨t, ho, hregs, hmem⟩ := h
  exact ⟨t, ho, hregs, fun a ha => hmem a (mt (@hsub a) ha)⟩

theorem stackItems_subset (s : State) (n : Nat) {k c : Nat} (h : k ≤ c) : stackItems s n k ⊆ stackItems s n c := by
  intro a ha
  obtain ⟨j, hj, ha⟩ := List.mem_flatMap.1 ha
  exact List.mem_flatMap.2 ⟨j, List.range_subset.2 h hj, ha⟩

section
variable {g : Gate} {cd sd : BitVec 64} {inner : InnerStack} {s : State} {w : Run}

/-- Pushes on the new stack of a 16- or 32-bit gate write its items, after the two accessed bits. -/
theorem ItemsPushed.legacy_wrote {k : Nat} (hl : s.lma = false) (hsize : g.size ≠ .s64)
    (h : ItemsPushed g.size.bytes k (legacyBranched g cd sd inner (startRun s)) w) (hk : k ≤ g.count + 4) :
    w.wrote ⊆ newStackWrites g sd inner s ++ accessedWrites g.sel cd s ++ accessedWrites inner.ss sd s := by
  have hitems := stackItems_subset (legacyBranched g cd sd inner (startRun s)).st g.size.bytes hk
  rw [legacyBranched_items hl hsize] at hitems
  rw [h.wrote, legacyBranched_wrote]
  intro a ha
  have := @hitems a
  simp only [List.mem_append] at ha ⊢
  tauto

/-- Pushes on the new stack of a 64-bit gate write the 32 bytes below its pointer, after the accessed bit. -/
theorem ItemsPushed.wrote64 (hmode : (branched64 g cd inner (startRun s)).st.mode = .long64)
    (h : ItemsPushed Size.s64.bytes 4 (branched64 g cd inner (startRun s)) w) :
    w.wrote ⊆ storedAddrs s (inner.sp - 32#64) 32 ++ accessedWrites g.sel cd s := by
  have hitems := stackItems_long64_subset hmode Size.s64.bytes 4
  rw [branched64_rsp, storedAddrs_congr (RunGrows.branched64 g cd inner (startRun s)).rest.lma] at hitems
  rw [h.wrote, branched64_wrote]
  exact List.append_subset.2 ⟨List.subset_append_right _ _, List.Subset.trans hitems (List.subset_append_left _ _)⟩

end

/-! ## The results (R206, R208, R209) -/

theorem moreRule_legacy {k : Size} (h : k ≠ .s64) : moreRule k = if k = .s16 then .r208 else .r206 := by
  cases k with
  | s16 | s32 => rfl
  | s64 => exact absurd rfl h

/-- Settles O43: room, target, parameters and token, each after those before it. -/
theorem morePrivilegeLegacyResult : Obligations.MorePrivilegeLegacyResult := by
  intro i s f d h cd sd hcall hmore hl hlimit inner newSs g rule entered wrote hnull hfetch hrpl hdpl hdata hpresent
  have hsize : g.size ≠ .s64 := mt hcall.size_eq_s64.1 (Bool.eq_false_iff.1 hl)
  have hdesc : readNewStackDesc (startRun s) (descDpl cd) inner.ss = .ok sd :=
    readNewStackDesc_ok.2 ⟨hnull, hfetch, hrpl, hdpl, hdata, hpresent⟩
  have ho : exec i s = settle s (moreLegacy g cd (nrip i s) inner (startRun s) >>=
      moreTail s (descDpl cd) (nrip i s)) := by
    rw [hcall.exec_inner hmore hlimit, if_neg (Bool.eq_false_iff.1 hl)]
  rw [moreLegacy_eq, hdesc, ok_bind, moreRule_legacy hsize, ← Nat.add_mul, bind_assoc] at ho
  refine faultsClean_or ho (by simp [newSs]) fun hroom ho => ?_
  rw [bind_assoc] at ho
  refine faultsClean_or ho (by simp) fun _ ho => ?_
  have hitems := (legacyBranched_room (g := g) (cd := cd) hl hdata (Size.bytes_pos g.size)).1
    (Bool.not_eq_false _ ▸ hroom)
  rcases legacyEnter_result (ret := nrip i s) hl hitems with
    ⟨hread, w, henter, hst, hw⟩ | ⟨hread, x, k, w, hx, hk, henter, hw⟩
  · rw [if_neg (Bool.not_eq_false _ ▸ hread)]
    rw [henter, ok_bind] at ho
    have hresult := moreTail_result (hst ▸ rfl : enterLevel (descDpl cd) (saveUserSsp w.st) = entered) ho
    split_ifs at hresult ⊢
    · exact hresult.mono (hw.legacy_wrote hl hsize le_rfl)
    · exact hresult
  · rw [if_pos hread]
    refine ⟨x, hx, ?_⟩
    rw [ho, henter]
    exact (faultsAfter_settle s x 0 .r214 w.wrote w.st.draws).mono (hw.legacy_wrote hl hsize hk)

/-! ## Completed calls -/

/-- Copied parameters are items pushed. -/
theorem copyParameters_pushed {oldSs : Seg} {sa : Size} {oldSp : BitVec 64} {n c : Nat} {r r' : Run}
    (h : copyParameters oldSs sa oldSp n c r = .ok r') : ItemsPushed n c r r' := by
  induction c generalizing r with
  | zero => cases h; exact ItemsPushed.refl n _
  | succ c ih =>
    simp only [copyParameters, except_bind_ok, push_ok] at h
    obtain ⟨v, -, -, ⟨-, rfl⟩, h⟩ := h
    exact Nat.add_comm 1 c ▸ (ItemsPushed.pushed n v _).trans (ih h)

theorem legacyEnter_pushed {g : Gate} {cd sd ret : BitVec 64} {inner : InnerStack} {r w : Run}
    (h : legacyEnter g cd sd ret inner r = .ok w) :
    ItemsPushed g.size.bytes (g.count + 4) (legacyBranched g cd sd inner r) w := by
  simp only [legacyEnter, except_bind_ok, pushSel_ok, push_ok] at h
  obtain ⟨-, ⟨-, rfl⟩, -, ⟨-, rfl⟩, r7, hcopy, -, ⟨-, rfl⟩, -, rfl⟩ := h
  have h7 := ((ItemsPushed.selPushed g.size r.st.ss.sel _).trans
    (ItemsPushed.pushed g.size.bytes r.st.gpr.rsp _)).trans (copyParameters_pushed hcopy)
  have h9 := (h7.trans (ItemsPushed.selPushed g.size r.st.cs.sel r7)).trans
    (ItemsPushed.pushed g.size.bytes ret _)
  rwa [show 1 + 1 + g.count + 1 + 1 = g.count + 4 by omega] at h9

theorem enter64_pushed {g : Gate} {cd ret : BitVec 64} {inner : InnerStack} {r w : Run}
    (h : enter64 g cd ret inner r = .ok w) : ItemsPushed Size.s64.bytes 4 (branched64 g cd inner r) w := by
  simp only [enter64, except_bind_ok, pushSel_ok, push_ok] at h
  obtain ⟨-, ⟨-, rfl⟩, -, ⟨-, rfl⟩, -, ⟨-, rfl⟩, -, rfl⟩ := h
  exact (((ItemsPushed.selPushed .s64 r.st.ss.sel _).trans (ItemsPushed.pushed Size.s64.bytes (callerSp r.st) _)).trans
    (ItemsPushed.selPushed .s64 r.st.cs.sel _)).trans (ItemsPushed.pushed Size.s64.bytes ret _)

theorem moreLegacy_pushed {g : Gate} {cd ret : BitVec 64} {inner : InnerStack} {r w : Run}
    (h : moreLegacy g cd ret inner r = .ok w) : ∃ sd, readNewStackDesc r (descDpl cd) inner.ss = .ok sd ∧
      ItemsPushed g.size.bytes (g.count + 4) (legacyBranched g cd sd inner r) w := by
  rw [moreLegacy_eq, except_bind_ok] at h
  simp only [raiseIf_bind_ok] at h
  obtain ⟨sd, hdesc, -, -, h⟩ := h
  exact ⟨sd, hdesc, legacyEnter_pushed h⟩

theorem more64_pushed {g : Gate} (hsize : g.size = .s64) {cd ret : BitVec 64} {inner : InnerStack} {r w : Run}
    (h : more64 g cd ret inner r = .ok w) : ItemsPushed Size.s64.bytes 4 (branched64 g cd inner r) w := by
  rw [more64_eq hsize] at h
  simp only [raiseIf_bind_ok] at h
  obtain ⟨-, -, h⟩ := h
  exact enter64_pushed h

/-- The state the pushes of a call to more privilege end in: the new stack and `CS` loaded, the branch made, the rest
of the caller's registers in place (R206, R208, R209). -/
structure InnerEntered (g : Gate) (cd : BitVec 64) (inner : InnerStack) (s t : State) : Prop where
  rest : SameRest s t
  ssSel : t.ss.sel = inner.ss
  ssDpl : t.ss.dpl = descDpl cd
  cs : t.cs = segFromDesc (withRpl g.sel s.cpl) cd
  rip : t.rip = g.off
  cpl : t.cpl = s.cpl
  ssp : t.ssp = s.ssp
  uCet : t.uCet = s.uCet
  sCet : t.sCet = s.sCet
  pl3Ssp : t.pl3Ssp = s.pl3Ssp

theorem InnerEntered.of_moreLegacy {g : Gate} {cd ret : BitVec 64} {inner : InnerStack} {s : State} {w : Run}
    (hoff : viewOf g.size g.off = g.off) (h : moreLegacy g cd ret inner (startRun s) = .ok w) :
    InnerEntered g cd inner s w.st := by
  obtain ⟨sd, hdesc, -, -, hgrows, hss, hcs, hrip, hcpl, hssp, hu, hs, hpl3⟩ := moreLegacy_ok h
  obtain ⟨-, -, -, hdpl, -, -⟩ := readNewStackDesc_ok.1 hdesc
  refine ⟨hgrows.rest, by rw [hss]; rfl, by rw [hss]; exact hdpl, hcs, ?_, hcpl, hssp, hu, hs, hpl3⟩
  rw [hrip, branchTo_of_viewOf _ hoff]
  rfl

theorem InnerEntered.of_more64 {g : Gate} {cd ret : BitVec 64} {inner : InnerStack} {s : State} {w : Run}
    (h : more64 g cd ret inner (startRun s) = .ok w) : InnerEntered g cd inner s w.st := by
  obtain ⟨-, -, hgrows, hss, hcs, hrip, hcpl, hssp, hu, hs, hpl3⟩ := more64_ok h
  exact ⟨hgrows.rest, by rw [hss]; rfl, by rw [hss]; rfl, hcs, hrip, hcpl, hssp, hu, hs, hpl3⟩

/-- A call to more privilege that completes: its pushes end in `w`, its shadow-stack steps in `v`. -/
structure MoreDone (i : Instr) (s : State) (d h cd : BitVec 64) (w v : Run) : Prop where
  pushes : (if s.lma = true then
      more64 (gateOf s.lma d h) cd (nrip i s) (tssInnerStack s (descDpl cd)) (startRun s)
    else moreLegacy (gateOf s.lma d h) cd (nrip i s) (tssInnerStack s (descDpl cd)) (startRun s)) = .ok w
  entered : InnerEntered (gateOf s.lma d h) cd (tssInnerStack s (descDpl cd)) s w.st
  shadow : supervisorShadow s (nrip i s) (w.upd (enterLevel (descDpl cd) (saveUserSsp w.st))) = .ok v

theorem GateCallTo.more_next {i : Instr} {s t : State} {f : FarPtr} {d h cd : BitVec 64}
    (hcall : GateCallTo i s f d h cd) (hmore : goesToMorePrivilege (gateOf s.lma d h) cd s = true)
    (hexec : exec i s = .next t) : ∃ w v, MoreDone i s d h cd w v ∧ t = farEndbranch v.st := by
  rw [hcall.exec_more hmore, settle_next] at hexec
  obtain ⟨r, hr, rfl⟩ := hexec
  obtain ⟨inner, w, v, hinner, hw, hv, rfl⟩ := morePrivilege_ok.1 hr
  obtain ⟨-, rfl⟩ := readInnerStack_ok.1 hinner
  simp only [hcall.size_eq_s64] at hw
  refine ⟨w, v, ?_, rfl⟩
  split at hw
  case isTrue hl => exact ⟨(if_pos hl).trans hw, InnerEntered.of_more64 hw, hv⟩
  case isFalse hl =>
    exact ⟨(if_neg hl).trans hw, InnerEntered.of_moreLegacy (viewOf_gateOffset s.lma d h) hw, hv⟩

/-- In IA-32e mode the new stack selector is the NULL selector of the new level (R204). -/
theorem tssInnerStack_tss64 {s : State} (hkind : s.tr.kind = .tss64) (p : BitVec 2) :
    (tssInnerStack s p).ss = p.setWidth 16 := by
  rw [tssInnerStack, hkind]

theorem errorCode_level (p : BitVec 2) : errorCode (p.setWidth 16) = 0 := by
  revert p
  decide

/-- Settles O44: room, target and token, each after those before it. -/
theorem morePrivilege64Result : Obligations.MorePrivilege64Result := by
  intro i s f d h cd hcall hmore hl hkind hlimit inner g entered
  have hsize : g.size = .s64 := hcall.size_eq_s64.2 hl
  have hss : inner.ss = (descDpl cd).setWidth 16 := tssInnerStack_tss64 hkind _
  have hmode := hcall.mode_branched64 (inner := inner) hl
  have ho : exec i s = settle s (more64 g cd (nrip i s) inner (startRun s) >>=
      moreTail s (descDpl cd) (nrip i s)) := by
    rw [hcall.exec_inner hmore (by rw [hkind]; exact hlimit), if_pos hl]
  rw [more64_eq hsize, bind_assoc, hss, errorCode_level] at ho
  refine faultsClean_or ho (by simp) fun hroom ho => ?_
  rw [bind_assoc] at ho
  refine faultsClean_or ho (by simp) fun _ ho => ?_
  obtain ⟨w, henter, hst, hw⟩ := enter64_result (cd := cd) (ret := nrip i s) hsize
    ((branched64_room hmode).1 (Bool.not_eq_false _ ▸ hroom))
  rw [henter, ok_bind] at ho
  have hresult := moreTail_result (hst ▸ rfl : enterLevel (descDpl cd) (saveUserSsp w.st) = entered) ho
  split_ifs at hresult ⊢
  · exact hresult.mono (hw.wrote64 hmode)
  · obtain ⟨w', v, hdone, hv⟩ := hcall.more_next hmore hresult
    obtain ⟨-, -, hss', hrip, -⟩ := morePrivilege_tail hdone.shadow
    refine ⟨hresult, ?_, ?_⟩
    · rw [hv, hrip, hdone.entered.rip]
    · rw [hv, hss', hdone.entered.ssSel, ← hss]

end Sys2Proof.Machine
end

section
/-! What a completed call through a gate to more privilege leaves: the registers (43_call_gate.md R204 to R213), the
supervisor shadow stack (R212); for every gate call what stays as it was (R222), and the level (60_exceptions.md
R270). -/

namespace Sys2Proof.Machine

/-! ## The registers of a completed call (R204 to R213) -/

/-- The new level is below the caller's, so it is not 3 (R200). -/
theorem level_ne_three {g : Gate} {cd : BitVec 64} {s : State} (h : goesToMorePrivilege g cd s = true) :
    descDpl cd ≠ 3#2 := by
  intro h3
  simp only [goesToMorePrivilege, Bool.and_eq_true, decide_eq_true_eq, h3, BitVec.lt_def] at h
  have := s.cpl.isLt
  have h2 := h.2
  simp at h2
  omega

section
variable {i : Instr} {s : State} {f : FarPtr} {d h cd : BitVec 64} {w v : Run}

/-- The view of the stack pointer after the pushes, less the items pushed (R207). -/
theorem MoreDone.rsp (hdone : MoreDone i s d h cd w v) (hcall : GateCallTo i s f d h cd) :
    let g := gateOf s.lma d h
    viewOf (stackAddrSize w.st) w.st.gpr.rsp = itemOffset (stackAddrSize w.st) (tssInnerStack s (descDpl cd)).sp
      ((if g.size = .s64 then 4 else g.count + 4) * g.size.bytes) := by
  intro g
  have hpushes := hdone.pushes
  split at hpushes
  case isTrue hl =>
    have hsize : g.size = .s64 := hcall.size_eq_s64.2 hl
    have hpushed := more64_pushed hsize hpushes
    rw [if_pos hsize, hsize, hpushed.addrSize, ← itemOffset_zero, hpushed.top, branched64_rsp]
    rfl
  case isFalse hl =>
    have hsize : g.size ≠ .s64 := mt hcall.size_eq_s64.1 hl
    have hl : s.lma = false := Bool.not_eq_true _ ▸ hl
    obtain ⟨sd, -, hpushed⟩ := moreLegacy_pushed hpushes
    rw [if_neg hsize, hpushed.addrSize, ← itemOffset_zero, hpushed.top, legacyBranched_item hl,
      legacyBranched_addrSize hl]
    rfl

/-- The mode and the stack segment the pushes found stay to the end. -/
theorem MoreDone.addrSize (hdone : MoreDone i s d h cd w v) :
    stackAddrSize (farEndbranch v.st) = stackAddrSize w.st := by
  obtain ⟨-, hcs, hss, -⟩ := morePrivilege_tail hdone.shadow
  have hrest : SameRest w.st (farEndbranch v.st) :=
    (((SameRest.saveUserSsp w.st).trans (SameRest.enterLevel _ _)).trans
      (RunGrows.supervisorShadow hdone.shadow).rest).trans (SameRest.farEndbranch v.st)
  rw [stackAddrSize, stackAddrSize, hrest.mode (by rw [hcs]), hss]

/-- The user shadow-stack pointer that is saved (R210). -/
theorem saveUserSsp_pl3Ssp (s : State) : (saveUserSsp s).pl3Ssp =
    if shadowStackEnabled s s.cpl = true ∧ s.cpl = 3 then
      (if s.lma then laAdjust s.cpu.laWidth s.ssp else s.ssp) else s.pl3Ssp := by
  have hsave : (shadowStackEnabled s s.cpl && s.cpl == 3#2) = true ↔
      shadowStackEnabled s s.cpl = true ∧ s.cpl = 3 := by simp
  simp only [saveUserSsp, hsave]
  split
  · rfl
  · rfl

/-- What the shadow-stack steps leave of the state the pushes end in (R210 to R212). -/
theorem MoreDone.shadowed (hdone : MoreDone i s d h cd w v) : SameRest s v.st ∧ v.st.cpl = descDpl cd ∧
    v.st.uCet = s.uCet ∧ v.st.sCet = s.sCet := by
  have e := hdone.entered
  have hrest := ((e.rest.trans (SameRest.saveUserSsp w.st)).trans (SameRest.enterLevel (descDpl cd) _)).trans
    (RunGrows.supervisorShadow hdone.shadow).rest
  have hframe := supervisorShadow_frame hdone.shadow
  have hentered : (enterLevel (descDpl cd) (saveUserSsp w.st)).uCet = s.uCet ∧
      (enterLevel (descDpl cd) (saveUserSsp w.st)).sCet = s.sCet := by
    rw [saveUserSsp_st]
    exact ⟨e.uCet, e.sCet⟩
  rw [hframe] at hrest ⊢
  exact ⟨hrest, rfl, hentered.1, hentered.2⟩

/-- The tracker of the new level (R213): the supervisor's, since the level is not 3. -/
theorem MoreDone.tracker (hdone : MoreDone i s d h cd w v) (hp : descDpl cd ≠ 3#2) :
    (farEndbranch v.st).uCet = s.uCet ∧ (farEndbranch v.st).sCet =
      (if endbranchEnabled s (descDpl cd) = true then (s.sCet ||| 0x800) &&& ~~~0x400 else s.sCet) := by
  obtain ⟨hrest, hcpl, hu, hs⟩ := hdone.shadowed
  have hlevel : SameRest (s.setCpl (descDpl cd)) v.st :=
    SameRest.trans (t := s) (by constructor <;> rfl) hrest
  obtain ⟨hu', hs'⟩ := farEndbranch_congr hlevel hcpl hu hs
  have henabled : endbranchEnabled (s.setCpl (descDpl cd)) (descDpl cd) = endbranchEnabled s (descDpl cd) := rfl
  rw [hu', hs', farEndbranch_eq, State.setCpl_cpl, henabled, if_neg (show ¬ descDpl cd = 3 from hp)]
  split
  · exact ⟨rfl, rfl⟩
  · exact ⟨rfl, rfl⟩

/-- Settles O45: the registers the pushes leave, then those the steps after them write. -/
theorem morePrivilegeRegisters : Obligations.MorePrivilegeRegisters := by
  intro i s t f d h cd hcall hmore hexec g inner items
  obtain ⟨w, v, hdone, rfl⟩ := hcall.more_next hmore hexec
  obtain ⟨hcpl, hcs, hss, hrip, hgpr, hpl3, -⟩ := morePrivilege_tail hdone.shadow
  obtain ⟨hu, hs⟩ := hdone.tracker (level_ne_three hmore)
  have e := hdone.entered
  refine ⟨hcpl, ?csSel, ?csDpl, ?_, ?_, ?_, ?rsp, ?pl3, hu, hs⟩
  case csSel =>
    have hsel : w.st.cs.sel.toNat = g.sel.toNat / 4 * 4 + s.cpl.toNat := by
      rw [e.cs]
      exact withRpl_toNat g.sel s.cpl
    have := s.cpl.isLt
    rw [hcs, withRpl_toNat, hsel]
    omega
  case csDpl => rw [hcs, e.cs]; rfl
  case rsp => rw [hdone.addrSize, hgpr, hdone.rsp hcall]
  case pl3 =>
    rw [hpl3, saveUserSsp_pl3Ssp, shadowStackEnabled_congr e.rest e.uCet e.sCet, e.cpl, e.rest.lma, e.rest.cpu, e.ssp,
      e.pl3Ssp]
  · rw [hss, e.ssSel]
  · rw [hss, e.ssDpl]
  · rw [hrip, e.rip]

/-! ## The supervisor shadow stack (R212) -/

/-- The state the shadow-stack steps start from: the level entered, the user pointer saved (R210, R211). -/
def levelEntered (p : BitVec 2) (s : State) : State := enterLevel p (saveUserSsp s)

theorem levelEntered_mem (p : BitVec 2) (s : State) : (levelEntered p s).mem = s.mem := by
  rw [levelEntered, saveUserSsp_st]
  rfl

theorem SameRest.levelEntered (p : BitVec 2) (s : State) : SameRest s (levelEntered p s) :=
  (SameRest.saveUserSsp s).trans (SameRest.enterLevel p _)

/-- The shadow-stack pointers below level 3 are written by no `CALL` (10_state.md R36). -/
theorem plSsp_congr {s t : State} (h : SameRest s t) {p : BitVec 2} (hp : p ≠ 3#2) : plSsp t p = plSsp s p := by
  have hlevel : ∀ q : BitVec 2, q ≠ 3#2 → q = 0#2 ∨ q = 1#2 ∨ q = 2#2 := by decide
  rcases hlevel p hp with rfl | rfl | rfl
  · exact h.pl0Ssp
  · exact h.pl1Ssp
  · exact h.pl2Ssp

theorem MoreDone.grows (hdone : MoreDone i s d h cd w v) : RunGrows (startRun s) w := by
  have hpushes := hdone.pushes
  split at hpushes
  · obtain ⟨-, -, hgrows, -⟩ := more64_ok hpushes
    exact hgrows
  · obtain ⟨-, -, -, -, hgrows, -⟩ := moreLegacy_ok hpushes
    exact hgrows

/-- Which shadow stack the steps of R212 use, and whether, is decided by the state before the call. -/
theorem MoreDone.shadowStack (hdone : MoreDone i s d h cd w v) (hp : descDpl cd ≠ 3#2) :
    shadowStackEnabled (levelEntered (descDpl cd) w.st) (descDpl cd) = shadowStackEnabled s (descDpl cd) ∧
    plSsp (levelEntered (descDpl cd) w.st) (descDpl cd) = plSsp s (descDpl cd) := by
  have e := hdone.entered
  have hrest := e.rest.trans (SameRest.levelEntered (descDpl cd) w.st)
  have hcet : (levelEntered (descDpl cd) w.st).uCet = s.uCet ∧ (levelEntered (descDpl cd) w.st).sCet = s.sCet := by
    rw [levelEntered, saveUserSsp_st]
    exact ⟨e.uCet, e.sCet⟩
  exact ⟨shadowStackEnabled_congr hrest hcet.1 hcet.2 _, plSsp_congr hrest hp⟩

/-- With a shadow stack at the new level the token is good and taken, and the frame stored (R212). -/
theorem MoreDone.token (hdone : MoreDone i s d h cd w v) (hp : descDpl cd ≠ 3#2) :
    if shadowStackEnabled s (descDpl cd) = true then tokenOk (levelEntered (descDpl cd) w.st) = true ∧
      v = supervisorFrame s (nrip i s) (tokenTaken (w.upd (levelEntered (descDpl cd) w.st)))
    else v = w.upd (levelEntered (descDpl cd) w.st) := by
  have hshadow := hdone.shadow
  have hcpl : (levelEntered (descDpl cd) w.st).cpl = descDpl cd := rfl
  obtain ⟨henabled, -⟩ := hdone.shadowStack hp
  change supervisorShadow s (nrip i s) (w.upd (levelEntered (descDpl cd) w.st)) = .ok v at hshadow
  rw [supervisorShadow_eq, Run.upd_st, hcpl, henabled] at hshadow
  split_ifs at hshadow ⊢
  · rw [raiseIf_bind_ok, except_ok_inj] at hshadow
    exact ⟨by simpa using hshadow.1, hshadow.2.symm⟩
  · exact (except_ok_inj.1 hshadow).symm

/-- The address of a good token is 24 modulo 32 (R212). -/
theorem tokenOk_mod {s : State} (h : tokenOk s = true) : (plSsp s s.cpl).toNat % 32 = 24 := by
  simp only [tokenOk, Bool.and_eq_true, beq_iff_eq] at h
  obtain ⟨⟨⟨h8, hblock⟩, -⟩, -⟩ := h
  generalize plSsp s s.cpl = x at h8 hblock
  have hlt := x.isLt
  have h8 : x.toNat % 8 = 0 := by
    have := congrArg BitVec.toNat h8
    rwa [BitVec.extractLsb'_toNat, Nat.shiftRight_zero] at this
  have hblock := congrArg BitVec.toNat hblock
  rw [BitVec.extractLsb'_toNat, BitVec.extractLsb'_toNat, Nat.shiftRight_eq_div_pow, Nat.shiftRight_eq_div_pow,
    BitVec.toNat_sub, BitVec.toNat_ofNat] at hblock
  omega

/-- Setting the busy bit of a token adds 1 to it (R212). -/
theorem or_one_of_mod {x : BitVec 64} (h : x.toNat % 32 = 24) : x ||| 1#64 = x + 1 := by
  refine (BitVec.add_eq_or_of_and_eq_zero x 1#64 (BitVec.eq_of_toNat_eq ?_)).symm
  have hone : (1#64).toNat = 1 := rfl
  rw [BitVec.toNat_and, hone, Nat.and_one_is_mod, BitVec.toNat_ofNat]
  omega

/-- The token stands at `SSP` with its busy bit set (R212). -/
theorem aboveSsp_tokenTaken {r : Run} (hw : memWf r.st.mem = true) :
    (tokenTaken r).st.ssp = plSsp r.st r.st.cpl ∧
      aboveSsp (tokenTaken r).st 0 8 = plSsp r.st r.st.cpl ||| 1#64 := by
  have hssp : (tokenTaken r).st.ssp = plSsp r.st r.st.cpl := by
    rw [tokenTaken, tokenStore_st]
    rfl
  have hread := memRead_storeBytes (s := r.st.setSsp (plSsp r.st r.st.cpl)) (t := (tokenTaken r).st)
    (plSsp r.st r.st.cpl) (plSsp r.st r.st.cpl ||| 1#64) (n := 8) hw (by decide) rfl rfl
  rw [Nat.mod_eq_of_lt (BitVec.isLt _)] at hread
  refine ⟨hssp, ?_⟩
  rw [aboveSsp, hssp, BitVec.add_zero]
  exact BitVec.eq_of_toNat_eq hread

/-- What stood at the `SSP` a far frame was pushed from follows the frame. -/
theorem aboveSsp_shadowFrame_rest (cs : BitVec 16) (lip old : BitVec 64) (r : Run) :
    aboveSsp (shadowFrame cs lip old r).st 24 8 = aboveSsp r.st 0 8 :=
  (aboveSsp_shadowPush (j := 16) old (by decide)).trans
    ((aboveSsp_shadowPush (j := 8) lip (by decide)).trans (aboveSsp_shadowPush (j := 0) _ (by decide)))

/-- The tracker does not reach the shadow stack. -/
theorem farEndbranch_ssp (s : State) : (farEndbranch s).ssp = s.ssp := by
  obtain ⟨-, -, -, -, -, -, hssp⟩ := farEndbranch_core s
  exact hssp

theorem supervisorFrame_of_three {old : State} (h : old.ss.dpl = 3#2) (ret : BitVec 64) (r : Run) :
    supervisorFrame old ret r = r := by
  rw [supervisorFrame, h]
  rfl

theorem supervisorFrame_of_ne {old : State} (h : old.ss.dpl ≠ 3#2) (ret : BitVec 64) (r : Run) :
    supervisorFrame old ret r = shadowFrame old.cs.sel (callerLip old ret) old.ssp r := by
  rw [supervisorFrame, beq_false_of_ne h]
  rfl

/-- The shadow stack of the new level, from the new `SSP` upwards: the frame, where the caller was not at level 3,
and the token with its busy bit set (R212). -/
theorem supervisorFrame_words {old : State} {ret : BitVec 64} {r : Run} (hw : memWf r.st.mem = true)
    {token : BitVec 64} (htoken : plSsp r.st r.st.cpl = token) :
    let t := farEndbranch (supervisorFrame old ret (tokenTaken r)).st
    memRead t token 8 = token ||| 1#64 ∧ (old.ss.dpl = 3#2 → t.ssp = token) ∧
      (old.ss.dpl ≠ 3#2 → t.ssp = token - 24#64 ∧ memRead t (token - 8#64) 8 = old.cs.sel.setWidth 64 ∧
        memRead t (token - 16#64) 8 = callerLip old ret ∧ memRead t (token - 24#64) 8 = old.ssp) := by
  intro t
  have hwt : memWf (tokenTaken r).st.mem = true := memWf_storeBytes _ _ _ _ hw
  obtain ⟨hssp, hbusy⟩ := aboveSsp_tokenTaken hw
  rw [htoken] at hssp hbusy
  have hread {lin : BitVec 64} {j : Nat} (hlin : (supervisorFrame old ret (tokenTaken r)).st.ssp +
      BitVec.ofNat 64 j = lin) : memRead t lin 8 = aboveSsp (supervisorFrame old ret (tokenTaken r)).st j 8 := by
    rw [← aboveSsp_farEndbranch]
    exact memRead_eq_aboveSsp (by rw [farEndbranch_ssp, hlin]) 8
  have htssp : t.ssp = (supervisorFrame old ret (tokenTaken r)).st.ssp := farEndbranch_ssp _
  clear_value t
  by_cases hdpl : old.ss.dpl = 3#2
  · rw [supervisorFrame_of_three hdpl] at hread htssp
    refine ⟨?_, fun _ => htssp.trans hssp, fun hne => absurd hdpl hne⟩
    rw [hread (j := 0) (by rw [hssp, BitVec.add_zero]), hbusy]
  · rw [supervisorFrame_of_ne hdpl] at hread htssp
    have hframe : (shadowFrame old.cs.sel (callerLip old ret) old.ssp (tokenTaken r)).st.ssp = token - 24#64 := by
      rw [shadowFrame_st, hssp]
      rfl
    obtain ⟨hold, hlip, hcs, -⟩ := aboveSsp_shadowFrame hwt old.cs.sel (callerLip old ret) old.ssp
    rw [hframe] at hread htssp
    refine ⟨?_, fun h3 => absurd h3 hdpl, fun _ => ⟨htssp, ?_, ?_, ?_⟩⟩
    · rw [hread (j := 24) (by bv_omega), aboveSsp_shadowFrame_rest, hbusy]
    · rw [hread (j := 16) (by bv_omega), hcs]
    · rw [hread (j := 8) (by bv_omega), hlip]
    · rw [hread (j := 0) (by bv_omega), hold]

/-- Settles O46: without a shadow stack nothing of it is written; with one the token was good, and the words above
the new `SSP` are the frame, if there is one, and the token. -/
theorem supervisorShadowStack : Obligations.SupervisorShadowStack := by
  intro i s t f d h cd hcall hmore hwf hexec token
  obtain ⟨w, v, hdone, rfl⟩ := hcall.more_next hmore hexec
  have hp := level_ne_three hmore
  have hdoneToken := hdone.token hp
  obtain ⟨-, hpl⟩ := hdone.shadowStack hp
  constructor
  · intro hoff
    rw [hoff, if_neg Bool.false_ne_true] at hdoneToken
    rw [farEndbranch_ssp, hdoneToken, Run.upd_st, levelEntered, saveUserSsp_st]
    exact hdone.entered.ssp
  · intro hon
    rw [if_pos hon] at hdoneToken
    obtain ⟨hok, rfl⟩ := hdoneToken
    have hmod : token.toNat % 32 = 24 := (congrArg (·.toNat % 32) hpl).symm.trans (tokenOk_mod hok)
    have hw : memWf (levelEntered (descDpl cd) w.st).mem = true := by
      rw [levelEntered_mem]
      exact hdone.grows.wf hwf
    have hwords := supervisorFrame_words (old := s) (ret := nrip i s)
      (r := w.upd (levelEntered (descDpl cd) w.st)) hw hpl
    rw [or_one_of_mod hmod] at hwords
    exact ⟨hmod, hwords⟩

end

/-! ## The bytes written (R222) -/

theorem memorySameOutside.mono {s t : State} {wrote wrote' : List Nat} (h : memorySameOutside s t wrote)
    (hsub : wrote ⊆ wrote') : memorySameOutside s t wrote' := fun a ha => h a (mt (@hsub a) ha)

/-- A part of a store's bytes. -/
theorem storedAddrs_subset_of_add {s : State} {lin lin' : BitVec 64} {a n m : Nat}
    (hlin : lin' = lin + BitVec.ofNat 64 a) (h : a + n ≤ m) : storedAddrs s lin' n ⊆ storedAddrs s lin m := by
  intro x hx
  obtain ⟨i, hi, rfl⟩ := mem_storedAddrs.1 hx
  rw [hlin, byteAddr_add]
  exact mem_storedAddrs.2 ⟨a + i, by omega, rfl⟩

/-- Token and frame lie in the 32 bytes from 24 below the token's address (R212). -/
theorem supervisorFrame_wrote (old : State) (ret : BitVec 64) (r : Run) :
    (supervisorFrame old ret (tokenTaken r)).wrote ⊆
      r.wrote ++ storedAddrs r.st (plSsp r.st r.st.cpl - 24#64) 32 := by
  have hwrote : (tokenTaken r).wrote = r.wrote ++ storedAddrs r.st (plSsp r.st r.st.cpl) 8 := rfl
  have hssp : (tokenTaken r).st.ssp = plSsp r.st r.st.cpl := by rw [tokenTaken, tokenStore_st]; rfl
  have hlma : (tokenTaken r).st.lma = r.st.lma := by rw [tokenTaken, tokenStore_st]; rfl
  have htoken : (tokenTaken r).wrote ⊆ r.wrote ++ storedAddrs r.st (plSsp r.st r.st.cpl - 24#64) 32 := by
    rw [hwrote]
    exact List.append_subset.2 ⟨List.subset_append_left _ _, List.Subset.trans
      (storedAddrs_subset_of_add (a := 24) (by bv_omega) (by decide)) (List.subset_append_right _ _)⟩
  rw [supervisorFrame]
  split
  · exact htoken
  · have hframe := shadowFrame_wrote old.cs.sel (callerLip old ret) old.ssp (tokenTaken r)
    rw [frameWrites, hssp, storedAddrs_congr hlma] at hframe
    refine List.Subset.trans hframe (List.append_subset.2 ⟨htoken, ?_⟩)
    exact List.Subset.trans (storedAddrs_subset_of_add (a := 0) (by rw [BitVec.add_zero]) (by decide))
      (List.subset_append_right _ _)

section
variable {i : Instr} {s : State} {f : FarPtr} {d h cd : BitVec 64} {w v : Run}

/-- The bytes the shadow-stack steps write. -/
theorem MoreDone.shadow_wrote (hdone : MoreDone i s d h cd w v) (hp : descDpl cd ≠ 3#2) :
    v.wrote ⊆ w.wrote ++
      (if shadowStackEnabled s (descDpl cd) then storedAddrs s (plSsp s (descDpl cd) - 24) 32 else []) := by
  have htoken := hdone.token hp
  obtain ⟨-, hpl⟩ := hdone.shadowStack hp
  split_ifs at htoken ⊢
  · obtain ⟨-, rfl⟩ := htoken
    have hwrote := supervisorFrame_wrote s (nrip i s) (w.upd (levelEntered (descDpl cd) w.st))
    have hlma := (hdone.entered.rest.trans (SameRest.levelEntered (descDpl cd) w.st)).lma
    rw [Run.upd_st, storedAddrs_congr hlma] at hwrote
    rw [← hpl]
    exact hwrote
  · rw [htoken, List.append_nil]
    exact List.Subset.refl _

/-- The bytes the pushes write: the items on the new stack and the accessed bits. -/
theorem MoreDone.pushes_wrote (hdone : MoreDone i s d h cd w v) (hcall : GateCallTo i s f d h cd) {sd : BitVec 64}
    (hsd : s.lma = false → fetchDescriptor s (tssInnerStack s (descDpl cd)).ss = some sd) :
    w.wrote ⊆ newStackWrites (gateOf s.lma d h) sd (tssInnerStack s (descDpl cd)) s ++
      accessedWrites (gateOf s.lma d h).sel cd s ++
        (if s.lma then [] else accessedWrites (tssInnerStack s (descDpl cd)).ss sd s) := by
  have hpushes := hdone.pushes
  split_ifs at hpushes ⊢ with hl
  · have hsize := hcall.size_eq_s64.2 hl
    have hwrote := (more64_pushed hsize hpushes).wrote64 (hcall.mode_branched64 hl)
    rw [List.append_nil, newStackWrites, hsize]
    exact hwrote
  · have hsize := mt hcall.size_eq_s64.1 hl
    rw [Bool.not_eq_true] at hl
    obtain ⟨sd', hdesc, hpushed⟩ := moreLegacy_pushed hpushes
    obtain ⟨-, hfetch, -⟩ := readNewStackDesc_ok.1 hdesc
    obtain rfl : sd' = sd := Option.some.inj (hfetch.symm.trans (hsd hl))
    exact hpushed.legacy_wrote hl hsize le_rfl

end

/-! ## Calls at the same level (R218, R222) -/

/-- Where items go depends on the mode and on the stack. -/
theorem stackItems_congr {s t : State} (hmode : t.mode = s.mode) (hss : t.ss = s.ss) (hrsp : t.gpr.rsp = s.gpr.rsp)
    (hlma : t.lma = s.lma) (n c : Nat) : stackItems t n c = stackItems s n c := by
  simp only [stackItems, stackAddrSize, segLinear_congr hmode, storedAddrs_congr hlma, hmode, hss, hrsp]

theorem stackItems_two (s : State) (n : Nat) : stackItems s n 2 = storedAddrs s (pushLinear s n) n ++
    storedAddrs s (segLinear s .ss s.ss (itemOffset (stackAddrSize s) s.gpr.rsp (2 * n))) n := by
  simp [stackItems, List.range_succ, pushLinear, pushOffset]

/-- The shadow frame of a far call is placed by the state the pushes leave as it was (R218). -/
theorem farShadowWrites_sameEntered (g : Gate) (cd ret : BitVec 64) (s : State) :
    farShadowWrites (sameEntered g cd ret (startRun s)).st = farShadowWrites s := by
  obtain ⟨hcore, hrest⟩ := sameEntered_core g cd ret (startRun s)
  have hcpl : (sameEntered g cd ret (startRun s)).st.cpl = s.cpl := hcore.cpl
  have hssp : (sameEntered g cd ret (startRun s)).st.ssp = s.ssp := hcore.ssp
  have hlma : (sameEntered g cd ret (startRun s)).st.lma = s.lma := hrest.lma
  have hon : shadowStackEnabled (sameEntered g cd ret (startRun s)).st s.cpl = shadowStackEnabled s s.cpl :=
    shadowStackEnabled_congr hrest hcore.uCet hcore.sCet s.cpl
  simp only [farShadowWrites, frameWrites, storedAddrs_congr hlma, hcpl, hssp, hon]

/-- The bytes a call at the same level writes: the accessed bit, two items, the far shadow frame (R218). -/
theorem sameDone_wrote (g : Gate) (cd ret : BitVec 64) (s : State) :
    (samePrivilegeTail s ret (sameEntered g cd ret (startRun s))).wrote ⊆
      accessedWrites g.sel cd s ++ stackItems (sameBranched g cd (startRun s)).st g.size.bytes 2 ++
        farShadowWrites s := by
  have hdone : (samePrivilegeTail s ret (sameEntered g cd ret (startRun s))).wrote =
      (farShadowDone s.cs.sel (callerLip s ret) (sameEntered g cd ret (startRun s))).wrote := rfl
  have hshadow := farShadowDone_wrote s.cs.sel (callerLip s ret) (sameEntered g cd ret (startRun s))
  rw [farShadowWrites_sameEntered, (ItemsPushed.sameEntered g cd ret (startRun s)).wrote, sameBranched_wrote]
    at hshadow
  rw [hdone]
  exact hshadow

section
variable {i : Instr} {s t : State} {f : FarPtr} {d h cd : BitVec 64}

/-- The items of a 16- or 32-bit gate go below the caller's stack pointer (R215, R216). -/
theorem GateCallTo.sameItems_legacy (hcall : GateCallTo i s f d h cd) (hl : s.lma = false) :
    let g := gateOf s.lma d h
    stackItems (sameBranched g cd (startRun s)).st g.size.bytes 2 =
      storedAddrs s (pushLinear s g.size.bytes) g.size.bytes ++ storedAddrs s (segLinear s .ss s.ss
        (itemOffset (stackAddrSize s) s.gpr.rsp (2 * g.size.bytes))) g.size.bytes := by
  intro g
  have hsize : g.size ≠ .s64 := mt hcall.size_eq_s64.1 (Bool.eq_false_iff.1 hl)
  have hmode : (sameBranched g cd (startRun s)).st.mode = s.mode := hcall.mode_sameBranched.trans (by simp [hl])
  obtain ⟨hss, hrsp, -⟩ := sameBranched_frame g cd s
  rw [sameStackState_legacy hsize] at hrsp
  rw [stackItems_congr hmode hss hrsp (RunGrows.sameBranched g cd s).rest.lma, stackItems_two]

/-- The items of a 64-bit gate are the 16 bytes below the stack pointer R219 gives (R217). -/
theorem GateCallTo.sameItems_long64 (hcall : GateCallTo i s f d h cd) (hl : s.lma = true) :
    let g := gateOf s.lma d h
    stackItems (sameBranched g cd (startRun s)).st g.size.bytes 2 ⊆
      storedAddrs s ((implicitStackSwitch s).gpr.rsp - 16) 16 := by
  intro g
  have hsize : g.size = .s64 := hcall.size_eq_s64.2 hl
  have hmode : (sameBranched g cd (startRun s)).st.mode = .long64 := hcall.mode_sameBranched.trans (if_pos hl)
  have hlma : (sameBranched g cd (startRun s)).st.lma = s.lma := (RunGrows.sameBranched g cd s).rest.lma
  obtain ⟨-, hrsp, -⟩ := sameBranched_frame g cd s
  have hitems := stackItems_long64_subset hmode g.size.bytes 2
  rw [storedAddrs_congr hlma, hrsp, hsize] at hitems
  rwa [hsize]

/-- A call through a gate at the same level keeps `SS`, the level and the saved pointers, and writes its two items,
the accessed bit and the far shadow frame (R218, R222). -/
theorem GateCallTo.same_frame (hcall : GateCallTo i s f d h cd) (hexec : exec i s = .next t)
    (hsame : goesToMorePrivilege (gateOf s.lma d h) cd s = false) :
    let g := gateOf s.lma d h
    (t.ss = s.ss ∧ t.cpl = s.cpl ∧ t.pl3Ssp = s.pl3Ssp) ∧ memorySameOutside s t (accessedWrites g.sel cd s ++
      stackItems (sameBranched g cd (startRun s)).st g.size.bytes 2 ++ farShadowWrites s) := by
  intro g
  obtain ⟨r, hr, rfl⟩ := settle_next.1 (hcall.exec_same hsame ▸ hexec)
  obtain ⟨-, -, hss, hcpl, hpl3, -⟩ := samePrivilege_fields hr
  obtain ⟨-, -, -, rfl⟩ := samePrivilege_ok.1 hr
  exact ⟨⟨hss, hcpl, hpl3⟩, (memorySameOutside_wrote (RunGrows.sameDone g cd (nrip i s) s)).mono
    (sameDone_wrote g cd (nrip i s) s)⟩

/-- A call to more privilege changes no byte but those it has written (R222). -/
theorem MoreDone.memory {w v : Run} (hdone : MoreDone i s d h cd w v) :
    memorySameOutside s (farEndbranch v.st) v.wrote := by
  have hlevel : RunGrows w (w.upd (levelEntered (descDpl cd) w.st)) :=
    RunGrows.upd w (SameRest.levelEntered _ _) (levelEntered_mem _ _)
  have hgrows := (hdone.grows.trans hlevel).trans (RunGrows.supervisorShadow hdone.shadow)
  intro a ha
  rw [farEndbranch_mem]
  exact memorySameOutside_wrote hgrows a ha

end

/-- Settles O47: each way the call can go has its list of bytes written; the rest of the state no `CALL` changes. -/
theorem gateFrame : Obligations.GateFrame := by
  intro i s t f d h cd hcall hexec g inner
  refine ⟨(exec_next_sameRest hexec).keepsRest, fun hsame => ?same, fun hmore sd hsd => ?more⟩
  case same =>
    obtain ⟨⟨hss, hcpl, hpl3⟩, hmem⟩ := hcall.same_frame hexec hsame
    refine ⟨hss, hcpl, hpl3, fun hl => ?_, fun hl => ?_⟩
    · rw [hcall.sameItems_legacy hl] at hmem
      exact hmem.mono (List.Perm.subset (List.perm_append_comm.append_right _))
    · refine hmem.mono fun a ha => ?_
      have hitems : a ∈ stackItems (sameBranched g cd (startRun s)).st g.size.bytes 2 → _ :=
        fun ha => hcall.sameItems_long64 hl ha
      simp only [List.mem_append] at ha ⊢
      tauto
  case more =>
    obtain ⟨w, v, hdone, rfl⟩ := hcall.more_next hmore hexec
    refine hdone.memory.mono (List.Subset.trans (hdone.shadow_wrote (level_ne_three hmore)) ?_)
    exact List.append_subset.2 ⟨List.Subset.trans (hdone.pushes_wrote hcall hsd) (List.subset_append_left _ _),
      List.subset_append_right _ _⟩

/-! ## The privilege level (R211, 60_exceptions.md R270) -/

/-- The two undefined encodings never complete (30_encoding.md R113). -/
theorem exec_next_kinds {i : Instr} {s t : State} (hexec : exec i s = .next t) :
    isNear i = true ∨ isFarReal i = true ∨ isFarProt i = true := by
  obtain ⟨-, -, r, hbody, -⟩ := exec_next.1 hexec
  cases i with
  | illegal9A64 | illegalFF3Reg => cases hbody
  | callRel16 | callRel32 | callRel64 | callRm16 | callRm32 | callRm64 => exact .inl rfl
  | callPtr1616Real | callPtr1632Real | callM1616Real | callM1632Real => exact .inr (.inl rfl)
  | callPtr1616Prot | callPtr1632Prot | callM1616Prot | callM1632Prot | callM1664 => exact .inr (.inr rfl)

/-- A far call in protected mode that completes has called a code segment or passed the checks of a call gate: a
task switch never completes (R174, 44_task_switch.md R244). -/
theorem exec_farProt_next_cases {i : Instr} {s t : State} (hfar : isFarProt i = true) (hexec : exec i s = .next t) :
    ∃ f d, FarCallTo i s f d ∧
      ((segFromDesc f.sel d).isCode = true ∨ ∃ h cd, GateCallTo i s f d h cd) := by
  obtain ⟨x, hx⟩ := farProt_operand hfar s
  obtain ⟨hfits, hlock, -⟩ := exec_next.1 hexec
  obtain ⟨f, r, hoperand, hr, -⟩ := exec_far_next hx hexec
  rw [farTransfer_farProt hfar] at hr
  obtain ⟨hnull, d, hfetched, -, hr⟩ := farProtected_ok.1 hr
  have hcall : FarCallTo i s f d := ⟨hfar, by simp [runnable, hfits, hlock], hoperand, hnull, hfetched⟩
  refine ⟨f, d, hcall, ?_⟩
  unfold farDispatch at hr
  split at hr
  case isTrue hcode => exact .inl (Bool.and_eq_true_iff.1 hcode).1
  split at hr
  case isTrue hcode => exact .inl (Bool.and_eq_true_iff.1 hcode).1
  split at hr
  case isTrue hgate =>
    obtain ⟨h, cd, hupper, hcpl, hrpl, hpresent, hcode, -⟩ := callGate_ok.1 hr
    exact .inr ⟨h, cd, GateCallTo.of_checks hcall hgate hupper hcpl hrpl hpresent hcode⟩
  split at hr
  · exact absurd hr (taskGate_ne_ok _ _ _ _)
  · exact absurd hr (taskStateSegment_ne_ok _ _ _ _)

/-- A call through a gate either keeps the level or enters that of the gate's code segment (R211, R218). -/
theorem GateCallTo.cpl_next {i : Instr} {s t : State} {f : FarPtr} {d h cd : BitVec 64}
    (hcall : GateCallTo i s f d h cd) (hexec : exec i s = .next t) :
    t.cpl = if goesToMorePrivilege (gateOf s.lma d h) cd s = true then descDpl cd else s.cpl := by
  split
  case isTrue hmore =>
    obtain ⟨hcpl, -⟩ := morePrivilegeRegisters i s t f d h cd hcall hmore hexec
    exact hcpl
  case isFalse hsame =>
    obtain ⟨⟨-, hcpl, -⟩, -⟩ := hcall.same_frame hexec (Bool.not_eq_true _ ▸ hsame)
    exact hcpl

/-- Settles O52: only a far call through a gate has a way to another level, and that one is lower (R200). -/
theorem privilegeChangesOnlyThroughGates : Obligations.PrivilegeChangesOnlyThroughGates := by
  intro i s t hexec
  have hkept (h : t.cpl = s.cpl) : t.cpl.toNat ≤ s.cpl.toNat ∧ (t.cpl ≠ s.cpl → ∃ f d h cd,
      GateCallTo i s f d h cd ∧ goesToMorePrivilege (gateOf s.lma d h) cd s = true ∧ t.cpl = descDpl cd) :=
    ⟨h ▸ le_rfl, absurd h⟩
  rcases exec_next_kinds hexec with hnear | hreal | hprot
  · obtain ⟨-, -, hcpl, -⟩ := nearCallFrame i s t hnear hexec
    exact hkept hcpl
  · obtain ⟨-, -, hcpl, -⟩ := farRealFrame i s t hreal hexec
    exact hkept hcpl
  obtain ⟨f, d, hcall, hcode | ⟨h, cd, hgate⟩⟩ := exec_farProt_next_cases hprot hexec
  · obtain ⟨-, -, hcpl, -⟩ := codeSegmentFrame i s t f d hcall hcode hexec
    exact hkept hcpl
  have hcpl := hgate.cpl_next hexec
  split_ifs at hcpl with hmore
  · have hlower : descDpl cd < s.cpl := by simp_all [goesToMorePrivilege]
    exact ⟨hcpl ▸ hlower.le, fun _ => ⟨f, d, h, cd, hgate, hmore, hcpl⟩⟩
  · exact hkept hcpl

end Sys2Proof.Machine
end

section
/-! Far calls whose selector names a task gate or a `TSS` (44_task_switch.md R240 to R244): the checks up to the
switch, in order, the refusal there, and that in IA-32e mode no call gets so far. -/

namespace Sys2Proof.Machine

/-! ## `TSS` descriptors by number (20_memory.md R72) -/

theorem isTss_iff (d : BitVec 64) :
    isTss d = true ↔ descS d = false ∧ (descType d).toNat ∈ [1, 3, 9, 0xB] := by
  have htypes : ∀ t : BitVec 4, ((t = 1#4 ∨ t = 3#4) ∨ t = 9#4) ∨ t = 0xB#4 ↔ t.toNat ∈ [1, 3, 9, 0xB] := by decide
  simp only [isTss, Bool.and_eq_true, Bool.not_eq_true', Bool.or_eq_true, beq_iff_eq, htypes]

/-- Of the types of a `TSS`, the busy ones. -/
theorem isBusyTss_iff {d : BitVec 64} (h : (descType d).toNat ∈ [1, 3, 9, 0xB]) :
    isBusyTss d = true ↔ (descType d).toNat ∈ [3, 0xB] := by
  have hbusy : ∀ t : BitVec 4, t.toNat ∈ [1, 3, 9, 0xB] → (t.getLsbD 1 = true ↔ t.toNat ∈ [3, 0xB]) := by decide
  exact hbusy (descType d) h

/-! ## Reaching the checks (42_far_call_protected.md R173, R174) -/

/-- Outside IA-32e mode the type test lets a task gate and a `TSS` pass, and the dispatch tells them apart. -/
theorem FarCallTo.exec_task {i : Instr} {s : State} {f : FarPtr} {d : BitVec 64} (h : FarCallTo i s f d)
    (hl : s.lma = false) (hsys : descS d = false) (htype : descType d = 5 ∨ (descType d).toNat ∈ [1, 3, 9, 0xB]) :
    exec i s = settle s
      (if descType d = 5 then taskGate f.sel d (startRun s) else taskStateSegment f.sel d (startRun s)) := by
  have htypes : ∀ t : BitVec 4, t = 5 ∨ t.toNat ∈ [1, 3, 9, 0xB] →
      t.toNat ∈ [4, 0xC, 5, 1, 3, 9, 0xB] ∧ ¬ (t = 0xC#4 ∨ t = 4#4) := by decide
  obtain ⟨hpass, hgate⟩ := htypes _ htype
  have hok : farTypeOk s.lma (segFromDesc f.sel d) d = true :=
    farTypeOk_iff.2 (.inr (by rw [hl]; exact ⟨hsys, hpass⟩))
  have hcode : (segFromDesc f.sel d).isCode = false := by simp [Seg.isCode, segFromDesc, hsys]
  have hcall : isCallGate false d = false := by
    rw [← Bool.not_eq_true, isCallGate_iff]
    simpa [hsys] using hgate
  rw [h.exec_eq, raiseIf_of_false (by rw [hok]; rfl), farDispatch, Seg.isConforming, Seg.isNonconforming, hcode,
    startRun_st, hl, hcall]
  simp [isTaskGate, hsys]

/-! ## The checks up to the switch (R240, R241, R244) -/

/-- Settles O48: the tests of R240 on the gate, then those on the `TSS` it names. -/
theorem taskGateChecks : Obligations.TaskGateChecks := by
  intro i s f d hcall hl hsys htype tsel
  have ho := hcall.exec_task hl hsys (.inl htype)
  rw [if_pos htype] at ho
  refine faultsClean_or ho (by simp [BitVec.lt_def, rplOf_toNat]) fun _ ho => ?_
  refine faultsClean_or ho (by simp) fun _ ho => ?_
  refine faultsClean_or ho (by simp [selTi, isNullSel_iff, tsel]) fun _ ho => ?_
  rw [startRun_st, show d.extractLsb' 16 16 = tsel from rfl] at ho
  cases hfetch : fetchDescriptor s tsel with
  | none =>
    rw [ho, hfetch]
    exact faultsClean_settle s .gp (errorCode tsel) .r240
  | some td =>
    rw [hfetch] at ho
    have hnotTss : (!isTss td) = true ↔ descS td = true ∨ (descType td).toNat ∉ [1, 3, 9, 0xB] := by
      rw [Bool.not_eq_true', ← Bool.not_eq_true, isTss_iff, not_and_or, Bool.not_eq_false]
    refine faultsClean_or ho hnotTss fun htss ho => ?_
    obtain ⟨-, htypes⟩ := not_or.1 htss
    refine faultsClean_or ho (isBusyTss_iff (not_not.1 htypes)) fun _ ho => ?_
    exact faultsClean_or ho (by simp) fun _ ho => ho

/-- Settles O49: the tests of R241, the busy one by the type of the descriptor. -/
theorem tssSelectorChecks : Obligations.TssSelectorChecks := by
  intro i s f d hcall hl hsys htype
  have hnotGate : descType d ≠ 5 := by
    intro h
    simp [h] at htype
  have ho := hcall.exec_task hl hsys (.inr htype)
  rw [if_neg hnotGate] at ho
  refine faultsClean_or ho ?_ fun _ ho => ?_
  · rw [← isBusyTss_iff htype]
    simp [BitVec.lt_def, rplOf_toNat, or_assoc]
  · exact faultsClean_or ho (by simp) fun _ ho => ho

/-! ## What never refuses

Of all that a `CALL` is written in, only `switchTasks` refuses (R244). -/

/-- The operation answers or raises. -/
def NeverRefuses {α : Type} (x : Except Halt α) : Prop := ∀ why, x ≠ .error (.refuse why)

section
variable {α β : Type} {r : Run} {ret : BitVec 64}

theorem NeverRefuses.ok (a : α) : NeverRefuses (.ok a : Except Halt α) := nofun

theorem NeverRefuses.raise (r : Run) (x : Exc) (code : BitVec 16) (rule : RuleId) :
    NeverRefuses (raise r x code rule : Except Halt α) := nofun

theorem NeverRefuses.bind {x : Except Halt α} {f : α → Except Halt β} (hx : NeverRefuses x)
    (hf : ∀ a, NeverRefuses (f a)) : NeverRefuses (x >>= f) := by
  intro why h
  rcases except_bind_error.1 h with h | ⟨a, -, h⟩
  · exact hx why h
  · exact hf a why h

theorem NeverRefuses.test {bad : Bool} {x : Exc} {code : BitVec 16} {rule : RuleId} {f : Unit → Except Halt β}
    (hf : bad = false → NeverRefuses (f ())) : NeverRefuses (raiseIf bad r x code rule >>= f) := by
  cases bad with
  | true => exact NeverRefuses.raise r x code rule
  | false => exact hf rfl

/-! ### Memory, operands and the stack (20_memory.md R65 to R68) -/

theorem NeverRefuses.segRead (name : SegName) (g : Seg) (off : BitVec 64) (n : Nat) (rule : RuleId) :
    NeverRefuses (segRead r name g off n rule) := by
  unfold Machine.segRead
  split
  · exact .raise _ _ _ _
  · exact .ok _

theorem NeverRefuses.readRm (p : Prefixes) (k : Size) (o : RmOperand) : NeverRefuses (readRm r p ret k o) := by
  cases o with
  | reg => exact .ok _
  | mem => exact .segRead _ _ _ _ _

theorem NeverRefuses.readFarPtr (p : Prefixes) (k : Size) (m : Mem) : NeverRefuses (readFarPtr r p ret k m) :=
  .bind (.segRead _ _ _ _ _) fun _ => .bind (.segRead _ _ _ _ _) fun _ => .ok _

theorem NeverRefuses.push (n : Nat) (v : BitVec 64) : NeverRefuses (push n v r) := by
  refine .bind ?_ fun _ => .ok _
  unfold segWrite
  split
  · exact .raise _ _ _ _
  · exact .ok _

theorem NeverRefuses.pushSel (k : Size) (sel : BitVec 16) : NeverRefuses (pushSel k sel r) :=
  .bind (.push _ _) fun _ => .ok _

/-! ### Near calls and the far calls of real-address mode (40_near_call.md, 41_far_call_real.md) -/

theorem NeverRefuses.nearTransfer {k : Size} {rule : RuleId} {target : BitVec 64} {copy : Bool} :
    NeverRefuses (nearTransfer k rule target ret copy r) :=
  .test fun _ => .test fun _ => .bind (.push _ _) fun _ => .ok _

theorem NeverRefuses.nearIndirect {k : Size} {rule : RuleId} {p : Prefixes} {o : RmOperand} :
    NeverRefuses (nearIndirect k rule p o ret r) :=
  .bind (.readRm _ _ _) fun _ => .bind .nearTransfer fun _ => .ok _

theorem NeverRefuses.farReal16 (f : FarPtr) : NeverRefuses (farReal16 f ret r) :=
  .test fun _ => .bind (.pushSel _ _) fun _ => .bind (.push _ _) fun _ => .ok _

theorem NeverRefuses.farReal32 (f : FarPtr) : NeverRefuses (farReal32 f ret r) :=
  .test fun _ => .test fun _ => .bind (.pushSel _ _) fun _ => .bind (.push _ _) fun _ => .ok _

/-! ### Far calls to a code segment (42_far_call_protected.md R176 to R180) -/

theorem NeverRefuses.codeSegmentTransfer {rule : RuleId} {k : Size} {f : FarPtr} {d lip : BitVec 64} :
    NeverRefuses (codeSegmentTransfer rule k f d lip ret r) := by
  refine .test fun _ => .test fun _ => .test fun _ => .test fun _ => .bind ?pushes fun _ => .bind ?shadow fun _ => .ok _
  case pushes => exact .bind (.pushSel _ _) fun _ => .push _ _
  case shadow =>
    unfold farShadowStackPush
    split
    · exact .test fun _ => .ok _
    · exact .ok _

theorem NeverRefuses.conformingCall {k : Size} {f : FarPtr} {d : BitVec 64} :
    NeverRefuses (conformingCall k f d ret r) :=
  .test fun _ => .test fun _ => .codeSegmentTransfer

theorem NeverRefuses.nonconformingCall {k : Size} {f : FarPtr} {d : BitVec 64} :
    NeverRefuses (nonconformingCall k f d ret r) :=
  .test fun _ => .test fun _ => .codeSegmentTransfer

/-! ### Calls through a gate (43_call_gate.md R200 to R218) -/

theorem NeverRefuses.readGateUpper (sel : BitVec 16) : NeverRefuses (readGateUpper sel r) := by
  rw [readGateUpper_eq]
  exact .test fun _ => .test fun _ => .ok _

theorem NeverRefuses.readGateCode (g : Gate) : NeverRefuses (readGateCode g r) := by
  refine .test fun _ => ?_
  split
  · exact .raise _ _ _ _
  · exact .test fun _ => .test fun _ => .test fun _ => .ok _

theorem NeverRefuses.readNewStackDesc (p : BitVec 2) (ss : BitVec 16) : NeverRefuses (readNewStackDesc r p ss) := by
  refine .test fun _ => ?_
  split
  · exact .raise _ _ _ _
  · exact .test fun _ => .test fun _ => .ok _

theorem NeverRefuses.copyParameters (oldSs : Seg) (sa : Size) (oldSp : BitVec 64) (n c : Nat) (r : Run) :
    NeverRefuses (copyParameters oldSs sa oldSp n c r) := by
  induction c generalizing r with
  | zero => exact .ok _
  | succ c ih => exact .bind (.segRead _ _ _ _ _) fun _ => .bind (.push _ _) fun w => ih w

theorem NeverRefuses.moreLegacy {g : Gate} {cd : BitVec 64} {inner : InnerStack} :
    NeverRefuses (moreLegacy g cd ret inner r) :=
  .bind (.readNewStackDesc _ _) fun _ => .test fun _ => .test fun _ => .bind (.pushSel _ _) fun _ =>
    .bind (.push _ _) fun _ => .bind (.copyParameters _ _ _ _ _ _) fun _ => .bind (.pushSel _ _) fun _ => .push _ _

theorem NeverRefuses.more64 {g : Gate} {cd : BitVec 64} {inner : InnerStack} :
    NeverRefuses (more64 g cd ret inner r) :=
  .test fun _ => .test fun _ => .bind (.pushSel _ _) fun _ => .bind (.push _ _) fun _ => .bind (.pushSel _ _) fun _ =>
    .push _ _

theorem NeverRefuses.supervisorShadow (old : State) : NeverRefuses (supervisorShadow old ret r) := by
  rw [supervisorShadow_eq]
  split
  · exact .test fun _ => .ok _
  · exact .ok _

theorem NeverRefuses.moreTail {old : State} {p : BitVec 2} (w : Run) : NeverRefuses (moreTail old p ret w) :=
  .bind (.supervisorShadow _) fun _ => .ok _

theorem NeverRefuses.morePrivilege {g : Gate} {cd : BitVec 64} : NeverRefuses (morePrivilege g cd ret r) := by
  refine .bind (.test fun _ => .ok _) fun inner => ?_
  cases g.size with
  | s16 | s32 => exact .bind .moreLegacy .moreTail
  | s64 => exact .bind .more64 .moreTail

theorem NeverRefuses.samePrivilege {g : Gate} {cd : BitVec 64} : NeverRefuses (samePrivilege g cd ret r) :=
  .test fun _ => .test fun _ => .bind (.pushSel _ _) fun _ => .bind (.push _ _) fun _ => .ok _

theorem NeverRefuses.callGate (sel : BitVec 16) (d : BitVec 64) : NeverRefuses (callGate sel d ret r) := by
  refine .bind (.readGateUpper _) fun h => .test fun _ => .test fun _ => .bind (.readGateCode _) fun cd => ?_
  split
  · exact .morePrivilege
  · exact .samePrivilege

/-! ## IA-32e mode (R243) -/

/-- The dispatch of R174 reaches a task switch only past the code segments and the call gates. -/
theorem NeverRefuses.farDispatch {k : Size} {f : FarPtr} {d : BitVec 64}
    (h : (segFromDesc f.sel d).isCode = true ∨ isCallGate r.st.lma d = true) :
    NeverRefuses (farDispatch k f d ret r) := by
  unfold Machine.farDispatch
  split
  case isTrue => exact .conformingCall
  split
  case isTrue => exact .nonconformingCall
  case isFalse hconf hnonconf =>
    have hnotCode : (segFromDesc f.sel d).isCode ≠ true := fun hcode =>
      hconf (by rw [isConforming_eq_not hcode, Bool.not_eq_true', ← Bool.not_eq_true]; exact hnonconf)
    rw [if_pos (h.resolve_left hnotCode)]
    exact .callGate _ _

/-- The type test of IA-32e mode lets neither a task gate nor a `TSS` pass (42_far_call_protected.md R173). -/
theorem NeverRefuses.farProtected {k : Size} {f : FarPtr} (hl : r.st.lma = true) :
    NeverRefuses (farProtected k f ret r) := by
  refine .test fun _ => ?_
  split
  · exact .raise _ _ _ _
  · refine .test fun htype => .farDispatch ?_
    simpa [farTypeOk, isCallGate, isCallGate16, isCallGate32, hl, or_iff_not_imp_left] using htype

end

/-- No instruction reaches a refusal of its own in IA-32e mode. -/
theorem NeverRefuses.bodyOf (i : Instr) {s : State} (hl : s.lma = true) :
    NeverRefuses (bodyOf i s (startRun s)) := by
  cases i with
  | callRel16 | callRel32 | callRel64 => exact .nearTransfer
  | callRm16 | callRm32 | callRm64 => exact .nearIndirect
  | callPtr1616Real => exact .farReal16 _
  | callPtr1632Real => exact .farReal32 _
  | callPtr1616Prot | callPtr1632Prot => exact .farProtected hl
  | callM1616Real => exact .bind (.readFarPtr _ _ _) fun _ => .farReal16 _
  | callM1632Real => exact .bind (.readFarPtr _ _ _) fun _ => .farReal32 _
  | callM1616Prot | callM1632Prot | callM1664 => exact .bind (.readFarPtr _ _ _) fun _ => .farProtected hl
  | illegal9A64 | illegalFF3Reg => exact nofun

/-- Settles O50: the type test of R173 keeps every call of IA-32e mode from the switch. -/
theorem noTaskSwitchInIa32e : Obligations.NoTaskSwitchInIa32e := by
  refine ⟨fun i s f d hcall hl hsys htype => ?faults, fun i s hl hrefused => ?refused⟩
  case faults =>
    refine typeTestFaults i s f d hcall (by simp [hsys]) ?_
    rw [if_pos hl]
    rintro ⟨-, hgate⟩
    simp [hgate] at htype
  case refused =>
    rw [exec_eq_runCall, runCall_refused] at hrefused
    rcases hrefused with ⟨-, hform⟩ | ⟨-, -, hbody⟩
    · cases hform
    · exact NeverRefuses.bodyOf i hl _ hbody

end Sys2Proof.Machine
end

section
/-! The mode after a completed `CALL` (10_state.md R29, 60_exceptions.md R271): `PE`, `VM` and `LMA` stay, and in
IA-32e mode the `L` bit of the code segment loaded decides. -/

namespace Sys2Proof.Machine

/-- In IA-32e mode the `L` bit of `CS` tells 64-bit mode from compatibility mode (R29). -/
theorem mode_of_ia32e {s : State} (hpe : s.pe = true) (hvm : s.vm = false) (hl : s.lma = true) :
    s.mode = if s.cs.l then .long64 else .compat := by
  rw [State.mode, hpe, hvm, hl]
  cases s.cs.l <;> rfl

theorem lma_and_l_of_long64 {s : State} (h : s.mode = .long64) : s.lma = true ∧ s.cs.l = true := by
  unfold State.mode at h
  split_ifs at h
  simp_all

theorem l_of_compat {s : State} (h : s.mode = .compat) : s.cs.l = false := by
  unfold State.mode at h
  split_ifs at h
  simp_all

/-- With `PE`, `VM` and `LMA` kept, the mode stays or passes between compatibility and 64-bit mode (R271). -/
theorem SameRest.mode_cases {s t : State} (h : SameRest s t) : t.mode = s.mode ∨
    (s.mode = .compat ∧ t.mode = .long64) ∨ (s.mode = .long64 ∧ t.mode = .compat) := by
  cases hl : s.lma with
  | false => exact .inl (h.mode_legacy hl)
  | true =>
    cases hpe : s.pe with
    | false => exact .inl (by simp [State.mode, h.pe, hpe])
    | true =>
      cases hvm : s.vm with
      | true => exact .inl (by simp [State.mode, h.pe, h.vm, hpe, hvm])
      | false =>
        rw [mode_of_ia32e hpe hvm hl, mode_of_ia32e (h.pe.trans hpe) (h.vm.trans hvm) (h.lma.trans hl)]
        cases s.cs.l <;> cases t.cs.l <;> simp

/-- Near calls keep `CS`, and those of real-address and virtual-8086 mode its attributes (R149, R163). -/
theorem exec_next_mode_of_not_farProt {i : Instr} {s t : State} (hfar : isFarProt i ≠ true)
    (hexec : exec i s = .next t) : t.mode = s.mode := by
  refine (exec_next_sameRest hexec).mode ?_
  rcases exec_next_kinds hexec with hnear | hreal | hprot
  · obtain ⟨-, hcs, -⟩ := nearCallFrame i s t hnear hexec
    rw [hcs]
  · obtain ⟨f, rfl⟩ := exec_farReal_next hreal hexec
    rw [farRealDone_st]
    rfl
  · exact absurd hprot hfar

/-- A call through a gate that completes has loaded the code segment the gate names (R206 to R209, R215 to R217). -/
theorem GateCallTo.cs_l_next {i : Instr} {s t : State} {f : FarPtr} {d h cd : BitVec 64}
    (hcall : GateCallTo i s f d h cd) (hexec : exec i s = .next t) :
    t.cs.l = (segFromDesc (gateOf s.lma d h).sel cd).l := by
  cases hmore : goesToMorePrivilege (gateOf s.lma d h) cd s with
  | true =>
    obtain ⟨w, v, hdone, rfl⟩ := hcall.more_next hmore hexec
    obtain ⟨-, hcs, -⟩ := morePrivilege_tail hdone.shadow
    rw [hcs, hdone.entered.cs]
    rfl
  | false =>
    obtain ⟨r, hr, rfl⟩ := settle_next.1 (hcall.exec_same hmore ▸ hexec)
    obtain ⟨hcs, -⟩ := samePrivilege_fields hr
    rw [hcs]
    rfl

/-- A call to a code segment that completes has loaded it (R178). -/
theorem FarCallTo.cs_l_next {i : Instr} {s t : State} {f : FarPtr} {d : BitVec 64} (hcall : FarCallTo i s f d)
    (hcode : (segFromDesc f.sel d).isCode = true) (hexec : exec i s = .next t) : t.cs.l = d.getLsbD 53 := by
  obtain ⟨-, rfl⟩ := hcall.code_next hcode hexec
  obtain ⟨hcs, -⟩ := codeDone_fields (formSize i) f d (codeLip i s (segFromDesc f.sel d)) (nrip i s) (startRun s)
  rw [codeRun, hcs]
  rfl

/-- Out of 64-bit mode leads no gate, only a code segment with `L` 0 (R271). -/
theorem exec_next_leaves_long64 {i : Instr} {s t : State} (hexec : exec i s = .next t) (hs : s.mode = .long64)
    (ht : t.mode = .compat) : ∃ f d, FarCallTo i s f d ∧
      (segFromDesc f.sel d).isCode = true ∧ d.getLsbD 53 = false := by
  have hfar : isFarProt i = true := by
    by_contra hnot
    rw [exec_next_mode_of_not_farProt hnot hexec, hs] at ht
    cases ht
  obtain ⟨f, d, hcall, hcode | ⟨h, cd, hgate⟩⟩ := exec_farProt_next_cases hfar hexec
  · exact ⟨f, d, hcall, hcode, (hcall.cs_l_next hcode hexec).symm.trans (l_of_compat ht)⟩
  · have hlong := hgate.mode_long64 (lma_and_l_of_long64 hs).1 (exec_next_sameRest hexec) (hgate.cs_l_next hexec)
    rw [hlong] at ht
    cases ht

/-- Settles O53: what no `CALL` changes fixes the mode but for `CS.L`, and `CS` is loaded by far calls only. -/
theorem modeChangesOnlyWithinIa32e : Obligations.ModeChangesOnlyWithinIa32e := by
  intro i s t hexec
  have hrest := exec_next_sameRest hexec
  refine ⟨hrest.pe, hrest.vm, hrest.lma, hrest.mode_cases, fun hs ht => ⟨?_, (lma_and_l_of_long64 ht).2⟩,
    exec_next_leaves_long64 hexec⟩
  by_contra hnot
  rw [exec_next_mode_of_not_farProt hnot hexec, hs] at ht
  cases ht

end Sys2Proof.Machine
end

section
/-! What the faults of a `CALL` can be (60_exceptions.md R260 to R265): exception, error code, rule, and the bytes
written before. First the near calls, the far calls of real-address mode and those to a code segment. -/

namespace Sys2Proof.Machine

/-! ## What a fault can be -/

/-- The rules whose tests stand after a write: the far shadow frame, the supervisor token, the parameters. -/
def lateRules : List RuleId := [.r180, .r212, .r214]

/-- The bytes a call to more privilege may have written before the tests of R212 and R214: items on the new stack and
the accessed bits of the segments loaded. -/
def moreWrites (g : Gate) (sd : BitVec 64) (inner : InnerStack) (cd : BitVec 64) (s : State) : List Nat :=
  newStackWrites g sd inner s ++ accessedWrites g.sel cd s ++
    (if s.lma then [] else accessedWrites inner.ss sd s)

/-- The exceptions of `CALL` with their codes, rules and bytes written. -/
inductive FaultKind (i : Instr) (s : State) : Exc → Option (BitVec 16) → RuleId → List Nat → Prop
  /-- `LOCK`, or an encoding that is not defined (30_encoding.md R113) -/
  | undefined : FaultKind i s .ud none .r113 []
  /-- a test that reports no selector, before any write -/
  | zeroCode {x : Exc} {rule : RuleId} (hx : x = .gp ∨ x = .ss) (hrule : rule ∉ lateRules) :
      FaultKind i s x (some 0) rule []
  /-- a test of a far call on the selector it reports, before any write -/
  | selectorCode {x : Exc} {sel : BitVec 16} {rule : RuleId} (hfar : isFarProt i = true)
      (hx : x ∈ [Exc.gp, .ss, .np, .ts]) (hrule : rule ∉ lateRules) :
      FaultKind i s x (some (errorCode sel)) rule []
  /-- the first push of a gate call at the same level, on a stack that takes no writes (20_memory.md R65) -/
  | pushRefused {f : FarPtr} {d h cd : BitVec 64} (hcall : GateCallTo i s f d h cd) (hl : s.lma = false)
      (hsame : goesToMorePrivilege (gateOf s.lma d h) cd s = false) (hw : stackWritable s = false) :
      FaultKind i s .gp (some 0) .r65 (accessedWrites (gateOf s.lma d h).sel cd s)
  /-- the far shadow frame (42_far_call_protected.md R180) -/
  | farShadow {f : FarPtr} {d : BitVec 64} (hcall : FarCallTo i s f d) (hcode : (segFromDesc f.sel d).isCode = true) :
      FaultKind i s .gp (some 0) .r180 (codeSegmentWrites (formSize i) f d s)
  /-- the supervisor token or a parameter (43_call_gate.md R212, R214) -/
  | newStack {f : FarPtr} {d h cd sd : BitVec 64} {x : Exc} {rule : RuleId} {wrote : List Nat}
      (hcall : GateCallTo i s f d h cd) (hmore : goesToMorePrivilege (gateOf s.lma d h) cd s = true)
      (hfetch : s.lma = false → fetchDescriptor s (tssInnerStack s (descDpl cd)).ss = some sd)
      (hx : x = .gp ∨ x = .ss) (hrule : rule = .r212 ∨ rule = .r214)
      (hwrote : wrote ⊆ moreWrites (gateOf s.lma d h) sd (tssInnerStack s (descDpl cd)) cd s) :
      FaultKind i s x (some 0) rule wrote

/-! ## What an operation raises -/

/-- Every exception the operation raises is as `P` says. -/
def RaisesOnly {α : Type} (P : Exc → Option (BitVec 16) → RuleId → List Nat → Prop) (x : Except Halt α) :
    Prop :=
  ∀ e code rule wrote draws, x = .error (.exc e code rule wrote draws) → P e code rule wrote

section
variable {α β : Type} {P : Exc → Option (BitVec 16) → RuleId → List Nat → Prop}

theorem RaisesOnly.ok (a : α) : RaisesOnly P (.ok a) := nofun

theorem RaisesOnly.exc {x : Exc} {code : Option (BitVec 16)} {rule : RuleId} {wrote : List Nat} {draws : Nat}
    (h : P x code rule wrote) : RaisesOnly P (.error (.exc x code rule wrote draws) : Except Halt α) := by
  rintro _ _ _ _ _ ⟨⟩
  exact h

theorem RaisesOnly.bind {x : Except Halt α} {f : α → Except Halt β} (hx : RaisesOnly P x)
    (hf : ∀ a, x = .ok a → RaisesOnly P (f a)) : RaisesOnly P (x >>= f) := by
  intro e code rule wrote draws h
  rcases except_bind_error.1 h with h | ⟨a, ha, h⟩
  · exact hx _ _ _ _ _ h
  · exact hf a ha _ _ _ _ _ h

theorem RaisesOnly.test {bad : Bool} {r : Run} {x : Exc} {code : BitVec 16} {rule : RuleId}
    {f : Unit → Except Halt β} (hbad : P x (some code) rule r.wrote) (hf : bad = false → RaisesOnly P (f ())) :
    RaisesOnly P (raiseIf bad r x code rule >>= f) := by
  cases bad with
  | true => exact .exc hbad
  | false => exact hf rfl

/-- With room for a selector and a value, only a stack that takes no writes refuses the pushes (20_memory.md R65,
R67). -/
theorem RaisesOnly.selThenPush {k : Size} {sel : BitVec 16} {v : BitVec 64} {r : Run} {rest : Run → Except Halt β}
    (hroom : stackRoom r.st (2 * k.bytes) k.bytes = true)
    (hrefused : stackWritable r.st = false → P .gp (some 0) .r65 r.wrote)
    (hrest : RaisesOnly P (rest (pushed k.bytes v (selPushed k sel r)))) :
    RaisesOnly P (pushSel k sel r >>= fun w => push k.bytes v w >>= rest) := by
  cases hw : stackWritable r.st with
  | false =>
    rw [pushSel, push_error (segFault_push_notWritable hroom hw)]
    exact .exc (hrefused hw)
  | true =>
    rw [← bind_assoc, selThenPush_ok.2 ⟨TwoPushesOk.of_room (stackWritable_iff.1 hw) hroom, rfl⟩]
    exact hrest

end

/-- A segment-relative access raises `#GP` or `#SS` (20_memory.md R65). -/
theorem segFault_exc {s : State} {name : SegName} {g : Seg} {off : BitVec 64} {n : Nat} {write : Bool} {x : Exc}
    (h : segFault s name g off n write = some x) : x = .gp ∨ x = .ss := by
  have hexc : segExc name = .gp ∨ segExc name = .ss := by cases name <;> simp [segExc]
  by_cases hmode : s.mode = .long64
  · rw [segFault_long64 hmode] at h
    split_ifs at h
    exact Option.some.inj h ▸ hexc
  · rw [segFault_of_not_long64 hmode] at h
    split_ifs at h
    · exact Option.some.inj h ▸ .inl rfl
    · exact Option.some.inj h ▸ hexc

/-! ## Tests before any write -/

section
variable {i : Instr} {s : State} {α : Type} {bad : Bool} {x : Exc} {rule : RuleId} {f : Unit → Except Halt α}

theorem RaisesOnly.zeroTest (hx : x = .gp ∨ x = .ss) (hrule : rule ∉ lateRules)
    (hf : bad = false → RaisesOnly (FaultKind i s) (f ())) :
    RaisesOnly (FaultKind i s) (raiseIf bad (startRun s) x 0 rule >>= f) :=
  .test (.zeroCode hx hrule) hf

theorem RaisesOnly.selectorTest {sel : BitVec 16} (hfar : isFarProt i = true) (hx : x ∈ [Exc.gp, .ss, .np, .ts])
    (hrule : rule ∉ lateRules) (hf : bad = false → RaisesOnly (FaultKind i s) (f ())) :
    RaisesOnly (FaultKind i s) (raiseIf bad (startRun s) x (errorCode sel) rule >>= f) :=
  .test (.selectorCode hfar hx hrule) hf

end

/-! ## Near calls and the far calls of real-address mode (40_near_call.md, 41_far_call_real.md) -/

section
variable {i : Instr} {s : State} {ret : BitVec 64}

/-- A fault of an operand read or of a first push (20_memory.md R65). -/
theorem FaultKind.access {x : Exc} (hx : x = .gp ∨ x = .ss) : FaultKind i s x (some 0) .r65 [] :=
  .zeroCode hx (by decide)

theorem RaisesOnly.nearTransfer {k : Size} {rule : RuleId} {target : BitVec 64} {copy : Bool}
    (hrule : rule ∉ lateRules) : RaisesOnly (FaultKind i s) (nearTransfer k rule target ret copy (startRun s)) := by
  have htarget : nearTargetRule k rule ∉ lateRules := by
    cases k with
    | s16 | s32 => exact hrule
    | s64 => exact (by decide : RuleId.r150 ∉ lateRules)
  refine .zeroTest (.inl rfl) htarget fun _ => .zeroTest (.inr rfl) hrule fun _ => .bind ?_ fun _ _ => .ok _
  cases hpush : segFault s .ss s.ss (pushOffset s k.bytes) k.bytes true with
  | some x =>
    rw [push_error (r := startRun s) hpush]
    exact .exc (.access (segFault_exc hpush))
  | none =>
    rw [(push_ok (r := startRun s)).2 ⟨hpush, rfl⟩]
    exact .ok _

theorem RaisesOnly.nearIndirect {k : Size} {rule : RuleId} {p : Prefixes} {o : RmOperand}
    (hrule : rule ∉ lateRules) : RaisesOnly (FaultKind i s) (nearIndirect k rule p o ret (startRun s)) := by
  refine .bind ?_ fun _ _ => .bind (.nearTransfer hrule) fun _ _ => .ok _
  rw [readRm_startRun]
  cases hdest : destFault s p ret k o with
  | none => exact .ok _
  | some x =>
    cases o with
    | reg => cases hdest
    | mem => exact .exc (.access (segFault_exc hdest))

theorem RaisesOnly.farRealEnter {k : Size} {f : FarPtr} (hroom : stackRoom s (2 * k.bytes) k.bytes = true) :
    RaisesOnly (FaultKind i s) (farRealEnter k f ret (startRun s)) :=
  .selThenPush hroom (fun _ => .access (.inl rfl)) (.ok _)

theorem RaisesOnly.farReal16 (f : FarPtr) : RaisesOnly (FaultKind i s) (farReal16 f ret (startRun s)) := by
  rw [farReal16_eq]
  exact .zeroTest (.inr rfl) (by decide) fun hroom => .farRealEnter (k := .s16) ((Bool.not_eq_false' _).mp hroom)

theorem RaisesOnly.farReal32 (f : FarPtr) : RaisesOnly (FaultKind i s) (farReal32 f ret (startRun s)) := by
  rw [farReal32_eq]
  exact .zeroTest (.inr rfl) (by decide) fun hroom => .zeroTest (.inl rfl) (by decide) fun _ =>
    .farRealEnter (k := .s32) ((Bool.not_eq_false' _).mp hroom)

end

/-! ## Far calls to a code segment (42_far_call_protected.md R176 to R180) -/

section
variable {i : Instr} {s : State} {f : FarPtr} {d lip ret : BitVec 64}

theorem RaisesOnly.farShadowStackPush {P : Exc → Option (BitVec 16) → RuleId → List Nat → Prop} {c : Seg}
    {cs : BitVec 16} {r : Run} (h : P .gp (some 0) .r180 r.wrote) : RaisesOnly P (farShadowStackPush c cs lip r) := by
  unfold Machine.farShadowStackPush
  split
  · exact .test h fun _ => .ok _
  · exact .ok _

/-- With room for both items, what is left to fail is the first push and the far shadow frame. -/
theorem FarCallTo.raises_codeSegmentEnter (hcall : FarCallTo i s f d) (hcode : (segFromDesc f.sel d).isCode = true)
    (hroom : stackRoom s (2 * (formSize i).bytes) (formSize i).bytes = true) :
    RaisesOnly (FaultKind i s) (codeSegmentEnter (formSize i) f d lip ret (startRun s)) := by
  have hshadow : FaultKind i s .gp (some 0) .r180 (codeEntered (formSize i) f d ret (startRun s)).wrote := by
    rw [codeEntered_wrote]
    exact .farShadow hcall hcode
  rw [codeSegmentEnter, farReturnPush, bind_assoc]
  exact .selThenPush hroom (fun _ => .access (.inl rfl)) (.bind (.farShadowStackPush hshadow) fun _ _ => .ok _)

theorem FarCallTo.raises_codeSegmentTransfer (hcall : FarCallTo i s f d)
    (hcode : (segFromDesc f.sel d).isCode = true) {rule : RuleId} (hrule : rule ∉ lateRules) :
    RaisesOnly (FaultKind i s) (codeSegmentTransfer rule (formSize i) f d lip ret (startRun s)) := by
  rw [codeSegmentTransfer_eq]
  exact .selectorTest hcall.far (by decide) hrule fun _ => .zeroTest (.inr rfl) hrule fun hroom =>
    .zeroTest (.inl rfl) hrule fun _ => .zeroTest (.inl rfl) hrule fun _ =>
      hcall.raises_codeSegmentEnter hcode ((Bool.not_eq_false' _).mp hroom)

theorem FarCallTo.raises_conformingCall (hcall : FarCallTo i s f d)
    (hconf : (segFromDesc f.sel d).isConforming = true) :
    RaisesOnly (FaultKind i s) (conformingCall (formSize i) f d ret (startRun s)) :=
  .selectorTest hcall.far (by decide) (by decide) fun _ => .selectorTest hcall.far (by decide) (by decide) fun _ =>
    hcall.raises_codeSegmentTransfer (isCode_of_isConforming hconf) (by decide)

theorem FarCallTo.raises_nonconformingCall (hcall : FarCallTo i s f d)
    (hnonconf : (segFromDesc f.sel d).isNonconforming = true) :
    RaisesOnly (FaultKind i s) (nonconformingCall (formSize i) f d ret (startRun s)) :=
  .selectorTest hcall.far (by decide) (by decide) fun _ => .selectorTest hcall.far (by decide) (by decide) fun _ =>
    hcall.raises_codeSegmentTransfer (isCode_of_isNonconforming hnonconf) (by decide)

end

end Sys2Proof.Machine
end

section
/-! The faults of calls through a gate (43_call_gate.md R200 to R218) and of task gates (44_task_switch.md R240, R241);
with them the faults of every instruction. -/

namespace Sys2Proof.Machine

/-! ## The checks on a gate and on a task gate (43_call_gate.md R200, R201, 44_task_switch.md R240, R241) -/

section
variable {i : Instr} {s : State} {d : BitVec 64}

theorem RaisesOnly.readGateUpper (hfar : isFarProt i = true) (sel : BitVec 16) :
    RaisesOnly (FaultKind i s) (readGateUpper sel (startRun s)) := by
  rw [readGateUpper_eq]
  exact .selectorTest hfar (by decide) (by decide) fun _ => .selectorTest hfar (by decide) (by decide) fun _ => .ok _

theorem RaisesOnly.readGateCode (hfar : isFarProt i = true) (g : Gate) :
    RaisesOnly (FaultKind i s) (readGateCode g (startRun s)) := by
  refine .zeroTest (.inl rfl) (by decide) fun _ => ?_
  split
  · exact .exc (.selectorCode hfar (by decide) (by decide))
  · exact .selectorTest hfar (by decide) (by decide) fun _ => .selectorTest hfar (by decide) (by decide) fun _ =>
      .selectorTest hfar (by decide) (by decide) fun _ => .ok _

theorem RaisesOnly.switchTasks : RaisesOnly (FaultKind i s) switchTasks := nofun

theorem RaisesOnly.taskGate (hfar : isFarProt i = true) (sel : BitVec 16) :
    RaisesOnly (FaultKind i s) (taskGate sel d (startRun s)) := by
  refine .selectorTest hfar (by decide) (by decide) fun _ => .selectorTest hfar (by decide) (by decide) fun _ =>
    .selectorTest hfar (by decide) (by decide) fun _ => ?_
  split
  · exact .exc (.selectorCode hfar (by decide) (by decide))
  · exact .selectorTest hfar (by decide) (by decide) fun _ => .selectorTest hfar (by decide) (by decide) fun _ =>
      .selectorTest hfar (by decide) (by decide) fun _ => .switchTasks

theorem RaisesOnly.taskStateSegment (hfar : isFarProt i = true) (sel : BitVec 16) :
    RaisesOnly (FaultKind i s) (taskStateSegment sel d (startRun s)) :=
  .selectorTest hfar (by decide) (by decide) fun _ => .selectorTest hfar (by decide) (by decide) fun _ => .switchTasks

end

/-! ## Calls through a gate at the same level (43_call_gate.md R215 to R218) -/

section
variable {i : Instr} {s : State} {f : FarPtr} {d h cd ret : BitVec 64}

theorem sameRule_not_late (k : Size) : sameRule k ∉ lateRules := by cases k <;> decide

/-- A 64-bit gate pushes on a flat stack, a 16- or 32-bit gate on the caller's (20_memory.md R65). -/
theorem GateCallTo.sameBranched_notWritable (hcall : GateCallTo i s f d h cd)
    (hw : stackWritable (sameBranched (gateOf s.lma d h) cd (startRun s)).st = false) :
    s.lma = false ∧ stackWritable s = false := by
  obtain ⟨hss, -⟩ := sameBranched_frame (gateOf s.lma d h) cd s
  rw [stackWritable, hcall.mode_sameBranched, hss] at hw
  cases hl : s.lma with
  | true => simp [hl] at hw
  | false =>
    rw [hl] at hw
    exact ⟨rfl, hw⟩

theorem GateCallTo.raises_samePrivilege (hcall : GateCallTo i s f d h cd)
    (hsame : goesToMorePrivilege (gateOf s.lma d h) cd s = false) :
    RaisesOnly (FaultKind i s) (samePrivilege (gateOf s.lma d h) cd ret (startRun s)) := by
  have hrule := sameRule_not_late (gateOf s.lma d h).size
  rw [samePrivilege_eq]
  refine .test (.zeroCode (.inr rfl) hrule) fun hroom => .test (.zeroCode (.inl rfl) hrule) fun _ => ?_
  refine .selThenPush (hcall.sameRoom_eq ▸ (Bool.not_eq_false' _).mp hroom) (fun hw => ?_) (.ok _)
  obtain ⟨hl, hw⟩ := hcall.sameBranched_notWritable hw
  rw [sameBranched_wrote]
  exact .pushRefused hcall hl hsame hw

end

/-! ## Calls through a gate to more privilege (43_call_gate.md R203 to R214) -/

section
variable {i : Instr} {s : State} {f : FarPtr} {d h cd ret : BitVec 64}

theorem moreRule_not_late (k : Size) : moreRule k ∉ lateRules := by cases k <;> decide

theorem RaisesOnly.readNewStackDesc (hfar : isFarProt i = true) (p : BitVec 2) (sel : BitVec 16) :
    RaisesOnly (FaultKind i s) (readNewStackDesc (startRun s) p sel) := by
  refine .selectorTest hfar (by decide) (by decide) fun _ => ?_
  split
  · exact .exc (.selectorCode hfar (by decide) (by decide))
  · exact .selectorTest hfar (by decide) (by decide) fun _ => .selectorTest hfar (by decide) (by decide) fun _ => .ok _

/-- After the pushes what is left to fail is the token (R212). -/
theorem RaisesOnly.moreTail {P : Exc → Option (BitVec 16) → RuleId → List Nat → Prop} {old : State}
    {p : BitVec 2} {w : Run} (h : P .gp (some 0) .r212 w.wrote) : RaisesOnly P (moreTail old p ret w) := by
  refine .bind ?_ fun _ _ => .ok _
  rw [supervisorShadow_eq]
  split
  · exact .test h fun _ => .ok _
  · exact .ok _

/-- A fault after some items were pushed on the new stack of a 16- or 32-bit gate. -/
theorem GateCallTo.faultKind_legacy {sd : BitVec 64} {x : Exc} {rule : RuleId} {k : Nat} {w : Run}
    (hcall : GateCallTo i s f d h cd) (hmore : goesToMorePrivilege (gateOf s.lma d h) cd s = true)
    (hl : s.lma = false) (hfetch : fetchDescriptor s (tssInnerStack s (descDpl cd)).ss = some sd)
    (hx : x = .gp ∨ x = .ss) (hrule : rule = .r212 ∨ rule = .r214) (hk : k ≤ (gateOf s.lma d h).count + 4)
    (hw : ItemsPushed (gateOf s.lma d h).size.bytes k
      (legacyBranched (gateOf s.lma d h) cd sd (tssInnerStack s (descDpl cd)) (startRun s)) w) :
    FaultKind i s x (some 0) rule w.wrote := by
  refine .newStack hcall hmore (fun _ => hfetch) hx hrule ?_
  rw [moreWrites, if_neg (Bool.eq_false_iff.1 hl)]
  exact hw.legacy_wrote hl (mt hcall.size_eq_s64.1 (Bool.eq_false_iff.1 hl)) hk

/-- Through a 16- or 32-bit gate: the new stack segment, room and target, then a parameter or the token. -/
theorem GateCallTo.raises_moreLegacy (hcall : GateCallTo i s f d h cd)
    (hmore : goesToMorePrivilege (gateOf s.lma d h) cd s = true) (hl : s.lma = false) :
    RaisesOnly (FaultKind i s) (moreLegacy (gateOf s.lma d h) cd ret (tssInnerStack s (descDpl cd)) (startRun s) >>=
      moreTail s (descDpl cd) ret) := by
  have hfar := hcall.call.far
  have hrule := moreRule_not_late (gateOf s.lma d h).size
  rw [moreLegacy_eq, bind_assoc]
  refine .bind (.readNewStackDesc hfar _ _) fun sd hdesc => ?_
  obtain ⟨-, hfetch, -, -, hdata, -⟩ := readNewStackDesc_ok.1 hdesc
  rw [bind_assoc]
  refine .selectorTest hfar (by decide) hrule fun hroom => ?_
  rw [bind_assoc]
  refine .zeroTest (.inl rfl) hrule fun _ => ?_
  rw [Bool.not_eq_false', ← Nat.add_mul] at hroom
  rcases legacyEnter_result (ret := ret) hl ((legacyBranched_room hl hdata (Size.bytes_pos _)).1 hroom) with
    ⟨-, w, henter, -, hw⟩ | ⟨-, x, k, w, hx, hk, henter, hw⟩
  · rw [henter, ok_bind]
    exact .moreTail (hcall.faultKind_legacy hmore hl hfetch (.inl rfl) (.inl rfl) le_rfl hw)
  · rw [henter]
    exact .exc (hcall.faultKind_legacy hmore hl hfetch (hx.symm.imp_left And.left) (.inr rfl) hk hw)

/-- Through a 64-bit gate: room and target, then the token. -/
theorem GateCallTo.raises_more64 (hcall : GateCallTo i s f d h cd)
    (hmore : goesToMorePrivilege (gateOf s.lma d h) cd s = true) (hl : s.lma = true) :
    RaisesOnly (FaultKind i s) (more64 (gateOf s.lma d h) cd ret (tssInnerStack s (descDpl cd)) (startRun s) >>=
      moreTail s (descDpl cd) ret) := by
  have hsize := hcall.size_eq_s64.2 hl
  have hmode := hcall.mode_branched64 (inner := tssInnerStack s (descDpl cd)) hl
  rw [more64_eq hsize, bind_assoc]
  refine .selectorTest hcall.call.far (by decide) (by decide) fun hroom => ?_
  rw [bind_assoc]
  refine .zeroTest (.inl rfl) (by decide) fun _ => ?_
  obtain ⟨w, henter, -, hw⟩ := enter64_result (cd := cd) (ret := ret) hsize
    ((branched64_room hmode).1 ((Bool.not_eq_false' _).mp hroom))
  rw [henter, ok_bind]
  refine .moreTail (.newStack (sd := 0) hcall hmore (by simp [hl]) (.inl rfl) (.inl rfl) ?_)
  rw [moreWrites, if_pos hl, List.append_nil, newStackWrites, hsize]
  exact hw.wrote64 hmode

theorem GateCallTo.raises_morePrivilege (hcall : GateCallTo i s f d h cd)
    (hmore : goesToMorePrivilege (gateOf s.lma d h) cd s = true) :
    RaisesOnly (FaultKind i s) (morePrivilege (gateOf s.lma d h) cd ret (startRun s)) := by
  rw [morePrivilege_eq]
  refine .selectorTest hcall.call.far (by decide) (by decide) fun _ => ?_
  simp only [hcall.size_eq_s64]
  split
  case isTrue hl => exact hcall.raises_more64 hmore hl
  case isFalse hl => exact hcall.raises_moreLegacy hmore (Bool.not_eq_true _ ▸ hl)

/-! ## Far calls of protected, compatibility and 64-bit mode (42_far_call_protected.md R170 to R174) -/

theorem FarCallTo.raises_callGate (hcall : FarCallTo i s f d) (hgate : isCallGate s.lma d = true) :
    RaisesOnly (FaultKind i s) (callGate f.sel d ret (startRun s)) := by
  refine .bind (.readGateUpper hcall.far _) fun h hupper => ?_
  refine .selectorTest hcall.far (by decide) (by decide) fun hpriv => ?_
  refine .selectorTest hcall.far (by decide) (by decide) fun hpresent => ?_
  refine .bind (.readGateCode hcall.far _) fun cd hcode => ?_
  rw [Bool.or_eq_false_iff, decide_eq_false_iff_not, decide_eq_false_iff_not] at hpriv
  have hcall : GateCallTo i s f d h cd :=
    .of_checks hcall hgate hupper hpriv.1 hpriv.2 ((Bool.not_eq_false' _).mp hpresent) hcode
  split
  case isTrue hmore => exact hcall.raises_morePrivilege hmore
  case isFalse hsame => exact hcall.raises_samePrivilege (Bool.not_eq_true _ ▸ hsame)

theorem FarCallTo.raises_farDispatch (hcall : FarCallTo i s f d) :
    RaisesOnly (FaultKind i s) (farDispatch (formSize i) f d ret (startRun s)) := by
  unfold farDispatch
  split
  case isTrue hconf => exact hcall.raises_conformingCall hconf
  split
  case isTrue hnonconf => exact hcall.raises_nonconformingCall hnonconf
  split
  case isTrue hgate => exact hcall.raises_callGate hgate
  split
  · exact .taskGate hcall.far _
  · exact .taskStateSegment hcall.far _

theorem RaisesOnly.farProtected (hfar : isFarProt i = true) (hrun : runnable i s = true)
    (hf : farOperand i s = some (.ok f)) :
    RaisesOnly (FaultKind i s) (farProtected (formSize i) f ret (startRun s)) := by
  refine .zeroTest (.inl rfl) (by decide) fun hnull => ?_
  split
  case h_1 => exact .exc (.selectorCode hfar (by decide) (by decide))
  case h_2 d hfetch =>
    exact .selectorTest hfar (by decide) (by decide) fun _ =>
      (FarCallTo.mk hfar hrun hf hnull hfetch).raises_farDispatch

end

/-! ## Every instruction -/

section
variable {i : Instr} {s : State}

/-- A fault of reading a far address is `#GP` or `#SS` (20_memory.md R65, R68). -/
theorem farMem_exc {p : Prefixes} {ret : BitVec 64} {k : Size} {m : Mem} {x : Exc}
    (h : farMem s p ret k m = .error x) : x = .gp ∨ x = .ss := by
  unfold farMem at h
  split at h
  case h_1 hfault => cases h; exact segFault_exc hfault
  split at h
  case h_1 hfault => cases h; exact segFault_exc hfault
  cases h

theorem farOperand_exc {x : Exc} (h : farOperand i s = some (.error x)) : x = .gp ∨ x = .ss := by
  cases i with
  | callM1616Real | callM1616Prot | callM1632Real | callM1632Prot | callM1664 => exact farMem_exc (Option.some.inj h)
  | _ => simp [farOperand] at h

/-- A far call raises what its operand read raises, then what its transfer raises. -/
theorem RaisesOnly.bodyOf_far (hkind : isFarReal i = true ∨ isFarProt i = true) (hrun : runnable i s = true) :
    RaisesOnly (FaultKind i s) (bodyOf i s (startRun s)) := by
  obtain ⟨x, hx⟩ : ∃ x, farOperand i s = some x := hkind.elim (farReal_operand · s) (farProt_operand · s)
  rw [Machine.bodyOf_far hx]
  cases x with
  | error x => exact .exc (.access (farOperand_exc hx))
  | ok f =>
    change RaisesOnly _ (farTransfer i f (nrip i s) (startRun s))
    unfold farTransfer
    split
    · split
      · exact .farReal16 f
      · exact .farReal32 f
    case isFalse hreal => exact .farProtected (hkind.resolve_left hreal) hrun hx

theorem RaisesOnly.bodyOf (hrun : runnable i s = true) : RaisesOnly (FaultKind i s) (bodyOf i s (startRun s)) := by
  cases i with
  | callRel16 | callRel32 | callRel64 => exact .nearTransfer (by decide)
  | callRm16 | callRm32 | callRm64 => exact .nearIndirect (by decide)
  | callPtr1616Real | callPtr1632Real | callM1616Real | callM1632Real => exact .bodyOf_far (.inl rfl) hrun
  | callPtr1616Prot | callPtr1632Prot | callM1616Prot | callM1632Prot | callM1664 =>
    exact .bodyOf_far (.inr rfl) hrun
  | illegal9A64 | illegalFF3Reg => exact .exc .undefined

/-- Every fault of an instruction: the state it leaves, and what it can be (60_exceptions.md R260, R265). -/
theorem exec_fault {t : State} {x : Exc} {code : Option (BitVec 16)} {rule : RuleId}
    (h : exec i s = .fault (.exception x code rule t)) :
    ∃ wrote draws, t = faultState s wrote draws ∧ FaultKind i s x code rule wrote := by
  rw [exec_eq_runCall, runCall_fault] at h
  obtain ⟨hfits, ⟨-, h⟩ | ⟨hlock, _, _, _, wrote, draws, hbody, h⟩⟩ := h
  · cases h
    exact ⟨[], s.draws, rfl, .undefined⟩
  · cases h
    exact ⟨wrote, draws, rfl, RaisesOnly.bodyOf (by simp [runnable, hfits, hlock]) _ _ _ _ _ hbody⟩

end

end Sys2Proof.Machine
end

section
/-! What every fault has in common: the form of its error code (60_exceptions.md R261 to R263) and the state it leaves
(R265). -/

namespace Sys2Proof.Machine

/-! ## Error codes (R261 to R263) -/

section
variable {i : Instr} {s : State} {x : Exc} {code : Option (BitVec 16)} {rule : RuleId} {wrote : List Nat}

/-- The two low bits of an error code, `EXT` and `IDT`, are 0 (R262). -/
theorem errorCode_and_three_eq_zero (sel : BitVec 16) : errorCode sel &&& 0x3 = 0 := by
  rw [errorCode, BitVec.and_assoc]
  exact BitVec.and_zero

/-- Near calls and the far calls of real-address mode are none of the far calls of the other modes. -/
theorem not_near_or_real_of_farProt (hfar : isFarProt i = true) : ¬ (isNear i = true ∨ isFarReal i = true) := by
  cases i with
  | callPtr1616Prot | callPtr1632Prot | callM1616Prot | callM1632Prot | callM1664 => simp [isNear, isFarReal]
  | _ => simp [isFarProt] at hfar

/-- `#UD` carries no code, every other fault one that is 0 but where a far call of protected mode reports a selector. -/
theorem FaultKind.code_cases (h : FaultKind i s x code rule wrote) :
    (x = .ud ∧ code = none ∧ rule = .r113) ∨ ((x = .gp ∨ x = .ss) ∧ code = some 0) ∨
      (isFarProt i = true ∧ x ∈ [Exc.gp, .ss, .np, .ts] ∧ ∃ sel, code = some (errorCode sel)) := by
  cases h with
  | undefined => exact .inl ⟨rfl, rfl, rfl⟩
  | zeroCode hx | newStack _ _ _ hx => exact .inr (.inl ⟨hx, rfl⟩)
  | pushRefused | farShadow => exact .inr (.inl ⟨.inl rfl, rfl⟩)
  | selectorCode hfar hx => exact .inr (.inr ⟨hfar, hx, _, rfl⟩)

/-- Settles O55: the three forms a code has, each read off. -/
theorem errorCodes : Obligations.ErrorCodes := by
  intro i s t x code rule hexec
  obtain ⟨wrote, draws, -, hkind⟩ := exec_fault hexec
  rcases hkind.code_cases with ⟨rfl, rfl, rfl⟩ | ⟨hx, rfl⟩ | ⟨hfar, hx, sel, rfl⟩
  · exact ⟨.inl ⟨rfl, rfl, rfl⟩, by simp, fun _ => .inl rfl⟩
  · refine ⟨.inr ⟨hx.elim .inl (.inr ∘ .inl), 0, rfl, rfl⟩, ?_, fun _ => .inr rfl⟩
    rcases hx with rfl | rfl <;> simp
  · exact ⟨.inr ⟨by simpa using hx, _, rfl, errorCode_and_three_eq_zero sel⟩, fun _ => hfar,
      fun hnot => absurd hnot (not_near_or_real_of_farProt hfar)⟩

/-! ## The state a fault leaves (R265) -/

theorem accessedWrites_lt {sel : BitVec 16} {d : BitVec 64} : ∀ a ∈ accessedWrites sel d s, a < 2 ^ 64 := by
  intro a ha
  unfold accessedWrites at ha
  split at ha
  · cases ha
  · rw [List.mem_singleton.1 ha]
    exact byteAddr_lt _ _ _

theorem newStackWrites_lt {g : Gate} {sd : BitVec 64} {inner : InnerStack} :
    ∀ a ∈ newStackWrites g sd inner s, a < 2 ^ 64 := by
  intro a ha
  unfold newStackWrites at ha
  split at ha
  · exact storedAddrs_lt ha
  all_goals
    obtain ⟨j, -, ha⟩ := List.mem_flatMap.1 ha
    exact storedAddrs_lt ha

/-- The bytes written before a fault are bytes of the address space. -/
theorem FaultKind.wrote_lt (h : FaultKind i s x code rule wrote) : ∀ a ∈ wrote, a < 2 ^ 64 := by
  cases h with
  | undefined | zeroCode | selectorCode => nofun
  | pushRefused => exact accessedWrites_lt
  | farShadow =>
    simp only [codeSegmentWrites, List.forall_mem_append]
    exact ⟨⟨fun _ => storedAddrs_lt, fun _ => storedAddrs_lt⟩, accessedWrites_lt⟩
  | newStack _ _ _ _ _ hwrote =>
    refine fun a ha => ?_
    have ha := hwrote ha
    simp only [moreWrites, List.mem_append] at ha
    rcases ha with (ha | ha) | ha
    · exact newStackWrites_lt a ha
    · exact accessedWrites_lt a ha
    · split at ha
      · cases ha
      · exact accessedWrites_lt a ha

theorem sameRegisters_faultState (s : State) (wrote : List Nat) (draws : Nat) :
    sameRegisters s (faultState s wrote draws) := by
  cases s
  rfl

theorem faultState_mem (s : State) (wrote : List Nat) (draws : Nat) :
    (faultState s wrote draws).mem = drawBytes wrote draws s.mem := rfl

/-- A fault changes no byte but those written before it. -/
theorem memorySameOutside_faultState (s : State) {wrote wrote' : List Nat} (draws : Nat) (h : wrote ⊆ wrote') :
    memorySameOutside s (faultState s wrote draws) wrote' :=
  fun _ ha => memGet_drawBytes_out wrote draws s.mem (mt (@h _) ha)

theorem FarCallTo.not_near_real_or_operandFault {f : FarPtr} {d : BitVec 64} (hcall : FarCallTo i s f d) :
    ¬ (isNear i = true ∨ isFarReal i = true ∨ ∃ y, farOperand i s = some (.error y)) := by
  rintro (hnear | hreal | ⟨y, hy⟩)
  · exact not_near_or_real_of_farProt hcall.far (.inl hnear)
  · exact not_near_or_real_of_farProt hcall.far (.inr hreal)
  · cases hcall.operand.symm.trans hy

/-- A step faults on its own with nothing written, or as the instruction it decodes does (20_memory.md R89). -/
theorem step_fault {s t : State} {x : Exc} {code : Option (BitVec 16)} {rule : RuleId}
    (h : step s = .fault (.exception x code rule t)) :
    t = s ∨ ∃ i, decode s.ctx (fetchWindow s) = .instr i ∧ exec i s = .fault (.exception x code rule t) := by
  unfold step at h
  cases hd : decode s.ctx (fetchWindow s) with
  | instr i => exact .inr ⟨i, rfl, by rwa [hd] at h⟩
  | tooLong | truncated =>
    rw [hd] at h
    cases h
    exact .inl rfl
  | reject =>
    rw [hd] at h
    cases h

end

/-- Settles O54: by the kinds of faults, whose late ones are the three kinds that come after a write. -/
theorem faultsLeaveRegisters : Obligations.FaultsLeaveRegisters := by
  refine ⟨fun i s t x code rule hexec => ?_, fun s t x code rule => step_fault⟩
  obtain ⟨wrote, draws, rfl, hkind⟩ := exec_fault hexec
  have hwf : memWf s.mem = true → memWf (faultState s wrote draws).mem = true := by
    rw [faultState_mem]
    exact fun hwf => memWf_drawBytes wrote draws hwf hkind.wrote_lt
  refine ⟨sameRegisters_faultState s wrote draws, hwf, ?_⟩
  cases hkind with
  | undefined => exact ⟨fun _ => rfl, fun _ => rfl, fun _ => .inl rfl, nofun, nofun⟩
  | zeroCode _ hrule | selectorCode _ _ hrule =>
    refine ⟨fun _ => rfl, fun _ => rfl, fun _ => .inl rfl, ?_, ?_⟩
    · rintro rfl
      exact absurd hrule (by decide)
    · rintro (rfl | rfl)
      · exact absurd hrule (by decide)
      · exact absurd hrule (by decide)
  | pushRefused hcall hl hsame hw =>
    refine ⟨fun hnone => absurd hnone hcall.call.not_near_real_or_operandFault, fun hnot => absurd hnot (by decide),
      fun _ => .inr ?_, nofun, nofun⟩
    exact ⟨_, _, _, _, hcall, hl, hsame, hw, memorySameOutside_faultState s draws (List.Subset.refl _)⟩
  | farShadow hcall hcode =>
    refine ⟨fun hnone => absurd hnone hcall.not_near_real_or_operandFault, fun hnot => absurd hnot (by decide), nofun,
      fun _ => ?_, nofun⟩
    exact ⟨_, _, hcall, hcode, memorySameOutside_faultState s draws (List.Subset.refl _)⟩
  | newStack hcall hmore hfetch _ hrule hwrote =>
    refine ⟨fun hnone => absurd hnone hcall.call.not_near_real_or_operandFault, ?_, ?_, ?_, fun _ => ?_⟩
    · rcases hrule with rfl | rfl <;> exact fun hnot => absurd hnot (by decide)
    · rcases hrule with rfl | rfl <;> nofun
    · rcases hrule with rfl | rfl <;> nofun
    · exact ⟨_, _, _, _, _, hcall, hmore, hfetch, memorySameOutside_faultState s draws hwrote⟩

end Sys2Proof.Machine
end

section
/-! The launch premises (70_reset_and_hazards.md R301) clause by clause: what each says, that the state after reset
meets them (10_state.md R42), and which of them are left to show of a `CALL` that keeps what every `CALL` keeps. -/

namespace Sys2Proof.Machine

/-! ## The clauses (R301) -/

theorem State.wf_iff (s : State) : s.wf = true ↔ memWf s.mem = true ∧ modeOk s = true ∧ cplOk s = true ∧
    realSegsOk s = true ∧ hiddenPartsOk s = true ∧ ripOk s = true ∧ trOk s = true ∧ cetFieldsOk s = true ∧
    sspOk s = true := by
  simp only [State.wf, Bool.and_eq_true, and_assoc]

/-- The base of `CS` is its selector's where R301 (c) asks for it: what `State.launchOk` adds to `State.wf`. -/
def csBaseOk (s : State) : Bool := !s.mode.isRealLike || s.cs.base == realBase s.cs.sel

theorem State.launchOk_iff (s : State) : s.launchOk = true ↔ s.wf = true ∧ csBaseOk s = true :=
  Bool.and_eq_true_iff

/-- R301 (b) outside real-address and virtual-8086 mode: the levels `CPL` agrees with. -/
structure LevelAgrees (s : State) : Prop where
  rpl : s.cpl = rplOf s.cs.sel
  codeDpl : s.cs.isNonconforming = true → s.cs.dpl = s.cpl
  stackDpl : s.ss.dpl = s.cpl

theorem cplOk_iff {s : State} (h : s.mode.isRealLike = false) : cplOk s = true ↔ LevelAgrees s := by
  have hlevels : cplOk s = (s.cpl == rplOf s.cs.sel && (!s.cs.isNonconforming || s.cs.dpl == s.cpl) &&
      s.ss.dpl == s.cpl) := by
    unfold cplOk
    cases hmode : s.mode with
    | real | v86 => simp [hmode, Mode.isRealLike] at h
    | prot | compat | long64 => rfl
  simp only [hlevels, Bool.and_eq_true, Bool.or_eq_true, Bool.not_eq_true', beq_iff_eq,
    ← Bool.not_eq_true, ← imp_iff_not_or]
  exact ⟨fun ⟨⟨hrpl, hcode⟩, hstack⟩ => ⟨hrpl, hcode, hstack⟩, fun ⟨hrpl, hcode, hstack⟩ => ⟨⟨hrpl, hcode⟩, hstack⟩⟩

theorem hiddenPartsOk_iff (s : State) : hiddenPartsOk s = true ↔ ∀ name, hiddenOk s name = true := by
  constructor
  · intro h name
    refine List.all_eq_true.1 h name ?_
    cases name <;> decide
  · exact fun h => List.all_eq_true.2 fun name _ => h name

theorem ripOk_iff (s : State) : ripOk s = true ↔
    if s.mode = .long64 then canonical s.cpu.laWidth s.rip = true else s.rip.toNat < 2 ^ 32 := by
  unfold ripOk
  by_cases h : s.mode = .long64
  · simp [h]
  · simp [h, upperHalf_eq_zero]

theorem trOk_iff (s : State) : trOk s = true ↔ s.tr.busy = true ∧ (s.lma = true ↔ s.tr.kind = .tss64) := by
  rw [trOk, Bool.and_eq_true]
  refine and_congr_right fun _ => ?_
  rw [beq_iff_eq, Bool.eq_iff_iff, beq_iff_eq]

theorem sspOk_iff (s : State) :
    sspOk s = true ↔ (shadowStackEnabled s s.cpl = true → s.ssp.toNat % 4 = 0) := by
  have haligned : s.ssp.extractLsb' 0 2 = 0#2 ↔ s.ssp.toNat % 4 = 0 := by
    rw [BitVec.toNat_eq, BitVec.extractLsb'_toNat, Nat.shiftRight_zero]
    rfl
  simp only [sspOk, Bool.or_eq_true, Bool.not_eq_true', beq_iff_eq, haligned, ← Bool.not_eq_true,
    ← imp_iff_not_or]

/-! ## Reset (10_state.md R42) -/

/-- Settles O11: after reset the mode is real-address mode and every CET field is 0, so that no clause asks for an
implementation parameter. -/
theorem resetMeetsLaunchPremises : Obligations.ResetMeetsLaunchPremises := by
  have hoff : shadowStackEnabled State.reset State.reset.cpl ≠ true := by
    rw [Ne, shadowStackEnabled_iff, cetActive_iff]
    simp [State.reset]
  have hfields : cetFieldsOk State.reset = true := by
    simp [cetFieldsOk, shadowStackFields, trackingFields, State.reset]
  refine (State.wf_iff _).2 ⟨rfl, rfl, rfl, rfl, (hiddenPartsOk_iff _).2 fun name => ?hidden, rfl, rfl, hfields,
    (sspOk_iff _).2 fun hon => absurd hon hoff⟩
  case hidden => cases name <;> rfl

/-! ## The CET fields (R301 (g)) -/

/-- What a `CALL` may do to a CET register: nothing, or, with indirect-branch tracking, a change outside the
shadow-stack fields (10_state.md R34). -/
def TrackerOnly (ibt : Bool) (v w : BitVec 64) : Prop :=
  w = v ∨ (ibt = true ∧ shadowStackFields w = shadowStackFields v)

theorem TrackerOnly.refl (ibt : Bool) (v : BitVec 64) : TrackerOnly ibt v v := .inl rfl

theorem TrackerOnly.fields {ibt : Bool} {v w : BitVec 64} (h : TrackerOnly ibt v w) :
    shadowStackFields w = shadowStackFields v := by
  rcases h with rfl | ⟨-, h⟩
  · rfl
  · exact h

/-- Arming the tracker writes bit 11, no shadow-stack field (40_near_call.md R147). -/
theorem shadowStackFields_armTracker (v : BitVec 64) :
    shadowStackFields (armTracker v) = shadowStackFields v := by
  have hmask : 0x800#64 &&& 0x3#64 = 0#64 := by decide
  rw [shadowStackFields, armTracker, BitVec.and_or_distrib_right, hmask, BitVec.or_zero, shadowStackFields]

/-- Clearing `SUPPRESS` writes bit 10, no shadow-stack field (42_far_call_protected.md R181). -/
theorem shadowStackFields_clearSuppress (v : BitVec 64) :
    shadowStackFields (clearSuppress v) = shadowStackFields v := by
  have hmask : ~~~0x400#64 &&& 0x3#64 = 0x3#64 := by decide
  rw [shadowStackFields, clearSuppress, BitVec.and_assoc, hmask, shadowStackFields]

theorem hasCetIbt_of_endbranchEnabled {s : State} {p : BitVec 2} (h : endbranchEnabled s p = true) :
    s.cpu.hasCetIbt = true := by
  obtain ⟨hibt, -⟩ := (endbranchEnabled_iff s p).1 h
  exact hibt

theorem hasCetSs_of_shadowStackEnabled {s : State} {p : BitVec 2} (h : shadowStackEnabled s p = true) :
    s.cpu.hasCetSs = true := by
  obtain ⟨hss, -⟩ := (shadowStackEnabled_iff s p).1 h
  exact hss

/-- The tracker update of a far call (R181). -/
theorem TrackerOnly.farEndbranch (s : State) : TrackerOnly s.cpu.hasCetIbt s.uCet (farEndbranch s).uCet ∧
    TrackerOnly s.cpu.hasCetIbt s.sCet (farEndbranch s).sCet := by
  have harmed (v : BitVec 64) : shadowStackFields ((v ||| 0x800) &&& ~~~0x400) = shadowStackFields v :=
    (shadowStackFields_clearSuppress (armTracker v)).trans (shadowStackFields_armTracker v)
  rw [farEndbranch_eq]
  split_ifs with hon h3
  · exact ⟨.inr ⟨hasCetIbt_of_endbranchEnabled hon, harmed _⟩, .refl _ _⟩
  · exact ⟨.refl _ _, .inr ⟨hasCetIbt_of_endbranchEnabled hon, harmed _⟩⟩
  · exact ⟨.refl _ _, .refl _ _⟩

/-- What a completed `CALL` does to the CET registers: the tracker, the shadow-stack pointers where there are shadow
stacks, and `SSP` 4-byte aligned where they are enabled. -/
structure CetKept (s t : State) : Prop where
  user : TrackerOnly s.cpu.hasCetIbt s.uCet t.uCet
  supervisor : TrackerOnly s.cpu.hasCetIbt s.sCet t.sCet
  pointers : s.cpu.hasCetSs = false → t.ssp = s.ssp ∧ t.pl3Ssp = s.pl3Ssp
  aligned : sspOk s = true → shadowStackEnabled s t.cpl = true → t.ssp.toNat % 4 = 0

theorem CetKept.cetFieldsOk {s t : State} (h : CetKept s t) (hrest : SameRest s t) (hs : cetFieldsOk s = true) :
    cetFieldsOk t = true := by
  have htracking {v w : BitVec 64} (hw : TrackerOnly s.cpu.hasCetIbt v w) (hibt : s.cpu.hasCetIbt = false)
      (hv : trackingFields v = 0#64) : trackingFields w = 0#64 := by
    rcases hw with rfl | ⟨hon, -⟩
    · exact hv
    · exact absurd hon (Bool.eq_false_iff.1 hibt)
  simp only [Machine.cetFieldsOk, hrest.cpu, hrest.pl0Ssp, hrest.pl1Ssp, hrest.pl2Ssp, h.user.fields,
    h.supervisor.fields, Bool.and_eq_true, Bool.or_eq_true, beq_iff_eq] at hs ⊢
  obtain ⟨hpointers, htrackers⟩ := hs
  constructor
  · cases hss : s.cpu.hasCetSs with
    | true => exact .inl rfl
    | false =>
      obtain ⟨hssp, hpl3⟩ := h.pointers hss
      rw [hssp, hpl3]
      exact hss ▸ hpointers
  · cases hibt : s.cpu.hasCetIbt with
    | true => exact .inl rfl
    | false =>
      obtain ⟨huser, hsupervisor⟩ := htrackers.resolve_left (Bool.eq_false_iff.1 hibt)
      exact .inr ⟨htracking h.user hibt huser, htracking h.supervisor hibt hsupervisor⟩

/-- Whether shadow stacks are enabled is a matter of the shadow-stack fields (10_state.md R37). -/
theorem CetKept.enabled_eq {s t : State} (h : CetKept s t) (hrest : SameRest s t) (p : BitVec 2) :
    shadowStackEnabled t p = shadowStackEnabled s p := by
  have hbit (v : BitVec 64) : cetShStkEn v = cetShStkEn (shadowStackFields v) := by
    simp [cetShStkEn, shadowStackFields]
  have hcet : cetShStkEn (cetOf t p) = cetShStkEn (cetOf s p) := by
    rw [cetOf_eq, cetOf_eq]
    split_ifs
    · rw [hbit, h.user.fields, ← hbit]
    · rw [hbit, h.supervisor.fields, ← hbit]
  rw [shadowStackEnabled, shadowStackEnabled, hcet, cetActive, cetActive, State.cr4Cet, State.cr4Cet,
    hrest.pe, hrest.vm, hrest.cr4, hrest.cpu]

theorem CetKept.sspOk {s t : State} (h : CetKept s t) (hrest : SameRest s t) (hs : sspOk s = true) :
    sspOk t = true := by
  rw [sspOk_iff, h.enabled_eq hrest]
  exact h.aligned hs

/-! ## What a `CALL` has to show -/

/-- The clauses of R301 that a `CALL` could break, each kept; that `SS` agrees with a descriptor leans on clause (f),
since it is the stack of a 64-bit `TSS` whose selector is NULL (43_call_gate.md R204). -/
structure PremisesKept (s t : State) : Prop where
  rest : SameRest s t
  mem : memWf s.mem = true → memWf t.mem = true
  level : cplOk s = true → cplOk t = true
  realSegs : realSegsOk s = true → realSegsOk t = true
  csBase : csBaseOk s = true → csBaseOk t = true
  csHidden : hiddenOk s .cs = true → hiddenOk t .cs = true
  ssHidden : trOk s = true → hiddenOk s .ss = true → hiddenOk t .ss = true
  rip : ripOk t = true
  cet : CetKept s t

theorem PremisesKept.hiddenPartsOk {s t : State} (h : PremisesKept s t) (htr : trOk s = true)
    (hs : hiddenPartsOk s = true) : hiddenPartsOk t = true := by
  rw [hiddenPartsOk_iff] at hs ⊢
  have hdata {name : SegName} (hne : name ≠ .ss) (hseg : segOf t name = segOf s name) : hiddenOk t name = true := by
    have hname := hs name
    simp only [hiddenOk, beq_false_of_ne hne, hseg, h.rest.lma] at hname ⊢
    exact hname
  intro name
  cases name with
  | es => exact hdata (by decide) h.rest.es
  | cs => exact h.csHidden (hs .cs)
  | ss => exact h.ssHidden htr (hs .ss)
  | ds => exact hdata (by decide) h.rest.ds
  | fs => exact hdata (by decide) h.rest.fs
  | gs => exact hdata (by decide) h.rest.gs

theorem PremisesKept.wf {s t : State} (h : PremisesKept s t) (hs : s.wf = true) : t.wf = true := by
  rw [State.wf_iff] at hs ⊢
  obtain ⟨hmem, hmode, hlevel, hreal, hhidden, -, htr, hfields, hssp⟩ := hs
  have hmode' : modeOk t = modeOk s := by rw [modeOk, modeOk, h.rest.lma, h.rest.pe, h.rest.vm]
  have htr' : trOk t = trOk s := by rw [trOk, trOk, h.rest.tr, h.rest.lma]
  exact ⟨h.mem hmem, hmode' ▸ hmode, h.level hlevel, h.realSegs hreal, h.hiddenPartsOk htr hhidden, h.rip,
    htr' ▸ htr, h.cet.cetFieldsOk h.rest hfields, h.cet.sspOk h.rest hssp⟩

theorem PremisesKept.launchOk {s t : State} (h : PremisesKept s t) (hs : s.launchOk = true) :
    t.launchOk = true := by
  rw [State.launchOk_iff] at hs ⊢
  obtain ⟨hwf, hbase⟩ := hs
  exact ⟨h.wf hwf, h.csBase hbase⟩

end Sys2Proof.Machine
end

section
/-! Every completed `CALL` keeps the launch premises (70_reset_and_hazards.md R301): near calls, far calls of
real-address and virtual-8086 mode, far calls to a code segment, calls through a gate at the same level and to more
privilege, in this order; then the step. -/

namespace Sys2Proof.Machine

/-! ## What any completed `CALL` has -/

theorem exec_next_memWf {i : Instr} {s t : State} (hexec : exec i s = .next t) (hwf : memWf s.mem = true) :
    memWf t.mem = true := by
  obtain ⟨-, -, r, hbody, rfl⟩ := exec_next.1 hexec
  exact (RunGrows.bodyOf hbody).wf hwf

/-- A branch at operand size 16 or 32 stays below 4 GB (10_state.md R22). -/
theorem branchTo_rip_lt (s : State) {k : Size} (hk : k ≠ .s64) (v : BitVec 64) :
    (branchTo s k v).rip.toNat < 2 ^ 32 := by
  have hview : (viewOf .s32 v).toNat < 2 ^ 32 := by
    rw [viewOf_toNat]
    exact Nat.mod_lt _ (by decide)
  cases k with
  | s16 | s32 => exact hview
  | s64 => exact absurd rfl hk

theorem ripOk_of_canonical {s : State} (hmode : s.mode = .long64) (h : canonical s.cpu.laWidth s.rip = true) :
    ripOk s = true := by
  rwa [ripOk_iff, if_pos hmode]

theorem ripOk_of_lt {s : State} (hmode : s.mode ≠ .long64) (h : s.rip.toNat < 2 ^ 32) : ripOk s = true := by
  rwa [ripOk_iff, if_neg hmode]

theorem hiddenOk_cs (s : State) : hiddenOk s .cs = agreesWithDescriptor false s.cs := by
  unfold hiddenOk
  cases s.lma <;> rfl

theorem hiddenOk_ss (s : State) : hiddenOk s .ss =
    ((s.lma && isNullSel s.ss.sel && s.ss.base == 0#64) || agreesWithDescriptor false s.ss) := by
  unfold hiddenOk
  cases s.lma <;> rfl

theorem hiddenOk_ss_congr {s t : State} (hrest : SameRest s t) (hss : t.ss = s.ss) :
    hiddenOk t .ss = hiddenOk s .ss := by
  rw [hiddenOk_ss, hiddenOk_ss, hrest.lma, hss]

/-! ## Near calls (40_near_call.md R140 to R151) -/

/-- The push on the shadow stack takes 4 or 8 bytes, or none (20_memory.md R78). -/
theorem nearShadowPush_ssp_mod (k : Size) (ret : BitVec 64) (r : Run) :
    (nearShadowPush k ret r).st.ssp.toNat % 4 = r.st.ssp.toNat % 4 := by
  have hless {n : Nat} (hn : n = 4 ∨ n = 8) (v : BitVec 64) :
      (shadowPush n v r).st.ssp.toNat % 4 = r.st.ssp.toNat % 4 := by
    rw [shadowPush_ssp, BitVec.toNat_sub, BitVec.toNat_ofNat]
    have := r.st.ssp.isLt
    rcases hn with rfl | rfl <;> omega
  unfold nearShadowPush
  split
  · cases k with
    | s16 | s32 => exact hless (.inl rfl) _
    | s64 => exact hless (.inr rfl) _
  · rfl

theorem nearDone_ssp_mod (k : Size) (target ret : BitVec 64) (copy : Bool) (r : Run) :
    (nearDone k target ret copy r).st.ssp.toNat % 4 = r.st.ssp.toNat % 4 := by
  unfold nearDone
  rw [Run.upd_st, branchTo_eq, State.setRip_ssp]
  cases copy with
  | false => rfl
  | true => exact nearShadowPush_ssp_mod k ret (pushed k.bytes ret r)

/-- A near call that completes has branched to a target inside the code segment, or canonical at operand size 64
(R141 to R146, R150); `SSP` keeps its alignment. -/
theorem exec_near_next_target {i : Instr} {s t : State} (hnear : isNear i = true) (hexec : exec i s = .next t) :
    ∃ target, nearTargetBad s (formSize i) target = false ∧ t.rip = (branchTo s (formSize i) target).rip ∧
      t.ssp.toNat % 4 = s.ssp.toNat % 4 := by
  have hbranch (k : Size) (target : BitVec 64) (copy : Bool) :
      (nearDone k target (nrip i s) copy (startRun s)).st.rip = (branchTo s k target).rip := by
    rw [nearDone_st]
    rfl
  have hssp (k : Size) (target : BitVec 64) (copy : Bool) := nearDone_ssp_mod k target (nrip i s) copy (startRun s)
  obtain ⟨-, -, r, hbody, rfl⟩ := exec_next.1 hexec
  cases i with
  | callRel16 | callRel32 | callRel64 =>
    obtain ⟨hinside, -, -, rfl⟩ := nearTransfer_ok.1 hbody
    exact ⟨_, hinside, hbranch _ _ _, hssp _ _ _⟩
  | callRm16 | callRm32 | callRm64 =>
    obtain ⟨target, w, -, hw, rfl⟩ := nearIndirect_ok.1 hbody
    obtain ⟨hinside, -, -, rfl⟩ := nearTransfer_ok.1 hw
    rw [Run.upd_st, trackerUpdate_st]
    exact ⟨target, hinside, hbranch _ _ _, hssp _ _ _⟩
  | _ => simp [isNear] at hnear

/-- The two CET registers see the tracker only (R147). -/
theorem TrackerOnly.near {i : Instr} {s t : State} (hnear : isNear i = true) (hexec : exec i s = .next t) :
    TrackerOnly s.cpu.hasCetIbt s.uCet t.uCet ∧ TrackerOnly s.cpu.hasCetIbt s.sCet t.sCet := by
  have htracker := nearCallTracker i s t hnear hexec
  extract_lets arms at htracker
  obtain ⟨huser, hsupervisor, hnone⟩ := htracker
  by_cases harms : arms
  · have hibt : s.cpu.hasCetIbt = true := by
      obtain ⟨-, hon, -⟩ := harms
      obtain ⟨hon, -⟩ := (endbranchEnabledAndNotSuppressed_iff s s.cpl).1 hon
      exact hasCetIbt_of_endbranchEnabled hon
    by_cases h3 : s.cpl = 3
    · obtain ⟨hu, hs⟩ := huser ⟨harms, h3⟩
      rw [hu, hs]
      exact ⟨.inr ⟨hibt, shadowStackFields_armTracker _⟩, .refl _ _⟩
    · obtain ⟨hs, hu⟩ := hsupervisor ⟨harms, h3⟩
      rw [hu, hs]
      exact ⟨.refl _ _, .inr ⟨hibt, shadowStackFields_armTracker _⟩⟩
  · obtain ⟨hu, hs⟩ := hnone harms
    rw [hu, hs]
    exact ⟨.refl _ _, .refl _ _⟩

theorem CetKept.near {i : Instr} {s t : State} (hnear : isNear i = true) (hexec : exec i s = .next t) :
    CetKept s t := by
  obtain ⟨-, -, hcpl, -, hpl3, -, -, hoff, -⟩ := nearCallFrame i s t hnear hexec
  obtain ⟨-, -, -, hmod⟩ := exec_near_next_target hnear hexec
  obtain ⟨huser, hsupervisor⟩ := TrackerOnly.near hnear hexec
  refine ⟨huser, hsupervisor, fun hss => ⟨hoff ?_, hpl3⟩, fun hs hon => ?_⟩
  · exact Bool.eq_false_iff.2 fun hon => Bool.eq_false_iff.1 hss (hasCetSs_of_shadowStackEnabled hon)
  · rw [hmod]
    exact (sspOk_iff s).1 hs (hcpl ▸ hon)

theorem PremisesKept.near {i : Instr} {s t : State} (hnear : isNear i = true) (hexec : exec i s = .next t) :
    PremisesKept s t := by
  have hrest := exec_next_sameRest hexec
  have hmode : t.mode = s.mode := exec_next_mode_of_not_farProt
    (fun hfar => not_near_or_real_of_farProt hfar (.inl hnear)) hexec
  obtain ⟨-, hcs, hcpl, hss, -⟩ := nearCallFrame i s t hnear hexec
  have hlevel : cplOk t = cplOk s := by simp only [cplOk, hmode, hcpl, hcs, hss]
  have hreal : realSegsOk t = realSegsOk s := by simp only [realSegsOk, realCsOk, hmode, hcs, hss]
  have hbase : csBaseOk t = csBaseOk s := by simp only [csBaseOk, hmode, hcs]
  refine ⟨hrest, exec_next_memWf hexec, fun h => hlevel ▸ h, fun h => hreal ▸ h, fun h => hbase ▸ h, fun h => ?_,
    fun _ h => hiddenOk_ss_congr hrest hss ▸ h, ?rip, CetKept.near hnear hexec⟩
  case rip =>
    obtain ⟨target, hinside, hrip, -⟩ := exec_near_next_target hnear hexec
    obtain ⟨hfits, -, -⟩ := exec_next.1 hexec
    have hsize : formSize i = .s64 ↔ s.mode = .long64 :=
      formSize_of_formFits hnear (Bool.and_eq_true_iff.1 hfits).2
    by_cases hk : formSize i = .s64
    · rw [hk] at hinside hrip
      refine ripOk_of_canonical (hmode.trans (hsize.1 hk)) ?_
      rw [hrip, hrest.cpu]
      have hcanon : canonical s.cpu.laWidth target = true := by simpa [nearTargetBad] using hinside
      exact hcanon
    · exact ripOk_of_lt (hmode ▸ mt hsize.2 hk) (hrip ▸ branchTo_rip_lt s hk target)
  · rwa [hiddenOk_cs, hcs, ← hiddenOk_cs]

/-! ## Far calls of real-address and virtual-8086 mode (41_far_call_real.md R160 to R165) -/

/-- The base of a selector has 20 bits (10_state.md R26). -/
theorem realBase_lt (sel : BitVec 16) : (realBase sel).toNat < 2 ^ 32 := by
  rw [realBase, BitVec.toNat_shiftLeft, BitVec.toNat_setWidth, Nat.shiftLeft_eq]
  have := sel.isLt
  omega

/-- The level by mode alone, where R301 (b) asks nothing of the segments. -/
theorem cplOk_congr_of_real {s t : State} (hreal : s.mode.isRealLike = true) (hmode : t.mode = s.mode)
    (hcpl : t.cpl = s.cpl) : cplOk t = cplOk s := by
  unfold cplOk
  rw [hmode, hcpl]
  cases hm : s.mode with
  | real | v86 => rfl
  | prot | compat | long64 => simp [hm, Mode.isRealLike] at hreal

theorem mode_ne_long64_of_real {s : State} (hreal : s.mode.isRealLike = true) : s.mode ≠ .long64 :=
  fun h => by simp [h, Mode.isRealLike] at hreal

theorem isRealLike_of_farReal_next {i : Instr} {s t : State} (hfar : isFarReal i = true)
    (hexec : exec i s = .next t) : s.mode.isRealLike = true := by
  by_contra hnot
  rw [exec_farReal_refused hfar (Bool.not_eq_true _ ▸ hnot)] at hexec
  cases hexec

theorem CetKept.farReal {i : Instr} {s t : State} (hfar : isFarReal i = true) (hexec : exec i s = .next t) :
    CetKept s t := by
  obtain ⟨-, -, hcpl, -, hssp, hu, hs, hpl3, -⟩ := farRealFrame i s t hfar hexec
  refine ⟨hu ▸ .refl _ _, hs ▸ .refl _ _, fun _ => ⟨hssp, hpl3⟩, fun haligned hon => ?_⟩
  rw [hssp]
  exact (sspOk_iff s).1 haligned (hcpl ▸ hon)

theorem PremisesKept.farReal {i : Instr} {s t : State} (hfar : isFarReal i = true) (hexec : exec i s = .next t) :
    PremisesKept s t := by
  have hrest := exec_next_sameRest hexec
  have hreal := isRealLike_of_farReal_next hfar hexec
  have hmode : t.mode = s.mode := exec_next_mode_of_not_farProt
    (fun hprot => not_near_or_real_of_farProt hprot (.inr hfar)) hexec
  obtain ⟨-, hss, hcpl, -⟩ := farRealFrame i s t hfar hexec
  obtain ⟨f, hcs, hrip⟩ : ∃ f : FarPtr, t.cs = { s.cs with sel := f.sel, base := realBase f.sel } ∧
      t.rip = (branchTo s (formSize i) f.off).rip := by
    obtain ⟨f, rfl⟩ := exec_farReal_next hfar hexec
    rw [farRealDone_st]
    exact ⟨f, rfl, rfl⟩
  have hbase : t.cs.base = realBase t.cs.sel := by rw [hcs]
  refine ⟨hrest, exec_next_memWf hexec, fun h => cplOk_congr_of_real hreal hmode hcpl ▸ h, fun h => ?segs,
    fun _ => by simp [csBaseOk, hbase], fun h => ?hidden, fun _ h => hiddenOk_ss_congr hrest hss ▸ h, ?rip,
    CetKept.farReal hfar hexec⟩
  case segs =>
    have hlimit : t.cs.limit = s.cs.limit := by rw [hcs]
    simp only [realSegsOk, realCsOk, hmode, hss, hlimit, hbase, hreal, beq_self_eq_true, Bool.true_or,
      Bool.not_true, Bool.false_or, Bool.and_true, Bool.and_eq_true] at h ⊢
    exact h.1
  case hidden =>
    rw [hiddenOk_cs] at h ⊢
    simp only [agreesWithDescriptor, hcs, upperHalf_eq_zero.2 (realBase_lt f.sel), beq_self_eq_true,
      Bool.or_true, Bool.true_and, Bool.and_eq_true] at h ⊢
    exact h.2
  case rip =>
    have hsize : formSize i ≠ .s64 := by
      rcases farReal_size hfar with hsize | hsize <;> rw [hsize] <;> decide
    exact ripOk_of_lt (hmode ▸ mode_ne_long64_of_real hreal) (hrip ▸ branchTo_rip_lt s hsize f.off)

/-! ## Far calls in protected, compatibility and 64-bit mode -/

theorem isRealLike_eq (s : State) : s.mode.isRealLike = !(s.pe && !s.vm) := by
  unfold State.mode
  cases s.pe with
  | false => rfl
  | true =>
    cases s.vm with
    | true => rfl
    | false => cases s.lma <;> cases s.cs.l <;> rfl

/-- What is left to show of a far call outside real-address and virtual-8086 mode: `CS` is loaded from a descriptor,
`SS`, `RIP` and the levels are as the rules have them. -/
theorem FarCallTo.premisesKept {i : Instr} {s t : State} {f : FarPtr} {d : BitVec 64} (hcall : FarCallTo i s f d)
    (hexec : exec i s = .next t) (hlevel : LevelAgrees s → LevelAgrees t)
    (hcs : ∃ sel c, t.cs = segFromDesc sel c)
    (hss : trOk s = true → hiddenOk s .ss = true → hiddenOk t .ss = true) (hrip : ripOk t = true)
    (hcet : CetKept s t) : PremisesKept s t := by
  have hrest := exec_next_sameRest hexec
  obtain ⟨hpe, hvm⟩ := hcall.protectedMode
  have hs : s.mode.isRealLike = false := by rw [isRealLike_eq, hpe, hvm]; rfl
  have ht : t.mode.isRealLike = false := by rw [isRealLike_eq, hrest.pe, hrest.vm, hpe, hvm]; rfl
  refine ⟨hrest, exec_next_memWf hexec, ?_, fun _ => by simp [realSegsOk, ht], fun _ => by simp [csBaseOk, ht],
    fun _ => ?_, hss, hrip, hcet⟩
  · rw [cplOk_iff hs, cplOk_iff ht]
    exact hlevel
  · obtain ⟨sel, c, hcs⟩ := hcs
    rw [hiddenOk_cs, hcs]
    exact agreesWithDescriptor_segFromDesc sel c false

theorem rplOf_withRpl (sel : BitVec 16) (p : BitVec 2) : rplOf (withRpl sel p) = p := by
  refine BitVec.eq_of_toNat_eq ?_
  rw [rplOf_toNat, withRpl_toNat]
  have := p.isLt
  omega

/-- A far call that keeps its level leaves `SSP` as it was, or 24 below a multiple of 8 (R180, R181, 43_call_gate.md
R218). -/
theorem CetKept.sameLevel {s t : State} (hcpl : t.cpl = s.cpl) (hpl3 : t.pl3Ssp = s.pl3Ssp)
    (hssp : t.ssp = if shadowStackEnabled s s.cpl then (s.ssp &&& 0xFFFFFFFFFFFFFFF8#64) - 24#64 else s.ssp)
    (htracked : TrackedFrom s t) : CetKept s t := by
  obtain ⟨hu, hs⟩ := htracked
  obtain ⟨huser, hsupervisor⟩ := TrackerOnly.farEndbranch s
  refine ⟨hu ▸ huser, hs ▸ hsupervisor, fun hss => ⟨?_, hpl3⟩, fun _ hon => ?_⟩
  · rw [hssp, if_neg fun hon => Bool.eq_false_iff.1 hss (hasCetSs_of_shadowStackEnabled hon)]
  · rw [hssp, if_pos (hcpl ▸ hon), BitVec.toNat_sub, alignDown_toNat, BitVec.toNat_ofNat]
    omega

/-- A far call at operand size 64 exists in 64-bit mode only (30_encoding.md R112). -/
theorem FarCallTo.lma_of_size {i : Instr} {s : State} {f : FarPtr} {d : BitVec 64} (hcall : FarCallTo i s f d)
    (hsize : formSize i = .s64) : s.lma = true := by
  have hfar := hcall.far
  obtain ⟨⟨-, hform⟩, -⟩ : (_ ∧ formFits s.ctx i = true) ∧ _ := by
    simpa only [runnable, instrFits, Bool.and_eq_true] using hcall.runs
  cases i with
  | callM1664 =>
    rw [formFits, Bool.and_eq_true, beq_iff_eq] at hform
    obtain ⟨hmode, -⟩ := Laws.farOperandSize_eq_s64.1 hform.1
    obtain ⟨hlma, -⟩ := lma_and_l_of_long64 hmode
    exact hlma
  | callPtr1616Prot | callPtr1632Prot | callM1616Prot | callM1632Prot => cases hsize
  | _ => simp [isFarProt] at hfar

/-! ### To a code segment (42_far_call_protected.md R176 to R181) -/

section
variable {i : Instr} {s t : State} {f : FarPtr} {d : BitVec 64}

/-- A nonconforming segment is called at its own level (R177). -/
theorem FarCallTo.dpl_of_nonconforming (hcall : FarCallTo i s f d)
    (hnon : (segFromDesc f.sel d).isNonconforming = true) (hexec : exec i s = .next t) :
    (segFromDesc f.sel d).dpl = s.cpl := by
  rw [hcall.exec_nonconforming hnon, settle_next] at hexec
  obtain ⟨r, hr, -⟩ := hexec
  obtain ⟨-, -, hdpl, -⟩ := nonconformingCall_ok.1 hr
  exact hdpl

/-- The masked offset has 32 bits unless the target is 64-bit code (R176, R177). -/
theorem farTarget_lt {k : Size} {c : Seg} {off : BitVec 64} (hoff : viewOf k off = off)
    (h : k = .s64 → targetCompat s c = true) : (farTarget s k c off).toNat < 2 ^ 32 := by
  have hlt (k : Size) (hk : k.bits ≤ 32) (v : BitVec 64) : (viewOf k v).toNat < 2 ^ 32 := by
    rw [viewOf_toNat]
    exact (Nat.mod_lt _ (Nat.two_pow_pos _)).trans_le (Nat.pow_le_pow_right (by decide) hk)
  rw [← viewOf_farTarget hoff]
  cases k with
  | s16 | s32 => exact hlt _ (by decide) _
  | s64 =>
    rw [farTarget, if_pos (h rfl)]
    exact hlt .s32 (by decide) off

theorem FarCallTo.code_ripOk (hcall : FarCallTo i s f d) (hcode : (segFromDesc f.sel d).isCode = true)
    (hexec : exec i s = .next t) : ripOk t = true := by
  have hrest := exec_next_sameRest hexec
  have hl : t.cs.l = (segFromDesc f.sel d).l := hcall.cs_l_next hcode hexec
  have hoff := viewOf_farOperand_off hcall.operand
  obtain ⟨htests, rfl⟩ := hcall.code_next hcode hexec
  obtain ⟨-, hrip, -⟩ := codeDone_fields (formSize i) f d (codeLip i s (segFromDesc f.sel d)) (nrip i s) (startRun s)
  rw [branchTo_of_viewOf _ (viewOf_farTarget hoff _ _)] at hrip
  change (codeRun i s f d).st.rip = farTarget s (formSize i) (segFromDesc f.sel d) f.off at hrip
  by_cases hmode : (codeRun i s f d).st.mode = .long64
  · refine ripOk_of_canonical hmode ?_
    rw [hrip, hrest.cpu]
    exact htests.canon
  · refine ripOk_of_lt hmode ?_
    rw [hrip]
    refine farTarget_lt hoff fun hsize => ?_
    obtain ⟨hpe, hvm⟩ := hcall.protectedMode
    have hlma := hcall.lma_of_size hsize
    rw [mode_of_ia32e (hrest.pe.trans hpe) (hrest.vm.trans hvm) (hrest.lma.trans hlma), hl] at hmode
    simpa [targetCompat, hlma] using hmode

theorem FarCallTo.code_premisesKept (hcall : FarCallTo i s f d) (hcode : (segFromDesc f.sel d).isCode = true)
    (hexec : exec i s = .next t) : PremisesKept s t := by
  have hrip := hcall.code_ripOk hcode hexec
  obtain ⟨-, ht⟩ := hcall.code_next hcode hexec
  obtain ⟨hcs, -, -, hss, hcpl, hpl3, hssp, htracked⟩ :=
    codeDone_fields (formSize i) f d (codeLip i s (segFromDesc f.sel d)) (nrip i s) (startRun s)
  rw [← codeRun, ← ht, startRun_st] at hcs hss hcpl hpl3 hssp htracked
  refine hcall.premisesKept hexec (fun hlevel => ⟨?_, fun hnon => ?_, ?_⟩) ⟨_, _, hcs⟩
    (fun _ h => hiddenOk_ss_congr (exec_next_sameRest hexec) hss ▸ h) hrip
    (CetKept.sameLevel hcpl hpl3 hssp htracked)
  · rw [hcs, hcpl]
    exact (rplOf_withRpl _ _).symm
  · rw [hcs] at hnon ⊢
    exact (hcall.dpl_of_nonconforming hnon hexec).trans hcpl.symm
  · rw [hss, hcpl]
    exact hlevel.stackDpl

end

/-! ### Through a call gate (43_call_gate.md R200 to R222) -/

section
variable {i : Instr} {s t : State} {f : FarPtr} {d h cd : BitVec 64}

/-- The offset of a gate is the new `RIP`: canonical in IA-32e mode, whose gates lead to 64-bit code, and below 4 GB
elsewhere (R200, R206 to R209, R215 to R217). -/
theorem GateCallTo.ripOk (hcall : GateCallTo i s f d h cd) (hexec : exec i s = .next t)
    (hrip : t.rip = (gateOf s.lma d h).off)
    (hcanon : s.lma = true → canonical s.cpu.laWidth (gateOf s.lma d h).off = true) : ripOk t = true := by
  have hrest := exec_next_sameRest hexec
  cases hl : s.lma with
  | true =>
    refine ripOk_of_canonical (hcall.mode_long64 hl hrest (hcall.cs_l_next hexec)) ?_
    rw [hrip, hrest.cpu]
    exact hcanon hl
  | false =>
    have hsize : (gateOf s.lma d h).size ≠ .s64 := mt hcall.size_eq_s64.1 (Bool.eq_false_iff.1 hl)
    have hlt := branchTo_rip_lt s hsize (gateOf s.lma d h).off
    rw [branchTo_of_viewOf _ (viewOf_gateOffset s.lma d h), State.setRip_rip] at hlt
    exact ripOk_of_lt (mode_ne_long64_of_lma (hrest.lma.trans hl)) (hrip ▸ hlt)

theorem GateCallTo.same_premisesKept (hcall : GateCallTo i s f d h cd)
    (hsame : goesToMorePrivilege (gateOf s.lma d h) cd s = false) (hexec : exec i s = .next t) :
    PremisesKept s t := by
  have hrest := exec_next_sameRest hexec
  obtain ⟨r, hr, ht⟩ := settle_next.1 (hcall.exec_same hsame ▸ hexec)
  obtain ⟨hcs, hrip, hss, hcpl, hpl3, hssp, htracked⟩ := samePrivilege_fields hr
  rw [← ht, startRun_st] at hcs hrip hss hcpl hpl3 hssp htracked
  rw [branchTo_of_viewOf _ (viewOf_gateOffset s.lma d h), State.setRip_rip] at hrip
  refine hcall.call.premisesKept hexec (fun hlevel => ⟨?_, fun hnon => ?codeDpl, ?_⟩) ⟨_, _, hcs⟩
    (fun _ h => hiddenOk_ss_congr hrest hss ▸ h) (hcall.ripOk hexec hrip fun hl => ?canon)
    (CetKept.sameLevel hcpl hpl3 hssp htracked)
  case codeDpl =>
    rw [hcs] at hnon ⊢
    have hnot : ¬ descDpl cd < s.cpl := by
      intro hlower
      have hmore : goesToMorePrivilege (gateOf s.lma d h) cd s = true :=
        Bool.and_eq_true_iff.2 ⟨hnon, decide_eq_true hlower⟩
      rw [hsame] at hmore
      cases hmore
    rw [hcpl]
    exact BitVec.le_antisymm hcall.codeDpl (BitVec.not_lt.1 hnot)
  case canon =>
    obtain ⟨-, hgood, -⟩ := samePrivilege_ok.1 hr
    rw [hcall.size_eq_s64.2 hl] at hgood
    have hcpu := (sameStackState_sameRest .s64 s).cpu
    simpa only [sameTargetBad, startRun_st, hcpu, Bool.not_eq_false'] using hgood
  · rw [hcs, hcpl]
    exact (rplOf_withRpl _ _).symm
  · rw [hss, hcpl]
    exact hlevel.stackDpl

/-! ### To more privilege (R203 to R214) -/

variable {w v : Run}

/-- `SS` is loaded from the descriptor R205 checks, or, through a 64-bit gate, NULL with base 0 (R206, R208, R209);
the latter needs the 64-bit `TSS` of R301 (f). -/
theorem MoreDone.ssHidden (hdone : MoreDone i s d h cd w v) (htr : trOk s = true) : hiddenOk w.st .ss = true := by
  have hpushes := hdone.pushes
  rw [hiddenOk_ss]
  split at hpushes
  case isTrue hl =>
    obtain ⟨-, hkind⟩ := (trOk_iff s).1 htr
    have hnull : ∀ p : BitVec 2, isNullSel (p.setWidth 16) = true := by decide
    obtain ⟨-, -, -, hss, -⟩ := more64_ok hpushes
    rw [hss, tssInnerStack_tss64 (hkind.1 hl), hdone.entered.rest.lma, hl]
    simp [nullSs, hnull]
  case isFalse =>
    obtain ⟨sd, -, -, -, -, hss, -⟩ := moreLegacy_ok hpushes
    rw [hss, agreesWithDescriptor_segFromDesc, Bool.or_true]

theorem MoreDone.canonical (hdone : MoreDone i s d h cd w v) (hl : s.lma = true) :
    canonical s.cpu.laWidth (gateOf s.lma d h).off = true := by
  have hpushes := hdone.pushes
  rw [if_pos hl] at hpushes
  obtain ⟨-, hcanon, -⟩ := more64_ok hpushes
  exact hcanon

/-- `SSP` is the token's address, 24 modulo 32, or 24 below it; without a shadow stack at the new level it stays
(R212). -/
theorem MoreDone.ssp (hdone : MoreDone i s d h cd w v) (hp : descDpl cd ≠ 3#2) :
    if shadowStackEnabled s (descDpl cd) = true then (farEndbranch v.st).ssp.toNat % 4 = 0
    else (farEndbranch v.st).ssp = s.ssp := by
  obtain ⟨-, -, -, -, -, -, hssp⟩ := morePrivilege_tail hdone.shadow
  have e := hdone.entered
  rw [shadowStackEnabled_congr e.rest e.uCet e.sCet, e.ssp] at hssp
  split
  case isTrue hon =>
    have htoken := hdone.token hp
    rw [if_pos hon] at htoken
    have hmod : (plSsp (saveUserSsp w.st) (descDpl cd)).toNat % 32 = 24 := tokenOk_mod htoken.1
    have := (plSsp (saveUserSsp w.st) (descDpl cd)).isLt
    rw [hssp, if_pos hon]
    split
    · omega
    · rw [BitVec.toNat_sub, BitVec.toNat_ofNat]
      omega
  case isFalse hoff => rw [hssp, if_neg hoff]

theorem CetKept.more (hcall : GateCallTo i s f d h cd)
    (hmore : goesToMorePrivilege (gateOf s.lma d h) cd s = true) (hexec : exec i s = .next t) : CetKept s t := by
  obtain ⟨hcpl, -, -, -, -, -, -, hpl3, -⟩ := morePrivilegeRegisters i s t f d h cd hcall hmore hexec
  obtain ⟨w, v, hdone, rfl⟩ := hcall.more_next hmore hexec
  have hssp := hdone.ssp (level_ne_three hmore)
  obtain ⟨hrest, -, hu, hs⟩ := hdone.shadowed
  obtain ⟨huser, hsupervisor⟩ := TrackerOnly.farEndbranch v.st
  rw [hrest.cpu, hu] at huser
  rw [hrest.cpu, hs] at hsupervisor
  refine ⟨huser, hsupervisor, fun hss => ?_, fun _ hon => ?_⟩
  · have hoff (p : BitVec 2) : ¬ shadowStackEnabled s p = true :=
      fun hon => Bool.eq_false_iff.1 hss (hasCetSs_of_shadowStackEnabled hon)
    rw [if_neg (hoff _)] at hssp
    exact ⟨hssp, hpl3.trans (if_neg fun hon => hoff _ hon.1)⟩
  · rwa [if_pos (hcpl ▸ hon)] at hssp

theorem GateCallTo.more_premisesKept (hcall : GateCallTo i s f d h cd)
    (hmore : goesToMorePrivilege (gateOf s.lma d h) cd s = true) (hexec : exec i s = .next t) :
    PremisesKept s t := by
  have hcet := CetKept.more hcall hmore hexec
  obtain ⟨hcpl, -, hcsDpl, -, hssDpl, hrip, -⟩ := morePrivilegeRegisters i s t f d h cd hcall hmore hexec
  have hrest := exec_next_sameRest hexec
  obtain ⟨w, v, hdone, ht⟩ := hcall.more_next hmore hexec
  obtain ⟨-, hcs, hss, -⟩ := morePrivilege_tail hdone.shadow
  rw [← ht] at hcs hss
  have hloaded : t.cs = segFromDesc (withRpl w.st.cs.sel (descDpl cd)) cd := by rw [hcs, hdone.entered.cs]; rfl
  refine hcall.call.premisesKept hexec (fun _ => ⟨?_, fun _ => hcsDpl.trans hcpl.symm, hssDpl.trans hcpl.symm⟩)
    ⟨_, _, hloaded⟩ (fun htr _ => ?_) (hcall.ripOk hexec hrip hdone.canonical) hcet
  · rw [hloaded]
    exact hcpl.trans (rplOf_withRpl _ _).symm
  · have hlma : t.lma = w.st.lma := hrest.lma.trans hdone.entered.rest.lma.symm
    rw [hiddenOk_ss, hss, hlma, ← hiddenOk_ss]
    exact hdone.ssHidden htr

end

/-! ## The step (R301) -/

theorem PremisesKept.farProt {i : Instr} {s t : State} (hfar : isFarProt i = true) (hexec : exec i s = .next t) :
    PremisesKept s t := by
  obtain ⟨f, d, hcall, hcode | ⟨h, cd, hgate⟩⟩ := exec_farProt_next_cases hfar hexec
  · exact hcall.code_premisesKept hcode hexec
  · cases hmore : goesToMorePrivilege (gateOf s.lma d h) cd s with
    | true => exact hgate.more_premisesKept hmore hexec
    | false => exact hgate.same_premisesKept hmore hexec

theorem PremisesKept.exec {i : Instr} {s t : State} (hexec : exec i s = .next t) : PremisesKept s t := by
  rcases exec_next_kinds hexec with hnear | hreal | hprot
  · exact PremisesKept.near hnear hexec
  · exact PremisesKept.farReal hreal hexec
  · exact PremisesKept.farProt hprot hexec

/-- Settles O10: a step that completes is an instruction that completes, and each kind of `CALL` keeps every clause of
R301. -/
theorem stepKeepsLaunchPremises : Obligations.StepKeepsLaunchPremises := by
  intro s t hstep
  obtain ⟨i, -, hexec⟩ := step_next.1 hstep
  exact ⟨(PremisesKept.exec hexec).wf, (PremisesKept.exec hexec).launchOk⟩

end Sys2Proof.Machine
end
